-- ==== Sys2Proof/Word.lean ====
section
/-!
DEFINITION. The word types of the BSY-2048 (R4, spec/00_scope.md).
-/
namespace Sys2Proof

/-- One byte. -/
abbrev Byte := BitVec 8

/-- One 64-bit register or memory word (R61). -/
abbrev Word := BitVec 64

/-- One 64-byte line as 512 bits, byte 0 in bits [7:0] (R4). -/
abbrev Line := BitVec 512

end Sys2Proof
end

