-- ==== Sys2Proof/Machine/Bits.lean ====
section
/-!
DEFINITION. Bit fields, sign extension, little-endian bytes (R4), and the one canonical form of a sparse map:
keys strictly rising and no entry equal to what an unlisted key reads as.
-/
namespace Sys2Proof

/-- Bits `lo` to `lo + len - 1` of `x`. -/
def fld {n : Nat} (x : BitVec n) (lo len : Nat) : BitVec len := x.extractLsb' lo len

/-- `x[hi:lo]` of Table 0.2 on a natural number. -/
def bitsOf (x hi lo : Nat) : Nat := (x >>> lo) % 2 ^ (hi - lo + 1)

/-- Bit `i` of a natural number. -/
def bitOf (x i : Nat) : Bool := x.testBit i

/-- The value of a truth value as a bit. -/
def b2n (b : Bool) : Nat := if b then 1 else 0

/-- Two's-complement value of the low `w` bits of `x`. -/
def toSigned (w x : Nat) : Int :=
  let y := x % 2 ^ w
  if y < 2 ^ (w - 1) then (y : Int) else (y : Int) - (2 ^ w : Nat)

/-- The low `w` bits of an integer in two's complement. -/
def ofSigned (w : Nat) (x : Int) : Nat := (x % ((2 ^ w : Nat) : Int)).toNat

/-- `SignExt(x, 64)` of the low `w` bits of `x` (Table 0.2). -/
def sext64 (w x : Nat) : Word := BitVec.ofInt 64 (toSigned w x)

/-- `SignExt` of a field. -/
def sx {n : Nat} (x : BitVec n) : Word := x.signExtend 64

/-- `ZeroExt` of a field. -/
def zx {n : Nat} (x : BitVec n) : Word := x.zeroExtend 64

/-- The `n` low bytes of `x`, lowest first (R4). -/
def leBytes : Nat → Nat → List Byte
  | 0, _ => []
  | n + 1, x => BitVec.ofNat 8 x :: leBytes n (x / 256)

/-- The number whose bytes, lowest first, are given (R4). -/
def leVal : List Byte → Nat
  | [] => 0
  | b :: bs => b.toNat + 256 * leVal bs

/-- The number whose bytes, highest first, are given. -/
def beVal (bs : List Byte) : Nat := leVal bs.reverse

/-- The `n` low bytes of `x`, highest first. -/
def beBytes (n x : Nat) : List Byte := (leBytes n x).reverse

/-- Cuts a list into pieces of `k`; `fuel` bounds their number. -/
def chunks {α : Type} (k : Nat) : Nat → List α → List (List α)
  | 0, _ => []
  | f + 1, l => match l with
    | [] => []
    | _ => l.take k :: chunks k f (l.drop k)

/-- Positions, lowest first, of the one bits among bits 0 to `n - 1`. -/
def onesBelow (n x : Nat) : List Nat := (List.range n).filter (fun i => x.testBit i)

/-- Number of one bits among bits 0 to `n - 1`. -/
def popCount (n x : Nat) : Nat := (onesBelow n x).length

/-- A number whose one bits are the listed positions. -/
def maskOf (l : List Nat) : Nat := l.foldl (fun a i => a ||| 2 ^ i) 0

/-! ### Sparse maps -/

/-- Value at a key, or `d` where the key is not listed. -/
def sget {α : Type} (d : α) : List (Nat × α) → Nat → α
  | [], _ => d
  | (k, v) :: t, j => if k = j then v else sget d t j

/-- Value at a key, if listed. -/
def sfind {α : Type} : List (Nat × α) → Nat → Option α
  | [], _ => none
  | (k, v) :: t, j => if k = j then some v else sfind t j

/-- Lists `v` at key `j`, in rising key order. -/
def sins {α : Type} (j : Nat) (v : α) : List (Nat × α) → List (Nat × α)
  | [] => [(j, v)]
  | (k, w) :: t => if k = j then (j, v) :: t else if j < k then (j, v) :: (k, w) :: t else (k, w) :: sins j v t

/-- Takes every entry of key `j` out. -/
def sdel {α : Type} (j : Nat) : List (Nat × α) → List (Nat × α)
  | [] => []
  | (k, w) :: t => if k = j then sdel j t else (k, w) :: sdel j t

/-- Writes `v` at key `j` in the canonical form with default `d`: a default value is not listed. -/
def sput {α : Type} [DecidableEq α] (d : α) (m : List (Nat × α)) (j : Nat) (v : α) : List (Nat × α) :=
  if v = d then sdel j m else sins j v m

/-- Keys strictly rising, all above `lo` (exclusive when given). -/
def skeysOk {α : Type} : Option Nat → List (Nat × α) → Bool
  | _, [] => true
  | none, (k, _) :: t => skeysOk (some k) t
  | some p, (k, _) :: t => decide (p < k) && skeysOk (some k) t

/-- The canonical form: keys strictly rising and no entry equal to the default. -/
def scanon {α : Type} [DecidableEq α] (d : α) (m : List (Nat × α)) : Bool :=
  skeysOk none m && m.all (fun e => decide (e.2 ≠ d))

end Sys2Proof
end

