-- ==== Sys2Proof/Machine/Crypto.lean ====
section
/-!
DEFINITION. The standard algorithms the spec names: AES-256 and AES-256-CMAC (R79, R123, R346), SHA-384 (R252, R266, R352).
-/
namespace Sys2Proof.Machine

/-! ### AES-256 and CMAC -/

/-- Doubling in GF(2^8). -/
def xtime (x : Nat) : Nat := let y := 2 * x; if y ≥ 256 then y % 256 ^^^ 0x1B else y
/-- Product in GF(2^8), `n` bits of the second factor. -/
def gmul : Nat → Nat → Nat → Nat
  | 0, _, _ => 0
  | n + 1, a, b => (if b % 2 = 1 then a else 0) ^^^ gmul n (xtime a) (b / 2)
/-- Product of two field elements. -/
def gf (a b : Nat) : Nat := gmul 8 a b
/-- Inverse (0 to 0): the 254th power. -/
def gfInv (x : Nat) : Nat :=
  let x2 := gf x x
  let x4 := gf x2 x2
  let x8 := gf x4 x4
  let x16 := gf x8 x8
  let x32 := gf x16 x16
  let x64 := gf x32 x32
  let x128 := gf x64 x64
  gf x2 (gf x4 (gf x8 (gf x16 (gf x32 (gf x64 x128)))))
/-- Rotation of a byte. -/
def rotl8 (x k : Nat) : Nat := (x * 2 ^ k % 256) ||| (x / 2 ^ (8 - k))
/-- The S-box. -/
def sbox (x : Nat) : Nat :=
  let y := gfInv x
  y ^^^ rotl8 y 1 ^^^ rotl8 y 2 ^^^ rotl8 y 3 ^^^ rotl8 y 4 ^^^ 0x63

/-- Bitwise exclusive or of two byte lists. -/
def xorL (a b : List Nat) : List Nat := List.zipWith (fun x y => x ^^^ y) a b

/-- Words of the expanded key from word `i` on; the list holds the words so far, last first. -/
def expandKey : Nat → Nat → Nat → List (List Nat) → List (List Nat)
  | 0, _, _, ws => ws
  | n + 1, i, rc, ws =>
    let prev := ws.headD []
    let back := (ws.drop 7).headD []
    if i % 8 = 0 then
      let t := (prev.drop 1 ++ prev.take 1).map sbox
      expandKey n (i + 1) (xtime rc) (xorL back (xorL t [rc, 0, 0, 0]) :: ws)
    else if i % 8 = 4 then expandKey n (i + 1) rc (xorL back (prev.map sbox) :: ws)
    else expandKey n (i + 1) rc (xorL back prev :: ws)

/-- Row shift of a column-major state. -/
def shiftRows (st : List Nat) : List Nat :=
  (List.range 16).map (fun k => st.getD ((k / 4 + k % 4) % 4 * 4 + k % 4) 0)
/-- Column mix. -/
def mixCols (st : List Nat) : List Nat :=
  (List.range 16).map (fun k =>
    let c := k / 4 * 4
    let a := fun (j : Nat) => st.getD (c + (k + j) % 4) 0
    xtime (a 0) ^^^ (xtime (a 1) ^^^ a 1) ^^^ a 2 ^^^ a 3)

/-- The middle rounds. -/
def aesRounds : Nat → List (List Nat) → List Nat → List Nat
  | 0, _, st => st
  | n + 1, ks, st =>
    aesRounds n (ks.drop 4) (xorL (mixCols (shiftRows (st.map sbox))) (ks.take 4).flatten)

/-- AES-256 of one block; key and block as bytes in the standard's order. -/
def aes256 (key block : List Nat) : List Nat :=
  let ks := (expandKey 52 8 1 (chunks 4 8 key).reverse).reverse
  let st := aesRounds 13 (ks.drop 4) (xorL block (ks.take 4).flatten)
  xorL (shiftRows (st.map sbox)) (ks.drop 56).flatten

/-- Doubling of a 128-bit string for the CMAC subkeys. -/
def cmacDbl (b : List Nat) : List Nat :=
  let x := b.foldl (fun a y => a * 256 + y) 0
  let y := x * 2 % 2 ^ 128 ^^^ (if x ≥ 2 ^ 127 then 0x87 else 0)
  ((leBytes 16 y).map (·.toNat)).reverse

/-- CMAC chaining over whole blocks. -/
def cmacChain (key : List Nat) : List (List Nat) → List Nat → List Nat
  | [], x => x
  | b :: bs, x => cmacChain key bs (aes256 key (xorL x b))

/-- AES-256-CMAC of a message. -/
def cmac (key msg : List Nat) : List Nat :=
  let z := List.replicate 16 0
  let k1 := cmacDbl (aes256 key z)
  let bs := chunks 16 (msg.length / 16 + 1) msg
  let last := bs.getLastD []
  let m := if last.length = 16 then xorL last k1
    else xorL (last ++ [0x80] ++ List.replicate (15 - last.length) 0) (cmacDbl k1)
  cmacChain key (bs.dropLast ++ [m]) z

/-- Bytes of a key, highest first. -/
def keyBytes (k : BitVec 256) : List Nat := ((leBytes 32 k.toNat).map (·.toNat)).reverse

/-- The tag of a capability body (R79): the 64 most significant bits of the CMAC over its eight bytes. -/
def capTag (key : BitVec 256) (body : List Byte) : Word :=
  BitVec.ofNat 64 (((cmac (keyBytes key) (body.map (·.toNat))).take 8).foldl (fun a y => a * 256 + y) 0)

/-! ### SHA-384 -/

/-- Largest `x` below 2^(n+1)·… with `p x`, by bits from bit `n` down. -/
def bitSearch (p : Nat → Bool) : Nat → Nat → Nat
  | 0, acc => acc
  | n + 1, acc => if p (acc + 2 ^ n) then bitSearch p n (acc + 2 ^ n) else bitSearch p n acc
/-- The first primes. -/
def primes : List Nat :=
  (List.range 410).filter (fun n => decide (2 ≤ n) && ((List.range 21).all (fun d => d < 2 || d ≥ n || n % d ≠ 0)))
/-- Round constants: 64 fractional bits of the cube roots of the first 80 primes. -/
def shaK : List Nat := primes.map (fun p => bitSearch (fun x => x * x * x ≤ p * 2 ^ 192) 68 0 % 2 ^ 64)
/-- Initial hash of SHA-384: 64 fractional bits of the square roots of the 9th to 16th primes. -/
def sha384Init : List Nat := ((primes.drop 8).take 8).map (fun p => bitSearch (fun x => x * x ≤ p * 2 ^ 128) 68 0 % 2 ^ 64)

/-- Rotation right of a 64-bit word. -/
def rotr64 (x k : Nat) : Nat := x / 2 ^ k ||| x * 2 ^ (64 - k) % 2 ^ 64
/-- Extends the message schedule; last word first. -/
def shaSched : Nat → List Nat → List Nat
  | 0, w => w
  | n + 1, w =>
    let a := w.getD 1 0
    let b := w.getD 14 0
    let s1 := rotr64 a 19 ^^^ rotr64 a 61 ^^^ a / 2 ^ 6
    let s0 := rotr64 b 1 ^^^ rotr64 b 8 ^^^ b / 2 ^ 7
    shaSched n ((w.getD 15 0 + s0 + w.getD 6 0 + s1) % 2 ^ 64 :: w)
/-- One round. -/
def shaRound (h : List Nat) (kw : Nat) : List Nat :=
  match h with
  | [a, b, c, d, e, f, g, x] =>
    let t1 := x + (rotr64 e 14 ^^^ rotr64 e 18 ^^^ rotr64 e 41) + ((e &&& f) ^^^ ((2 ^ 64 - 1 - e) &&& g)) + kw
    let t2 := (rotr64 a 28 ^^^ rotr64 a 34 ^^^ rotr64 a 39) + ((a &&& b) ^^^ (a &&& c) ^^^ (b &&& c))
    [(t1 + t2) % 2 ^ 64, a, b, c, (d + t1) % 2 ^ 64, e, f, g]
  | l => l
/-- One block. -/
def shaBlock (h : List Nat) (blk : List Byte) : List Nat :=
  let w := (shaSched 64 ((chunks 8 16 blk).map beVal).reverse).reverse
  let r := (List.zipWith (fun k x => k + x) shaK w).foldl shaRound h
  List.zipWith (fun x y => (x + y) % 2 ^ 64) h r
/-- SHA-384 of a message, in the standard's output order. -/
def sha384 (msg : List Byte) : List Byte :=
  let n := msg.length
  let pad := (239 - n % 128) % 128
  let m := msg ++ [0x80] ++ List.replicate pad 0 ++ beBytes 16 (8 * n)
  (((chunks 128 (m.length / 128) m).foldl shaBlock sha384Init).take 6).flatMap (beBytes 8)

end Sys2Proof.Machine
end

