-- ==== Sys2Proof/Machine/Cipher.lean ====
section
/-!
DEFINITION. The other standards of Table 0.1: AES-256-GCM of fabric packets (R346), AES-256-XTS of LPDDR-6 lines (R356), and ECDSA and
ECDH on the curve P-384 (R346, R351, R353, R354).
-/
namespace Sys2Proof.Machine

/-! ### GCM (SP 800-38D) -/

/-- A block as a number, first byte highest, and back. -/
def blockVal (b : List Nat) : Nat := b.foldl (fun a x => a * 256 + x) 0
/-- `n` bytes of a number, highest first. -/
def valBlock (n x : Nat) : List Nat := ((leBytes n x).map (·.toNat)).reverse
/-- Product in GF(2^128) as GCM numbers its bits; `n` bits of the first factor are left. -/
def ghMul : Nat → Nat → Nat → Nat → Nat
  | 0, _, _, z => z
  | n + 1, x, v, z =>
    ghMul n x (if v % 2 = 1 then v / 2 ^^^ 0xE1 * 2 ^ 120 else v / 2) (if bitOf x n then z ^^^ v else z)
/-- GHASH of whole blocks. -/
def ghash (h : Nat) (bs : List Nat) : Nat := bs.foldl (fun y b => ghMul 128 (y ^^^ b) h 0) 0
/-- Blocks of a message, the last one filled up with zeros. -/
def zeroBlocks (m : List Nat) : List (List Nat) :=
  (chunks 16 ((m.length + 15) / 16) m).map (fun b => b ++ List.replicate (16 - b.length) 0)
/-- Counter mode from counter `c` on, under a 96-bit IV. -/
def gctr (key iv : List Nat) (c : Nat) (m : List Nat) : List Nat :=
  let pad := (List.range ((m.length + 15) / 16)).flatMap (fun k => aes256 key (iv ++ valBlock 4 (c + k)))
  xorL m pad
/-- A message sealed without additional data: ciphertext and 16-byte tag. -/
def gcmSeal (key iv msg : List Nat) : List Nat × List Nat :=
  let c := gctr key iv 2 msg
  let h := blockVal (aes256 key (List.replicate 16 0))
  (c, gctr key iv 1 (valBlock 16 (ghash h ((zeroBlocks c).map blockVal ++ [8 * c.length]))))
/-- The IV of a packet: the sending device's port number and the packet counter, both big-endian (R346). -/
def packetIv (port ctr : Nat) : List Nat := valBlock 4 port ++ valBlock 8 ctr

/-! ### XTS (SP 800-38E, IEEE 1619) -/

/-- The tweak of the next block. -/
def xtsNext (t : List Nat) : List Nat :=
  let x := leVal (t.map (BitVec.ofNat 8))
  (leBytes 16 ((x * 2 % 2 ^ 128) ^^^ (if x ≥ 2 ^ 127 then 0x87 else 0))).map (·.toNat)
/-- Blocks under the tweak of the first. -/
def xtsGo (key : List Nat) : List (List Nat) → List Nat → List Nat
  | [], _ => []
  | b :: bs, t => xorL (aes256 key (xorL b t)) t ++ xtsGo key bs (xtsNext t)
/-- A data unit of whole blocks, by its number. -/
def xts (key tweakKey : BitVec 256) (unit : Nat) (data : List Byte) : List Byte :=
  (xtsGo (keyBytes key) (chunks 16 (data.length / 16) (data.map (·.toNat)))
    (aes256 (keyBytes tweakKey) ((leBytes 16 unit).map (·.toNat)))).map (BitVec.ofNat 8)

/-! ### The curve P-384 (FIPS 186-5, SP 800-56A) -/

/-- The field's prime. -/
def p384 : Nat := 2 ^ 384 - 2 ^ 128 - 2 ^ 96 + 2 ^ 32 - 1
/-- The order of the base point. -/
def n384 : Nat := 0xffffffffffffffffffffffffffffffffffffffffffffffffc7634d81f4372ddf581a0db248b0a77aecec196accc52973
/-- The coefficient b; a is −3. -/
def b384 : Nat := 0xb3312fa7e23ee7e4988e056be3f82d19181d9c6efe8141120314088f5013875ac656398d8a2ed19d2a85c8edd3ec2aef
/-- A point in Jacobian coordinates; z = 0 at infinity. -/
structure JPoint where
  x : Nat
  y : Nat
  z : Nat
deriving DecidableEq, Repr
/-- The base point. -/
def g384 : JPoint :=
  { x := 0xaa87ca22be8b05378eb1c71ef320ad746e1d3b628ba79b9859f741e082542a385502f25dbf55296c3a545e3872760ab7
    y := 0x3617de4a96262c6f5d9e98bf9292dc29f8f41dbd289a147ce9da3113b5f0b8c00a60b1ce1d7e819d7a431d7c90ea0e5f
    z := 1 }
/-- Infinity. -/
def JPoint.inf : JPoint := { x := 1, y := 1, z := 0 }

/-- Difference modulo `m` of numbers below it. -/
def subMod (m a b : Nat) : Nat := (a + m - b) % m
/-- Power modulo `m`, over `n` bits of the exponent. -/
def powMod (m : Nat) : Nat → Nat → Nat → Nat
  | 0, _, _ => 1
  | n + 1, a, e => (if e % 2 = 1 then a else 1) * powMod m n (a * a % m) (e / 2) % m
/-- Inverse modulo a prime of 384 bits. -/
def invMod (m a : Nat) : Nat := powMod m 384 (a % m) (m - 2)

/-- Twice a point. -/
def JPoint.dbl (p : JPoint) : JPoint :=
  if p.z = 0 || p.y = 0 then JPoint.inf else
  let m := fun (a b : Nat) => a * b % p384
  let s := subMod p384
  let d := m p.z p.z
  let g := m p.y p.y
  let b := m p.x g
  let a := 3 * m (s p.x d) ((p.x + d) % p384) % p384
  let x3 := s (m a a) (8 * b % p384)
  { x := x3, y := s (m a (s (4 * b % p384) x3)) (8 * m g g % p384), z := 2 * m p.y p.z % p384 }
/-- Sum of two points. -/
def JPoint.add (p q : JPoint) : JPoint :=
  if p.z = 0 then q else if q.z = 0 then p else
  let m := fun (a b : Nat) => a * b % p384
  let s := subMod p384
  let zp := m p.z p.z
  let zq := m q.z q.z
  let u1 := m p.x zq
  let u2 := m q.x zp
  let s1 := m p.y (m zq q.z)
  let s2 := m q.y (m zp p.z)
  if u1 = u2 then (if s1 = s2 then p.dbl else JPoint.inf) else
  let h := s u2 u1
  let r := s s2 s1
  let h2 := m h h
  let h3 := m h2 h
  let v := m u1 h2
  let x3 := s (s (m r r) h3) (2 * v % p384)
  { x := x3, y := s (m r (s v x3)) (m s1 h3), z := m h (m p.z q.z) }
/-- Multiple of a point, over the bits of `k` below bit `n`, highest first. -/
def JPoint.mulGo (p : JPoint) (k : Nat) : Nat → JPoint → JPoint
  | 0, a => a
  | n + 1, a => JPoint.mulGo p k n (if bitOf k n then a.dbl.add p else a.dbl)
/-- Multiple of a point by a scalar of 384 bits. -/
def JPoint.mul (p : JPoint) (k : Nat) : JPoint := JPoint.mulGo p k 384 JPoint.inf
/-- Affine coordinates; none at infinity. -/
def JPoint.affine (p : JPoint) : Option (Nat × Nat) :=
  if p.z = 0 then none else
  let i := invMod p384 p.z
  let i2 := i * i % p384
  some (p.x * i2 % p384, p.y * (i2 * i % p384) % p384)

/-- A public key of 96 bytes, x and y each big-endian; none: no point of the curve. -/
def pubKey (k : BitVec 768) : Option JPoint :=
  let x := k.toNat / 2 ^ 384
  let y := k.toNat % 2 ^ 384
  if x < p384 && y < p384 && y * y % p384 = (x * x % p384 * x + (p384 - 3) * x + b384) % p384 then some { x := x, y := y, z := 1 } else none
/-- The public key of a private one. -/
def pubOf (d : Nat) : BitVec 768 := match (g384.mul d).affine with | some (x, y) => BitVec.ofNat 768 (x * 2 ^ 384 + y) | none => 0
/-- A number as a scalar between 1 and n − 1. -/
def scalar (x : Nat) : Nat := x % (n384 - 1) + 1

/-- Whether a signature, r and s each of 48 bytes and big-endian, of a digest verifies under a public key. -/
def ecdsaVerify (key : BitVec 768) (digest : BitVec 384) (sig : BitVec 768) : Bool :=
  let r := sig.toNat / 2 ^ 384
  let s := sig.toNat % 2 ^ 384
  match pubKey key with
  | none => false
  | some q =>
    if r = 0 || r ≥ n384 || s = 0 || s ≥ n384 then false else
    let w := invMod n384 s
    match ((g384.mul (digest.toNat * w % n384)).add (q.mul (r * w % n384))).affine with
    | some (x, _) => x % n384 = r
    | none => false
/-- The signature of a digest by the private key `d` with the per-message secret `k`. -/
def ecdsaSign (d k : Nat) (digest : BitVec 384) : BitVec 768 :=
  match (g384.mul k).affine with
  | some (x, _) =>
    let r := x % n384
    BitVec.ofNat 768 (r * 2 ^ 384 + invMod n384 k * (digest.toNat + r * d) % n384)
  | none => 0
/-- The shared secret of a private key and a peer's public key: the x coordinate; none for a key that is no point of the curve. -/
def ecdh (d : Nat) (key : BitVec 768) : Option (BitVec 384) :=
  (pubKey key).bind (fun q => (q.mul d).affine.map (fun p => BitVec.ofNat 384 p.1))

end Sys2Proof.Machine
end

