-- ==== Sys2Proof/Machine/Codes.lean ====
section
/-!
DEFINITION. The strong code of a line's check bits (R317): a Reed–Solomon code over GF(2^8) with field polynomial
x^8 + x^4 + x^3 + x^2 + 1 and generator roots α^0 to α^(k−1). Errors are decoded as such: the code is linear, so the syndromes of
a word with errors are those of the errors alone. DESIGN CHOICE (log 17): check symbol j is the coefficient of x^j and data symbol i
that of x^(k+i).
-/
namespace Sys2Proof.Machine

/-- Product in GF(2^8), over the bits of `b`; `n` bounds them. -/
def rsMulGo : Nat → Nat → Nat → Nat
  | 0, _, _ => 0
  | n + 1, a, b =>
    let a2 := if a ≥ 128 then (a * 2) % 256 ^^^ 0x1D else a * 2
    (if b % 2 = 1 then a else 0) ^^^ rsMulGo n a2 (b / 2)
/-- Product in GF(2^8). -/
def rsMul (a b : Nat) : Nat := rsMulGo 8 a b
/-- Power by a bit count of the exponent. -/
def rsPowGo : Nat → Nat → Nat → Nat
  | 0, _, _ => 1
  | n + 1, a, e => rsMul (if e % 2 = 1 then a else 1) (rsPowGo n (rsMul a a) (e / 2))
/-- a^e. -/
def rsPow (a e : Nat) : Nat := rsPowGo 8 a (e % 255)
/-- Inverse of a nonzero element. -/
def rsInv (a : Nat) : Nat := rsPow a 254
/-- Value of a polynomial, lowest coefficient first. -/
def rsEval (p : List Nat) (x : Nat) : Nat := p.foldr (fun c acc => c ^^^ rsMul x acc) 0
/-- Sum of two polynomials. -/
def rsAdd : List Nat → List Nat → List Nat
  | [], q => q
  | p, [] => p
  | a :: p, b :: q => (a ^^^ b) :: rsAdd p q
/-- Product of polynomials. -/
def rsProd : List Nat → List Nat → List Nat
  | [], _ => []
  | a :: p, q => rsAdd (q.map (rsMul a)) (0 :: rsProd p q)

/-- Errors by position: the values at one position add. -/
def rsErr (m : List (Nat × Nat)) (p v : Nat) : List (Nat × Nat) :=
  match m with
  | [] => [(p, v)]
  | (q, w) :: t => if q = p then (if v = w then t else (q, w ^^^ v) :: t) else (q, w) :: rsErr t p v
/-- Syndromes of errors at positions: k values. -/
def syndromes (k : Nat) (e : List (Nat × Nat)) : List Nat :=
  (List.range k).map (fun j => e.foldl (fun a x => a ^^^ rsMul x.2 (rsPow 2 (j * x.1))) 0)

/-- Berlekamp and Massey's state: locator, previous locator, length, shift and last discrepancy. -/
structure BerMas where
  c : List Nat
  b : List Nat
  l : Nat
  m : Nat
  d : Nat
deriving DecidableEq, Repr
/-- One syndrome enters. -/
def bmStep (s : List Nat) (x : BerMas) (n : Nat) : BerMas :=
  let d := (List.range (x.l + 1)).foldl (fun a i => if i ≤ n then a ^^^ rsMul (x.c.getD i 0) (s.getD (n - i) 0) else a) 0
  if d = 0 then { x with m := x.m + 1 } else
  let c := rsAdd x.c ((List.replicate x.m 0) ++ x.b.map (rsMul (rsMul d (rsInv x.d))))
  if 2 * x.l ≤ n then { c := c, b := x.c, l := n + 1 - x.l, m := 1, d := d } else { x with c := c, m := x.m + 1 }
/-- The errors a decoder that corrects `t` finds in a word of `n` symbols by its `k` syndromes; none: it detects an error. -/
def rsDecode (k t n : Nat) (s : List Nat) : Option (List (Nat × Nat)) :=
  if s.all (· = 0) then some [] else
  let x := (List.range k).foldl (bmStep s) { c := [1], b := [1], l := 0, m := 1, d := 1 }
  let loc := x.c.take (x.l + 1)
  let at' := (List.range n).filter (fun p => rsEval loc (rsPow 2 (255 - p)) = 0)
  if x.l > t || at'.length ≠ x.l then none else
  let om := (rsProd s loc).take k
  let dl := (List.range loc.length).map (fun i => if i % 2 = 1 then loc.getD i 0 else 0)
  let e := at'.map (fun p =>
    let xi := rsPow 2 (255 - p)
    -- the locator's derivative, evaluated: its odd terms divided by x
    (p, rsMul (rsPow 2 p) (rsMul (rsEval om xi) (rsInv (rsMul (rsEval dl xi) (rsPow 2 p))))))
  if syndromes k e = s then some e else none

end Sys2Proof.Machine
end

