-- ==== Sys2Proof/Syntax.lean ====
section
/-!
DEFINITION. The steps of the BSY-2048: one constructor of `Instr` per row of spec/opcode_table.json, and the types of
their operands. Register numbers and codes are the fields of the encodings (spec/05_encodings.md); the steps of the machine
that have no encoding carry what identifies them.
-/
namespace Sys2Proof

/-! ### Operand types -/

/-- The formats of Table 5.14, by code. -/
inductive Fmt where
  | f32 | bf16 | f16 | e4m3 | e5m2 | e2m1 | i32 | n32 | i16 | n16 | i8 | n8 | i4 | n4 | e8m0
deriving DecidableEq, Repr

/-- Rounding codes of class RM (R73). -/
inductive Rnd where
  | rne | rtz | rdn | rup | sr | dyn
deriving DecidableEq, Repr

/-- Element widths of class W (R73): 32, 16 or 8 bits. -/
inductive EW where
  | w32 | w16 | w8
deriving DecidableEq, Repr

/-- Compare predicates (R73). -/
inductive Pred where
  | eq | ne | lt | le | gt | ge | uno | ord
deriving DecidableEq, Repr

/-- Load kinds of `ld` and `gld` (Table 5.12). -/
inductive LdK where
  | i8 | n8 | i16 | n16 | i32 | n32 | d64
deriving DecidableEq, Repr

/-- Store sizes of `st` and `gst` (Table 5.12). -/
inductive StK where
  | b8 | b16 | b32 | b64
deriving DecidableEq, Repr

/-- Scopes (R149). -/
inductive Scope where
  | cl | dv | sy
deriving DecidableEq, Repr

/-- Order forms of `ga.*` (Table 5.12). -/
inductive GaOrd where
  | plain | acq (sc : Scope) | rel (sc : Scope) | acqRel (sc : Scope)
deriving DecidableEq, Repr

/-- Element types of `xred` (Table 5.12). -/
inductive XTy where
  | i32 | n32 | f32 | i64 | n64
deriving DecidableEq, Repr

/-- Element types of `vext` (Table 5.12). -/
inductive VxTy where
  | i32 | n32 | i16 | n16 | i8 | n8 | d64
deriving DecidableEq, Repr

/-- Conditions of `ncmp` (Table 5.19). -/
inductive NCond where
  | eq | ne | lt | ge | ltu | geu | flt | fge
deriving DecidableEq, Repr

/-- An s register number. -/
abbrev SReg := BitVec 4
/-- A v register number. -/
abbrev VReg := BitVec 5
/-- A mask register number. -/
abbrev MReg := BitVec 2
/-- A control-thread register number. -/
abbrev XReg := BitVec 5
/-- A near-data register number. -/
abbrev NReg := BitVec 4

/-- Destination, two sources and mask selector of a V-slot word (R73). -/
structure V3 where
  vd : VReg
  va : VReg
  vb : VReg
  m : MReg
deriving DecidableEq, Repr

/-- Destination, one source and mask selector. -/
structure V2 where
  vd : VReg
  va : VReg
  m : MReg
deriving DecidableEq, Repr

/-- Rounding and the SAT modifier (R73). -/
structure RM where
  rnd : Rnd
  sat : Bool
deriving DecidableEq, Repr

/-- The third operand of the vector shifts (R172): a register or an amount. -/
inductive ShAmt where
  | reg (vb : VReg) | imm (k : BitVec 5)
deriving DecidableEq, Repr

/-! ### RISC-V computations, branches and jumps (R107, Table 0.1) -/

/-- Register computations of RV64I, M, Zba, Zbb on 64 bits. -/
inductive RvAlu where
  | add | sub | sll | slt | sltu | xor | srl | sra | or | and
  | mul | mulh | mulhsu | mulhu | div | divu | rem | remu
  | sh1add | sh2add | sh3add | andn | orn | xnor | min | max | minu | maxu | rol | ror
  | addUw | sh1addUw | sh2addUw | sh3addUw
deriving DecidableEq, Repr

/-- Register computations on 32 bits, sign-extended. -/
inductive RvAluW where
  | addw | subw | sllw | srlw | sraw | mulw | divw | divuw | remw | remuw | rolw | rorw
deriving DecidableEq, Repr

/-- Immediate computations. -/
inductive RvImm where
  | addi | slti | sltiu | xori | ori | andi | addiw
deriving DecidableEq, Repr

/-- Shifts by a 6-bit amount. -/
inductive RvSh where
  | slli | srli | srai | rori | slliUw
deriving DecidableEq, Repr

/-- Shifts of 32 bits by a 5-bit amount. -/
inductive RvShW where
  | slliw | srliw | sraiw | roriw
deriving DecidableEq, Repr

/-- One-source computations of Zbb. -/
inductive RvUn where
  | clz | ctz | cpop | clzw | ctzw | cpopw | sextB | sextH | zextH | orcB | rev8
deriving DecidableEq, Repr

/-- Branch conditions. -/
inductive RvBr where
  | beq | bne | blt | bge | bltu | bgeu
deriving DecidableEq, Repr

/-- What RV_INTEGER_OP holds: every computation, branch and jump, with ECALL and EBREAK. -/
inductive RvOp where
  | alu (f : RvAlu) (rd rs1 rs2 : XReg)
  | aluW (f : RvAluW) (rd rs1 rs2 : XReg)
  | opImm (f : RvImm) (rd rs1 : XReg) (imm : BitVec 12)
  | shImm (f : RvSh) (rd rs1 : XReg) (k : BitVec 6)
  | shImmW (f : RvShW) (rd rs1 : XReg) (k : BitVec 5)
  | un (f : RvUn) (rd rs1 : XReg)
  | lui (rd : XReg) (imm : BitVec 20)
  | auipc (rd : XReg) (imm : BitVec 20)
  | jal (rd : XReg) (off : BitVec 20)
  | jalr (rd rs1 : XReg) (imm : BitVec 12)
  | br (c : RvBr) (rs1 rs2 : XReg) (off : BitVec 12)
  | ecall
  | ebreak
deriving DecidableEq, Repr

/-- RISC-V load kinds. -/
inductive RvLd where
  | lb | lh | lw | ld | lbu | lhu | lwu
deriving DecidableEq, Repr

/-- RISC-V AMO operations. -/
inductive AmoOp where
  | swap | add | xor | and | or | min | max | minu | maxu
deriving DecidableEq, Repr

/-- CSR instruction forms. -/
inductive CsrOp where
  | rw | rs | rc
deriving DecidableEq, Repr

/-! ### Tile commands -/

/-- The fields of a tile command word but for OP (Table 5.15); bit 244 is reserved. -/
structure TileCmd where
  ev : Bool
  grp : Bool
  fpv : Bool
  cf : BitVec 4
  gid : BitVec 8
  d0 : BitVec 10
  d1 : BitVec 10
  d2 : BitVec 10
  acb : BitVec 3
  acn : BitVec 3
  swz : BitVec 4
  arg : BitVec 64
  fp1 : BitVec 64
  fp0 : BitVec 64
deriving DecidableEq, Repr

/-! ### Payloads of the machine's own steps -/

/-- A task record in a deque (R298): its eight words, the window entries it owns, and its place in a spill queue (R300). -/
structure TaskRec where
  words : List Word
  owner : Nat
  key : Nat
  slot : Nat := 0
deriving DecidableEq, Repr

/-- A fabric packet's operation (R334, R345). -/
inductive FabOp where
  | store (off : Nat) (bytes : List Byte)
  /-- elements of a peer copy: of the last byte only the low nibble when `half` (R91); `bad` are the offsets and widths of those with an
  error (R322) -/
  | elems (off : Nat) (bytes : List Byte) (half : Bool) (bad : List (Nat × Nat))
  | load (off n : Nat)
  | atomic (off size fn operand expect : Nat)
  /-- a step of a collective: ring, sender's rank, step, first block, data (R348) -/
  | ring (ring rank step block : Nat) (data : List Word)
deriving DecidableEq, Repr

/-- Where a soft error strikes (R317–R319, R330). -/
inductive ErrSite where
  /-- bits of a stored line: line address, bit numbers 0–511 data, 512–575 check bits -/
  | line (addr : Nat) (bits : List Nat)
  /-- bits of a 64-bit local-store word -/
  | localStore (core addr : Nat) (bits : List Nat)
  /-- bits of a vector register written by a context; the register file's code does not cover the datapath latch -/
  | latchBits (core phys : Nat) (bits : List Nat)
  /-- bits of a 64-bit word of the vector register file -/
  | regFile (core phys word : Nat) (bits : List Nat)
  /-- bits of the word that holds accumulators 2 × `word` and 2 × `word` + 1 of a cluster -/
  | accumulator (cluster word : Nat) (bits : List Nat)
  /-- bits of a bundle in a block buffer -/
  | blockBuffer (core ctx word : Nat) (bits : List Nat)
  /-- bits of an element of a queue register, counted from the head -/
  | queueElem (core q idx : Nat) (bits : List Nat)
  /-- bits of a word of an entry of the thread-context cache: the words of its partition, then s0–s15, m0–m3 (four words each) and the
  block buffer (DESIGN CHOICE, log 17) -/
  | contextCache (core : Nat) (handle : Word) (word : Nat) (bits : List Nat)
  /-- bits of an s register of a context -/
  | sReg (core ctx reg : Nat) (bits : List Nat)
  /-- bits of a 64-bit word of an m register of a context -/
  | mReg (core ctx reg word : Nat) (bits : List Nat)
  /-- bits of a control-thread register -/
  | xReg (core reg : Nat) (bits : List Nat)
  /-- bits of a line of a transaction's speculative granule, in the tile buffer or a versioned store: VA [47:6], bit numbers as for a
  stored line -/
  | specLine (core ctx line : Nat) (bits : List Nat)
deriving DecidableEq, Repr

/-- How a migrated page's new frame is chosen (R203): the C-die of the near memory, or LPDDR-6. -/
inductive Tier where
  | near (die : Nat) | lpddr
deriving DecidableEq, Repr

/-! ### The machine's own steps -/

/-- The steps of the machine that have no encoding, each with what identifies it: what State.agenda holds, and what
State.cur names while such a step is taken. -/
inductive Ev where
  -- steps of jobs
  | sendArrival (job : Nat)
  | gangArbiterEntry (job : Nat)
  | gangMemberReport (job rank : Nat)
  | jobTerminal (job : Nat)
  | jobRecordUpdate (job : Nat)
  | logExtend (job : Nat)
  /-- the engine starts, resumes or goes on with a job: the row is that of its command -/
  | jobRun (job : Nat)
  -- steps of slices, RDCs and the MMP
  | sliceAccess (req : Nat)
  | dramFill (line : Nat)
  | globalReply (req : Nat)
  | relaxedLateFault (core ctx req : Nat)
  | remoteLsAccess (req : Nat)
  | translationChange (asid va level entry : Nat)
  | invalidateBroadcast (die idx asid va len : Nat)
  | migratePage (asid va : Nat) (t : Tier)
  | clockSweep (die : Nat)
  | pageFaultService (die : Nat)
  | routineSlotLoad (die : Nat)
  | routineRun (req : Nat)
  | gets (req : Nat) (recalled : Bool)
  | getm (req : Nat)
  | wback (die line : Nat)
  | rdcEvictClean (die line : Nat)
  | recallRequest (die line : Nat)
  | invalidationRequest (die line : Nat)
  | mirrorUpdate (owner line : Nat) (data : Line) (num : Nat)
  | ownerUnresponsive (owner homeDie homeIdx : Nat)
  -- transactions
  | txRequest (req : Nat)
  | txAbortArrival (core ctx cause code : Nat) (retry : Bool) (gran : Nat)
  | txCommitMessage (core ctx home : Nat)
  -- contexts
  | blockCopy
  | bcastDelivery (core mask base : Nat) (words : List Word)
  | heldRequestApply (core ctx : Nat)
  | lightHandlerEntry (core ctx q : Nat)
  | evictSave (core ctx : Nat)
  | admitLoad (core ctx : Nat)
  -- barriers, queues, mailbox, tasks
  | barrierRelease (core b : Nat)
  | groupArrival (lid group core : Nat)
  | groupRelease (lid group core : Nat)
  | queueDelivery (core q : Nat) (v : Word) (tag : Bool)
  | mbxAccept (src dst : Nat) (msg : Word) (sent : Nat)
  | mbxResend (src dst : Nat) (msg : Word) (sent : Nat)
  | taskRetire (cluster agent key upto : Nat)
  | taskPushRetry (core ctx : Nat)
  | stealTry (thief victim : Nat)
  | stealReply (thief victim : Nat) (rec : Option TaskRec)
  | stealPassRetry (thief : Nat)
  | timerMatch (core : Nat)
  -- gather units
  | gatherReadIssue (core slot : Nat)
  | gatherTrigger (core req : Nat)
  | gatherRun (core : Nat)
  | gatherFetchFault (core slot cause va : Nat)
  | gatherDrain (core slot : Nat)
  -- launches
  | lqdbWrite (q : Nat) (pa : Nat)
  | launchDoorbell (q : Nat) (pa : Nat) (die : Nat)
  | launchStart (q : Nat)
  | launchRestore (lid : Nat)
  | launchEnd (lid : Nat)
  -- containment and twinned cores
  | snuffRun (die n : Nat)
  | snuffNotification (die n : Nat)
  | pairCheckpoint (core : Nat)
  -- fabric and collectives
  | fabricSession (port : Nat) (peerPort : Nat) (peerCert : BitVec 384) (chainOk : Bool) (peerNonce : BitVec 384) (peerKey : BitVec 768)
      (peerIdentity peerSig : BitVec 768)
  | linkRetrain (port : Nat)
  | fabricPacketReceive (port flow peer seq : Nat) (tag : BitVec 128) (op : FabOp)
  /-- a packet whose tag was right and which waits at its lines -/
  | fabricPacketOpened (port flow peer seq : Nat) (op : FabOp)
  | fabricAck (flow peer seq : Nat) (err : Bool) (data : List Byte)
  | fabricRetransmit (flow peer seq : Nat)
  | linkDown (port : Nat)
  | allowanceGrant (port flits : Nat)
  | ringStep (ring step block : Nat) (data : List Word)
  -- host and management
  | hostBar2Read (off n : Nat)
  | hostBar2Write (off : Nat) (bytes : List Byte)
  | hostReadTimeout (req : Nat)
  | hbreqRead
  | hbreqTimeout (tag : Nat)
  | igncntRead
  | cecntRead (die : Nat)
  | uecntRead (die : Nat)
  | asnew
  | asfree
  | map
  | load
  | sealRange
  | mapwin
  | exportRegion
  | peer
  | ring
  | rect
  | snuff
  | attest
  | admitDebug
  | freeze
  | thaw
  | dump
  | trig
  | powcap
  | logread
  | glim
  | traceSet
  | lcmap
  | hbfill
  | mgmtRegWrite (off : Nat) (v : Word)
  -- observation, power, start-up
  | deviceFreeze
  | glimPulse
  | powerWindowEnd (die : Nat)
  | powerGood
  | cDieAnnounce (die : Nat) (ok : Bool)
  | stageCComplete
  | stageAComplete
  | softError (site : ErrSite)
  | powerRemoved
deriving DecidableEq, Repr

/-! ### The rows of the table -/

/-- One constructor per row of spec/opcode_table.json. A step that has no encoding carries no operand: it acts on the
`Ev` that State.cur names. Rows without operands stand last. -/
inductive Instr where
  -- control-thread custom instructions (Table 5.9)
  | mtBcast (n : BitVec 4) (rd rs1 rs2 : XReg)
  | mtStart (rd rs1 rs2 : XReg)
  | mtWait (rd rs1 : XReg)
  | mtPoll (rd rs1 : XReg)
  | mtKill (rd rs1 : XReg)
  | mtMode (rd rs1 : XReg)
  | mtRdreg (rd rs1 : XReg)
  | mtWrreg (rd rs1 rs2 : XReg)
  | mtResume (rd rs1 : XReg)
  | mtRedirect (rd rs1 rs2 : XReg)
  | mtEvict (rd rs1 : XReg)
  | mtAdmit (rd rs1 rs2 : XReg)
  | tcPush (rd rs1 : XReg)
  | tcTrypush (rd rs1 : XReg)
  | tcSend (rd rs1 rs2 : XReg)
  | jobWait (rd rs1 : XReg)
  | jobPoll (rd rs1 : XReg)
  | tcMint (rd rs1 : XReg)
  | taskPush (rd rs1 : XReg)
  | taskPop (rd rs1 : XReg)
  | taskTrypop (rd rs1 : XReg)
  | taskDone (rd : XReg)
  | mbxSend (rd rs1 rs2 : XReg)
  | mbxRecv (rd : XReg)
  | mbxTryrecv (rd rs1 : XReg)
  | barInit (rd rs1 rs2 : XReg)
  | barBind (rd rs1 rs2 : XReg)
  | barArrive (rd rs1 : XReg)
  | barWait (rd rs1 : XReg)
  | barTest (rd rs1 : XReg)
  | qBind (rd rs1 rs2 : XReg)
  | ctSleep (rd rs1 : XReg)
  | fenceCl (rd : XReg)
  | fenceDv (rd : XReg)
  | fenceSy (rd : XReg)
  | pairOn (rd : XReg)
  | pairOff (rd : XReg)
  | coreStart (rd rs1 rs2 : XReg)
  -- the base set on the control thread (R107) and the device CSRs (R62–R63)
  | rvIntegerOp (op : RvOp)
  | rvLoad (k : RvLd) (rd rs1 : XReg) (imm : BitVec 12)
  | rvStore (k : StK) (rs1 rs2 : XReg) (imm : BitVec 12)
  | rvAmo (op : AmoOp) (d : Bool) (aq rl : Bool) (rd rs1 rs2 : XReg)
  | rvLr (d : Bool) (aq rl : Bool) (rd rs1 : XReg)
  | rvSc (d : Bool) (aq rl : Bool) (rd rs1 rs2 : XReg)
  | rvCsrAccess (op : CsrOp) (immForm : Bool) (csr : BitVec 12) (rd src : XReg)
  | csrWrite (csr : BitVec 12) (v : Word)
  | ctxmodeWrite (v : Word)
  | timecmpWrite (v : Word)
  | evpendWrite (v : Word)
  | mtfaultRead (rd : XReg)
  | qcfgGo (q : BitVec 3) (v : Word)
  | qcfgStop (q : BitVec 3) (v : Word)
  | trigctlWrite (v : Word)
  -- A-slot (Tables 5.11 and 5.12)
  | add (sd sa sb : SReg)
  | sub (sd sa sb : SReg)
  | and (sd sa sb : SReg)
  | or (sd sa sb : SReg)
  | xor (sd sa sb : SReg)
  | sll (sd sa sb : SReg)
  | srl (sd sa sb : SReg)
  | sra (sd sa sb : SReg)
  | mul (sd sa sb : SReg)
  | mulh (sd sa sb : SReg)
  | mulhu (sd sa sb : SReg)
  | min (sd sa sb : SReg)
  | max (sd sa sb : SReg)
  | minu (sd sa sb : SReg)
  | maxu (sd sa sb : SReg)
  | slt (sd sa sb : SReg)
  | sltu (sd sa sb : SReg)
  | addi (sd sa : SReg) (imm : BitVec 16)
  | andi (sd sa : SReg) (imm : BitVec 16)
  | ori (sd sa : SReg) (imm : BitVec 16)
  | xori (sd sa : SReg) (imm : BitVec 16)
  | slti (sd sa : SReg) (imm : BitVec 16)
  | sltiu (sd sa : SReg) (imm : BitVec 16)
  | slli (sd sa : SReg) (k : BitVec 6)
  | srli (sd sa : SReg) (k : BitVec 6)
  | srai (sd sa : SReg) (k : BitVec 6)
  | lui (sd : SReg) (imm : BitVec 20)
  | beq (sa sb : SReg) (blk : BitVec 10)
  | bne (sa sb : SReg) (blk : BitVec 10)
  | blt (sa sb : SReg) (blk : BitVec 10)
  | bge (sa sb : SReg) (blk : BitVec 10)
  | bltu (sa sb : SReg) (blk : BitVec 10)
  | bgeu (sa sb : SReg) (blk : BitVec 10)
  | bany (w : EW) (m : MReg) (blk : BitVec 10)
  | ball (w : EW) (m : MReg) (blk : BitVec 10)
  | bnone (w : EW) (m : MReg) (blk : BitVec 10)
  | bnall (w : EW) (m : MReg) (blk : BitVec 10)
  | jmp (blk : BitVec 10)
  | jmpReg (sa : SReg)
  | bfetch (blk : BitVec 10)
  | bfetchReg (sa : SReg)
  | ld (k : LdK) (sd sa : SReg) (imm : BitVec 12)
  | st (k : StK) (sd sa : SReg) (imm : BitVec 12)
  | vld (vd : VReg) (sa : SReg) (imm : BitVec 12)
  | vst (vd : VReg) (sa : SReg) (imm : BitVec 12)
  | vldx (w : EW) (vd : VReg) (sa : SReg) (vi : VReg) (m : MReg)
  | vstx (w : EW) (vd : VReg) (sa : SReg) (vi : VReg) (m : MReg)
  | gld (k : LdK) (rx : Bool) (acq : Option Scope) (sd sa : SReg) (imm : BitVec 8)
  | gst (k : StK) (rx : Bool) (rel : Option Scope) (sd sa : SReg) (imm : BitVec 8)
  | gstNt (k : StK) (rx : Bool) (sd sa : SReg) (imm : BitVec 8)
  | gvld (rx : Bool) (acq : Option Scope) (vd : VReg) (sa : SReg) (imm : BitVec 8)
  | gvst (rx : Bool) (rel : Option Scope) (vd : VReg) (sa : SReg) (imm : BitVec 8)
  | gvstNt (rx : Bool) (vd : VReg) (sa : SReg) (imm : BitVec 8)
  | gaAdd (w64 : Bool) (o : GaOrd) (sd sa sb : SReg)
  | gaMin (w64 : Bool) (o : GaOrd) (sd sa sb : SReg)
  | gaMax (w64 : Bool) (o : GaOrd) (sd sa sb : SReg)
  | gaMinu (w64 : Bool) (o : GaOrd) (sd sa sb : SReg)
  | gaMaxu (w64 : Bool) (o : GaOrd) (sd sa sb : SReg)
  | gaAnd (w64 : Bool) (o : GaOrd) (sd sa sb : SReg)
  | gaOr (w64 : Bool) (o : GaOrd) (sd sa sb : SReg)
  | gaXor (w64 : Bool) (o : GaOrd) (sd sa sb : SReg)
  | gaSwap (w64 : Bool) (o : GaOrd) (sd sa sb : SReg)
  | gaCas (w64 : Bool) (o : GaOrd) (sd sa sb : SReg)
  | lcall (sd sa sb : SReg) (rid : BitVec 8) (kn rn : BitVec 2)
  | xbegin (blk : BitVec 10)
  | xabort (code : BitVec 8)
  | xtest (sd : SReg)
  | xredAdd (ty : XTy) (sa sb : SReg)
  | xredMin (ty : XTy) (sa sb : SReg)
  | xredMax (ty : XTy) (sa sb : SReg)
  | xredOr (ty : XTy) (sa sb : SReg)
  | qpop (sd : SReg) (q : BitVec 3)
  | qtrypop (sd se : SReg) (q : BitVec 3)
  | qpeek (sd se : SReg) (q : BitVec 3)
  | qpush (sd : SReg) (q : BitVec 3)
  | qtrypush (sd se : SReg) (q : BitVec 3)
  | barArriveA (b : BitVec 6)
  | barWaitA (b : BitVec 6)
  | taskTrypopA (sd : SReg)
  | taskPushA (sa : SReg)
  | vext (ty : VxTy) (sd : SReg) (va : VReg) (idx : BitVec 8)
  | fenceSyA (sd : SReg)
  | rdtime (sd : SReg)
  | rdcsr (sd : SReg) (n : BitVec 4)
  | wrcsr (n : BitVec 4) (sa : SReg)
  | trap (code : BitVec 16)
  -- V-slot (Table 5.13)
  | vaddF (f : Fmt) (rm : RM) (v : V3)
  | vsubF (f : Fmt) (rm : RM) (v : V3)
  | vmulF (f : Fmt) (rm : RM) (v : V3)
  | vminF (f : Fmt) (v : V3)
  | vmaxF (f : Fmt) (v : V3)
  | vabsF (f : Fmt) (v : V2)
  | vnegF (f : Fmt) (v : V2)
  | vfma (f : Fmt) (rm : RM) (v : V3)
  | vfms (f : Fmt) (rm : RM) (v : V3)
  | vfnma (f : Fmt) (rm : RM) (v : V3)
  | vfnms (f : Fmt) (rm : RM) (v : V3)
  | vrecip (f : Fmt) (rm : RM) (v : V2)
  | vrsqrt (f : Fmt) (rm : RM) (v : V2)
  | vsqrt (f : Fmt) (rm : RM) (v : V2)
  | vexp2 (f : Fmt) (rm : RM) (v : V2)
  | vlog2 (f : Fmt) (rm : RM) (v : V2)
  | vcmpF (f : Fmt) (p : Pred) (md : MReg) (va vb : VReg) (m : MReg)
  | vaddI (f : Fmt) (sat : Bool) (v : V3)
  | vsubI (f : Fmt) (sat : Bool) (v : V3)
  | vmulI (f : Fmt) (v : V3)
  | vmulh (f : Fmt) (v : V3)
  | vminI (f : Fmt) (v : V3)
  | vmaxI (f : Fmt) (v : V3)
  | vabsI (f : Fmt) (v : V2)
  | vnegI (f : Fmt) (v : V2)
  | vand (f : Fmt) (v : V3)
  | vor (f : Fmt) (v : V3)
  | vxor (f : Fmt) (v : V3)
  | vandn (f : Fmt) (v : V3)
  | vsll (f : Fmt) (k : ShAmt) (v : V2)
  | vsrl (f : Fmt) (k : ShAmt) (v : V2)
  | vsra (f : Fmt) (k : ShAmt) (v : V2)
  | vcmpI (f : Fmt) (p : Pred) (md : MReg) (va vb : VReg) (m : MReg)
  | vmand (md ma mb : MReg)
  | vmor (md ma mb : MReg)
  | vmxor (md ma mb : MReg)
  | vmandn (md ma mb : MReg)
  | vmnot (md ma : MReg)
  | vmmov (md ma : MReg)
  | vcvt (dst src : Fmt) (rm : RM) (v : V2)
  | vmxq (f : Fmt) (rm : RM) (v : V3)
  | vmxdq (f : Fmt) (v : V3)
  | vperm (w : EW) (v : V3)
  | vslideUp (w : EW) (k : BitVec 5) (v : V2)
  | vslideDn (w : EW) (k : BitVec 5) (v : V2)
  | vsel (w : EW) (v : V3)
  | vbcast (w : EW) (vd : VReg) (sa : SReg) (m : MReg)
  | vmov (w : EW) (v : V2)
  | vget (vd va : VReg) (c : BitVec 4)
  | vredsumF (f : Fmt) (rm : RM) (v : V2)
  | vredmaxF (f : Fmt) (rm : RM) (v : V2)
  | vredminF (f : Fmt) (rm : RM) (v : V2)
  | vredsumI (f : Fmt) (v : V2)
  | vredmaxI (f : Fmt) (v : V2)
  | vredminI (f : Fmt) (v : V2)
  | vmrg (v : V3)
  -- near-data (Table 5.19)
  | nadd (d a b : NReg)
  | nsub (d a b : NReg)
  | nand (d a b : NReg)
  | nor (d a b : NReg)
  | nxor (d a b : NReg)
  | nsll (d a b : NReg)
  | nsrl (d a b : NReg)
  | nsra (d a b : NReg)
  | naddi (d a : NReg) (imm : BitVec 14)
  | nmin (d a b : NReg)
  | nmax (d a b : NReg)
  | nminu (d a b : NReg)
  | nmaxu (d a b : NReg)
  | nfadd (d a b : NReg)
  | nfmin (d a b : NReg)
  | nfmax (d a b : NReg)
  | ncmp (c : NCond) (d a b : NReg)
  | nsel (d a b : NReg)
  | nrdw (d : NReg) (w : BitVec 4)
  | nwrw (w : BitVec 4) (a : NReg)
  | nrdk (d : NReg) (k : BitVec 2)
  | nret (a b : NReg) (c : BitVec 2)
  | nfetch (a : NReg)
  | nfetchRt (a : NReg)
  | npush (tag : Bool) (q : BitVec 3) (a : NReg)
  | ndig (a b : NReg)
  | nloop (d : NReg) (dist : BitVec 14)
  | nbr (a : NReg) (dist : BitVec 14)
  | nfault (code : BitVec 8)
  -- tile commands (Table 5.16), run by the engine for the job of State.cur
  | mma (c : TileCmd)
  | mmaMx (c : TileCmd)
  | mmaBm (c : TileCmd)
  | mmaGa (c : TileCmd)
  | accZero (c : TileCmd)
  | accLoad (c : TileCmd)
  | accStore (c : TileCmd)
  | topkBlk (c : TileCmd)
  | copy (c : TileCmd)
  | copyRows (c : TileCmd)
  | scatRows (c : TileCmd)
  | copyPeer (c : TileCmd)
  | bmPack (c : TileCmd)
  | bmUnpack (c : TileCmd)
  | fill (c : TileCmd)
  | signal (c : TileCmd)
  | hash (c : TileCmd)
  | collScale (c : TileCmd)
  | collRs (c : TileCmd)
  | collAg (c : TileCmd)
  -- rows whose encoding has no operand the device reads
  | rvFence
  | rvFenceI
  | rvWfi
  | rvMret
  | nop
  | xend
  | taskPopA
  | taskDoneA
  | fenceClA
  | fenceDvA
  | vnop
  | nstop
  -- steps of jobs
  | sendArrival
  | gangArbiterEntry
  | gangMemberReport
  | jobTerminal
  | jobRecordUpdate
  | logExtend
  -- steps of slices, RDCs and the MMP
  | sliceAccess
  | dramFill
  | globalReply
  | relaxedLateFault
  | remoteLsAccess
  | translationChange
  | invalidateBroadcast
  | migratePage
  | clockSweep
  | pageFaultService
  | routineSlotLoad
  | routineRun
  | gets
  | getm
  | wback
  | rdcEvictClean
  | recallRequest
  | invalidationRequest
  | mirrorUpdate
  | ownerUnresponsive
  -- transactions
  | txRequest
  | txAbortArrival
  | txCommitMessage
  -- contexts
  | blockCopy
  | bcastDelivery
  | heldRequestApply
  | lightHandlerEntry
  | evictSave
  | admitLoad
  -- barriers, queues, mailbox, tasks
  | barrierRelease
  | groupArrival
  | groupRelease
  | queueDelivery
  | mbxAccept
  | mbxResend
  | taskRetire
  | taskPushRetry
  | stealTry
  | stealReply
  | stealPassRetry
  | timerMatch
  -- gather units
  | gatherReadIssue
  | gatherTrigger
  | gatherRun
  | gatherFetchFault
  | gatherDrain
  -- launches
  | lqdbWrite
  | launchDoorbell
  | launchStart
  | launchRestore
  | launchEnd
  -- containment and twinned cores
  | snuffRun
  | snuffNotification
  | pairCheckpoint
  -- fabric and collectives
  | fabricSession
  | linkRetrain
  | fabricPacketReceive
  | fabricAck
  | fabricRetransmit
  | linkDown
  | allowanceGrant
  | ringStep
  -- host and management
  | hostBar2Read
  | hostBar2Write
  | hostReadTimeout
  | hbreqRead
  | hbreqTimeout
  | igncntRead
  | cecntRead
  | uecntRead
  | asnew
  | asfree
  | map
  | load
  | sealRange
  | mapwin
  | exportRegion
  | peer
  | ring
  | rect
  | snuff
  | attest
  | admitDebug
  | freeze
  | thaw
  | dump
  | trig
  | powcap
  | logread
  | glim
  | traceSet
  | lcmap
  | hbfill
  | mgmtRegWrite
  -- observation, power, start-up
  | deviceFreeze
  | glimPulse
  | powerWindowEnd
  | powerGood
  | cDieAnnounce
  | stageCComplete
  | stageAComplete
  | softError
  | powerRemoved
deriving DecidableEq, Repr

end Sys2Proof
end

