-- ==== Sys2Proof/Machine/Checks.lean ====
section
/-!
DEFINITION. Format codes and classes (Table 5.14, R73), the fields each tile command uses (Table 15.6) and the static field
rules of the encodings (R69, R72–R74, R82, R162): what WellFormed and the decoder ask.
-/
namespace Sys2Proof

/-- Format code of Table 5.14. -/
def Fmt.code : Fmt → Nat
  | .f32 => 0 | .bf16 => 1 | .f16 => 2 | .e4m3 => 3 | .e5m2 => 4 | .e2m1 => 5 | .i32 => 6 | .n32 => 7
  | .i16 => 8 | .n16 => 9 | .i8 => 10 | .n8 => 11 | .i4 => 12 | .n4 => 13 | .e8m0 => 14

/-- The format of a code; code 15 is reserved (Table 5.14). -/
def Fmt.ofCode : Nat → Option Fmt
  | 0 => some .f32 | 1 => some .bf16 | 2 => some .f16 | 3 => some .e4m3 | 4 => some .e5m2 | 5 => some .e2m1
  | 6 => some .i32 | 7 => some .n32 | 8 => some .i16 | 9 => some .n16 | 10 => some .i8 | 11 => some .n8
  | 12 => some .i4 | 13 => some .n4 | 14 => some .e8m0 | _ => none

/-- Element width in bits (R158). -/
def Fmt.width : Fmt → Nat
  | .f32 | .i32 | .n32 => 32
  | .bf16 | .f16 | .i16 | .n16 => 16
  | .e4m3 | .e5m2 | .i8 | .n8 | .e8m0 => 8
  | .e2m1 | .i4 | .n4 => 4

/-- Class FP3 (R73). -/
def Fmt.isFp3 : Fmt → Bool
  | .f32 | .bf16 | .f16 => true
  | _ => false

/-- Class FP5 (R73). -/
def Fmt.isFp5 : Fmt → Bool
  | .f32 | .bf16 | .f16 | .e4m3 | .e5m2 => true
  | _ => false

/-- Class INT (R73). -/
def Fmt.isIntV : Fmt → Bool
  | .i32 | .n32 | .i16 | .n16 | .i8 | .n8 => true
  | _ => false

/-- The integer formats of R91. -/
def Fmt.isInt : Fmt → Bool
  | .i32 | .n32 | .i16 | .n16 | .i8 | .n8 | .i4 | .n4 => true
  | _ => false

/-- "Float" of R103. -/
def Fmt.isFloat : Fmt → Bool
  | .f32 | .bf16 | .f16 | .e4m3 | .e5m2 | .e2m1 => true
  | _ => false

/-- Class MX (R73). -/
def Fmt.isMx : Fmt → Bool
  | .e4m3 | .e5m2 | .e2m1 => true
  | _ => false

/-- Signed integer codes (R91). -/
def Fmt.isSigned : Fmt → Bool
  | .i32 | .i16 | .i8 | .i4 => true
  | _ => false

/-- SAT may be 1 only with e4m3 or e5m2 (R73). -/
def satLegal (f : Fmt) (rm : RM) : Bool := !rm.sat || f = .e4m3 || f = .e5m2

/-- Width of class W (R73). -/
def EW.bits : EW → Nat
  | .w32 => 32 | .w16 => 16 | .w8 => 8

/-- OP of Table 5.16. -/
def tileOp : Instr → Option Nat
  | .mma _ => some 0x01 | .mmaMx _ => some 0x02 | .mmaBm _ => some 0x03 | .mmaGa _ => some 0x04
  | .accZero _ => some 0x05 | .accLoad _ => some 0x06 | .accStore _ => some 0x07 | .topkBlk _ => some 0x08
  | .copy _ => some 0x20 | .copyRows _ => some 0x21 | .scatRows _ => some 0x22 | .copyPeer _ => some 0x23
  | .bmPack _ => some 0x24 | .bmUnpack _ => some 0x25 | .fill _ => some 0x26 | .signal _ => some 0x27
  | .hash _ => some 0x28 | .collScale _ => some 0x40 | .collRs _ => some 0x41 | .collAg _ => some 0x42
  | _ => none

/-- The command of an OP (Table 5.16); an absent OP is BADOP (R77). -/
def tileOfOp (c : TileCmd) : Nat → Option Instr
  | 0x01 => some (.mma c) | 0x02 => some (.mmaMx c) | 0x03 => some (.mmaBm c) | 0x04 => some (.mmaGa c)
  | 0x05 => some (.accZero c) | 0x06 => some (.accLoad c) | 0x07 => some (.accStore c) | 0x08 => some (.topkBlk c)
  | 0x20 => some (.copy c) | 0x21 => some (.copyRows c) | 0x22 => some (.scatRows c) | 0x23 => some (.copyPeer c)
  | 0x24 => some (.bmPack c) | 0x25 => some (.bmUnpack c) | 0x26 => some (.fill c) | 0x27 => some (.signal c)
  | 0x28 => some (.hash c) | 0x40 => some (.collScale c) | 0x41 => some (.collRs c) | 0x42 => some (.collAg c)
  | _ => none

/-- Command fields of a tile instruction. -/
def tileCmdOf : Instr → Option TileCmd
  | .mma c | .mmaMx c | .mmaBm c | .mmaGa c | .accZero c | .accLoad c | .accStore c | .topkBlk c | .copy c
  | .copyRows c | .scatRows c | .copyPeer c | .bmPack c | .bmUnpack c | .fill c | .signal c | .hash c
  | .collScale c | .collRs c | .collAg c => some c
  | _ => none

/-- A footprint range word is malformed when LEN is not 0 while R and W are both 0, or GB + LEN exceeds 2^40 (R78). -/
def fpMalformed (w : Word) : Bool :=
  let x := w.toNat
  let len := bitsOf x 61 40
  (len ≠ 0 && !bitOf x 63 && !bitOf x 62) || decide (bitsOf x 39 0 + len > 2 ^ 40)

/-- Which of D0, D1, D2, ACB/ACN, SWZ, CF and ARG a command uses, and whether GRP may be 1, must be 1 (Table 15.6). -/
structure TileUse where
  d0 : Bool
  d1 : Bool
  d2 : Bool
  acc : Bool
  swz : Bool
  grp : Bool
  cf : Bool
  arg : Bool
deriving DecidableEq, Repr

/-- Table 15.6 by OP. CF bits beyond those a command names end the job with BADARG, not the push (R229, R230). -/
def tileUse : Nat → TileUse
  | 0x01 | 0x02 | 0x03 => ⟨true, true, false, true, false, true, true, false⟩
  | 0x04 => ⟨true, true, true, true, false, true, true, false⟩
  | 0x05 => ⟨false, false, false, true, false, true, false, false⟩
  | 0x06 => ⟨true, false, false, true, false, true, false, false⟩
  | 0x07 => ⟨true, false, false, true, true, true, true, false⟩
  | 0x08 => ⟨true, true, false, true, false, true, true, true⟩
  | 0x20 => ⟨true, true, false, false, true, false, true, true⟩
  | 0x21 => ⟨true, true, true, false, true, false, true, true⟩
  | 0x22 => ⟨true, true, true, false, true, false, false, true⟩
  | 0x23 => ⟨true, true, false, false, false, false, false, false⟩
  | 0x24 => ⟨true, true, false, false, false, false, true, true⟩
  | 0x25 => ⟨true, true, false, false, false, false, false, true⟩
  | 0x26 => ⟨true, false, false, false, true, false, false, true⟩
  | 0x27 => ⟨true, false, false, false, false, false, true, true⟩
  | 0x28 => ⟨true, true, false, false, false, false, false, false⟩
  | 0x40 => ⟨true, false, true, false, false, true, false, true⟩
  | 0x41 | 0x42 => ⟨true, true, true, false, false, true, false, true⟩
  | _ => ⟨false, false, false, false, false, false, false, false⟩

/-- The field checks of a push that need no state (R77): unused fields zero, SWZ, ACB + ACN, GID, footprint words. -/
def tileFieldsOk (op : Nat) (c : TileCmd) : Bool :=
  let u := tileUse op
  (u.d0 || c.d0 = 0) && (u.d1 || c.d1 = 0) && (u.d2 || c.d2 = 0) && (u.acc || (c.acb = 0 && c.acn = 0))
  && (u.swz || c.swz = 0) && (u.grp || !c.grp) && (u.cf || c.cf = 0) && (u.arg || c.arg = 0)
  && decide (c.swz.toNat ≤ 2) && decide (c.acb.toNat + c.acn.toNat ≤ 7) && (c.grp || c.gid = 0)
  && (!c.fpv || (!fpMalformed c.fp0 && !fpMalformed c.fp1))

/-- Field rules of `lcall` (Table 5.12). -/
def lcallOk (sd sb : SReg) (kn rn : BitVec 2) : Bool :=
  decide (rn.toNat ≤ 2) && decide (sb.toNat + kn.toNat ≤ 15) && (rn ≠ 2 || decide (sd.toNat + 1 ≤ 15)) && (rn ≠ 0 || sd = 0)

/-- Field rules of `nret`: count 0–2 and unused registers zero (R81, Table 5.19). -/
def nretOk (a b : NReg) (c : BitVec 2) : Bool :=
  decide (c.toNat ≤ 2) && (c ≠ 0 || a = 0) && (c = 2 || b = 0)

/-- The field rules of a V-slot operation that do not depend on the mode (R73, R74, R162). -/
def vOk : Instr → Bool
  | .vaddF f rm _ | .vsubF f rm _ | .vmulF f rm _ => f.isFp5 && satLegal f rm
  | .vminF f _ | .vmaxF f _ => f.isFp3
  | .vabsF f _ | .vnegF f _ => f.isFp3
  | .vfma f rm _ | .vfms f rm _ | .vfnma f rm _ | .vfnms f rm _ => f.isFp3 && satLegal f rm
  | .vrecip f rm _ | .vrsqrt f rm _ | .vsqrt f rm _ | .vexp2 f rm _ | .vlog2 f rm _ => f.isFp3 && satLegal f rm
  | .vcmpF f _ md _ _ _ => f.isFp3 && md ≠ 0
  | .vaddI f _ _ | .vsubI f _ _ => f.isIntV
  | .vmulI f _ | .vmulh f _ | .vminI f _ | .vmaxI f _ => f.isIntV
  | .vabsI f _ | .vnegI f _ => f.isIntV && f.isSigned
  | .vand f _ | .vor f _ | .vxor f _ | .vandn f _ => f.isIntV
  | .vsll f k _ | .vsrl f k _ | .vsra f k _ =>
    f.isIntV && (match k with | .reg _ => true | .imm n => decide (n.toNat < f.width))
  | .vcmpI f p md _ _ _ => f.isIntV && md ≠ 0 && p ≠ .uno && p ≠ .ord
  | .vmand md _ _ | .vmor md _ _ | .vmxor md _ _ | .vmandn md _ _ => md ≠ 0
  | .vmnot md _ | .vmmov md _ => md ≠ 0
  | .vmxq f rm v => f.isMx && satLegal f rm && v.va.toNat % 2 = 0 && v.vd ≠ v.vb
  | .vmxdq f v => f.isMx && v.vd.toNat % 2 = 0
  | .vredsumF f rm _ | .vredmaxF f rm _ | .vredminF f rm _ => f.isFp3 && satLegal f rm
  | .vredsumI f _ | .vredmaxI f _ | .vredminI f _ => f.isIntV
  | _ => true

end Sys2Proof
end

