-- ==== Sys2Proof/Machine/Flags.lean ====
section
/-!
DEFINITION. Number formats, rounding, flags and conversions (spec/07_arithmetic.md): exact values as integers times powers of
two, one rounding function, comparisons, and the exact functions of R100.
-/
namespace Sys2Proof.Machine

/-- Flag bits of Table 5.7: NV 1, OF 2, UF 4, NX 8, SAT 16. -/
def fNV : Nat := 1
/-- Overflow. -/
def fOF : Nat := 2
/-- Underflow. -/
def fUF : Nat := 4
/-- Inexact. -/
def fNX : Nat := 8
/-- Saturation. -/
def fSAT : Nat := 16

/-- A code of a format with the flags it raised. -/
structure Res where
  code : Nat
  fl : Nat
deriving DecidableEq, Repr

/-- Parameters of a floating format (Table 7.1). -/
structure FPar where
  /-- exponent bits, significand bits -/
  eb : Nat
  mb : Nat
  bias : Nat
  /-- has infinities; NaNs are exponent all ones with M ≠ 0 -/
  ieee : Bool
deriving DecidableEq, Repr

/-- Table 7.1. -/
def fpar : Fmt → FPar
  | .f32 => ⟨8, 23, 127, true⟩
  | .bf16 => ⟨8, 7, 127, true⟩
  | .f16 => ⟨5, 10, 15, true⟩
  | .e4m3 => ⟨4, 3, 7, false⟩
  | .e5m2 => ⟨5, 2, 15, true⟩
  | .e2m1 => ⟨2, 1, 1, false⟩
  | _ => ⟨8, 23, 127, true⟩

/-- A decoded value: a NaN (signalling?), an infinity, or (−1)^neg · m · 2^e. -/
inductive Fv where
  | nan (sig : Bool) | inf (neg : Bool) | fin (neg : Bool) (m : Nat) (e : Int)
deriving DecidableEq, Repr

/-- Value of a floating code (R88, R89, R98). -/
def decodeF (f : Fmt) (code : Nat) : Fv :=
  let p := fpar f
  let w := 1 + p.eb + p.mb
  let neg := bitOf code (w - 1)
  let m := code % 2 ^ p.mb
  let e := (code >>> p.mb) % 2 ^ p.eb
  let top := 2 ^ p.eb - 1
  if p.ieee && e = top then
    if m = 0 then .inf neg else .nan (!bitOf m (p.mb - 1))
  else if f = .e4m3 && e = top && m = 7 then .nan false
  else if e = 0 then .fin neg m (1 - (p.bias : Int) - p.mb)
  else .fin neg (2 ^ p.mb + m) ((e : Int) - p.bias - p.mb)

/-- Canonical quiet NaN (R98). -/
def canonNaN : Fmt → Nat
  | .f32 => 0x7FC00000 | .bf16 => 0x7FC0 | .f16 => 0x7E00 | .e4m3 => 0x7F | .e5m2 => 0x7E | .e8m0 => 0xFF | _ => 0

/-- Sign bit of a format, set. -/
def signBit (f : Fmt) : Nat := 2 ^ (f.width - 1)
/-- Code of ±0. -/
def zeroCode (f : Fmt) (neg : Bool) : Nat := if neg then signBit f else 0
/-- Largest finite code (Table 7.1). -/
def maxCode : Fmt → Nat
  | .f32 => 0x7F7FFFFF | .bf16 => 0x7F7F | .f16 => 0x7BFF | .e4m3 => 0x7E | .e5m2 => 0x7B | .e2m1 => 0x7 | _ => 0
/-- Code of an infinity, where the format has one. -/
def infCode (f : Fmt) (neg : Bool) : Nat := zeroCode f neg + (2 ^ (fpar f).eb - 1) * 2 ^ (fpar f).mb
/-- ± the largest finite value. -/
def maxSigned (f : Fmt) (neg : Bool) : Nat := zeroCode f neg + maxCode f

/-- One step of the stochastic-rounding state (R96). -/
def srStep (s : BitVec 32) : BitVec 32 :=
  let a := s ^^^ (s <<< 13)
  let b := a ^^^ (a >>> 17)
  b ^^^ (b <<< 5)

/-- Whether a magnitude with integer part `lo`, remainder `rem` of `2^k` and a further part below one unit when `sticky`
goes to the upper neighbour (R94, R97); `r` is the step's random value. -/
def roundsUp (mode : Rnd) (neg : Bool) (lo rem k : Nat) (sticky : Bool) (r : Nat) : Bool :=
  match mode with
  | .rne | .dyn => decide (2 ^ k < 2 * rem) || (decide (2 * rem = 2 ^ k) && (sticky || lo % 2 = 1))
  | .rtz => false
  | .rdn => neg && (rem ≠ 0 || sticky)
  | .rup => !neg && (rem ≠ 0 || sticky)
  | .sr => decide (r ≤ rem * 2 ^ 32 / 2 ^ k)

/-- Number of bits of a natural number. -/
def bitLen (n : Nat) : Nat := if n = 0 then 0 else Nat.log2 n + 1

/-- Code of the overflow result (Table 7.2). -/
def ovfCode (f : Fmt) (mode : Rnd) (neg : Bool) : Nat :=
  let big := if f = .e4m3 then canonNaN f else infCode f neg
  match mode with
  | .rtz => maxSigned f neg
  | .rdn => if neg then big else maxSigned f neg
  | .rup => if neg then maxSigned f neg else big
  | _ => big

/-- Rounds the magnitude `q · 2^e` (plus a part below one unit when `sticky`) with sign `neg` to a floating format (R94,
R95). A zero magnitude gives the zero of that sign. -/
def roundMag (f : Fmt) (mode : Rnd) (sat : Bool) (r : Nat) (neg : Bool) (q : Nat) (e : Int) (sticky : Bool) : Res :=
  if q = 0 && !sticky then ⟨zeroCode f neg, 0⟩ else
  let p := fpar f
  let prec : Int := (p.mb : Int) + 1
  let emin : Int := 1 - (p.bias : Int)
  let top : Int := (bitLen q : Int) + e - 1
  let gN : Int := top - prec + 1
  let gS : Int := emin - prec + 1
  let g := if gN < gS then gS else gN
  -- the value on the grid of unit 2^g
  let at' (g : Int) : Nat × Bool :=
    if g ≤ e then (q * 2 ^ (e - g).toNat, sticky)
    else
      let k := (g - e).toNat
      let lo := q >>> k
      let rem := q % 2 ^ k
      (lo + b2n (roundsUp mode neg lo rem k sticky r), rem ≠ 0 || sticky)
  let (m, inexact) := at' g
  let tiny : Bool :=
    if top ≥ emin then false
    else if top < emin - 1 then true
    else
      let (m', _) := at' gN
      decide (m' < 2 ^ prec.toNat)
  let mx := decodeF f (maxCode f)
  let ovf : Bool := match mx with
    | .fin _ mm me => if me ≤ g then decide (mm < m * 2 ^ (g - me).toNat) else decide (mm * 2 ^ (me - g).toNat < m)
    | _ => false
  if ovf then
    if sat || f = .e2m1 then ⟨maxSigned f neg, fSAT + fNX⟩ else ⟨ovfCode f mode neg, fOF + fNX⟩
  else
    let code :=
      if m < 2 ^ p.mb then m
      else
        let (m2, g2) := if m ≥ 2 ^ (p.mb + 1) then (m / 2, g + 1) else (m, g)
        (g2 + p.mb + p.bias).toNat * 2 ^ p.mb + (m2 - 2 ^ p.mb)
    ⟨zeroCode f neg + code, if inexact then (if tiny then fUF + fNX else fNX) else 0⟩

/-- Rounds a magnitude to E8M0 (R90, R94, R95, Table 7.3): the neighbours are powers of two, a tie goes up. -/
def roundE8 (mode : Rnd) (sat : Bool) (r : Nat) (q : Nat) (e : Int) (sticky : Bool) : Res :=
  if q = 0 && !sticky then ⟨0, fNV⟩ else
  let top : Int := (bitLen q : Int) + e - 1
  let k := bitLen q - 1
  let rem := q % 2 ^ k
  let inexact := rem ≠ 0 || sticky
  let up := match mode with
    | .rne | .dyn => decide (2 ^ k ≤ 2 * rem) && inexact
    | .sr => decide (r ≤ rem * 2 ^ 32 / 2 ^ k)
    | .rup => inexact
    | _ => false
  let x := if up then top + 1 else top
  if x < -127 then ⟨0, fUF + fNX⟩
  else if x > 127 then
    if sat then ⟨0xFE, fSAT + fNX⟩
    else ⟨(match mode with | .rtz | .rdn => 0xFE | _ => 0xFF), fOF + fNX⟩
  else ⟨(x + 127).toNat, if inexact then fNX else 0⟩

/-! ### Exact dyadic arithmetic -/

/-- An exact value m · 2^e. -/
structure Dy where
  m : Int
  e : Int
deriving DecidableEq, Repr

/-- Exact zero. -/
def Dy.zero : Dy := ⟨0, 0⟩
/-- Exact sum. -/
def Dy.add (a b : Dy) : Dy :=
  if a.e ≤ b.e then ⟨a.m + b.m * (2 ^ (b.e - a.e).toNat : Nat), a.e⟩
  else ⟨a.m * (2 ^ (a.e - b.e).toNat : Nat) + b.m, b.e⟩
/-- Exact product. -/
def Dy.mul (a b : Dy) : Dy := ⟨a.m * b.m, a.e + b.e⟩
/-- Negation. -/
def Dy.neg (a : Dy) : Dy := ⟨-a.m, a.e⟩
/-- Comparison. -/
def Dy.lt (a b : Dy) : Bool := decide ((a.add b.neg).m < 0)
/-- Signed value of a finite decoded value. -/
def dyOf (neg : Bool) (m : Nat) (e : Int) : Dy := ⟨if neg then -(m : Int) else m, e⟩
/-- Rounds an exact value; an exact zero takes the sign `zneg`. -/
def roundDy (f : Fmt) (mode : Rnd) (sat : Bool) (r : Nat) (zneg : Bool) (x : Dy) : Res :=
  if x.m = 0 then ⟨zeroCode f zneg, 0⟩ else roundMag f mode sat r (x.m < 0) x.m.natAbs x.e false

/-- Whether a value is a signalling NaN. -/
def Fv.sig : Fv → Bool
  | .nan s => s
  | _ => false
/-- Whether a value is a NaN. -/
def Fv.isNaN : Fv → Bool
  | .nan _ => true
  | _ => false
/-- Sign. -/
def Fv.neg : Fv → Bool
  | .nan _ => false
  | .inf n => n
  | .fin n _ _ => n
/-- The value with its sign inverted. -/
def Fv.negate : Fv → Fv
  | .nan s => .nan s
  | .inf n => .inf (!n)
  | .fin n m e => .fin (!n) m e

/-- A NaN result: canonical, with NV when `nv` (R98). -/
def nanRes (f : Fmt) (nv : Bool) : Res := ⟨canonNaN f, if nv then fNV else 0⟩

/-- Sign of an exact zero sum of operands of these signs (R94). -/
def zeroSum (mode : Rnd) (a b : Bool) : Bool := if a = b then a else decide (mode = .rdn)

/-- Sum rounded once (R163, R100). -/
def fadd (f : Fmt) (mode : Rnd) (sat : Bool) (r : Nat) (x y : Fv) : Res :=
  match x, y with
  | .nan a, .nan b => nanRes f (a || b)
  | .nan a, _ => nanRes f a
  | _, .nan b => nanRes f b
  | .inf a, .inf b => if a = b then ⟨infCode f a, 0⟩ else nanRes f true
  | .inf a, _ => ⟨infCode f a, 0⟩
  | _, .inf b => ⟨infCode f b, 0⟩
  | .fin n m e, .fin n' m' e' => roundDy f mode sat r (zeroSum mode n n') ((dyOf n m e).add (dyOf n' m' e'))

/-- Product rounded once. -/
def fmul (f : Fmt) (mode : Rnd) (sat : Bool) (r : Nat) (x y : Fv) : Res :=
  match x, y with
  | .nan a, .nan b => nanRes f (a || b)
  | .nan a, _ => nanRes f a
  | _, .nan b => nanRes f b
  | .inf a, .inf b => ⟨infCode f (a != b), 0⟩
  | .inf a, .fin b m _ => if m = 0 then nanRes f true else ⟨infCode f (a != b), 0⟩
  | .fin a m _, .inf b => if m = 0 then nanRes f true else ⟨infCode f (a != b), 0⟩
  | .fin n m e, .fin n' m' e' => roundDy f mode sat r (n != n') ((dyOf n m e).mul (dyOf n' m' e'))

/-- x × y + z rounded once (R164): 0 × ∞ gives NaN and NV even when z is a quiet NaN. -/
def ffma (f : Fmt) (mode : Rnd) (r : Nat) (x y z : Fv) : Res :=
  let anySig := x.sig || y.sig || z.sig
  let zeroInf := match x, y with
    | .inf _, .fin _ 0 _ => true
    | .fin _ 0 _, .inf _ => true
    | _, _ => false
  if zeroInf then nanRes f true
  else if x.isNaN || y.isNaN || z.isNaN then nanRes f anySig
  else
    let pneg := x.neg != y.neg
    match x, y, z with
    | .fin n m e, .fin n' m' e', .fin n'' m'' e'' =>
      roundDy f mode false r (zeroSum mode pneg n'') (((dyOf n m e).mul (dyOf n' m' e')).add (dyOf n'' m'' e''))
    | .fin _ _ _, .fin _ _ _, .inf c => ⟨infCode f c, 0⟩
    | _, _, .inf c => if pneg = c then ⟨infCode f c, 0⟩ else nanRes f true
    | _, _, _ => ⟨infCode f pneg, 0⟩

/-- Ordering of two non-NaN values with −0 equal to +0. -/
def fvLt (x y : Fv) : Bool :=
  match x, y with
  | .inf a, .inf b => a && !b
  | .inf a, _ => a
  | _, .inf b => !b
  | .fin n m e, .fin n' m' e' => (dyOf n m e).lt (dyOf n' m' e')
  | _, _ => false
/-- Equality of two non-NaN values. -/
def fvEq (x y : Fv) : Bool :=
  match x, y with
  | .inf a, .inf b => a = b
  | .fin n m e, .fin n' m' e' => ((dyOf n m e).add (dyOf n' m' e').neg).m = 0
  | _, _ => false

/-- Minimum or maximum on codes (R101): −0 below +0, one NaN gives the number. -/
def fminmax (f : Fmt) (mx : Bool) (a b : Nat) : Res :=
  let x := decodeF f a
  let y := decodeF f b
  let nv := if x.sig || y.sig then fNV else 0
  match x.isNaN, y.isNaN with
  | true, true => ⟨canonNaN f, nv⟩
  | true, false => ⟨b, nv⟩
  | false, true => ⟨a, nv⟩
  | false, false =>
    let less := fvLt x y || (fvEq x y && x.neg && !y.neg)
    ⟨if less = mx then b else a, 0⟩

/-- A compare predicate: truth and flags (R101, R167). -/
def fcmp (p : Pred) (x y : Fv) : Bool × Nat :=
  let un := x.isNaN || y.isNaN
  let sg := if x.sig || y.sig then fNV else 0
  let oq := if un then fNV else 0
  match p with
  | .eq => (!un && fvEq x y, sg)
  | .ne => (un || !fvEq x y, sg)
  | .lt => (!un && fvLt x y, oq)
  | .le => (!un && (fvLt x y || fvEq x y), oq)
  | .gt => (!un && fvLt y x, oq)
  | .ge => (!un && (fvLt y x || fvEq x y), oq)
  | .uno => (un, sg)
  | .ord => (!un, sg)

/-! ### The five functions (R100, R166; the irrational cases: log 10) -/

/-- Integer square root by bits, from bit `n` down. -/
def isqrtGo : Nat → Nat → Nat → Nat
  | 0, _, acc => acc
  | n + 1, x, acc =>
    let t := acc + 2 ^ n
    if t * t ≤ x then isqrtGo n x t else isqrtGo n x acc
/-- Integer square root. -/
def isqrt (x : Nat) : Nat := isqrtGo (bitLen x / 2 + 1) x 0

/-- Working precision of the transcendental functions in bits. -/
def wp : Nat := 320
/-- `⌊ln 2 · 2^320⌋`. -/
def ln2 : Nat :=
  1480553391661173448385607439722553250922680800745876974795605978609098082859138712941075737848984

/-- Terms y^k / k! of the exponential series in fixed point. -/
def expTerms : Nat → Nat → Nat → Nat → Nat → Nat
  | 0, _, _, _, acc => acc
  | n + 1, k, y, t, acc => let t' := t * y / 2 ^ wp / k; expTerms n (k + 1) y t' (acc + t')
/-- `2^f · 2^320` for a fraction f given in units of 2^−320. -/
def exp2Frac (f : Nat) : Nat := expTerms 90 1 (f * ln2 / 2 ^ wp) (2 ^ wp) (2 ^ wp)

/-- 2^x for a finite exact x: the magnitude (q, e, sticky). -/
def exp2Mag (x : Dy) : Nat × Int × Bool :=
  let n : Int := if x.e ≥ 0 then x.m * (2 ^ (min x.e.toNat 20) : Nat) else x.m / (2 ^ (-x.e).toNat : Nat)
  if x.m = 0 then (1, 0, false)
  else if n > 2000 || (x.e > 20 && x.m > 0) then (1, 2000, false)
  else if n < -2000 || (x.e > 20 && x.m < 0) then (2 ^ 200, -2200, true)
  else if x.e ≥ 0 then (1, n, false)
  else
    let d := (-x.e).toNat
    let fr := (x.m - n * (2 ^ d : Nat)).toNat
    if fr = 0 then (1, n, false)
    else
      let f := if d ≤ wp then fr * 2 ^ (wp - d) else fr / 2 ^ (d - wp)
      (exp2Frac f / 2 ^ 40, n - ((wp : Int) - 40), true)

/-- Terms z^(2k+1)/(2k+1) in fixed point. -/
def atanhTerms : Nat → Nat → Nat → Nat → Nat → Nat
  | 0, _, _, _, acc => acc
  | n + 1, k, z2, t, acc => let t' := t * z2 / 2 ^ wp; atanhTerms n (k + 2) z2 t' (acc + t' / (k + 2))
/-- `log2(m / 2^(bits − 1)) · 2^320` of a significand m of `bits` bits. -/
def log2Frac (m bits : Nat) : Nat :=
  let one := 2 ^ (bits - 1)
  let z := (m - one) * 2 ^ wp / (m + one)
  let z2 := z * z / 2 ^ wp
  2 * atanhTerms 110 1 z2 z z * 2 ^ wp / ln2

/-- log2 of m · 2^e, m > 0: sign and magnitude (q, e, sticky). -/
def log2Mag (m : Nat) (e : Int) : Bool × Nat × Int × Bool :=
  let b := bitLen m
  let n : Int := e + b - 1
  if m = 2 ^ (b - 1) then (n < 0, n.natAbs, 0, false)
  else
    let v : Int := n * (2 ^ wp : Nat) + log2Frac m b
    (v < 0, v.natAbs / 2 ^ 40, -((wp : Int) - 40), true)

/-- Which of the five functions. -/
inductive Fn5 where
  | recip | rsqrt | sqrt | exp2 | log2
deriving DecidableEq, Repr

/-- The exact result of a function: a special result of Table 11.4, or a magnitude to be rounded. -/
inductive FnRes where
  | special (r : Res)
  | mag (neg : Bool) (q : Nat) (e : Int) (sticky : Bool)
deriving DecidableEq, Repr

/-- Table 11.4 and the exact values. -/
def fn5 (f : Fmt) (fn : Fn5) (x : Fv) : FnRes :=
  let one : Nat := (fpar f).bias * 2 ^ (fpar f).mb
  match x with
  | .nan s => .special (nanRes f s)
  | .inf neg =>
    match fn with
    | .recip => .special ⟨zeroCode f neg, 0⟩
    | .rsqrt => .special (if neg then nanRes f true else ⟨0, 0⟩)
    | .sqrt => .special (if neg then nanRes f true else ⟨infCode f false, 0⟩)
    | .exp2 => .special (if neg then ⟨0, 0⟩ else ⟨infCode f false, 0⟩)
    | .log2 => .special (if neg then nanRes f true else ⟨infCode f false, 0⟩)
  | .fin neg 0 _ =>
    match fn with
    | .recip => .special ⟨infCode f neg, 0⟩
    | .rsqrt => .special ⟨infCode f neg, 0⟩
    | .sqrt => .special ⟨zeroCode f neg, 0⟩
    | .exp2 => .special ⟨one, 0⟩
    | .log2 => .special ⟨infCode f true, 0⟩
  | .fin neg m e =>
    let isOne := !neg && decide (m = 2 ^ (-e).toNat) && decide (e ≤ 0)
    if isOne then
      .special (match fn with
        | .exp2 => ⟨one + 2 ^ (fpar f).mb, 0⟩
        | .log2 => ⟨0, 0⟩
        | _ => ⟨one, 0⟩)
    else
    match fn with
    | .recip =>
      let k := bitLen m + 80
      .mag neg (2 ^ k / m) (-(k : Int) - e) (2 ^ k % m ≠ 0)
    | .sqrt =>
      if neg then .special (nanRes f true) else
      let par := (e % 2).toNat
      let y := m * 2 ^ par * 2 ^ 160
      let r := isqrt y
      .mag false r ((e - par) / 2 - 80) (r * r ≠ y)
    | .rsqrt =>
      if neg then .special (nanRes f true) else
      -- 1/√(m·2^e) with e made even: √(2^(2k)/m')/2^k
      let par := (e % 2).toNat
      let m' := m * 2 ^ par
      let k := bitLen m' + 100
      let y := 2 ^ (2 * k) / m'
      let r := isqrt y
      .mag false r (-(k : Int) - (e - par) / 2) (r * r * m' ≠ 2 ^ (2 * k))
    | .exp2 =>
      let (q, e', st) := exp2Mag (dyOf neg m e)
      .mag false q e' st
    | .log2 =>
      if neg then .special (nanRes f true) else
      let (n, q, e', st) := log2Mag m e
      .mag n q e' st

/-- A function of R100 rounded once; answers also whether it rounded (and so took a step under SR). -/
def frac5 (f : Fmt) (fn : Fn5) (mode : Rnd) (sat : Bool) (r : Nat) (x : Fv) : Res :=
  match fn5 f fn x with
  | .special r => r
  | .mag neg q e st => roundMag f mode sat r neg q e st

/-- Whether a function's operand is one of Table 11.4, which takes no step. -/
def fn5Special (f : Fmt) (fn : Fn5) (x : Fv) : Bool :=
  match fn5 f fn x with
  | .special _ => true
  | .mag _ _ _ _ => false

/-! ### Conversions (R103) -/

/-- Range of an integer format (R91). -/
def intLo (f : Fmt) : Int := if f.isSigned then -((2 ^ (f.width - 1) : Nat) : Int) else 0
/-- Upper bound. -/
def intHi (f : Fmt) : Int := if f.isSigned then ((2 ^ (f.width - 1) : Nat) : Int) - 1 else ((2 ^ f.width : Nat) : Int) - 1
/-- Value of an integer code. -/
def intVal (f : Fmt) (code : Nat) : Int := if f.isSigned then toSigned f.width code else ((code % 2 ^ f.width : Nat) : Int)
/-- Code of an integer, wrapping. -/
def intCode (f : Fmt) (x : Int) : Nat := ofSigned f.width x

/-- Rounds an exact dyadic to an integer: value and whether inexact. -/
def roundInt (mode : Rnd) (r : Nat) (neg : Bool) (m : Nat) (e : Int) : Int × Bool :=
  if e ≥ 0 then ((if neg then -((m * 2 ^ e.toNat : Nat) : Int) else ((m * 2 ^ e.toNat : Nat) : Int)), false)
  else
    let k := (-e).toNat
    let lo := m >>> k
    let rem := m % 2 ^ k
    let v := lo + b2n (roundsUp mode neg lo rem k false r)
    (if neg then -(v : Int) else v, rem ≠ 0)

/-- A finite value to an integer format: out of range gives the nearest bound and NV. -/
def finToInt (d : Fmt) (mode : Rnd) (r : Nat) (neg : Bool) (m : Nat) (e : Int) : Res :=
  let e' := if e > 200 then 200 else e
  let (v, inexact) := roundInt mode r neg m e'
  if v < intLo d then ⟨intCode d (intLo d), fNV⟩
  else if v > intHi d then ⟨intCode d (intHi d), fNV⟩
  else ⟨intCode d v, if inexact then fNX else 0⟩

/-- Value of a code that is not converted by copying its bits: a float, an E8M0 scale, an integer. -/
def codeVal (src : Fmt) (code : Nat) : Fv :=
  if src.isFloat then decodeF src code
  else if src = .e8m0 then (if code = 0xFF then .nan false else .fin false 1 ((code : Int) - 127))
  else
    let v := intVal src code
    .fin (v < 0) v.natAbs 0

/-- Converts a value to a format (Table 7.3, the rows of a float source and those of an integer or E8M0 source but for
integer to integer). -/
def valTo (dst : Fmt) (mode : Rnd) (sat : Bool) (r : Nat) (val : Fv) : Res :=
  if dst.isFloat then
    match val with
    | .nan s => if dst = .e2m1 then ⟨0, fNV⟩ else nanRes dst s
    | .inf n =>
      if dst = .e4m3 then (if sat then ⟨maxSigned dst n, fSAT⟩ else nanRes dst true)
      else if dst = .e2m1 then ⟨maxSigned dst n, fSAT⟩
      else ⟨infCode dst n, 0⟩
    | .fin n m e => roundMag dst mode sat r n m e false
  else if dst = .e8m0 then
    match val with
    | .nan s => ⟨0xFF, if s then fNV else 0⟩
    | .inf _ => ⟨0xFF, fNV⟩
    | .fin _ m e => roundE8 mode sat r m e false
  else
    match val with
    | .nan _ => ⟨0, fNV⟩
    | .inf n => ⟨intCode dst (if n then intLo dst else intHi dst), fNV⟩
    | .fin n m e => finToInt dst mode r n m e

/-- Converts one element (Table 7.3). Equal codes copy the bits. -/
def convert (src dst : Fmt) (mode : Rnd) (sat : Bool) (r : Nat) (code : Nat) : Res :=
  if src = dst then ⟨code, 0⟩
  else if src.isInt && dst.isInt then
    let v := intVal src code
    if intLo dst ≤ v && v ≤ intHi dst then ⟨intCode dst v, 0⟩
    else if sat then ⟨intCode dst (if v < intLo dst then intLo dst else intHi dst), fSAT⟩
    else ⟨intCode dst v, 0⟩
  else valTo dst mode sat r (codeVal src code)

/-- Whether a conversion rounds, and so takes a step under SR (R175). -/
def convSteps (src dst : Fmt) : Bool := src ≠ dst && !(src.isInt && dst.isInt)

/-! ### Integer vector elements (R102, R168–R173) -/

/-- Sum or difference: wrapping, or clamped with SAT. -/
def intAddSub (f : Fmt) (minus sat : Bool) (a b : Nat) : Res :=
  let v := if minus then intVal f a - intVal f b else intVal f a + intVal f b
  if sat && v < intLo f then ⟨intCode f (intLo f), fSAT⟩
  else if sat && v > intHi f then ⟨intCode f (intHi f), fSAT⟩
  else ⟨intCode f v, 0⟩

/-- Shifts of an element of `w` bits by an unsigned amount: 0 left, 1 logical right, 2 arithmetic right (R172). -/
def shiftEl (kind w a k : Nat) : Nat :=
  match kind with
  | 0 => if k ≥ w then 0 else (a <<< k) % 2 ^ w
  | 1 => if k ≥ w then 0 else (a % 2 ^ w) >>> k
  | _ =>
    let v := toSigned w a
    ofSigned w (v / ((2 ^ (min k w) : Nat) : Int))

/-- FLAGS after an operation raised `fl`. -/
def orFlags (flags : Word) (fl : Nat) : Word := flags ||| BitVec.ofNat 64 fl

end Sys2Proof.Machine
end

