-- ==== Sys2Proof/WellFormed.lean ====
section
/-!
DEFINITION. Well-formed instructions: the field rules of the encodings that depend on no machine state. What depends on the
thread-count mode (R33, R69) is checked where the bundle issues.
-/
namespace Sys2Proof

/-- The static field rules (R66–R74, R76–R77, R81–R82). -/
def Instr.wf : Instr → Bool
  | .barArriveA b | .barWaitA b => decide (b.toNat ≤ 47)
  | .lcall sd _ sb _ kn rn => lcallOk sd sb kn rn
  | .xredOr ty _ _ => ty ≠ .f32
  | .rdcsr _ n => decide (n.toNat ≤ 4)
  | .wrcsr n _ => decide (n.toNat ≤ 2)
  | .nret a b c => nretOk a b c
  | .nloop _ i => i ≠ 0
  | .nbr _ i => i ≠ 0
  | i => match tileOp i, tileCmdOf i with
    | some op, some c => tileFieldsOk op c
    | _, _ => vOk i

end Sys2Proof
end

