-- ==== Sys2Proof/Decode.lean ====
section
/-!
DEFINITION. Decoders of the encodings of the part, total and rejecting, and after them the encoders: control-thread words
(R66, R67, R107), the two slots of a bundle (R68–R74), tile command words (R76) and near-data words (R81).
-/
namespace Sys2Proof

/-- `some i` when the side conditions of the encoding hold. -/
def when' (c : Bool) (i : Instr) : Option Instr := if c then some i else none

/-- Keeps a decoded instruction that meets the field rules. -/
def keepWf : Option Instr → Option Instr
  | some i => if i.wf then some i else none
  | none => none

/-! ### Code tables -/

/-- Rounding code of class RM. -/
def Rnd.code : Rnd → Nat
  | .rne => 0 | .rtz => 1 | .rdn => 2 | .rup => 3 | .sr => 4 | .dyn => 5
/-- Rounding of a code; 6 and 7 are `ILL` (R73). -/
def Rnd.ofCode : Nat → Option Rnd
  | 0 => some .rne | 1 => some .rtz | 2 => some .rdn | 3 => some .rup | 4 => some .sr | 5 => some .dyn | _ => none
/-- Element width code of class W. -/
def EW.code : EW → Nat
  | .w32 => 0 | .w16 => 1 | .w8 => 2
/-- Element width of a code. -/
def EW.ofCode : Nat → Option EW
  | 0 => some .w32 | 1 => some .w16 | 2 => some .w8 | _ => none
/-- Predicate code. -/
def Pred.code : Pred → Nat
  | .eq => 0 | .ne => 1 | .lt => 2 | .le => 3 | .gt => 4 | .ge => 5 | .uno => 6 | .ord => 7
/-- Predicate of a code. -/
def Pred.ofCode : Nat → Option Pred
  | 0 => some .eq | 1 => some .ne | 2 => some .lt | 3 => some .le | 4 => some .gt | 5 => some .ge
  | 6 => some .uno | 7 => some .ord | _ => none
/-- Load SUB code. -/
def LdK.code : LdK → Nat
  | .i8 => 0 | .n8 => 1 | .i16 => 2 | .n16 => 3 | .i32 => 4 | .n32 => 5 | .d64 => 6
/-- Load kind of a SUB code. -/
def LdK.ofCode : Nat → Option LdK
  | 0 => some .i8 | 1 => some .n8 | 2 => some .i16 | 3 => some .n16 | 4 => some .i32 | 5 => some .n32 | 6 => some .d64
  | _ => none
/-- Store SUB code. -/
def StK.code : StK → Nat
  | .b8 => 0 | .b16 => 1 | .b32 => 2 | .b64 => 3
/-- Store size of a SUB code. -/
def StK.ofCode : Nat → Option StK
  | 0 => some .b8 | 1 => some .b16 | 2 => some .b32 | 3 => some .b64 | _ => none
/-- Scope code. -/
def Scope.code : Scope → Nat
  | .cl => 0 | .dv => 1 | .sy => 2
/-- Scope of a code. -/
def Scope.ofCode : Nat → Option Scope
  | 0 => some .cl | 1 => some .dv | 2 => some .sy | _ => none
/-- ORD and SC of an atomic. -/
def GaOrd.code : GaOrd → Nat × Nat
  | .plain => (0, 0) | .acq s => (1, s.code) | .rel s => (2, s.code) | .acqRel s => (3, s.code)
/-- Order of ORD and SC codes; SC is zero with ORD 0 (R72). -/
def GaOrd.ofCode : Nat → Nat → Option GaOrd
  | 0, 0 => some .plain
  | 1, s => (Scope.ofCode s).map .acq
  | 2, s => (Scope.ofCode s).map .rel
  | 3, s => (Scope.ofCode s).map .acqRel
  | _, _ => none
/-- TY code of `xred`. -/
def XTy.code : XTy → Nat
  | .i32 => 0 | .n32 => 1 | .f32 => 2 | .i64 => 3 | .n64 => 4
/-- Type of an `xred` TY code. -/
def XTy.ofCode : Nat → Option XTy
  | 0 => some .i32 | 1 => some .n32 | 2 => some .f32 | 3 => some .i64 | 4 => some .n64 | _ => none
/-- TY code of `vext`. -/
def VxTy.code : VxTy → Nat
  | .i32 => 0 | .n32 => 1 | .i16 => 2 | .n16 => 3 | .i8 => 4 | .n8 => 5 | .d64 => 6
/-- Type of a `vext` TY code. -/
def VxTy.ofCode : Nat → Option VxTy
  | 0 => some .i32 | 1 => some .n32 | 2 => some .i16 | 3 => some .n16 | 4 => some .i8 | 5 => some .n8 | 6 => some .d64
  | _ => none
/-- Condition code of `ncmp`. -/
def NCond.code : NCond → Nat
  | .eq => 0 | .ne => 1 | .lt => 2 | .ge => 3 | .ltu => 4 | .geu => 5 | .flt => 6 | .fge => 7
/-- Condition of an `ncmp` code. -/
def NCond.ofCode : Nat → Option NCond
  | 0 => some .eq | 1 => some .ne | 2 => some .lt | 3 => some .ge | 4 => some .ltu | 5 => some .geu
  | 6 => some .flt | 7 => some .fge | _ => none
/-- Format of a class INT code. -/
def Fmt.ofIntCode : Nat → Option Fmt
  | 0 => some .i32 | 1 => some .n32 | 2 => some .i16 | 3 => some .n16 | 4 => some .i8 | 5 => some .n8 | _ => none
/-- Format of a class FP5 code. -/
def Fmt.ofFpCode : Nat → Option Fmt
  | 0 => some .f32 | 1 => some .bf16 | 2 => some .f16 | 3 => some .e4m3 | 4 => some .e5m2 | 5 => some .e2m1 | _ => none

/-! ### Control-thread words (R66, R67) -/

/-- An R-type word (R66). -/
def rtype (f7 : BitVec 7) (rs2 rs1 : XReg) (f3 : BitVec 3) (rd : XReg) (op : BitVec 7) : BitVec 32 :=
  f7 ++ rs2 ++ rs1 ++ f3 ++ rd ++ op

/-- Table 5.9 over the fields of an R-type word; a `—` register must be zero. -/
def decodeCustomF (op f3 f7 : Nat) (f7b : BitVec 7) (rd rs1 rs2 : XReg) : Option Instr :=
  let z1 := rs1 = 0
  let z2 := rs2 = 0
  match op with
  | 0x0B =>
    match f3 with
    | 0 => when' (fld f7b 4 3 = 0) (.mtBcast (fld f7b 0 4) rd rs1 rs2)
    | 1 =>
      match f7 with
      | 0 => some (.mtStart rd rs1 rs2)
      | 1 => when' z2 (.mtWait rd rs1)
      | 2 => when' z2 (.mtPoll rd rs1)
      | 3 => when' z2 (.mtKill rd rs1)
      | 4 => when' z2 (.mtMode rd rs1)
      | 5 => when' z2 (.mtRdreg rd rs1)
      | 6 => some (.mtWrreg rd rs1 rs2)
      | 7 => when' z2 (.mtResume rd rs1)
      | 8 => some (.mtRedirect rd rs1 rs2)
      | 9 => when' z2 (.mtEvict rd rs1)
      | 10 => some (.mtAdmit rd rs1 rs2)
      | _ => none
    | _ => none
  | 0x2B =>
    match f3 with
    | 0 =>
      match f7 with
      | 0 => when' z2 (.tcPush rd rs1)
      | 1 => when' z2 (.tcTrypush rd rs1)
      | 2 => some (.tcSend rd rs1 rs2)
      | 3 => when' z2 (.jobWait rd rs1)
      | 4 => when' z2 (.jobPoll rd rs1)
      | 5 => when' z2 (.tcMint rd rs1)
      | _ => none
    | 1 =>
      match f7 with
      | 0 => when' z2 (.taskPush rd rs1)
      | 1 => when' z2 (.taskPop rd rs1)
      | 2 => when' z2 (.taskTrypop rd rs1)
      | 3 => when' (z1 && z2) (.taskDone rd)
      | _ => none
    | 2 =>
      match f7 with
      | 0 => some (.mbxSend rd rs1 rs2)
      | 1 => when' (z1 && z2) (.mbxRecv rd)
      | 2 => when' z2 (.mbxTryrecv rd rs1)
      | _ => none
    | _ => none
  | 0x5B =>
    match f3 with
    | 0 =>
      match f7 with
      | 0 => some (.barInit rd rs1 rs2)
      | 1 => some (.barBind rd rs1 rs2)
      | 2 => when' z2 (.barArrive rd rs1)
      | 3 => when' z2 (.barWait rd rs1)
      | 4 => when' z2 (.barTest rd rs1)
      | _ => none
    | 1 =>
      match f7 with
      | 0 => some (.qBind rd rs1 rs2)
      | _ => none
    | 2 =>
      match f7 with
      | 0 => when' z2 (.ctSleep rd rs1)
      | _ => none
    | 3 =>
      match f7 with
      | 0 => when' (z1 && z2) (.fenceCl rd)
      | 1 => when' (z1 && z2) (.fenceDv rd)
      | 2 => when' (z1 && z2) (.fenceSy rd)
      | _ => none
    | _ => none
  | 0x7B =>
    match f3 with
    | 0 =>
      match f7 with
      | 0 => when' (z1 && z2) (.pairOn rd)
      | 1 => when' (z1 && z2) (.pairOff rd)
      | 2 => some (.coreStart rd rs1 rs2)
      | _ => none
    | _ => none
  | _ => none

/-- Control-thread custom instructions (R66, R67). -/
def decodeCustom (w : BitVec 32) : Option Instr :=
  decodeCustomF (fld w 0 7).toNat (fld w 12 3).toNat (fld w 25 7).toNat (fld w 25 7) (fld w 7 5) (fld w 15 5) (fld w 20 5)

/-- Words of the control-thread custom instructions. -/
def encodeCustom : Instr → Option (BitVec 32)
  | .mtBcast n rd a b => some (rtype (0#3 ++ n) b a 0 rd 0x0B)
  | .mtStart rd a b => some (rtype 0 b a 1 rd 0x0B)
  | .mtWait rd a => some (rtype 1 0 a 1 rd 0x0B)
  | .mtPoll rd a => some (rtype 2 0 a 1 rd 0x0B)
  | .mtKill rd a => some (rtype 3 0 a 1 rd 0x0B)
  | .mtMode rd a => some (rtype 4 0 a 1 rd 0x0B)
  | .mtRdreg rd a => some (rtype 5 0 a 1 rd 0x0B)
  | .mtWrreg rd a b => some (rtype 6 b a 1 rd 0x0B)
  | .mtResume rd a => some (rtype 7 0 a 1 rd 0x0B)
  | .mtRedirect rd a b => some (rtype 8 b a 1 rd 0x0B)
  | .mtEvict rd a => some (rtype 9 0 a 1 rd 0x0B)
  | .mtAdmit rd a b => some (rtype 10 b a 1 rd 0x0B)
  | .tcPush rd a => some (rtype 0 0 a 0 rd 0x2B)
  | .tcTrypush rd a => some (rtype 1 0 a 0 rd 0x2B)
  | .tcSend rd a b => some (rtype 2 b a 0 rd 0x2B)
  | .jobWait rd a => some (rtype 3 0 a 0 rd 0x2B)
  | .jobPoll rd a => some (rtype 4 0 a 0 rd 0x2B)
  | .tcMint rd a => some (rtype 5 0 a 0 rd 0x2B)
  | .taskPush rd a => some (rtype 0 0 a 1 rd 0x2B)
  | .taskPop rd a => some (rtype 1 0 a 1 rd 0x2B)
  | .taskTrypop rd a => some (rtype 2 0 a 1 rd 0x2B)
  | .taskDone rd => some (rtype 3 0 0 1 rd 0x2B)
  | .mbxSend rd a b => some (rtype 0 b a 2 rd 0x2B)
  | .mbxRecv rd => some (rtype 1 0 0 2 rd 0x2B)
  | .mbxTryrecv rd a => some (rtype 2 0 a 2 rd 0x2B)
  | .barInit rd a b => some (rtype 0 b a 0 rd 0x5B)
  | .barBind rd a b => some (rtype 1 b a 0 rd 0x5B)
  | .barArrive rd a => some (rtype 2 0 a 0 rd 0x5B)
  | .barWait rd a => some (rtype 3 0 a 0 rd 0x5B)
  | .barTest rd a => some (rtype 4 0 a 0 rd 0x5B)
  | .qBind rd a b => some (rtype 0 b a 1 rd 0x5B)
  | .ctSleep rd a => some (rtype 0 0 a 2 rd 0x5B)
  | .fenceCl rd => some (rtype 0 0 0 3 rd 0x5B)
  | .fenceDv rd => some (rtype 1 0 0 3 rd 0x5B)
  | .fenceSy rd => some (rtype 2 0 0 3 rd 0x5B)
  | .pairOn rd => some (rtype 0 0 0 0 rd 0x7B)
  | .pairOff rd => some (rtype 1 0 0 0 rd 0x7B)
  | .coreStart rd a b => some (rtype 2 b a 0 rd 0x7B)
  | _ => none

/-! ### The base set (R107; RV64I, M, A, Zicsr, Zba, Zbb as ratified) -/

/-- Register computations: funct7 and funct3 in OP. -/
def RvAlu.codes : RvAlu → Nat × Nat
  | .add => (0, 0) | .sub => (0x20, 0) | .sll => (0, 1) | .slt => (0, 2) | .sltu => (0, 3) | .xor => (0, 4)
  | .srl => (0, 5) | .sra => (0x20, 5) | .or => (0, 6) | .and => (0, 7)
  | .mul => (1, 0) | .mulh => (1, 1) | .mulhsu => (1, 2) | .mulhu => (1, 3) | .div => (1, 4) | .divu => (1, 5)
  | .rem => (1, 6) | .remu => (1, 7)
  | .sh1add => (0x10, 2) | .sh2add => (0x10, 4) | .sh3add => (0x10, 6)
  | .andn => (0x20, 7) | .orn => (0x20, 6) | .xnor => (0x20, 4)
  | .min => (5, 4) | .minu => (5, 5) | .max => (5, 6) | .maxu => (5, 7) | .rol => (0x30, 1) | .ror => (0x30, 5)
  | .addUw => (4, 0) | .sh1addUw => (0x10, 2) | .sh2addUw => (0x10, 4) | .sh3addUw => (0x10, 6)

/-- Whether the computation stands in OP-32 (the `.uw` forms). -/
def RvAlu.uw : RvAlu → Bool
  | .addUw | .sh1addUw | .sh2addUw | .sh3addUw => true
  | _ => false

/-- Register computations of OP by funct7 and funct3. -/
def RvAlu.ofCodes : Nat → Nat → Option RvAlu
  | 0, 0 => some .add | 0x20, 0 => some .sub | 0, 1 => some .sll | 0, 2 => some .slt | 0, 3 => some .sltu
  | 0, 4 => some .xor | 0, 5 => some .srl | 0x20, 5 => some .sra | 0, 6 => some .or | 0, 7 => some .and
  | 1, 0 => some .mul | 1, 1 => some .mulh | 1, 2 => some .mulhsu | 1, 3 => some .mulhu | 1, 4 => some .div
  | 1, 5 => some .divu | 1, 6 => some .rem | 1, 7 => some .remu
  | 0x10, 2 => some .sh1add | 0x10, 4 => some .sh2add | 0x10, 6 => some .sh3add
  | 0x20, 7 => some .andn | 0x20, 6 => some .orn | 0x20, 4 => some .xnor
  | 5, 4 => some .min | 5, 5 => some .minu | 5, 6 => some .max | 5, 7 => some .maxu
  | 0x30, 1 => some .rol | 0x30, 5 => some .ror
  | _, _ => none

/-- 32-bit register computations: funct7 and funct3 in OP-32. -/
def RvAluW.codes : RvAluW → Nat × Nat
  | .addw => (0, 0) | .subw => (0x20, 0) | .sllw => (0, 1) | .srlw => (0, 5) | .sraw => (0x20, 5)
  | .mulw => (1, 0) | .divw => (1, 4) | .divuw => (1, 5) | .remw => (1, 6) | .remuw => (1, 7)
  | .rolw => (0x30, 1) | .rorw => (0x30, 5)

/-- Immediate computations: opcode and funct3. -/
def RvImm.codes : RvImm → Nat × Nat
  | .addi => (0x13, 0) | .slti => (0x13, 2) | .sltiu => (0x13, 3) | .xori => (0x13, 4) | .ori => (0x13, 6)
  | .andi => (0x13, 7) | .addiw => (0x1B, 0)

/-- 64-bit immediate shifts: opcode, funct6 and funct3. -/
def RvSh.codes : RvSh → Nat × Nat × Nat
  | .slli => (0x13, 0, 1) | .srli => (0x13, 0, 5) | .srai => (0x13, 0x10, 5) | .rori => (0x13, 0x18, 5)
  | .slliUw => (0x1B, 2, 1)

/-- 32-bit immediate shifts: funct7 and funct3 in OP-IMM-32. -/
def RvShW.codes : RvShW → Nat × Nat
  | .slliw => (0, 1) | .srliw => (0, 5) | .sraiw => (0x20, 5) | .roriw => (0x30, 5)

/-- One-source computations of Zbb: opcode, 12-bit field [31:20] and funct3. -/
def RvUn.codes : RvUn → Nat × Nat × Nat
  | .clz => (0x13, 0x600, 1) | .ctz => (0x13, 0x601, 1) | .cpop => (0x13, 0x602, 1)
  | .sextB => (0x13, 0x604, 1) | .sextH => (0x13, 0x605, 1)
  | .clzw => (0x1B, 0x600, 1) | .ctzw => (0x1B, 0x601, 1) | .cpopw => (0x1B, 0x602, 1)
  | .zextH => (0x3B, 0x080, 4) | .orcB => (0x13, 0x287, 5) | .rev8 => (0x13, 0x6B8, 5)

/-- Branch funct3. -/
def RvBr.code : RvBr → Nat
  | .beq => 0 | .bne => 1 | .blt => 4 | .bge => 5 | .bltu => 6 | .bgeu => 7
/-- Load funct3. -/
def RvLd.code : RvLd → Nat
  | .lb => 0 | .lh => 1 | .lw => 2 | .ld => 3 | .lbu => 4 | .lhu => 5 | .lwu => 6
/-- AMO funct5. -/
def AmoOp.code : AmoOp → Nat
  | .add => 0 | .swap => 1 | .xor => 4 | .or => 8 | .and => 0xC | .min => 0x10 | .max => 0x14 | .minu => 0x18
  | .maxu => 0x1C
/-- AMO of a funct5; LR and SC are 2 and 3. -/
def AmoOp.ofCode : Nat → Option AmoOp
  | 0 => some .add | 1 => some .swap | 4 => some .xor | 8 => some .or | 0xC => some .and | 0x10 => some .min
  | 0x14 => some .max | 0x18 => some .minu | 0x1C => some .maxu | _ => none

/-- One-source computations by their field, in OP-IMM with funct3 1. -/
def unImm1 : Nat → Option RvUn
  | 0x600 => some .clz | 0x601 => some .ctz | 0x602 => some .cpop | 0x604 => some .sextB | 0x605 => some .sextH
  | _ => none

/-- OP-IMM (0x13). -/
def decodeOpImm (f3 f12 : Nat) (i12 : BitVec 12) (rd rs1 : XReg) : Option RvOp :=
  match f3 with
  | 0 => some (.opImm .addi rd rs1 i12)
  | 2 => some (.opImm .slti rd rs1 i12)
  | 3 => some (.opImm .sltiu rd rs1 i12)
  | 4 => some (.opImm .xori rd rs1 i12)
  | 6 => some (.opImm .ori rd rs1 i12)
  | 7 => some (.opImm .andi rd rs1 i12)
  | 1 =>
    match f12 / 64 with
    | 0 => some (.shImm .slli rd rs1 (fld i12 0 6))
    | _ => (unImm1 f12).map (fun u => .un u rd rs1)
  | 5 =>
    match f12 / 64 with
    | 0 => some (.shImm .srli rd rs1 (fld i12 0 6))
    | 0x10 => some (.shImm .srai rd rs1 (fld i12 0 6))
    | 0x18 => some (.shImm .rori rd rs1 (fld i12 0 6))
    | _ =>
      match f12 with
      | 0x287 => some (.un .orcB rd rs1)
      | 0x6B8 => some (.un .rev8 rd rs1)
      | _ => none
  | _ => none

/-- OP-IMM-32 (0x1B). -/
def decodeOpImm32 (f3 f12 : Nat) (i12 : BitVec 12) (rd rs1 : XReg) : Option RvOp :=
  match f3 with
  | 0 => some (.opImm .addiw rd rs1 i12)
  | 1 =>
    match f12 / 32 with
    | 0 => some (.shImmW .slliw rd rs1 (fld i12 0 5))
    | 4 => some (.shImm .slliUw rd rs1 (fld i12 0 6))
    | 5 => some (.shImm .slliUw rd rs1 (fld i12 0 6))
    | _ =>
      match f12 with
      | 0x600 => some (.un .clzw rd rs1)
      | 0x601 => some (.un .ctzw rd rs1)
      | 0x602 => some (.un .cpopw rd rs1)
      | _ => none
  | 5 =>
    match f12 / 32 with
    | 0 => some (.shImmW .srliw rd rs1 (fld i12 0 5))
    | 0x20 => some (.shImmW .sraiw rd rs1 (fld i12 0 5))
    | 0x30 => some (.shImmW .roriw rd rs1 (fld i12 0 5))
    | _ => none
  | _ => none

/-- OP-32 (0x3B). -/
def decodeOp32 (f7 f3 : Nat) (rd rs1 rs2 : XReg) : Option RvOp :=
  match f7, f3 with
  | 0, 0 => some (.aluW .addw rd rs1 rs2)
  | 0x20, 0 => some (.aluW .subw rd rs1 rs2)
  | 0, 1 => some (.aluW .sllw rd rs1 rs2)
  | 0, 5 => some (.aluW .srlw rd rs1 rs2)
  | 0x20, 5 => some (.aluW .sraw rd rs1 rs2)
  | 1, 0 => some (.aluW .mulw rd rs1 rs2)
  | 1, 4 => some (.aluW .divw rd rs1 rs2)
  | 1, 5 => some (.aluW .divuw rd rs1 rs2)
  | 1, 6 => some (.aluW .remw rd rs1 rs2)
  | 1, 7 => some (.aluW .remuw rd rs1 rs2)
  | 0x30, 1 => some (.aluW .rolw rd rs1 rs2)
  | 0x30, 5 => some (.aluW .rorw rd rs1 rs2)
  | 4, 0 => some (.alu .addUw rd rs1 rs2)
  | 4, 4 => if rs2 = 0 then some (.un .zextH rd rs1) else none
  | 0x10, 2 => some (.alu .sh1addUw rd rs1 rs2)
  | 0x10, 4 => some (.alu .sh2addUw rd rs1 rs2)
  | 0x10, 6 => some (.alu .sh3addUw rd rs1 rs2)
  | _, _ => none

/-- Load kind by funct3. -/
def RvLd.ofCode : Nat → Option RvLd
  | 0 => some .lb | 1 => some .lh | 2 => some .lw | 3 => some .ld | 4 => some .lbu | 5 => some .lhu | 6 => some .lwu
  | _ => none
/-- Branch by funct3. -/
def RvBr.ofCode : Nat → Option RvBr
  | 0 => some .beq | 1 => some .bne | 4 => some .blt | 5 => some .bge | 6 => some .bltu | 7 => some .bgeu | _ => none

/-- AMO (0x2F): funct5, aq and rl, width by funct3. -/
def decodeAmo (f5 f3 : Nat) (aq rl : Bool) (rd rs1 rs2 : XReg) : Option Instr :=
  if f3 ≠ 2 && f3 ≠ 3 then none else
  let d := f3 == 3
  match f5 with
  | 2 => when' (rs2 = 0) (.rvLr d aq rl rd rs1)
  | 3 => some (.rvSc d aq rl rd rs1 rs2)
  | f => (AmoOp.ofCode f).map (fun o => .rvAmo o d aq rl rd rs1 rs2)

/-- SYSTEM (0x73). -/
def decodeSystem (f3 : Nat) (w : BitVec 32) (rd rs1 : XReg) : Option Instr :=
  let csr : BitVec 12 := fld w 20 12
  match f3 with
  | 0 =>
    match w.toNat with
    | 0x73 => some (.rvIntegerOp .ecall)
    | 0x100073 => some (.rvIntegerOp .ebreak)
    | 0x30200073 => some .rvMret
    | 0x10500073 => some .rvWfi
    | _ => none
  | 1 => some (.rvCsrAccess .rw false csr rd rs1)
  | 2 => some (.rvCsrAccess .rs false csr rd rs1)
  | 3 => some (.rvCsrAccess .rc false csr rd rs1)
  | 5 => some (.rvCsrAccess .rw true csr rd rs1)
  | 6 => some (.rvCsrAccess .rs true csr rd rs1)
  | 7 => some (.rvCsrAccess .rc true csr rd rs1)
  | _ => none

/-- B-type offset [12:1]. -/
def brOff (w : BitVec 32) : BitVec 12 := fld w 31 1 ++ fld w 7 1 ++ fld w 25 6 ++ fld w 8 4
/-- J-type offset [20:1]. -/
def jalOff (w : BitVec 32) : BitVec 20 := fld w 31 1 ++ fld w 12 8 ++ fld w 20 1 ++ fld w 21 10

/-- The base set on the control thread (R107). -/
def decodeRv (w : BitVec 32) : Option Instr :=
  let f3 := (fld w 12 3).toNat
  let f7 := (fld w 25 7).toNat
  let rd : XReg := fld w 7 5
  let rs1 : XReg := fld w 15 5
  let rs2 : XReg := fld w 20 5
  let i12 : BitVec 12 := fld w 20 12
  match (fld w 0 7).toNat with
  | 0x37 => some (.rvIntegerOp (.lui rd (fld w 12 20)))
  | 0x17 => some (.rvIntegerOp (.auipc rd (fld w 12 20)))
  | 0x6F => some (.rvIntegerOp (.jal rd (jalOff w)))
  | 0x67 => when' (f3 == 0) (.rvIntegerOp (.jalr rd rs1 i12))
  | 0x63 => (RvBr.ofCode f3).map (fun c => .rvIntegerOp (.br c rs1 rs2 (brOff w)))
  | 0x03 => (RvLd.ofCode f3).map (fun k => .rvLoad k rd rs1 i12)
  | 0x23 => (StK.ofCode f3).map (fun k => .rvStore k rs1 rs2 (fld w 25 7 ++ fld w 7 5))
  | 0x13 => (decodeOpImm f3 i12.toNat i12 rd rs1).map .rvIntegerOp
  | 0x1B => (decodeOpImm32 f3 i12.toNat i12 rd rs1).map .rvIntegerOp
  | 0x33 => (RvAlu.ofCodes f7 f3).map (fun f => .rvIntegerOp (.alu f rd rs1 rs2))
  | 0x3B => (decodeOp32 f7 f3 rd rs1 rs2).map .rvIntegerOp
  | 0x0F =>
    match f3 with
    | 0 => some .rvFence
    | 1 => some .rvFenceI
    | _ => none
  | 0x2F => decodeAmo (f7 / 4) f3 (fld w 26 1 = 1) (fld w 25 1 = 1) rd rs1 rs2
  | 0x73 => decodeSystem f3 w rd rs1
  | _ => none

/-- What a control-thread word stands for; no meaning is the illegal-instruction exception (R67, R107). -/
def decodeCt (w : BitVec 32) : Option Instr :=
  match decodeCustom w with
  | some i => some i
  | none => decodeRv w

/-- An I-type word. -/
def itype (imm : BitVec 12) (rs1 : XReg) (f3 : BitVec 3) (rd : XReg) (op : BitVec 7) : BitVec 32 :=
  imm ++ rs1 ++ f3 ++ rd ++ op

/-- Words of the computations, branches and jumps. -/
def encodeRvOp : RvOp → BitVec 32
  | .alu f rd a b => rtype (BitVec.ofNat 7 f.codes.1) b a (BitVec.ofNat 3 f.codes.2) rd (if f.uw then 0x3B else 0x33)
  | .aluW f rd a b => rtype (BitVec.ofNat 7 f.codes.1) b a (BitVec.ofNat 3 f.codes.2) rd 0x3B
  | .opImm f rd a i => itype i a (BitVec.ofNat 3 f.codes.2) rd (BitVec.ofNat 7 f.codes.1)
  | .shImm f rd a k => itype (BitVec.ofNat 6 f.codes.2.1 ++ k) a (BitVec.ofNat 3 f.codes.2.2) rd (BitVec.ofNat 7 f.codes.1)
  | .shImmW f rd a k => itype (BitVec.ofNat 7 f.codes.1 ++ k) a (BitVec.ofNat 3 f.codes.2) rd 0x1B
  | .un u rd a => itype (BitVec.ofNat 12 u.codes.2.1) a (BitVec.ofNat 3 u.codes.2.2) rd (BitVec.ofNat 7 u.codes.1)
  | .lui rd i => i ++ rd ++ 0x37#7
  | .auipc rd i => i ++ rd ++ 0x17#7
  | .jal rd o => fld o 19 1 ++ fld o 0 10 ++ fld o 10 1 ++ fld o 11 8 ++ rd ++ 0x6F#7
  | .jalr rd a i => itype i a 0 rd 0x67
  | .br c a b o =>
    fld o 11 1 ++ fld o 4 6 ++ b ++ a ++ BitVec.ofNat 3 c.code ++ fld o 0 4 ++ fld o 10 1 ++ 0x63#7
  | .ecall => 0x73
  | .ebreak => 0x100073

/-- Words of the base set. -/
def encodeRv : Instr → Option (BitVec 32)
  | .rvIntegerOp o => some (encodeRvOp o)
  | .rvLoad k rd a i => some (itype i a (BitVec.ofNat 3 k.code) rd 0x03)
  | .rvStore k a b i => some (rtype (fld i 5 7) b a (BitVec.ofNat 3 k.code) (fld i 0 5) 0x23)
  | .rvAmo o d aq rl rd a b =>
    some (rtype (BitVec.ofNat 5 o.code ++ BitVec.ofBool aq ++ BitVec.ofBool rl) b a (if d then 3 else 2) rd 0x2F)
  | .rvLr d aq rl rd a =>
    some (rtype (2#5 ++ BitVec.ofBool aq ++ BitVec.ofBool rl) 0 a (if d then 3 else 2) rd 0x2F)
  | .rvSc d aq rl rd a b =>
    some (rtype (3#5 ++ BitVec.ofBool aq ++ BitVec.ofBool rl) b a (if d then 3 else 2) rd 0x2F)
  | .rvCsrAccess op im csr rd a =>
    some (itype csr a (BitVec.ofNat 3 ((match op with | .rw => 1 | .rs => 2 | .rc => 3) + (if im then 4 else 0))) rd 0x73)
  | .rvFence => some 0x0FF0000F
  | .rvFenceI => some 0x100F
  | .rvWfi => some 0x10500073
  | .rvMret => some 0x30200073
  | _ => none

/-! ### A-slot words: bits [61:32] of a bundle, numbered from 0 (R70–R72) -/

/-- Format AR. -/
def pAR (op : BitVec 6) (sd sa sb : SReg) (fn : BitVec 6) : BitVec 30 := op ++ sd ++ sa ++ sb ++ fn ++ 0#6
/-- Format AI. -/
def pAI (op : BitVec 6) (sd sa : SReg) (imm : BitVec 16) : BitVec 30 := op ++ sd ++ sa ++ imm
/-- Format AB. -/
def pAB (op : BitVec 6) (sa sb : SReg) (cond : BitVec 3) (blk : BitVec 10) : BitVec 30 := op ++ sa ++ sb ++ cond ++ 0#3 ++ blk
/-- Format AM. -/
def pAM (op : BitVec 6) (t : VReg) (sa : SReg) (sub : BitVec 3) (imm : BitVec 12) : BitVec 30 := op ++ t ++ sa ++ sub ++ imm
/-- Format AG. -/
def pAG (op : BitVec 6) (t : VReg) (sa : SReg) (sub : BitVec 3) (ord sc : BitVec 2) (imm : BitVec 8) : BitVec 30 :=
  op ++ t ++ sa ++ sub ++ ord ++ sc ++ imm
/-- Format AV. -/
def pAV (op : BitVec 6) (t : VReg) (sa : SReg) (vi : VReg) (w : BitVec 2) (m : MReg) : BitVec 30 :=
  op ++ t ++ sa ++ vi ++ w ++ m ++ 0#6
/-- Format AA. -/
def pAA (sd sa sb : SReg) (fn : BitVec 4) (w64 : Bool) (ord sc : BitVec 2) : BitVec 30 :=
  0x1C#6 ++ sd ++ sa ++ sb ++ fn ++ BitVec.ofBool w64 ++ ord ++ sc ++ 0#3
/-- Format AX. -/
def pAX (sa sb : SReg) (fn : BitVec 2) (ty : BitVec 3) : BitVec 30 := 0x24#6 ++ 0#4 ++ sa ++ sb ++ fn ++ ty ++ 0#7
/-- Format AQ. -/
def pAQ (op : BitVec 6) (sd se : SReg) (q : BitVec 3) : BitVec 30 := op ++ sd ++ se ++ q ++ 0#13

/-- Word of an atomic. -/
def encGa (fn : BitVec 4) (w64 : Bool) (o : GaOrd) (sd sa sb : SReg) : Bool × BitVec 30 :=
  (false, pAA sd sa sb fn w64 (BitVec.ofNat 2 o.code.1) (BitVec.ofNat 2 o.code.2))

/-- ORD and SC of a load. -/
def acqCode : Option Scope → BitVec 2 × BitVec 2
  | none => (0, 0)
  | some s => (1, BitVec.ofNat 2 s.code)
/-- ORD and SC of a store. -/
def relCode : Option Scope → BitVec 2 × BitVec 2
  | none => (0, 0)
  | some s => (2, BitVec.ofNat 2 s.code)

/-- X (bit 62) and A-slot word of an A-slot instruction. -/
def encodeA : Instr → Option (Bool × BitVec 30)
  | .nop => some (false, 0)
  | .add d a b => some (false, pAR 1 d a b 0)
  | .sub d a b => some (false, pAR 1 d a b 1)
  | .and d a b => some (false, pAR 1 d a b 2)
  | .or d a b => some (false, pAR 1 d a b 3)
  | .xor d a b => some (false, pAR 1 d a b 4)
  | .sll d a b => some (false, pAR 1 d a b 5)
  | .srl d a b => some (false, pAR 1 d a b 6)
  | .sra d a b => some (false, pAR 1 d a b 7)
  | .mul d a b => some (false, pAR 1 d a b 8)
  | .mulh d a b => some (false, pAR 1 d a b 9)
  | .mulhu d a b => some (false, pAR 1 d a b 10)
  | .min d a b => some (false, pAR 1 d a b 11)
  | .max d a b => some (false, pAR 1 d a b 12)
  | .minu d a b => some (false, pAR 1 d a b 13)
  | .maxu d a b => some (false, pAR 1 d a b 14)
  | .slt d a b => some (false, pAR 1 d a b 15)
  | .sltu d a b => some (false, pAR 1 d a b 16)
  | .addi d a i => some (false, pAI 2 d a i)
  | .andi d a i => some (false, pAI 3 d a i)
  | .ori d a i => some (false, pAI 4 d a i)
  | .xori d a i => some (false, pAI 5 d a i)
  | .slti d a i => some (false, pAI 6 d a i)
  | .sltiu d a i => some (false, pAI 7 d a i)
  | .slli d a k => some (false, pAI 8 d a (0#8 ++ 0#2 ++ k))
  | .srli d a k => some (false, pAI 8 d a (0#8 ++ 1#2 ++ k))
  | .srai d a k => some (false, pAI 8 d a (0#8 ++ 2#2 ++ k))
  | .lui d i => some (false, 9#6 ++ d ++ i)
  | .beq a b t => some (false, pAB 0x0C a b 0 t)
  | .bne a b t => some (false, pAB 0x0C a b 1 t)
  | .blt a b t => some (false, pAB 0x0C a b 2 t)
  | .bge a b t => some (false, pAB 0x0C a b 3 t)
  | .bltu a b t => some (false, pAB 0x0C a b 4 t)
  | .bgeu a b t => some (false, pAB 0x0C a b 5 t)
  | .bany w m t => some (false, 0x0D#6 ++ m ++ 0#6 ++ 0#3 ++ BitVec.ofNat 2 w.code ++ 0#1 ++ t)
  | .ball w m t => some (false, 0x0D#6 ++ m ++ 0#6 ++ 1#3 ++ BitVec.ofNat 2 w.code ++ 0#1 ++ t)
  | .bnone w m t => some (false, 0x0D#6 ++ m ++ 0#6 ++ 2#3 ++ BitVec.ofNat 2 w.code ++ 0#1 ++ t)
  | .bnall w m t => some (false, 0x0D#6 ++ m ++ 0#6 ++ 3#3 ++ BitVec.ofNat 2 w.code ++ 0#1 ++ t)
  | .jmp t => some (false, pAB 0x0E 0 0 0 t)
  | .jmpReg a => some (false, pAB 0x0E a 0 1 0)
  | .bfetch t => some (false, pAB 0x0F 0 0 0 t)
  | .bfetchReg a => some (false, pAB 0x0F a 0 1 0)
  | .ld k d a i => some (false, pAM 0x10 (0#1 ++ d) a (BitVec.ofNat 3 k.code) i)
  | .st k d a i => some (false, pAM 0x11 (0#1 ++ d) a (BitVec.ofNat 3 k.code) i)
  | .vld v a i => some (false, pAM 0x12 v a 0 i)
  | .vst v a i => some (false, pAM 0x13 v a 0 i)
  | .vldx w v a vi m => some (false, pAV 0x14 v a vi (BitVec.ofNat 2 w.code) m)
  | .vstx w v a vi m => some (false, pAV 0x15 v a vi (BitVec.ofNat 2 w.code) m)
  | .gld k x q d a i => some (x, pAG 0x18 (0#1 ++ d) a (BitVec.ofNat 3 k.code) (acqCode q).1 (acqCode q).2 i)
  | .gst k x r d a i => some (x, pAG 0x19 (0#1 ++ d) a (BitVec.ofNat 3 k.code) (relCode r).1 (relCode r).2 i)
  | .gstNt k x d a i => some (x, pAG 0x19 (0#1 ++ d) a (BitVec.ofNat 3 k.code) 3 0 i)
  | .gvld x q v a i => some (x, pAG 0x1A v a 0 (acqCode q).1 (acqCode q).2 i)
  | .gvst x r v a i => some (x, pAG 0x1B v a 0 (relCode r).1 (relCode r).2 i)
  | .gvstNt x v a i => some (x, pAG 0x1B v a 0 3 0 i)
  | .gaAdd w o d a b => some (encGa 0 w o d a b)
  | .gaMin w o d a b => some (encGa 1 w o d a b)
  | .gaMax w o d a b => some (encGa 2 w o d a b)
  | .gaMinu w o d a b => some (encGa 3 w o d a b)
  | .gaMaxu w o d a b => some (encGa 4 w o d a b)
  | .gaAnd w o d a b => some (encGa 5 w o d a b)
  | .gaOr w o d a b => some (encGa 6 w o d a b)
  | .gaXor w o d a b => some (encGa 7 w o d a b)
  | .gaSwap w o d a b => some (encGa 8 w o d a b)
  | .gaCas w o d a b => some (encGa 9 w o d a b)
  | .lcall d a b r kn rn => some (false, 0x1D#6 ++ d ++ a ++ b ++ r ++ kn ++ rn)
  | .xbegin t => some (false, pAB 0x20 0 0 0 t)
  | .xend => some (false, 0x21#6 ++ 0#24)
  | .xabort c => some (false, pAI 0x22 0 0 (0#8 ++ c))
  | .xtest d => some (false, pAI 0x23 d 0 0)
  | .xredAdd ty a b => some (false, pAX a b 0 (BitVec.ofNat 3 ty.code))
  | .xredMin ty a b => some (false, pAX a b 1 (BitVec.ofNat 3 ty.code))
  | .xredMax ty a b => some (false, pAX a b 2 (BitVec.ofNat 3 ty.code))
  | .xredOr ty a b => some (false, pAX a b 3 (BitVec.ofNat 3 ty.code))
  | .qpop d q => some (false, pAQ 0x28 d 0 q)
  | .qtrypop d e q => some (false, pAQ 0x29 d e q)
  | .qpeek d e q => some (false, pAQ 0x2A d e q)
  | .qpush d q => some (false, pAQ 0x2B d 0 q)
  | .qtrypush d e q => some (false, pAQ 0x2E d e q)
  | .barArriveA b => some (false, pAI 0x2C 0 0 (0#10 ++ b))
  | .barWaitA b => some (false, pAI 0x2D 0 0 (0#10 ++ b))
  | .taskPopA => some (false, 0x30#6 ++ 0#24)
  | .taskTrypopA d => some (false, pAI 0x31 d 0 0)
  | .taskPushA a => some (false, pAI 0x32 0 a 0)
  | .taskDoneA => some (false, 0x33#6 ++ 0#24)
  | .vext ty d v i => some (false, 0x34#6 ++ d ++ v ++ BitVec.ofNat 3 ty.code ++ i ++ 0#4)
  | .fenceClA => some (false, pAI 0x38 0 0 0)
  | .fenceDvA => some (false, pAI 0x38 0 0 1)
  | .fenceSyA d => some (false, pAI 0x38 d 0 2)
  | .rdtime d => some (false, pAI 0x39 d 0 0)
  | .rdcsr d n => some (false, pAI 0x3A d 0 (0#12 ++ n))
  | .wrcsr n a => some (false, pAI 0x3B 0 a (0#12 ++ n))
  | .trap c => some (false, pAI 0x3C 0 0 c)
  | _ => none

/-- Opcode 0x01 by FN (Table 9.5). -/
def decodeAlu (fn : Nat) (d a b : SReg) : Option Instr :=
  match fn with
  | 0 => some (.add d a b) | 1 => some (.sub d a b) | 2 => some (.and d a b) | 3 => some (.or d a b)
  | 4 => some (.xor d a b) | 5 => some (.sll d a b) | 6 => some (.srl d a b) | 7 => some (.sra d a b)
  | 8 => some (.mul d a b) | 9 => some (.mulh d a b) | 10 => some (.mulhu d a b) | 11 => some (.min d a b)
  | 12 => some (.max d a b) | 13 => some (.minu d a b) | 14 => some (.maxu d a b) | 15 => some (.slt d a b)
  | 16 => some (.sltu d a b) | _ => none

/-- Opcode 0x1C by FN (R150). -/
def decodeGa (fn : Nat) (w : Bool) (o : GaOrd) (d a b : SReg) : Option Instr :=
  match fn with
  | 0 => some (.gaAdd w o d a b) | 1 => some (.gaMin w o d a b) | 2 => some (.gaMax w o d a b)
  | 3 => some (.gaMinu w o d a b) | 4 => some (.gaMaxu w o d a b) | 5 => some (.gaAnd w o d a b)
  | 6 => some (.gaOr w o d a b) | 7 => some (.gaXor w o d a b) | 8 => some (.gaSwap w o d a b)
  | 9 => some (.gaCas w o d a b) | _ => none

/-- ORD and SC of a load: plain or acquire. -/
def acqOf : Nat → Nat → Option (Option Scope)
  | 0, 0 => some none
  | 1, s => (Scope.ofCode s).map some
  | _, _ => none
/-- ORD and SC of a store that is not `.nt`: plain or release. -/
def relOf : Nat → Nat → Option (Option Scope)
  | 0, 0 => some none
  | 2, s => (Scope.ofCode s).map some
  | _, _ => none

/-- The AG opcodes 0x18–0x1B. -/
def decodeAg (op : Nat) (x : Bool) (t : VReg) (a : SReg) (sub ord sc : Nat) (i : BitVec 8) : Option Instr :=
  let d : SReg := fld t 0 4
  let s : Bool := fld t 4 1 = 0
  match op with
  | 0x18 => if !s then none else do
    let k ← LdK.ofCode sub
    let q ← acqOf ord sc
    pure (.gld k x q d a i)
  | 0x19 => if !s then none else do
    let k ← StK.ofCode sub
    if ord = 3 && sc = 0 then pure (.gstNt k x d a i) else do
      let r ← relOf ord sc
      pure (.gst k x r d a i)
  | 0x1A => if sub ≠ 0 then none else do
    let q ← acqOf ord sc
    pure (.gvld x q t a i)
  | 0x1B => if sub ≠ 0 then none else
    if ord = 3 && sc = 0 then some (.gvstNt x t a i) else do
      let r ← relOf ord sc
      pure (.gvst x r t a i)
  | _ => none

/-- An A-slot word without X, by opcode (Tables 5.11 and 5.12). -/
def decodeAF (op : Nat) (w : BitVec 30) : Option Instr :=
  let f1 : SReg := fld w 20 4
  let f2 : SReg := fld w 16 4
  let f3 : SReg := fld w 12 4
  let imm : BitVec 16 := fld w 0 16
  let low : BitVec 24 := fld w 0 24
  let t : VReg := fld w 19 5
  let ta : SReg := fld w 15 4
  let tsub := (fld w 12 3).toNat
  let timm : BitVec 12 := fld w 0 12
  let cond := (fld w 13 3).toNat
  let blk : BitVec 10 := fld w 0 10
  match op with
  | 0x00 => when' (low = 0) .nop
  | 0x01 => if fld w 0 6 = 0 then decodeAlu (fld w 6 6).toNat f1 f2 f3 else none
  | 0x02 => some (.addi f1 f2 imm)
  | 0x03 => some (.andi f1 f2 imm)
  | 0x04 => some (.ori f1 f2 imm)
  | 0x05 => some (.xori f1 f2 imm)
  | 0x06 => some (.slti f1 f2 imm)
  | 0x07 => some (.sltiu f1 f2 imm)
  | 0x08 =>
    match (fld w 6 10).toNat with
    | 0 => some (.slli f1 f2 (fld w 0 6))
    | 1 => some (.srli f1 f2 (fld w 0 6))
    | 2 => some (.srai f1 f2 (fld w 0 6))
    | _ => none
  | 0x09 => some (.lui f1 (fld w 0 20))
  | 0x0C =>
    if fld w 10 3 ≠ 0 then none else
    match cond with
    | 0 => some (.beq f1 f2 blk) | 1 => some (.bne f1 f2 blk) | 2 => some (.blt f1 f2 blk)
    | 3 => some (.bge f1 f2 blk) | 4 => some (.bltu f1 f2 blk) | 5 => some (.bgeu f1 f2 blk) | _ => none
  | 0x0D =>
    if fld w 16 6 ≠ 0 || fld w 10 1 ≠ 0 then none else do
      let e ← EW.ofCode (fld w 11 2).toNat
      let m : MReg := fld w 22 2
      match cond with
      | 0 => some (.bany e m blk) | 1 => some (.ball e m blk) | 2 => some (.bnone e m blk)
      | 3 => some (.bnall e m blk) | _ => none
  | 0x0E =>
    if fld w 10 3 ≠ 0 || f2 ≠ 0 then none else
    match cond with
    | 0 => when' (f1 = 0) (.jmp blk)
    | 1 => when' (blk = 0) (.jmpReg f1)
    | _ => none
  | 0x0F =>
    if fld w 10 3 ≠ 0 || f2 ≠ 0 then none else
    match cond with
    | 0 => when' (f1 = 0) (.bfetch blk)
    | 1 => when' (blk = 0) (.bfetchReg f1)
    | _ => none
  | 0x10 => if fld t 4 1 ≠ 0 then none else (LdK.ofCode tsub).map (fun k => .ld k (fld t 0 4) ta timm)
  | 0x11 => if fld t 4 1 ≠ 0 then none else (StK.ofCode tsub).map (fun k => .st k (fld t 0 4) ta timm)
  | 0x12 => when' (tsub = 0) (.vld t ta timm)
  | 0x13 => when' (tsub = 0) (.vst t ta timm)
  | 0x14 => if fld w 0 6 ≠ 0 then none else (EW.ofCode (fld w 8 2).toNat).map (fun e => .vldx e t ta (fld w 10 5) (fld w 6 2))
  | 0x15 => if fld w 0 6 ≠ 0 then none else (EW.ofCode (fld w 8 2).toNat).map (fun e => .vstx e t ta (fld w 10 5) (fld w 6 2))
  | 0x1C => if fld w 0 3 ≠ 0 then none else do
      let o ← GaOrd.ofCode (fld w 5 2).toNat (fld w 3 2).toNat
      decodeGa (fld w 8 4).toNat (fld w 7 1 = 1) o f1 f2 f3
  | 0x1D => some (.lcall f1 f2 f3 (fld w 4 8) (fld w 2 2) (fld w 0 2))
  | 0x20 => when' (fld w 10 14 = 0) (.xbegin blk)
  | 0x21 => when' (low = 0) .xend
  | 0x22 => when' (fld w 8 16 = 0) (.xabort (fld w 0 8))
  | 0x23 => when' (fld w 0 20 = 0) (.xtest f1)
  | 0x24 =>
    if fld w 20 4 ≠ 0 || fld w 0 7 ≠ 0 then none else do
      let ty ← XTy.ofCode (fld w 7 3).toNat
      match (fld w 10 2).toNat with
      | 0 => some (.xredAdd ty f2 f3) | 1 => some (.xredMin ty f2 f3) | 2 => some (.xredMax ty f2 f3)
      | _ => some (.xredOr ty f2 f3)
  | 0x28 => when' (fld w 0 13 = 0 && f2 = 0) (.qpop f1 (fld w 13 3))
  | 0x29 => when' (fld w 0 13 = 0) (.qtrypop f1 f2 (fld w 13 3))
  | 0x2A => when' (fld w 0 13 = 0) (.qpeek f1 f2 (fld w 13 3))
  | 0x2B => when' (fld w 0 13 = 0 && f2 = 0) (.qpush f1 (fld w 13 3))
  | 0x2E => when' (fld w 0 13 = 0) (.qtrypush f1 f2 (fld w 13 3))
  | 0x2C => when' (fld w 6 18 = 0) (.barArriveA (fld w 0 6))
  | 0x2D => when' (fld w 6 18 = 0) (.barWaitA (fld w 0 6))
  | 0x30 => when' (low = 0) .taskPopA
  | 0x31 => when' (fld w 0 20 = 0) (.taskTrypopA f1)
  | 0x32 => when' (f1 = 0 && imm = 0) (.taskPushA f2)
  | 0x33 => when' (low = 0) .taskDoneA
  | 0x34 => if fld w 0 4 ≠ 0 then none else
      (VxTy.ofCode (fld w 12 3).toNat).map (fun ty => .vext ty f1 (fld w 15 5) (fld w 4 8))
  | 0x38 =>
    if f2 ≠ 0 then none else
    match imm.toNat with
    | 0 => when' (f1 = 0) .fenceClA
    | 1 => when' (f1 = 0) .fenceDvA
    | 2 => some (.fenceSyA f1)
    | _ => none
  | 0x39 => when' (fld w 0 20 = 0) (.rdtime f1)
  | 0x3A => when' (fld w 4 16 = 0) (.rdcsr f1 (fld w 0 4))
  | 0x3B => when' (f1 = 0 && fld w 4 12 = 0) (.wrcsr (fld w 0 4) f2)
  | 0x3C => when' (fld w 16 8 = 0) (.trap imm)
  | _ => none

/-- An A-slot word with its X bit: X may be 1 only with `gld`, `gst`, `gvld` and `gvst` (R69). -/
def decodeA (x : Bool) (w : BitVec 30) : Option Instr :=
  let op := (fld w 24 6).toNat
  keepWf (
    if op / 4 = 6 then decodeAg' op x w
    else if x then none else decodeAF op w)
where
  /-- The AG opcodes, or the opcodes 0x1C to 0x1F are not reached here. -/
  decodeAg' (op : Nat) (x : Bool) (w : BitVec 30) : Option Instr :=
    decodeAg op x (fld w 19 5) (fld w 15 4) (fld w 12 3).toNat (fld w 10 2).toNat (fld w 8 2).toNat (fld w 0 8)

/-! ### V-slot words: bits [31:0] of a bundle (R73, R74) -/

/-- A V-slot word. -/
def pV (op : BitVec 7) (vd va vb : VReg) (m : MReg) (fmt : BitVec 3) (fn : BitVec 5) : BitVec 32 :=
  op ++ vd ++ va ++ vb ++ m ++ fmt ++ fn

/-- fn of class RM. -/
def rmFn (rm : RM) : BitVec 5 := 0#1 ++ BitVec.ofBool rm.sat ++ BitVec.ofNat 3 rm.rnd.code
/-- fmt of classes FP3, FP5 and MX. -/
def fpF (f : Fmt) : BitVec 3 := BitVec.ofNat 3 f.code
/-- fmt of class INT. -/
def intF (f : Fmt) : BitVec 3 := BitVec.ofNat 3 (f.code - 6)
/-- fmt of class W. -/
def wF (w : EW) : BitVec 3 := BitVec.ofNat 3 w.code

/-- Word of a shift (R172). -/
def encShift (op : BitVec 7) (f : Fmt) (k : ShAmt) (v : V2) : BitVec 32 :=
  match k with
  | .reg vb => pV op v.vd v.va vb v.m (intF f) 0
  | .imm n => pV op v.vd v.va n v.m (intF f) 0x10

/-- V-slot word of a V-slot instruction. -/
def encodeV : Instr → Option (BitVec 32)
  | .vnop => some 0
  | .vaddF f r v => some (pV 0x01 v.vd v.va v.vb v.m (fpF f) (rmFn r))
  | .vsubF f r v => some (pV 0x02 v.vd v.va v.vb v.m (fpF f) (rmFn r))
  | .vmulF f r v => some (pV 0x03 v.vd v.va v.vb v.m (fpF f) (rmFn r))
  | .vminF f v => some (pV 0x04 v.vd v.va v.vb v.m (fpF f) 0)
  | .vmaxF f v => some (pV 0x05 v.vd v.va v.vb v.m (fpF f) 0)
  | .vabsF f v => some (pV 0x06 v.vd v.va 0 v.m (fpF f) 0)
  | .vnegF f v => some (pV 0x07 v.vd v.va 0 v.m (fpF f) 0)
  | .vfma f r v => some (pV 0x08 v.vd v.va v.vb v.m (fpF f) (rmFn r))
  | .vfms f r v => some (pV 0x09 v.vd v.va v.vb v.m (fpF f) (rmFn r))
  | .vfnma f r v => some (pV 0x0A v.vd v.va v.vb v.m (fpF f) (rmFn r))
  | .vfnms f r v => some (pV 0x0B v.vd v.va v.vb v.m (fpF f) (rmFn r))
  | .vrecip f r v => some (pV 0x0C v.vd v.va 0 v.m (fpF f) (rmFn r))
  | .vrsqrt f r v => some (pV 0x0D v.vd v.va 0 v.m (fpF f) (rmFn r))
  | .vsqrt f r v => some (pV 0x0E v.vd v.va 0 v.m (fpF f) (rmFn r))
  | .vexp2 f r v => some (pV 0x0F v.vd v.va 0 v.m (fpF f) (rmFn r))
  | .vlog2 f r v => some (pV 0x10 v.vd v.va 0 v.m (fpF f) (rmFn r))
  | .vcmpF f p md a b m => some (pV 0x11 (0#3 ++ md) a b m (fpF f) (BitVec.ofNat 5 p.code))
  | .vaddI f s v => some (pV 0x20 v.vd v.va v.vb v.m (intF f) (0#4 ++ BitVec.ofBool s))
  | .vsubI f s v => some (pV 0x21 v.vd v.va v.vb v.m (intF f) (0#4 ++ BitVec.ofBool s))
  | .vmulI f v => some (pV 0x22 v.vd v.va v.vb v.m (intF f) 0)
  | .vmulh f v => some (pV 0x23 v.vd v.va v.vb v.m (intF f) 0)
  | .vminI f v => some (pV 0x24 v.vd v.va v.vb v.m (intF f) 0)
  | .vmaxI f v => some (pV 0x25 v.vd v.va v.vb v.m (intF f) 0)
  | .vabsI f v => some (pV 0x26 v.vd v.va 0 v.m (intF f) 0)
  | .vnegI f v => some (pV 0x27 v.vd v.va 0 v.m (intF f) 0)
  | .vand f v => some (pV 0x28 v.vd v.va v.vb v.m (intF f) 0)
  | .vor f v => some (pV 0x29 v.vd v.va v.vb v.m (intF f) 0)
  | .vxor f v => some (pV 0x2A v.vd v.va v.vb v.m (intF f) 0)
  | .vandn f v => some (pV 0x2B v.vd v.va v.vb v.m (intF f) 0)
  | .vsll f k v => some (encShift 0x2C f k v)
  | .vsrl f k v => some (encShift 0x2D f k v)
  | .vsra f k v => some (encShift 0x2E f k v)
  | .vcmpI f p md a b m => some (pV 0x2F (0#3 ++ md) a b m (intF f) (BitVec.ofNat 5 p.code))
  | .vmand d a b => some (pV 0x38 (0#3 ++ d) (0#3 ++ a) (0#3 ++ b) 0 0 0)
  | .vmor d a b => some (pV 0x38 (0#3 ++ d) (0#3 ++ a) (0#3 ++ b) 0 0 1)
  | .vmxor d a b => some (pV 0x38 (0#3 ++ d) (0#3 ++ a) (0#3 ++ b) 0 0 2)
  | .vmandn d a b => some (pV 0x38 (0#3 ++ d) (0#3 ++ a) (0#3 ++ b) 0 0 3)
  | .vmnot d a => some (pV 0x38 (0#3 ++ d) (0#3 ++ a) 0 0 0 4)
  | .vmmov d a => some (pV 0x38 (0#3 ++ d) (0#3 ++ a) 0 0 0 5)
  | .vcvt dst src r v =>
    some (pV 0x40 v.vd v.va (0#1 ++ BitVec.ofNat 4 src.code) v.m (BitVec.ofNat 3 r.rnd.code)
      (BitVec.ofBool r.sat ++ BitVec.ofNat 4 dst.code))
  | .vmxq f r v => some (pV 0x41 v.vd v.va v.vb v.m (fpF f) (rmFn r))
  | .vmxdq f v => some (pV 0x42 v.vd v.va v.vb v.m (fpF f) 0)
  | .vperm w v => some (pV 0x48 v.vd v.va v.vb v.m (wF w) 0)
  | .vslideUp w k v => some (pV 0x49 v.vd v.va 0 v.m (wF w) k)
  | .vslideDn w k v => some (pV 0x4A v.vd v.va 0 v.m (wF w) k)
  | .vsel w v => some (pV 0x4B v.vd v.va v.vb v.m (wF w) 0)
  | .vbcast w d a m => some (pV 0x4C d (0#1 ++ a) 0 m (wF w) 0)
  | .vmov w v => some (pV 0x4D v.vd v.va 0 v.m (wF w) 0)
  | .vget d a c => some (pV 0x4E d a (0#1 ++ c) 0 0 0)
  | .vredsumF f r v => some (pV 0x50 v.vd v.va 0 v.m (fpF f) (rmFn r))
  | .vredmaxF f r v => some (pV 0x51 v.vd v.va 0 v.m (fpF f) (rmFn r))
  | .vredminF f r v => some (pV 0x52 v.vd v.va 0 v.m (fpF f) (rmFn r))
  | .vredsumI f v => some (pV 0x53 v.vd v.va 0 v.m (intF f) 0)
  | .vredmaxI f v => some (pV 0x54 v.vd v.va 0 v.m (intF f) 0)
  | .vredminI f v => some (pV 0x55 v.vd v.va 0 v.m (intF f) 0)
  | .vmrg v => some (pV 0x58 v.vd v.va v.vb v.m 0 0)
  | _ => none

/-- Class RM (R73): fn [4] zero. -/
def rmOf (fn : BitVec 5) : Option RM :=
  if fld fn 4 1 ≠ 0 then none else (Rnd.ofCode (fld fn 0 3).toNat).map (fun r => { rnd := r, sat := fld fn 3 1 = 1 })

/-- Operations of a floating format with class RM and two sources. -/
def decFp3 (fmt : Nat) (fn : BitVec 5) (v : V3) (k : Fmt → RM → V3 → Instr) : Option Instr := do
  let f ← Fmt.ofFpCode fmt
  let r ← rmOf fn
  pure (k f r v)
/-- Operations of a floating format with class RM and one source; vb is unused. -/
def decFp2 (fmt : Nat) (fn : BitVec 5) (v : V3) (k : Fmt → RM → V2 → Instr) : Option Instr :=
  if v.vb ≠ 0 then none else do
    let f ← Fmt.ofFpCode fmt
    let r ← rmOf fn
    pure (k f r ⟨v.vd, v.va, v.m⟩)
/-- Operations of an integer format with fn zero and two sources. -/
def decInt3 (fmt : Nat) (fn : BitVec 5) (v : V3) (k : Fmt → V3 → Instr) : Option Instr :=
  if fn ≠ 0 then none else (Fmt.ofIntCode fmt).map (fun f => k f v)
/-- Operations of an integer format with fn zero and one source. -/
def decInt2 (fmt : Nat) (fn : BitVec 5) (v : V3) (k : Fmt → V2 → Instr) : Option Instr :=
  if fn ≠ 0 || v.vb ≠ 0 then none else (Fmt.ofIntCode fmt).map (fun f => k f ⟨v.vd, v.va, v.m⟩)
/-- The shifts: fn [4] IMM, [3:0] zero. -/
def decShift (fmt : Nat) (fn : BitVec 5) (v : V3) (k : Fmt → ShAmt → V2 → Instr) : Option Instr :=
  match fn.toNat with
  | 0 => (Fmt.ofIntCode fmt).map (fun f => k f (.reg v.vb) ⟨v.vd, v.va, v.m⟩)
  | 0x10 => (Fmt.ofIntCode fmt).map (fun f => k f (.imm v.vb) ⟨v.vd, v.va, v.m⟩)
  | _ => none

/-- A V-slot word by opcode (Table 5.13), before the field rules of vOk. -/
def decodeVF (op fmt : Nat) (fn : BitVec 5) (v : V3) (w : BitVec 32) : Option Instr :=
  let md : MReg := fld v.vd 0 2
  let ma : MReg := fld v.va 0 2
  let mb : MReg := fld v.vb 0 2
  let v2 : V2 := ⟨v.vd, v.va, v.m⟩
  match op with
  | 0x00 => when' (w = 0) .vnop
  | 0x01 => decFp3 fmt fn v .vaddF
  | 0x02 => decFp3 fmt fn v .vsubF
  | 0x03 => decFp3 fmt fn v .vmulF
  | 0x04 => if fn ≠ 0 then none else (Fmt.ofFpCode fmt).map (fun f => .vminF f v)
  | 0x05 => if fn ≠ 0 then none else (Fmt.ofFpCode fmt).map (fun f => .vmaxF f v)
  | 0x06 => if fn ≠ 0 || v.vb ≠ 0 then none else (Fmt.ofFpCode fmt).map (fun f => .vabsF f v2)
  | 0x07 => if fn ≠ 0 || v.vb ≠ 0 then none else (Fmt.ofFpCode fmt).map (fun f => .vnegF f v2)
  | 0x08 => decFp3 fmt fn v .vfma
  | 0x09 => decFp3 fmt fn v .vfms
  | 0x0A => decFp3 fmt fn v .vfnma
  | 0x0B => decFp3 fmt fn v .vfnms
  | 0x0C => decFp2 fmt fn v .vrecip
  | 0x0D => decFp2 fmt fn v .vrsqrt
  | 0x0E => decFp2 fmt fn v .vsqrt
  | 0x0F => decFp2 fmt fn v .vexp2
  | 0x10 => decFp2 fmt fn v .vlog2
  | 0x11 => if fld v.vd 2 3 ≠ 0 then none else do
    let f ← Fmt.ofFpCode fmt
    let p ← Pred.ofCode fn.toNat
    pure (.vcmpF f p md v.va v.vb v.m)
  | 0x20 => if fld fn 1 4 ≠ 0 then none else (Fmt.ofIntCode fmt).map (fun f => .vaddI f (fld fn 0 1 = 1) v)
  | 0x21 => if fld fn 1 4 ≠ 0 then none else (Fmt.ofIntCode fmt).map (fun f => .vsubI f (fld fn 0 1 = 1) v)
  | 0x22 => decInt3 fmt fn v .vmulI
  | 0x23 => decInt3 fmt fn v .vmulh
  | 0x24 => decInt3 fmt fn v .vminI
  | 0x25 => decInt3 fmt fn v .vmaxI
  | 0x26 => decInt2 fmt fn v .vabsI
  | 0x27 => decInt2 fmt fn v .vnegI
  | 0x28 => decInt3 fmt fn v .vand
  | 0x29 => decInt3 fmt fn v .vor
  | 0x2A => decInt3 fmt fn v .vxor
  | 0x2B => decInt3 fmt fn v .vandn
  | 0x2C => decShift fmt fn v .vsll
  | 0x2D => decShift fmt fn v .vsrl
  | 0x2E => decShift fmt fn v .vsra
  | 0x2F => if fld v.vd 2 3 ≠ 0 then none else do
    let f ← Fmt.ofIntCode fmt
    let p ← Pred.ofCode fn.toNat
    pure (.vcmpI f p md v.va v.vb v.m)
  | 0x38 =>
    if fld v.vd 2 3 ≠ 0 || fld v.va 2 3 ≠ 0 || fld v.vb 2 3 ≠ 0 || v.m ≠ 0 || fmt ≠ 0 then none else
    match fn.toNat with
    | 0 => some (.vmand md ma mb)
    | 1 => some (.vmor md ma mb)
    | 2 => some (.vmxor md ma mb)
    | 3 => some (.vmandn md ma mb)
    | 4 => when' (v.vb = 0) (.vmnot md ma)
    | 5 => when' (v.vb = 0) (.vmmov md ma)
    | _ => none
  | 0x40 => if fld v.vb 4 1 ≠ 0 then none else do
    let d ← Fmt.ofCode (fld fn 0 4).toNat
    let s ← Fmt.ofCode (fld v.vb 0 4).toNat
    let r ← Rnd.ofCode fmt
    pure (.vcvt d s { rnd := r, sat := fld fn 4 1 = 1 } v2)
  | 0x41 => decFp3 fmt fn v .vmxq
  | 0x42 => if fn ≠ 0 then none else (Fmt.ofFpCode fmt).map (fun f => .vmxdq f v)
  | 0x48 => if fn ≠ 0 then none else (EW.ofCode fmt).map (fun e => .vperm e v)
  | 0x49 => if v.vb ≠ 0 then none else (EW.ofCode fmt).map (fun e => .vslideUp e fn v2)
  | 0x4A => if v.vb ≠ 0 then none else (EW.ofCode fmt).map (fun e => .vslideDn e fn v2)
  | 0x4B => if fn ≠ 0 then none else (EW.ofCode fmt).map (fun e => .vsel e v)
  | 0x4C => if fn ≠ 0 || v.vb ≠ 0 || fld v.va 4 1 ≠ 0 then none else
      (EW.ofCode fmt).map (fun e => .vbcast e v.vd (fld v.va 0 4) v.m)
  | 0x4D => if fn ≠ 0 || v.vb ≠ 0 then none else (EW.ofCode fmt).map (fun e => .vmov e v2)
  | 0x4E => if fn ≠ 0 || fmt ≠ 0 || v.m ≠ 0 || fld v.vb 4 1 ≠ 0 then none else some (.vget v.vd v.va (fld v.vb 0 4))
  | 0x50 => decFp2 fmt fn v .vredsumF
  | 0x51 => decFp2 fmt fn v .vredmaxF
  | 0x52 => decFp2 fmt fn v .vredminF
  | 0x53 => decInt2 fmt fn v .vredsumI
  | 0x54 => decInt2 fmt fn v .vredmaxI
  | 0x55 => decInt2 fmt fn v .vredminI
  | 0x58 => when' (fn = 0 && fmt = 0) (.vmrg v)
  | _ => none

/-- A V-slot word. -/
def decodeV (w : BitVec 32) : Option Instr :=
  keepWf (decodeVF (fld w 25 7).toNat (fld w 5 3).toNat (fld w 0 5) ⟨fld w 20 5, fld w 15 5, fld w 10 5, fld w 8 2⟩ w)

/-! ### Near-data words (R81) -/

/-- A near-data word. -/
def pN (op : BitVec 6) (d a b : NReg) (imm : BitVec 14) : BitVec 32 := op ++ d ++ a ++ b ++ imm

/-- Word of a near-data instruction (Table 5.19). -/
def encodeNear : Instr → Option (BitVec 32)
  | .nadd d a b => some (pN 0x01 d a b 0)
  | .nsub d a b => some (pN 0x02 d a b 0)
  | .nand d a b => some (pN 0x03 d a b 0)
  | .nor d a b => some (pN 0x04 d a b 0)
  | .nxor d a b => some (pN 0x05 d a b 0)
  | .nsll d a b => some (pN 0x06 d a b 0)
  | .nsrl d a b => some (pN 0x07 d a b 0)
  | .nsra d a b => some (pN 0x08 d a b 0)
  | .naddi d a i => some (pN 0x09 d a 0 i)
  | .nmin d a b => some (pN 0x0A d a b 0)
  | .nmax d a b => some (pN 0x0B d a b 0)
  | .nminu d a b => some (pN 0x0C d a b 0)
  | .nmaxu d a b => some (pN 0x0D d a b 0)
  | .nfadd d a b => some (pN 0x10 d a b 0)
  | .nfmin d a b => some (pN 0x11 d a b 0)
  | .nfmax d a b => some (pN 0x12 d a b 0)
  | .ncmp c d a b => some (pN 0x14 d a b (BitVec.ofNat 14 c.code))
  | .nsel d a b => some (pN 0x15 d a b 0)
  | .nrdw d w => some (pN 0x18 d 0 0 (0#10 ++ w))
  | .nwrw w a => some (pN 0x19 0 a 0 (0#10 ++ w))
  | .nrdk d k => some (pN 0x1A d 0 0 (0#12 ++ k))
  | .nret a b c => some (pN 0x20 0 a b (0#12 ++ c))
  | .nfetch a => some (pN 0x21 0 a 0 0)
  | .nfetchRt a => some (pN 0x21 0 a 0 0x2000)
  | .npush t q a => some (pN 0x22 0 a 0 (0#10 ++ BitVec.ofBool t ++ q))
  | .ndig a b => some (pN 0x23 0 a b 0)
  | .nloop d i => some (pN 0x24 d 0 0 i)
  | .nbr a i => some (pN 0x25 0 a 0 i)
  | .nstop => some (pN 0x26 0 0 0 0)
  | .nfault c => some (pN 0x27 0 0 0 (0#6 ++ c))
  | _ => none

/-- Three-register near-data operations. -/
def decN3 (z : Bool) (d a b : NReg) (k : NReg → NReg → NReg → Instr) : Option Instr := if z then some (k d a b) else none

/-- A near-data word by op (Table 5.19); an unused field must be zero. -/
def decodeNearF (op : Nat) (d a b : NReg) (i : BitVec 14) : Option Instr :=
  let zi : Bool := i = 0
  let zd : Bool := d = 0
  let za : Bool := a = 0
  let zb : Bool := b = 0
  match op with
  | 0x01 => decN3 zi d a b .nadd
  | 0x02 => decN3 zi d a b .nsub
  | 0x03 => decN3 zi d a b .nand
  | 0x04 => decN3 zi d a b .nor
  | 0x05 => decN3 zi d a b .nxor
  | 0x06 => decN3 zi d a b .nsll
  | 0x07 => decN3 zi d a b .nsrl
  | 0x08 => decN3 zi d a b .nsra
  | 0x09 => when' zb (.naddi d a i)
  | 0x0A => decN3 zi d a b .nmin
  | 0x0B => decN3 zi d a b .nmax
  | 0x0C => decN3 zi d a b .nminu
  | 0x0D => decN3 zi d a b .nmaxu
  | 0x10 => decN3 zi d a b .nfadd
  | 0x11 => decN3 zi d a b .nfmin
  | 0x12 => decN3 zi d a b .nfmax
  | 0x14 => (NCond.ofCode i.toNat).map (fun c => .ncmp c d a b)
  | 0x15 => decN3 zi d a b .nsel
  | 0x18 => when' (za && zb && fld i 4 10 = 0) (.nrdw d (fld i 0 4))
  | 0x19 => when' (zd && zb && fld i 4 10 = 0) (.nwrw (fld i 0 4) a)
  | 0x1A => when' (za && zb && fld i 2 12 = 0) (.nrdk d (fld i 0 2))
  | 0x20 => when' (zd && fld i 2 12 = 0) (.nret a b (fld i 0 2))
  | 0x21 =>
    if !(zd && zb) then none else
    match i.toNat with
    | 0 => some (.nfetch a)
    | 0x2000 => some (.nfetchRt a)
    | _ => none
  | 0x22 => when' (zd && zb && fld i 4 10 = 0) (.npush (fld i 3 1 = 1) (fld i 0 3) a)
  | 0x23 => when' (zd && zi) (.ndig a b)
  | 0x24 => when' (za && zb) (.nloop d i)
  | 0x25 => when' (zd && zb) (.nbr a i)
  | 0x26 => when' (zd && za && zb && zi) .nstop
  | 0x27 => when' (zd && za && zb && fld i 8 6 = 0) (.nfault (fld i 0 8))
  | _ => none

/-- A near-data word. -/
def decodeNear (w : BitVec 32) : Option Instr :=
  keepWf (decodeNearF (fld w 26 6).toNat (fld w 22 4) (fld w 18 4) (fld w 14 4) (fld w 0 14))

/-- Whether a near-data operation is allowed in a slice routine (Table 5.19). -/
def nearInRoutine : Instr → Bool
  | .nfetch _ | .nfetchRt _ | .npush _ _ _ | .ndig _ _ | .nloop _ _ | .nbr _ _ | .nstop => false
  | i => (encodeNear i).isSome
/-- Whether a near-data operation is allowed in a gather kernel. -/
def nearInKernel : Instr → Bool
  | .nrdk _ _ | .nret _ _ _ => false
  | i => (encodeNear i).isSome

/-! ### Tile command words (R76) -/

/-- The fields of a tile command word (Table 5.15). -/
def tileFields (w : BitVec 256) : TileCmd :=
  { ev := fld w 247 1 = 1, grp := fld w 246 1 = 1, fpv := fld w 245 1 = 1, cf := fld w 240 4, gid := fld w 232 8
    d0 := fld w 222 10, d1 := fld w 212 10, d2 := fld w 202 10, acb := fld w 199 3, acn := fld w 196 3
    swz := fld w 192 4, arg := fld w 128 64, fp1 := fld w 64 64, fp0 := fld w 0 64 }

/-- A tile command word of opcode `op`. -/
def tileWord (op : BitVec 8) (c : TileCmd) : BitVec 256 :=
  op ++ BitVec.ofBool c.ev ++ BitVec.ofBool c.grp ++ BitVec.ofBool c.fpv ++ 0#1 ++ c.cf ++ c.gid ++ c.d0 ++ c.d1 ++ c.d2
    ++ c.acb ++ c.acn ++ c.swz ++ c.arg ++ c.fp1 ++ c.fp0

/-- A tile command word: BADOP and the state-free BADFIELD cases of R77 refuse. DEDUCED: reserved bit 244 is a field no
command uses. -/
def decodeTile (w : BitVec 256) : Option Instr :=
  if fld w 244 1 ≠ 0 then none else keepWf (tileOfOp (tileFields w) (fld w 248 8).toNat)

/-- Word of a tile command. -/
def encodeTile (i : Instr) : Option (BitVec 256) :=
  match tileOp i, tileCmdOf i with
  | some op, some c => some (tileWord (BitVec.ofNat 8 op) c)
  | _, _ => none

/-! ### Bundles (R68) -/

/-- A bundle with its fields. -/
def bundleWord (s x : Bool) (a : BitVec 30) (v : BitVec 32) : BitVec 64 := BitVec.ofBool s ++ BitVec.ofBool x ++ a ++ v

/-- The two instructions of a bundle; nothing where it is `ILL` in every mode (R69). -/
def decodeBundle (w : BitVec 64) : Option (Instr × Instr) := do
  let a ← decodeA (fld w 62 1 = 1) (fld w 32 30)
  let v ← decodeV (fld w 0 32)
  pure (a, v)

/-- S of a bundle. -/
def bundleS (w : BitVec 64) : Bool := fld w 63 1 = 1

/-! ### The host's entry points -/

/-- The instruction of an `nbits`-bit word (bits above `nbits` zero): a control-thread or near-data word (their encodings
do not overlap in the custom majors), a bundle with one slot empty, or a tile command word. -/
def decodeTableWord (nbits w : Nat) : Option Instr :=
  if nbits ≤ 32 then
    match decodeCustom (BitVec.ofNat 32 w) with
    | some i => some i
    | none =>
      match decodeNear (BitVec.ofNat 32 w) with
      | some i => some i
      | none => decodeRv (BitVec.ofNat 32 w)
  else if nbits ≤ 64 then
    match decodeBundle (BitVec.ofNat 64 w) with
    | some (a, .vnop) => some a
    | some (.nop, v) => some v
    | _ => none
  else decodeTile (BitVec.ofNat 256 w)

/-- The words of an instruction that has an encoding, as one number with its size in bits. -/
def encode (i : Instr) : Option (Nat × Nat) :=
  match encodeCustom i with
  | some w => some (32, w.toNat)
  | none =>
    match encodeRv i with
    | some w => some (32, w.toNat)
    | none =>
      match encodeNear i with
      | some w => some (32, w.toNat)
      | none =>
        match encodeA i with
        | some (x, a) => some (64, (bundleWord false x a 0).toNat)
        | none =>
          match encodeV i with
          | some v => some (64, (bundleWord false false 0 v).toNat)
          | none => (encodeTile i).map (fun w => (256, w.toNat))

end Sys2Proof
end

