-- ==== Sys2Proof/Config.lean ====
section
/-!
DEFINITION. What an implementation fixes (spec/01_organisation.md, 00_scope.md) and the free values: constants without a
body, of which nothing can be evaluated or proved, so that a claim is true whatever they are (assumption log 9).
-/
namespace Sys2Proof.Config

/-- Cores of the package (R13). -/
def nCores : Nat := 2048
/-- Local-store bytes of a core (Table 1.2). -/
def lsBytes : Nat := 98304
/-- Granule size in bytes (R78). -/
def granule : Nat := 256
/-- Bytes of a small page (Table 13.4). -/
def pageBytes : Nat := 65536

/-- DESIGN CHOICE (log 1): stage A completes at its bound, 30 ms (Table 25.4). -/
def stageACycle : Nat := 36000000
/-- DESIGN CHOICE (log 1): each C-die announces itself at the bound of stage B, 1.2 s (Table 25.4). -/
def stageBCycle : Nat := 1440000000
/-- DESIGN CHOICE (log 1): stage C completes at its bound, 3 s (Table 25.4). -/
def stageCCycle : Nat := 3600000000
/-- 2 ms in cycles: the retrain bound (R135, R334). -/
def retrainBound : Nat := 2400000
/-- 50 ms in cycles: the host-read bound (R337). -/
def hostReadBound : Nat := 60000000
/-- 1 s in cycles: the host-backed request bound (R342). -/
def hbBound : Nat := 1200000000
/-- 40 µs in cycles: the recall bound (R217). -/
def recallBound : Nat := 48000

/-- The launch key of a launch id (R26, R79); no agent can read it. -/
opaque launchKey : Nat → BitVec 256
/-- SHA-384 of the identity certificate (R351). -/
opaque certHash : BitVec 384
/-- Digests that extend MR0 to MR3 at start (R352). -/
opaque imageDigest : Nat → BitVec 384
/-- Whether the configuration image passes its check (R351, R357). -/
opaque configImageOk : Bool
/-- The identity's private key, a number that is taken as a scalar of the curve (R351). -/
opaque identityKey : Nat
/-- The per-message secret of the n-th signing (R346, R353), taken as a scalar. -/
opaque signNonce : Nat → Nat
/-- The device's ephemeral private key of the n-th session (R346), taken as a scalar. -/
opaque sessionKey : Nat → Nat
/-- The keys the security engine draws for LPDDR-6 (R356): the n-th draw. -/
opaque dataKey : Nat → BitVec 256
/-- The bytes of a packet on a link before it is sealed (R346): flow, sequence number and the operation's fields. -/
opaque packetBytes : List Nat → List Byte
/-- The allowance in flits that a port grants its peer at the start of the n-th session (R343). -/
opaque grant : Nat → Nat
/-- The device's own session nonce (R346): the n-th session. -/
opaque sessionNonce : Nat → BitVec 384
/-- Cycles the cluster hash unit takes to fold a pair of `ndig` (R266): of a core, at a cycle. -/
opaque foldTime : Nat → Nat → Nat
/-- Cycles until the host's completion of a device read reaches the hub die (R337): the n-th read. -/
opaque hostDelay : Nat → Nat
/-- The watermark the MMP of a die sets for its ready queue, and the cycles from one visit of its clock sweeper to the next (R204). -/
opaque watermark : Nat → Nat
/-- The sweeper's pace. -/
opaque sweepPace : Nat → Nat
/-- Power drawn by a die over a window, in watts (R359). -/
opaque dieWatts : Nat → Nat → Nat
/-- The word a strong code beyond its guarantee of detection yields (R317). -/
opaque beyondCode : Nat → Bool
/-- A value the spec leaves open, new at each use. -/
opaque freeWord : Nat → BitVec 64

end Sys2Proof.Config
end

