-- ==== Sys2Proof/Machine/State.lean ====
section
/-!
DEFINITION. The state of the BSY-2048 as plain data, the reasons a step can stop, and the state after reset. Register files
and memories are sparse maps (Bits.lean): an unlisted register or byte is 0. INVENTORY.md lists every field with its rule.
-/
namespace Sys2Proof.Machine

/-- Why the machine stops. -/
inductive Fault where
  /-- Raised by `step` while the module has no power and no power-good is due (R11): nothing executes. Safe. -/
  | noPower
deriving DecidableEq, Repr

/-- Why a step has no meaning. -/
inductive Refusal where
  /-- No meaning written for the instruction of this mnemonic. Safe. -/
  | notModelled (mnemonic : String)
  /-- Raised by a step that has no encoding when `State.cur` names no such step, or by an encoded instruction when the
  agent that runs it is absent: the machine never takes the step there. Safe. -/
  | notEnabled (mnemonic : String)
deriving DecidableEq, Repr

/-- An agent that takes steps cycle by cycle. -/
inductive Agent where
  /-- the control thread of a core -/
  | ct (core : Nat)
  /-- a context in its own slot -/
  | cx (core ctx : Nat)
  /-- the gather unit of a core -/
  | gu (core : Nat)
  /-- a routine run in a slice -/
  | rt (run : Nat)
deriving DecidableEq, Repr

/-- Whose step this is (log 4). -/
structure Cur where
  core : Nat
  ctx : Nat
  job : Nat
  run : Nat
  /-- The near-data instruction acts in a routine run (true) or a gather run (false). -/
  inRoutine : Bool
  ev : Ev
deriving DecidableEq, Repr

/-! ### Contexts -/

/-- Context states (Table 3.3). -/
inductive CSt where
  | empty | run | waitMem | waitQ | waitBar | stopped | faulted | evicted
deriving DecidableEq, Repr

/-- Age of a transaction: TIME, core id, context id (R272). -/
structure Age where
  time : Nat
  core : Nat
  ctx : Nat
deriving DecidableEq, Repr

/-- A mark on an element (R318): element bytes, severity class and the layout NL it was marked under. -/
structure Mark where
  w : Nat
  cls : Nat
  nl : Nat
deriving DecidableEq, Repr

/-- A reduction record (R281). -/
structure RedRec where
  va : Nat
  fn : Nat
  ty : XTy
  val : Word
deriving DecidableEq, Repr

/-- An open transaction (R152, R271–R282). -/
structure Txn where
  depth : Nat
  age : Age
  ckS : List (Nat × Word)
  ckM : List (Nat × BitVec 256)
  target : BitVec 17
  /-- granules read: VA [47:8] with the physical granule -/
  rset : List (Nat × Nat)
  wset : List (Nat × Nat)
  /-- speculative bytes by virtual address -/
  spec : List Host.Cell
  /-- bit errors in speculative lines not yet met, by VA [47:6], and marks on speculative elements, by virtual address (R316, R318) -/
  latent : List (Nat × List Nat)
  marks : List (Nat × Mark)
  recs : List RedRec
  /-- claims outstanding before the publish step -/
  claims : Nat
  /-- in the publish step: past the point where an abort can come once the last message has arrived -/
  committing : Bool
  /-- commit messages still on their way, and the home slices reached by one: accesses there wait (R282) -/
  msgs : Nat
  reached : List Nat
deriving DecidableEq, Repr

/-- A late fault report (R147, R305). -/
structure FaultRep where
  cause : Nat
  pc : BitVec 17
  detail : BitVec 40
  bundle : Word
  /-- the granule VA [47:8] concerned, for TXSTAT.GRAN; 0: none (R284) -/
  gran : Nat := 0
deriving DecidableEq, Repr

/-- A held control-thread request (R44). -/
inductive HeldReq where
  | kill | rdreg (sel : Word) | wrreg (sel v : Word) | redirect (pc : BitVec 17) | evict
deriving DecidableEq, Repr

/-- What a waiting context waits for. -/
inductive CWait where
  | none
  /-- the reply of a request -/
  | reply (req : Nat)
  /-- earlier accesses performed at a scope: a fence; `fence.sy` writes its status to `sd` -/
  | fence (sc : Scope) (sd : Option SReg)
  /-- earlier accesses performed at a scope before a release store is sent as request `req` -/
  | release (sc : Scope) (req : Nat) (wait : Bool)
  /-- earlier accesses performed before a transaction opens (R271) -/
  | xbegin (target : BitVec 17)
  /-- the commit (R282) -/
  | commit
  /-- pending destinations, or, with the oldest relaxed access named, the limit of four: the bundle has not issued (R147) -/
  | pending (oldest : Option Nat)
  /-- a local-store range an engine still reads (R143, R192): the bundle has not issued -/
  | range
  /-- a queue register, the task deques or the window: the bundle has not issued -/
  | queue (q : Nat)
  | taskPop
  | taskPush (pri : Nat)
  /-- the release of a barrier phase -/
  | bar (b : Nat) (phase : BitVec 32)
  /-- the MMP's answer after a PAGE abort (R286) -/
  | page
deriving DecidableEq, Repr

/-- A transfer taken by the bundle at issue (R41): the target and whether its copy is early. -/
structure Xfer where
  target : BitVec 17
  early : Bool
deriving DecidableEq, Repr

/-- Continuation of a light handler (R269). -/
inductive Cont where
  | follow (pc : BitVec 17) | stop (pc : BitVec 17)
deriving DecidableEq, Repr

/-- Operands as they stood before the bundle (R35; log 6). -/
structure Snap where
  s : List (Nat × Word)
  m : List (Nat × BitVec 256)
  v : List (Nat × Line)
  flags : Word
  rmode : BitVec 3
  seed : BitVec 32
deriving DecidableEq, Repr

/-- The empty snapshot. -/
def Snap.none : Snap := { s := [], m := [], v := [], flags := 0, rmode := 0, seed := 0 }

/-- A micro-thread context (R34). -/
structure Ctx where
  st : CSt
  pc : BitVec 17
  s : List (Nat × Word)
  m : List (Nat × BitVec 256)
  /-- s registers with an uncorrectable error, and 64-bit words of m registers by 4 × register + word (R319) -/
  sBad : List Nat
  mBad : List Nat
  flags : Word
  rmode : BitVec 3
  seed : BitVec 32
  txstat : Word
  latch : Word
  reissue : Bool
  bufBase : Nat
  buf : List (Nat × Word)
  /-- words of the buffer with an uncorrectable error (R319) -/
  bufBad : List Nat
  /-- the next own slot copies the block at `pc` (R38) -/
  copy : Bool
  /-- the buffer holds the block at `pc`; else it is copied with the issue of its first bundle (R43) -/
  bufOk : Bool
  inBlock : Bool
  bcastEnd : Option Nat
  readyAt : Nat
  /-- the cycle from which the register writes of the last bundle are complete (R160) -/
  shownAt : Nat
  /-- until this cycle PC still reads this value (R113) -/
  pcOld : Option (Nat × BitVec 17)
  ir : Word
  irPc : BitVec 17
  snap : Snap
  /-- the A-slot took a fault, or did not issue: the V-slot takes no effect and the bundle does not end -/
  quash : Bool
  /-- the A-slot has ended the bundle, by an abort or by a fault that counts as one after issue, and the V-slot still acts
  (R138, R273) -/
  vStill : Bool
  /-- the latch holds no bundle of the block: it ends no block but by S (R147, R157, R303) -/
  alone : Bool
  xfer : Option Xfer
  /-- s registers written by the bundle before (R142) -/
  sWrote : BitVec 16
  /-- whether a `wrcsr` of this bundle wrote SRSEED (R156) -/
  seedSet : Bool
  /-- what the bundle did, for the trace (R362) and the fingerprint (R330): A-slot result or global VA, vector register
  groups (by name) and mask registers (0x100 + number) written, stores -/
  aRes : Option Word
  vRes : List Nat
  stRes : List (Nat × List Byte)
  wait : CWait
  task : Option TaskRec
  handler : Option Cont
  pendHandler : Option Nat
  held : Option HeldReq
  heldFaults : List FaultRep
  cause : FaultRep
  txn : Option Txn
  age : Option Age
  joined : List (Nat × BitVec 32)
  lost : Bool
  refused : Bool
  noTrig : Bool
  stopReq : Bool
deriving DecidableEq, Repr

/-- A context of core `core` and number `c` in the state of Table 3.1; SRSEED is 0x9E37_79B9 XOR CTXID (R96). -/
def Ctx.init (core c : Nat) : Ctx :=
  { st := .empty, pc := 0, s := [], m := [], sBad := [], mBad := [], flags := 0, rmode := 0
    seed := 0x9E3779B9#32 ^^^ BitVec.ofNat 32 (core * 16 + c)
    txstat := 0, latch := 0, reissue := false, bufBase := 0, buf := [], bufBad := [], copy := false, bufOk := false, inBlock := false
    bcastEnd := none, readyAt := 0, shownAt := 0, pcOld := none, ir := 0, irPc := 0, snap := Snap.none, quash := false, vStill := false
    alone := false, xfer := none, sWrote := 0
    seedSet := false, aRes := none, vRes := [], stRes := []
    wait := .none, task := none, handler := none, pendHandler := none, held := none, heldFaults := []
    cause := { cause := 0, pc := 0, detail := 0, bundle := 0 }
    txn := none, age := none, joined := [], lost := false, refused := false, noTrig := false, stopReq := false }

/-! ### The control thread -/

/-- Control-thread privilege (R28). -/
inductive Priv where
  | machine | user
deriving DecidableEq, Repr

/-- What a waiting control thread waits in (R29). -/
inductive CtWait where
  | none
  /-- the instruction is tried again each cycle -/
  | retry
  /-- `tc.push` with the command word it has read, until it is accepted (R121) -/
  | push (word : BitVec 256)
  /-- the reply of a global or remote access -/
  | reply (req : Nat)
  /-- until a cycle, then rd is written -/
  | until (t : Nat) (rd : XReg) (v : Word)
  /-- a held request of this instruction: contexts still to answer, and the result so far -/
  | held (rd : XReg) (left : BitVec 16) (acc : Word)
  /-- the save or the load of a context -/
  | save (rd : XReg) (v : Word)
  /-- the checkpoint of `pair.off` -/
  | pair (rd : XReg)
deriving DecidableEq, Repr

/-- The control thread (R29–R31, R107). -/
structure Ct where
  x : List (Nat × Word)
  /-- registers with an uncorrectable error (R319) -/
  xBad : List Nat
  pc : Word
  priv : Priv
  mpp : Priv
  mprv : Bool
  mie : Bool
  mpie : Bool
  mtvec : Word
  mepc : Word
  mcause : Word
  mtval : Word
  mscratch : Word
  mcounteren : BitVec 3
  minstret : Word
  started : Bool
  finished : Bool
  halted : Bool
  wait : CtWait
  /-- the instruction word that waits -/
  ir : BitVec 32
  /-- reservation: line address and the cycle the home served the LR (R107) -/
  resv : Option (Nat × Nat)
  task : Option TaskRec
  joined : List (Nat × BitVec 32)
  lost : Bool
  refused : Bool
deriving DecidableEq, Repr

/-- The control thread before it starts (log 1, log 8). -/
def Ct.init : Ct :=
  { x := [], xBad := [], pc := 0, priv := .machine, mpp := .user, mprv := false, mie := false, mpie := false, mtvec := 0, mepc := 0, mcause := 0
    mtval := 0, mscratch := 0, mcounteren := 0, minstret := 0, started := false, finished := false, halted := false
    wait := .none, ir := 0, resv := none, task := none, joined := [], lost := false, refused := false }

/-! ### Core resources -/

/-- A barrier (R53). -/
structure Bar where
  expect : Nat
  arrived : Nat
  phase : BitVec 32
  /-- phases below this count are released -/
  released : BitVec 32
  group : Option Nat
deriving DecidableEq, Repr

/-- Barrier state after `core.start`. -/
def Bar.init : Bar := { expect := 0, arrived := 0, phase := 0, released := 0, group := none }

/-- A queue element: value, tag, and its place in the core's push order (R268). -/
structure QElem where
  v : Word
  tag : Bool
  ord : Nat
deriving DecidableEq, Repr

/-- A queue register (R132, R261, R268). -/
structure QReg where
  bind : Word
  elems : List QElem
  /-- elements in flight towards this queue, which hold places -/
  reserved : Nat
  /-- QCFG bits but GO and ERR -/
  cfg : Word
  go : Bool
  err : BitVec 3
deriving DecidableEq, Repr

/-- Queue register state after `core.start`. -/
def QReg.init : QReg := { bind := 0, elems := [], reserved := 0, cfg := 0, go := false, err := 0 }

/-- A job record of a core (R222). -/
structure JRec where
  seq : Nat
  job : Nat
  /-- the terminal status word once the record shows it (R227) -/
  shown : Option Word
deriving DecidableEq, Repr

/-- A saved context (R311, R312); one that a pre-emption evicted has its slot number for a handle (R296). -/
structure Saved where
  handle : Word
  mode : BitVec 2
  ctx : Ctx
  /-- the slot that is still being saved -/
  slot : Option Nat
  /-- the partition, by position in it -/
  v : List (Nat × Line)
  /-- uncorrectable words of it (R319) -/
  bad : List Nat
  inCache : Bool
deriving DecidableEq, Repr

/-- An index stream (R262). -/
structure Stream where
  q : Nat
  slot : Nat
  base : Nat
  bytes : Nat
  /-- next line ordinal to read, and lines in all -/
  next : Nat
  total : Nat
deriving DecidableEq, Repr

/-- A trigger (R263). -/
structure Trigger where
  slot : Nat
  va : Nat
  line : Line
  bad : List (Nat × Nat)
  n12 : Nat
  n13 : Nat
  n15 : Word
deriving DecidableEq, Repr

/-- A kernel run (R255, R263). -/
structure GRun where
  trig : Trigger
  n : List (Nat × Word)
  w : Line
  pc : Nat
  count : Nat
  usedRt : Bool
  /-- pairs this run has put in the digest stream (R266) -/
  digs : Nat
  startAt : Nat
deriving DecidableEq, Repr

/-- A gather unit (R261–R265). -/
structure Gather where
  /-- kernel slot to its instruction words -/
  kernels : List (Nat × List (BitVec 32))
  streams : List Stream
  triggers : List Trigger
  run : Option GRun
  /-- the taken trigger, and the cycle it was taken (R263) -/
  taken : Option Trigger
  takenAt : Nat
  /-- tagged fault words waiting for room in a queue (R265), by slot × 8 + queue -/
  pend : List (Nat × Word)
deriving DecidableEq, Repr

/-- An idle gather unit. -/
def Gather.init : Gather := { kernels := [], streams := [], triggers := [], run := none, taken := none, takenAt := 0, pend := [] }

/-- Tile-buffer content (R193, R276): private lines with the permissions they were filled under, and granules. -/
structure TileEnt where
  /-- line address VA [47:6], or granule VA [47:8] -/
  key : Nat
  gran : Bool
  spec : Bool
  r : Bool
  w : Bool
deriving DecidableEq, Repr

/-- Who asks. -/
inductive Who where
  | cx (core ctx : Nat) | ct (core : Nat) | gu (core : Nat)
deriving DecidableEq, Repr

/-- What a request does at the slice. -/
inductive ReqOp where
  /-- load of `n` bytes -/
  | load (n : Nat)
  | store (bytes : List Byte)
  /-- atomic of `size` bytes: function number of R150, or 0x20 + that of an `xred` of type f32, operand, expected value -/
  | atomic (size fn : Nat) (operand expect : Word)
  | lcall (rid rn : Nat) (words : List Word)
  | lr (n : Nat)
  | sc (bytes : List Byte)
  /-- transactional access (R274): as a write?, the bytes it reads -/
  | tx (write : Bool) (n : Nat)
  /-- a claim of a reduced granule at commit (R282) -/
  | claim
deriving DecidableEq, Repr

/-- Where the reply goes. -/
inductive Dest where
  | none
  | s (sd : SReg) (k : LdK)
  | v (vd : VReg)
  /-- `lcall` results -/
  | words (sd : SReg) (rn : Nat)
  | x (rd : XReg) (k : RvLd)
  /-- SC: rd := 0 or 1 -/
  | scx (rd : XReg)
  /-- index line of stream slot: ordinal -/
  | index (slot ord : Nat)
  /-- `nfetch` of a run: slot, whether the reply triggers, n15 -/
  | fetch (slot : Nat) (rt : Bool) (n15 : Word)
deriving DecidableEq, Repr

/-- Stage of a request. -/
inductive RSt where
  /-- issued, not yet served -/
  | sent
  /-- translated: waiting in the slice for a fill or the home -/
  | wait
  /-- value fixed or write applied -/
  | done
deriving DecidableEq, Repr

/-- Faults a slice reports: cause numbers of Table 21.4 with their detail. -/
structure SFault where
  cause : Nat
  detail : BitVec 40
deriving DecidableEq, Repr

/-- A global or remote access in flight (R145–R155, R190). -/
structure Req where
  who : Who
  op : ReqOp
  va : Nat
  /-- a remote local-store access: target core (R190) -/
  remote : Option Nat
  size : Nat
  dest : Dest
  relaxed : Bool
  nt : Bool
  /-- it reads and writes: a transactional atomic or reduction, which needs R and W (R199) -/
  both : Bool
  /-- a private page's access: R and W of the translation, under which the tile buffer takes the lines when the reply comes (R193) -/
  priv : Option (Bool × Bool)
  issued : Nat
  st : RSt
  /-- physical address once translated -/
  pa : Nat
  /-- accepted into the serving slice's order: translated, classified, its acceptance signal sent (R206) -/
  walked : Bool
  /-- the acceptance signal has arrived (R206) -/
  accepted : Bool
  /-- performed at dv; at sy -/
  atDv : Bool
  atSy : Bool
  replyAt : Nat
  data : List Byte
  words : List Word
  /-- recalls still to be asked for (loads); the fill of a partial `.nt` store has still to come (R148); the outcome of an SC or a
  transactional request -/
  ok : Bool
  fault : Option SFault
  /-- the access alone, for a late fault (R147) -/
  bundle : Word
  pc : BitVec 17
  /-- the issuer still waits for the reply; false: it has been given up (killed, aborted) -/
  live : Bool
  /-- its context has been killed: a fault is not reported -/
  quiet : Bool
  /-- a coupled core's store whose translation was not at hand at issue: its slice hands it to the pair to hold (R331) -/
  hold : Bool
deriving DecidableEq, Repr

/-- A store of a coupled core that is held until its checkpoint: context, address, physical address when it was accepted (R331). -/
structure HeldStore where
  ctx : Nat
  req : Nat
  va : Nat
  pa : Nat
  bytes : List Byte
deriving DecidableEq, Repr

/-- Twinned execution (R328–R333). -/
structure Pair where
  on : Bool
  odd : Bool
  rb : Bool
  mism : BitVec 8
  ckpt : BitVec 32
  f : Word
  count : Nat
  /-- local-store bytes as they stood before the interval's first write of each unit -/
  undo : List Host.Cell
  units : List Nat
  /-- held stores, and those of their physical granules that stand in versioned stores, not in the tile buffer -/
  stores : List HeldStore
  vgrans : List Nat
  /-- the last checkpoint: contexts, register file, requests issued before it -/
  ckCtx : List (Nat × Ctx)
  ckV : List (Nat × Line)
  ckReq : Nat
  /-- requests issued since by bundles that no rollback repeats, and the replies since of requests that a rollback keeps -/
  kept : List Nat
  came : List (Nat × Req)
deriving DecidableEq, Repr

/-- Uncoupled. -/
def Pair.init : Pair :=
  { on := false, odd := false, rb := false, mism := 0, ckpt := 0, f := 0xFFFFFFFFFFFFFFFF, count := 0, undo := []
    units := [], stores := [], vgrans := [], ckCtx := [], ckV := [], ckReq := 0, kept := [], came := [] }

/-- A core (Table 1.2). -/
structure Core where
  ct : Ct
  ctxs : List (Nat × Ctx)
  v : List (Nat × Line)
  ls : List Host.Cell
  mode : BitVec 2
  xbound : BitVec 10
  ovlvec : Word
  sevpol : Word
  glimctl : Word
  trigs : List (Nat × Word)
  trigIdx : BitVec 4
  timecmp : Word
  evmask : Word
  evpend : Word
  bars : List (Nat × Bar)
  /-- as group root: arrivals of each member not yet released, by group × 4,096 + member (R54) -/
  roots : List (Nat × Nat)
  qs : List (Nat × QReg)
  /-- pushes so far, for the order of elements on one link (R268) -/
  qOrd : Nat
  mbx : List (Nat × Word)
  /-- messages this core has in flight (R128) -/
  flying : Nat
  deques : List (Nat × List TaskRec)
  spills : List (Nat × List TaskRec)
  /-- the cycle in which a snuff began to zero its local store, 64 bytes a cycle (R326) -/
  wipe : Option Nat
  /-- by deque, the cycle by which the records that came back from its spill queue have been read (R300) -/
  refill : List (Nat × Nat)
  /-- a spilled record that the owner's pop has read from memory, and the cycle by which it has -/
  spillGot : Option (Nat × Nat)
  faultq : List Word
  /-- the cycle in which the last entries of MTFAULT joined, and how many they are (R305) -/
  faultAt : Nat
  faultNew : Nat
  push : BitVec 8
  recs : List (Nat × JRec)
  tcc : List Saved
  seq : Nat
  gat : Gather
  dig : List (Word × Word)
  /-- the cycles until which the pairs in the hash unit's buffer stay there (R266) -/
  digBuf : List Nat
  digNo : Nat
  tile : List TileEnt
  lid : Nat
  pair : Pair
  /-- context mask of the trigger that started the trace channel; none: idle (R362) -/
  trace : Option (BitVec 16)
  /-- a steal pass in progress: the next victim offset and whether a try succeeded (R302) -/
  steal : Option Nat
  /-- uncorrectable words: local-store word addresses and register-file words (R319) -/
  lsBad : List Nat
  vBad : List Nat
  /-- uncorrectable queue elements, by their place in the core's push order (R319) -/
  qBad : List Nat
  /-- local-store single-bit errors not yet met (R319) -/
  lsLatent : List (Nat × Nat)
deriving DecidableEq, Repr

/-- A core that belongs to no launch (Table 3.1; log 1). -/
def Core.init : Core :=
  { ct := Ct.init, ctxs := [], v := [], ls := [], mode := 0, xbound := 0, ovlvec := 0, sevpol := 0, glimctl := 0
    trigs := [], trigIdx := 0, timecmp := 0xFFFFFFFFFFFFFFFF, evmask := 0, evpend := 0, bars := [], roots := []
    qs := [], qOrd := 0, mbx := [], flying := 0, deques := [], spills := [], wipe := none, refill := [], spillGot := none, faultq := []
    faultAt := 0, faultNew := 0, push := 0, recs := [], tcc := []
    seq := 0, gat := Gather.init, dig := [], digBuf := [], digNo := 0, tile := [], lid := 0, pair := Pair.init, trace := none
    steal := none, lsBad := [], vBad := [], qBad := [], lsLatent := [] }

/-! ### Memory system -/

/-- A translation-cache entry (R197, R201). -/
structure TlbEnt where
  die : Nat
  slice : Nat
  asid : Nat
  level : Nat
  /-- virtual page: VA with the offset bits of the level dropped -/
  page : Nat
  pte : Word
deriving DecidableEq, Repr

/-- RDC line states (Table 13.8); I is not listed. -/
inductive Moes where
  | m | o | e | s
deriving DecidableEq, Repr

/-- An RDC line: its state and its 64 bytes. -/
structure RdcEnt where
  st : Moes
  data : Line
deriving DecidableEq, Repr

/-- A directory entry of a line at its home (R214): the owning die and the sharer vector. It stands until the copies it names are
invalidated, also when one of them was dropped silently (R215). -/
structure DirEnt where
  owner : Option Nat
  /-- the owner has answered a recall: it holds the line in O, and the home holds its data (Table 13.9) -/
  recalled : Bool
  sharers : BitVec 8
deriving DecidableEq, Repr

/-- A mirror line held by a buddy die (R216). -/
structure MirEnt where
  owner : Nat
  data : Line
  num : Nat
deriving DecidableEq, Repr

/-- Markers of a granule (R274). -/
structure Marks where
  readers : List (Nat × Nat)
  writer : Option (Nat × Nat)
deriving DecidableEq, Repr

/-- Caches and coherence. -/
structure Coh where
  roots : List (Nat × Nat)
  tlb : List TlbEnt
  /-- lines resident in their home L2 bank -/
  l2 : List Nat
  /-- fills in flight: line, requests waiting -/
  fills : List (Nat × List Nat)
  /-- RDC lines by line × 8 + die -/
  rdc : List (Nat × RdcEnt)
  /-- the directories, by line (R214) -/
  dir : List (Nat × DirEnt)
  /-- mirror lines by line address -/
  mirror : List (Nat × MirEnt)
  /-- ownership sequence by die (R216) -/
  ownSeq : List (Nat × Nat)
  /-- messages of a die above this number are discarded (R217) -/
  ownCut : List (Nat × Nat)
  /-- dies that answer no recall -/
  deaf : List Nat
  marks : List (Nat × Mark)
  /-- bit errors not yet met: line address to the numbers of the bits in error (R317) -/
  latent : List (Nat × List Nat)
  tx : List (Nat × Marks)
  /-- granules in versioned stores, by granule with their home slice id (die × 32 + slice) -/
  vstore : List (Nat × Nat)
  /-- requests waiting on MIG pages, on a routine slot or on a committing holder -/
  stalled : List Nat
deriving DecidableEq, Repr

/-- A routine slot of a slice (R259). -/
structure RSlot where
  asid : Nat
  rid : Nat
  code : List (BitVec 32)
  started : Nat
deriving DecidableEq, Repr

/-- A routine run (R255, R258). -/
structure RRun where
  req : Nat
  /-- slice id: die × 32 + slice -/
  slice : Nat
  rid : Nat
  code : List (BitVec 32)
  n : List (Nat × Word)
  w : Line
  k : List Word
  pc : Nat
  startAt : Nat
  /-- words overwritten by nwrw -/
  wrote : BitVec 16
  /-- words with an error, and their class -/
  bad : List (Nat × Nat)
  /-- one more than the highest class among erroneous words read; 0: none (R260) -/
  sev : Nat
  /-- how the run ended: the RFAULT word, or success -/
  ended : Bool
  rfault : Option (BitVec 32)
deriving DecidableEq, Repr

/-- Routine slots and runs. -/
structure Near where
  slots : List (Nat × List RSlot)
  /-- slot requests by die, in arrival order: request ids -/
  slotReqs : List (Nat × List Nat)
  runs : List (Nat × RRun)
  nextRun : Nat
deriving DecidableEq, Repr

/-! ### Jobs -/

/-- Job states (Table 15.1). -/
inductive JSt where
  | waiting | ready | running | paused | done | failed | cancelled | rejected | held
deriving DecidableEq, Repr

/-- A job (R222–R232). -/
structure Job where
  core : Nat
  recNo : Nat
  seq : Nat
  lid : Nat
  /-- the cluster of the engine (MXE, CPE), or H-die (CLE) -/
  cluster : Nat
  op : Nat
  cmd : TileCmd
  st : JSt
  code : Nat
  flags : Nat
  nbad : Nat
  progress : Nat
  sent : Bool
  cap : List Byte
  /-- accepted into its queue -/
  accepted : Bool
  /-- a collective: forwarded from its cluster's CPE queue to the CLE's (R218) -/
  fwd : Bool
  order : Nat
  /-- open transactions that hold it (R283): core and context -/
  holders : List (Nat × Nat)
  gang : List Nat
  reports : Nat
  startAt : Nat
  descs : List (List Word)
  /-- local-store ranges the engine has still to read (R192) -/
  ranges : List (Nat × Nat)
  /-- MMA.GA: index list and operand latch; collectives: partial sums -/
  tmp : List Word
  waitVa : Nat
deriving DecidableEq, Repr

/-- A window entry (R301). -/
structure WinEnt where
  isJob : Bool
  /-- job number, or task key -/
  key : Nat
  all : Bool
  r : Bool
  w : Bool
  lo : Nat
  len : Nat
deriving DecidableEq, Repr

/-- A cluster (Table 1.3). -/
structure Cluster where
  acc : List (Nat × BitVec 32)
  /-- accumulators in uncorrectable words (R319) -/
  accBad : List Nat
  win : List WinEnt
  /-- sent jobs that wait at the remote port for an entry, in order of arrival (R218) -/
  port : List Nat
  /-- sources granted last, of the MXE and of the CPE queue: a local core's number in the cluster, or 8 for the remote port -/
  lastM : Nat
  lastC : Nat
deriving DecidableEq, Repr

/-- An idle cluster. -/
def Cluster.init : Cluster := { acc := [], accBad := [], win := [], port := [], lastM := 8, lastC := 8 }

/-- Jobs and clusters. -/
structure Jobs where
  list : List (Nat × Job)
  next : Nat
  order : Nat
  nextKey : Nat
  clusters : List (Nat × Cluster)
  /-- gang commands the arbiter of a die has still to enter -/
  gangs : List Nat
deriving DecidableEq, Repr

/-! ### MMPs and launches -/

/-- A page-fault report (R306): who waits. -/
structure PfReport where
  asid : Nat
  page : Nat
  /-- contexts and control threads to message: core, and 0–15 or 16 plus 32 × VA [47:8] -/
  who : List (Nat × Nat)
  /-- paused jobs, requests of gather units and transactions -/
  jobs : List Nat
  reqs : List Nat
  /-- the host's request for the page (R342), and whether it has been refused -/
  tag : Option Nat
  refused : Bool
  /-- no page fault, but a job that waits for its launch's log to be extended (R267) -/
  ext : Option Nat
deriving DecidableEq, Repr

/-- An MMP: its page-fault reports in arrival order (R306), the frame its clock sweeper comes to next, its ready queue and the
watermark it has set (R204). -/
structure Mmp where
  queue : List PfReport
  sweep : Nat
  ready : List Nat
  watermark : Nat
deriving DecidableEq, Repr

/-- An idle MMP. -/
def Mmp.init : Mmp := { queue := [], sweep := 0, ready := [], watermark := 0 }

/-- A host-backed range (R342). -/
structure HbRange where
  lo : Nat
  len : Nat
  attr : Nat
deriving DecidableEq, Repr

/-- An address space (R186, R339). -/
structure Space where
  root : Nat
  ownerKey : Option (List Byte)
  debug : Bool
  hb : List HbRange
  /-- pages mapped, VA [47:16] -/
  pages : List Nat
  /-- frames that hold its tables -/
  tables : List Nat
deriving DecidableEq, Repr

/-- A group table entry (R51). -/
structure Group where
  valid : Bool
  root : Nat
  members : List Nat
deriving DecidableEq, Repr

/-- Launch states (Table 21.2). -/
inductive LSt where
  | queued | running | preempting | preempted | restoring | done | failed
deriving DecidableEq, Repr

/-- A launch (R292–R297). -/
structure Launch where
  lid : Nat
  pa : Nat
  words : List Word
  st : LSt
  groups : List (Nat × Group)
  routines : List (Nat × List (BitVec 32))
  kernels : List (Nat × List (BitVec 32))
  logLen : Nat
  logPages : Nat
  log : List (List Byte)
  /-- REASON of Table 21.2 once it has failed -/
  reason : Nat
  /-- clusters that a snuff has taken from it and made free (R326) -/
  freed : List Nat
  meas : BitVec 384
  saveCores : List (Nat × Core)
  saveJobs : List (Nat × Job)
  saveWin : List (Nat × List WinEnt)
  /-- messages of its cores still on their way, with the cycles left -/
  saveEvs : List (Nat × Ev)
  /-- the cycle its control threads were stopped, and the cycle the writes or reads of its save area end; 0: none -/
  stoppedAt : Nat
  until' : Nat
deriving DecidableEq, Repr

/-- A snuff in progress (R326): requested at a cycle, the clusters it covers. -/
structure Snuff where
  die : Nat
  n : Nat
  at0 : Nat
  clusters : List Nat
deriving DecidableEq, Repr

/-- MMPs, spaces, launches, containment. -/
structure Lau where
  mmps : List (Nat × Mmp)
  spaces : List (Nat × Space)
  freed : List Nat
  nextFrame : List (Nat × Nat)
  queues : List (Nat × List Nat)
  launches : List (Nat × Launch)
  nextId : Nat
  nextLid : Nat
  restore : List Nat
  rects : List (Nat × Word)
  snuffs : List Snuff
  deadClusters : List Nat
deriving DecidableEq, Repr

/-! ### Host, fabric, observation -/

/-- A fabric packet not yet acknowledged (R334). -/
structure Pkt where
  seq : Nat
  /-- when it was last sent -/
  sentAt : Option Nat
  /-- it is to be sent, or sent again, and waits for an allowance (R343) or for room in the window -/
  due : Bool
  op : FabOp
  req : Option Nat
  job : Option Nat
deriving DecidableEq, Repr

/-- A sending flow: one source agent to one peer, or to the device behind a port (peer 64 + port, R348). -/
structure Flow where
  seq : Nat
  pkts : List Pkt
deriving DecidableEq, Repr

/-- A receiving flow: highest number seen, numbers received in the window, stored atomic replies. -/
structure RFlow where
  high : Nat
  got : List Nat
  replies : List (Nat × Bool × List Byte)
deriving DecidableEq, Repr

/-- An acknowledgement this device has sent: flow, peer, number, error completion, data. -/
structure FabReply where
  flow : Nat
  peer : Nat
  seq : Nat
  err : Bool
  data : List Byte
deriving DecidableEq, Repr

/-- A fabric port (R343–R346). -/
structure Port where
  up : Bool
  peerPort : Nat
  peerCert : BitVec 384
  txKey : BitVec 256
  rxKey : BitVec 256
  txCtr : Nat
  rxCtr : Nat
  retrain : Option Nat
  declaredDown : Bool
  /-- flits this port may still send; flits its peer may still send to it (R343) -/
  allow : Nat
  given : Nat
  /-- this end's session message: key, nonce, signature (R346) -/
  hello : Option (BitVec 768 × BitVec 384 × BitVec 768)
  /-- the packet last sent, sealed: ciphertext and tag (R346) -/
  wire : List Byte
deriving DecidableEq, Repr

/-- A port at power-up. -/
def Port.init : Port :=
  { up := false, peerPort := 0, peerCert := 0, txKey := 0, rxKey := 0, txCtr := 0, rxCtr := 0, retrain := none
    declaredDown := false, allow := 0, given := 0, hello := none, wire := [] }

/-- A bound peer (R344). -/
structure Peer where
  hash : BitVec 384
  mask : Nat
deriving DecidableEq, Repr

/-- A ring (R348). -/
structure RingCfg where
  p : Nat
  rank : Nat
  nextPort : Nat
  prevPort : Nat
deriving DecidableEq, Repr

/-- Fabric state. -/
structure Fab where
  ports : List (Nat × Port)
  peers : List (Nat × Peer)
  /-- sending flows by agent × 128 + peer -/
  flows : List (Nat × Flow)
  rflows : List (Nat × RFlow)
  log : List (List Byte)
  exportRgn : Option (Nat × Nat × Nat)
  rings : List (Nat × RingCfg)
  /-- ring packets received and not consumed: ring, step, block, words -/
  ringIn : List (Nat × Nat × Nat × List Word)
  sessions : Nat
  /-- the last acknowledgement sent -/
  acked : Option FabReply
deriving DecidableEq, Repr

/-- The security engine's registers and BAR0 (R335, R352). -/
structure HostIf where
  stages : BitVec 3
  announced : BitVec 8
  failed : BitVec 8
  err : BitVec 8
  hwbase : Word
  busy : Bool
  mcmd : BitVec 8
  marg : List (Nat × Word)
  mres : Word
  ignored : Nat
  ce : List (Nat × Nat)
  ue : List (Nat × Nat)
  hbq : List Word
  hbTag : Nat
  mapwin : Option (Nat × Nat × Nat)
  mr : List (Nat × BitVec 384)
  signs : Nat
  /-- MSI-X vector 0 has been signalled; MSI-X is enabled on the physical function (R342) -/
  msix : Bool
  msixOn : Bool
  /-- a refused posted write has been reported as an Unsupported Request error (R336) -/
  urPosted : Bool
  /-- the last completion returned to the host: bytes, or none for Unsupported Request; EP bit -/
  answer : Option (List Byte)
  answerEp : Bool
  /-- host-window reads under way: requests, and 2^40 + job -/
  hostReads : List Nat
  /-- accesses through BAR2 that wait, in PCIe order (R213) -/
  bar2 : List Ev
  /-- the running command has changed translations and waits for the acknowledgements (R202) -/
  acking : Bool
  /-- the two keys of LPDDR-6: data and tweak (R356) -/
  dataKey : BitVec 256
  tweakKey : BitVec 256
deriving DecidableEq, Repr

/-- Power and observation (R359–R363). -/
structure Obs where
  caps : List (Nat × Nat)
  levels : List (Nat × Nat)
  frozen : Bool
  freezeAt : Option Nat
  frozenAt : Nat
  heldSnuffs : List (Nat × Nat)
  glimK : Nat
  glimBase : Nat
  glimSize : Nat
  glimNext : Nat
  glimWritten : Nat
  glimDropped : Nat
  traceBase : Nat
  traceSize : Nat
  traceNext : Nat
deriving DecidableEq, Repr

/-- The machine. -/
structure State where
  powered : Bool
  time : Nat
  agenda : List (Nat × Ev)
  todo : List Agent
  cur : Cur
  fresh : Nat
  cores : List (Nat × Core)
  mem : List Host.Cell
  hostMem : List Host.Cell
  reqs : List (Nat × Req)
  nextReq : Nat
  coh : Coh
  near : Near
  jobs : Jobs
  lau : Lau
  fab : Fab
  host : HostIf
  obs : Obs
deriving DecidableEq, Repr

/-! ### Reset -/

/-- Nothing cached, nothing marked. -/
def Coh.init : Coh :=
  { roots := [], tlb := [], l2 := [], fills := [], rdc := [], dir := [], mirror := [], ownSeq := [], ownCut := [], deaf := []
    marks := [], latent := [], tx := [], vstore := [], stalled := [] }

/-- No routine installed. -/
def Near.init : Near := { slots := [], slotReqs := [], runs := [], nextRun := 0 }

/-- No job. -/
def Jobs.init : Jobs := { list := [], next := 1, order := 0, nextKey := 1, clusters := [], gangs := [] }

/-- No launch, no address space. -/
def Lau.init : Lau :=
  { mmps := [], spaces := [], freed := [], nextFrame := [], queues := [], launches := [], nextId := 0, nextLid := 1
    restore := [], rects := [], snuffs := [], deadClusters := [] }

/-- Links down, no peer bound. -/
def Fab.init : Fab :=
  { ports := [], peers := [], flows := [], rflows := [], log := [], exportRgn := none, rings := [], ringIn := []
    sessions := 0, acked := none }

/-- BAR0 at its reset values (Table 25.1). -/
def HostIf.init : HostIf :=
  { stages := 0, announced := 0, failed := 0, err := 0, hwbase := 0, busy := false, mcmd := 0, marg := [], mres := 0
    ignored := 0, ce := [], ue := [], hbq := [], hbTag := 0, mapwin := none, mr := [], signs := 0, msix := false
    msixOn := false, urPosted := false
    answer := none, answerEp := false, hostReads := [], bar2 := [], acking := false, dataKey := 0, tweakKey := 0 }

/-- No cap lowered, nothing frozen, no buffer. -/
def Obs.init : Obs :=
  { caps := [], levels := [], frozen := false, freezeAt := none, frozenAt := 0, heldSnuffs := [], glimK := 0, glimBase := 0
    glimSize := 0, glimNext := 0, glimWritten := 0, glimDropped := 0, traceBase := 0, traceSize := 0, traceNext := 0 }

/-- Nobody's step. -/
def Cur.none : Cur := { core := 0, ctx := 0, job := 0, run := 0, inRoutine := false, ev := .powerRemoved }

/-- The module without power. -/
def State.dark : State :=
  { powered := false, time := 0, agenda := [], todo := [], cur := Cur.none, fresh := 0, cores := [], mem := []
    hostMem := [], reqs := [], nextReq := 0, coh := Coh.init, near := Near.init, jobs := Jobs.init, lau := Lau.init
    fab := Fab.init, host := HostIf.init, obs := Obs.init }

/-- The cycle of power-good (R11, R357): TIME is 0, nothing runs, and the stages of Table 25.4 lie ahead (log 1). -/
def State.reset : State :=
  { State.dark with
    powered := true
    agenda := [(0, .powerGood)] }

end Sys2Proof.Machine
end

