-- ==== Sys2Proof/Machine/Ops.lean ====
section
/-!
DEFINITION. Named operations over the state: cores, contexts and registers, the agenda, local store and plain memory, events,
taking and leaving an exception, context faults, aborts and the end of a bundle.
-/
namespace Sys2Proof.Machine

/-- Outcome of a step. -/
abbrev Out := Host.Outcome State Fault Refusal

/-- The step ends in `s`. -/
def ok (s : State) : Out := .next s

/-- The step cannot be taken here. -/
def notEnabled (m : String) : Out := .refused (.notEnabled m)

/-! ### Cores and contexts -/

/-- Core `i`. -/
def State.core (s : State) (i : Nat) : Core := (sfind s.cores i).getD Core.init
/-- Sets core `i`. -/
def State.setCore (s : State) (i : Nat) (c : Core) : State := { s with cores := sins i c s.cores }
/-- Changes core `i`. -/
def State.modCore (s : State) (i : Nat) (f : Core → Core) : State := s.setCore i (f (s.core i))
/-- Context `c` of core `i`. -/
def State.cx (s : State) (i c : Nat) : Ctx := (sfind (s.core i).ctxs c).getD (Ctx.init i c)
/-- Sets a context. -/
def State.setCx (s : State) (i c : Nat) (x : Ctx) : State := s.modCore i (fun k => { k with ctxs := sins c x k.ctxs })
/-- Changes a context. -/
def State.modCx (s : State) (i c : Nat) (f : Ctx → Ctx) : State := s.setCx i c (f (s.cx i c))
/-- Changes the control thread of core `i`. -/
def State.modCt (s : State) (i : Nat) (f : Ct → Ct) : State := s.modCore i (fun k => { k with ct := f k.ct })
/-- The core of this step. -/
def State.myCore (s : State) : Core := s.core s.cur.core
/-- The context of this step. -/
def State.me (s : State) : Ctx := s.cx s.cur.core s.cur.ctx
/-- Changes the context of this step. -/
def State.modMe (s : State) (f : Ctx → Ctx) : State := s.modCx s.cur.core s.cur.ctx f
/-- Changes the control thread of this step. -/
def State.modMyCt (s : State) (f : Ct → Ct) : State := s.modCt s.cur.core f
/-- TIME (R11). -/
def State.tick64 (s : State) : Word := BitVec.ofNat 64 s.time

/-- Contexts N of a mode (Table 3.2). -/
def modeN (m : BitVec 2) : Nat := 16 >>> m.toNat
/-- Group size G of a mode. -/
def modeG (m : BitVec 2) : Nat := if m = 3 then 4 else if m = 2 then 2 else 1
/-- Issue interval I of a mode. -/
def modeI (m : BitVec 2) : Nat := if m = 0 then 16 else 8
/-- Vector length in elements of `w` bits (R33). -/
def vlen (m : BitVec 2) (w : Nat) : Nat := modeG m * (512 / w)

/-! ### Geometry (R13, R14, R195) -/

/-- C-die of a core. -/
def dieOf (core : Nat) : Nat := core / 256
/-- Cluster id of a core (R14). -/
def clusterOf (core : Nat) : Nat :=
  let y := core / 16 % 16
  let x := core % 16
  core / 256 * 32 + y / 2 * 4 + x / 4
/-- Difference of two naturals. -/
def absDiff (a b : Nat) : Nat := if a ≤ b then b - a else a - b
/-- Cluster-router hops: the difference of the rows plus that of the columns, each within its die (R25). -/
def hops (a b : Nat) : Nat := absDiff (a / 4 % 8) (b / 4 % 8) + absDiff (a % 4) (b % 4)
/-- `2h + 44c` between two clusters (R227), h and c counted as R25 counts them. DEDUCED (log 5): across dies h is the difference
of the two places on their dies, as it is toward a home slice of the same index. -/
def travel (a b : Nat) : Nat := 2 * hops a b + (if a / 32 = b / 32 then 0 else 44)
/-- h of R54: hops on one die, 22 across dies. -/
def groupH (a b : Nat) : Nat := if a / 32 = b / 32 then hops a b else 22
/-- Slice index of an address (R195). -/
def sliceIdx (a : Nat) : Nat := bitsOf a 12 8 ^^^ (bitsOf a 15 13 * 4)
/-- A core's neighbour over link 1 N, 2 E, 3 S, 4 W; links join cores of one die (R13). -/
def neighbour (core link : Nat) : Option Nat :=
  let y := core / 16 % 16
  let x := core % 16
  match link with
  | 1 => if y = 0 then none else some (core - 16)
  | 2 => if x = 15 then none else some (core + 1)
  | 3 => if y = 15 then none else some (core + 16)
  | 4 => if x = 0 then none else some (core - 1)
  | _ => none
/-- The link seen from the other end. -/
def opposite : Nat → Nat
  | 1 => 3 | 2 => 4 | 3 => 1 | 4 => 2 | n => n

/-! ### Registers -/

/-- s register of a snapshot; s0 reads zero (R61). -/
def Snap.rs (x : Snap) (r : SReg) : Word := if r = 0 then 0 else sget 0 x.s r.toNat
/-- m register of a snapshot; m0 reads all ones (R61). -/
def Snap.rm (x : Snap) (r : MReg) : BitVec 256 := if r = 0 then BitVec.allOnes 256 else sget 0 x.m r.toNat
/-- s register as it stands. -/
def Ctx.rs (x : Ctx) (r : SReg) : Word := if r = 0 then 0 else sget 0 x.s r.toNat
/-- m register as it stands. -/
def Ctx.rm (x : Ctx) (r : MReg) : BitVec 256 := if r = 0 then BitVec.allOnes 256 else sget 0 x.m r.toNat
/-- Writes an s register; a write to s0 is discarded (R61). -/
def Ctx.ws (x : Ctx) (r : SReg) (v : Word) : Ctx :=
  if r = 0 then x else
  { x with s := sput 0 x.s r.toNat v, sBad := x.sBad.erase r.toNat, sWrote := x.sWrote ||| BitVec.ofNat 16 (2 ^ r.toNat), aRes := some v }
/-- Writes a mask register; m0 is never written (R61). -/
def Ctx.wm (x : Ctx) (r : MReg) (v : BitVec 256) : Ctx :=
  if r = 0 then x else { x with m := sput 0 x.m r.toNat v, mBad := x.mBad.filter (fun w => w / 4 ≠ r.toNat), vRes := x.vRes ++ [256 + r.toNat] }
/-- Control-thread register; x0 reads zero. -/
def Ct.rx (t : Ct) (r : XReg) : Word := if r = 0 then 0 else sget 0 t.x r.toNat
/-- Writes a control-thread register; a write to x0 is discarded. -/
def Ct.wx (t : Ct) (r : XReg) (v : Word) : Ct := if r = 0 then t else { t with x := sput 0 t.x r.toNat v, xBad := t.xBad.erase r.toNat }

/-- s operand of this step's bundle, as it stood before the bundle (R35). -/
def State.aS (s : State) (r : SReg) : Word := s.me.snap.rs r
/-- Mask operand of this step's bundle. -/
def State.aM (s : State) (r : MReg) : BitVec 256 := s.me.snap.rm r
/-- Writes an s register of this step's context. -/
def State.setS (s : State) (r : SReg) (v : Word) : State := s.modMe (fun x => x.ws r v)

/-- First physical register of group `k` of context `c` (R33). -/
def physBase (mode : BitVec 2) (c k : Nat) : Nat := c * (256 / modeN mode) + modeG mode * k
/-- Register group `k` of a context: its G physical registers, the lowest first, as bits. -/
def groupOf (v : List (Nat × Line)) (mode : BitVec 2) (c k : Nat) : Nat :=
  (List.range (modeG mode)).foldr (fun j acc => (sget 0 v (physBase mode c k + j)).toNat + 2 ^ 512 * acc) 0
/-- Writes a register group. -/
def setGroup (v : List (Nat × Line)) (mode : BitVec 2) (c k : Nat) (x : Nat) : List (Nat × Line) :=
  (List.range (modeG mode)).foldl
    (fun m j => sput 0 m (physBase mode c k + j) (BitVec.ofNat 512 (x >>> (512 * j)))) v
/-- Whether the register writes of a context's last bundle are still in progress (R160). -/
def Ctx.busyUnit (x : Ctx) (now : Nat) : Bool :=
  decide (now < x.shownAt) && x.st ≠ .waitQ && x.st ≠ .waitBar
/-- A context's registers as another agent sees them: writes in progress are not complete (R160). -/
def Ctx.seen (x : Ctx) (now : Nat) : Ctx :=
  if x.busyUnit now then
    { x with s := x.snap.s, m := x.snap.m, flags := x.snap.flags, rmode := x.snap.rmode, seed := x.snap.seed }
  else x
/-- The vector file as context `c` sees it at issue: partitions of the others without writes in progress (R49, R183). -/
def Core.vSeen (k : Core) (c now : Nat) : List (Nat × Line) :=
  let n := 256 / modeN k.mode
  (k.ctxs.filter (fun e => e.1 ≠ c && e.2.busyUnit now)).foldl (fun v e =>
    (List.range n).foldl (fun v j => sput 0 v (e.1 * n + j) (sget 0 e.2.snap.v (e.1 * n + j))) v) k.v
/-- Vector operand of this step's bundle, as it stood before the bundle. -/
def State.aV (s : State) (r : VReg) : Nat := groupOf s.me.snap.v s.myCore.mode s.cur.ctx r.toNat
/-- Vector register as it stands. -/
def State.liveV (s : State) (r : VReg) : Nat := groupOf s.myCore.v s.myCore.mode s.cur.ctx r.toNat
/-- Writes a vector register group of a context, with fresh check bits (R319). -/
def State.putV (s : State) (i c : Nat) (r : Nat) (x : Nat) : State :=
  (s.modCore i (fun k =>
    let p := physBase k.mode c r
    { k with
      v := setGroup k.v k.mode c r x
      vBad := k.vBad.filter (fun w => !(decide (p * 8 ≤ w) && decide (w < (p + modeG k.mode) * 8))) })).modCx i c (fun t => { t with vRes := t.vRes ++ [r] })
/-- Writes a vector register group of this step's context. -/
def State.setV (s : State) (r : VReg) (x : Nat) : State := s.putV s.cur.core s.cur.ctx r.toNat x

/-! ### The agenda -/

/-- The core an agent belongs to. -/
def Who.core : Who → Nat
  | .cx i _ => i
  | .ct i => i
  | .gu i => i

/-- Order of steps that fall in one cycle: arrivals from other cores in ascending source core id (R111), remote local-store
accesses likewise (R191), then the rest, doorbells with the host's first and then in ascending C-die (R338), and last the glim,
which latches the end of the cycle (R363). -/
def State.evRank (s : State) : Ev → Nat
  | .queueDelivery core _ _ _ => core
  | .mbxAccept src _ _ _ | .mbxResend src _ _ _ => src
  | .groupArrival _ _ core => core
  | .stealTry thief _ => thief
  | .stealReply _ victim _ => victim
  | .taskRetire _ agent _ _ => agent / 32
  | .sendArrival j => match sfind s.jobs.list j with | some x => x.core | none => 0
  | .remoteLsAccess r => 2048 + (match sfind s.reqs r with | some q => q.who.core | none => 0)
  | .lqdbWrite .. => 4097
  | .launchDoorbell _ _ die => 4098 + die
  | .glimPulse => 8192
  | _ => 4096

/-- Inserts a step after those of the same or an earlier cycle and rank. -/
def insertEv (rank : Ev → Nat) (d : Nat) (e : Ev) : List (Nat × Ev) → List (Nat × Ev)
  | [] => [(d, e)]
  | (d', e') :: t =>
    if d < d' || (d = d' && rank e < rank e') then (d, e) :: (d', e') :: t else (d', e') :: insertEv rank d e t

/-- Puts a step in the agenda for cycle `d`. -/
def State.at (s : State) (d : Nat) (e : Ev) : State := { s with agenda := insertEv s.evRank d e s.agenda }
/-- Puts a step `n` cycles ahead. -/
def State.after (s : State) (n : Nat) (e : Ev) : State := s.at (s.time + n) e
/-- Takes every step that meets `p` out of the agenda. -/
def State.cancel (s : State) (p : Ev → Bool) : State := { s with agenda := s.agenda.filter (fun x => !p x.2) }

/-- Whether a waiting control thread tries its instruction again each cycle. -/
def CtWait.retries : CtWait → Bool
  | .retry | .push _ => true
  | _ => false
/-- Lets the waiting control thread of core `i` try again in this cycle. -/
def State.pokeCt (s : State) (i : Nat) : State :=
  if (s.core i).ct.wait.retries && !s.todo.contains (.ct i) then { s with todo := .ct i :: s.todo } else s

/-- Whether a context waits with a bundle that has issued and has taken no effect. -/
def Ctx.waiting (x : Ctx) : Bool :=
  (x.st = .waitQ || x.st = .waitBar) && (match x.wait with | .taskPush _ => false | _ => true)

/-- Waiting contexts of core `i` that this cycle has not still to run. -/
def State.waiters (s : State) (i : Nat) : List Agent :=
  ((s.core i).ctxs.filter (fun e => e.2.waiting && !s.todo.contains (.cx i e.1))).map (fun e => .cx i e.1)

/-- Lets the waiting contexts of core `i` try again in this cycle, in ascending context; an odd twin's follow (R329). -/
def State.pokeCxs (s : State) (i : Nat) : State :=
  let p := (s.core i).pair
  { s with todo := s.waiters i ++ (if p.on && !p.odd then s.waiters (i ^^^ 1) else []) ++ s.todo }

/-- Lets everyone who waits on core `i` try again. -/
def State.poke (s : State) (i : Nat) : State := (s.pokeCxs i).pokeCt i

/-! ### Bytes -/

/-- Bytes of a sparse memory. -/
def cells (m : List Host.Cell) (a n : Nat) : List Byte := (List.range n).map (fun k => sget 0 m (a + k))
/-- Writes bytes to a sparse memory, keeping the canonical form. -/
def putCells (m : List Host.Cell) (a : Nat) : List Byte → List Host.Cell
  | [] => m
  | b :: bs => putCells (sput 0 m a b) (a + 1) bs

/-- Memory in canonical form: addresses rising, no listed zero byte. -/
def Memory.wf (m : List Host.Cell) : Bool := scanon (0 : Byte) m

/-- Local-store limit (R143). -/
def lsEnd : Nat := Config.lsBytes
/-- Local-store bytes of core `i`. -/
def State.lsGet (s : State) (i a n : Nat) : List Byte := cells (s.core i).ls a n
/-- Local-store value of `n` bytes. -/
def State.lsVal (s : State) (i a n : Nat) : Nat := leVal (s.lsGet i a n)

/-- Records the bytes of a context's local-store write in the undo log of a coupled core (R331). -/
def logUndo (k : Core) (a n : Nat) : Core :=
  if !k.pair.on then k else
  (List.range n).foldl (fun k j =>
    let u := (a + j) / 64
    if k.pair.units.contains u then k else
    { k with pair := { k.pair with
        units := u :: k.pair.units
        undo := (List.range 64).map (fun b => (u * 64 + b, sget 0 k.ls (u * 64 + b))) ++ k.pair.undo } }) k

/-- Writes local-store bytes of core `i`; fresh check bits are stored with each whole word (R319). -/
def State.lsPut (s : State) (i a : Nat) (bs : List Byte) : State :=
  s.modCore i (fun k => { k with
    ls := putCells k.ls a bs
    lsBad := k.lsBad.filter (fun w => !(decide (a ≤ w) && decide (w + 8 ≤ a + bs.length)))
    lsLatent := k.lsLatent.filter (fun e => !(decide (a ≤ e.1) && decide (e.1 + 8 ≤ a + bs.length))) })

/-- A context's store to its local store. -/
def State.lsStore (s : State) (i c a : Nat) (bs : List Byte) : State :=
  ((s.modCore i (fun k => logUndo k a bs.length)).lsPut i a bs).modCx i c
    (fun x => { x with stRes := x.stRes ++ [(a, bs)] })

/-! ### Events (R313) -/

/-- Bit positions of Table 21.12. -/
def evTimer : Nat := 2
/-- JOB. -/
def evJob : Nat := 3
/-- CTX. -/
def evCtx : Nat := 4
/-- TASK. -/
def evTask : Nat := 5
/-- BAR. -/
def evBar : Nat := 6
/-- Sets an edge bit of EVPEND and lets the control thread see it. -/
def State.event (s : State) (i b : Nat) : State :=
  (s.modCore i (fun k => { k with evpend := k.evpend ||| BitVec.ofNat 64 (2 ^ b) })).pokeCt i
/-- EVPEND with its level bits FLT and MBX. -/
def Core.events (k : Core) : Word :=
  k.evpend ||| (if k.faultq = [] then 0 else 2) ||| (if k.mbx = [] then 0 else 1)

/-- State codes of Table 3.3. -/
def CSt.code : CSt → Nat
  | .empty => 0 | .run => 1 | .waitMem => 2 | .waitQ => 3 | .waitBar => 4 | .stopped => 5 | .faulted => 6 | .evicted => 7

/-- MTSTAT (Table 5.5). -/
def State.mtstat (s : State) (i : Nat) : Word :=
  BitVec.ofNat 64 ((List.range (modeN (s.core i).mode)).foldl (fun a c => a + (s.cx i c).st.code * 8 ^ c) 0)

/-! ### Jobs that end -/

/-- The cluster `k`. -/
def State.cluster (s : State) (k : Nat) : Cluster := (sfind s.jobs.clusters k).getD Cluster.init
/-- Changes cluster `k`. -/
def State.modCluster (s : State) (k : Nat) (f : Cluster → Cluster) : State :=
  { s with jobs := { s.jobs with clusters := sins k (f (s.cluster k)) s.jobs.clusters } }
/-- Job `j`. -/
def State.job (s : State) (j : Nat) : Option Job := sfind s.jobs.list j
/-- Sets job `j`. -/
def State.setJob (s : State) (j : Nat) (x : Job) : State := { s with jobs := { s.jobs with list := sins j x s.jobs.list } }
/-- Changes job `j` if it exists. -/
def State.modJob (s : State) (j : Nat) (f : Job → Job) : State :=
  match s.job j with
  | some x => s.setJob j (f x)
  | none => s

/-- Terminal states (R223). -/
def JSt.terminal : JSt → Bool
  | .done | .failed | .cancelled | .rejected => true
  | _ => false

/-- Window entries of a job leave every window that holds them (R220). -/
def State.retireJob (s : State) (j : Nat) : State :=
  { s with jobs := { s.jobs with clusters := s.jobs.clusters.map (fun e =>
      (e.1, { e.2 with win := e.2.win.filter (fun w => !(w.isJob && w.key = j)) })) } }

/-- Cluster of a job's engine for distances; a CLE counts as cluster 0 of its first die (DEDUCED, log 5). -/
def Job.place (x : Job) : Nat := if x.op ≥ 0x40 then x.cluster * 128 else x.cluster

/-- No completion is awaited from the host for a read any more (R337). -/
def State.hostOver (s : State) (r : Nat) : State := { s with host := { s.host with hostReads := s.host.hostReads.filter (fun x => x ≠ r) } }
/-- Ends a job: state, code, retirement, and the update of the record 2h + 44c later (R223, R227). -/
def State.endJob (s : State) (j : Nat) (st : JSt) (code : Nat) : State :=
  match s.job j with
  | none => s
  | some x =>
    if x.st.terminal then s else
    (((s.hostOver (2 ^ 40 + j)).setJob j { x with st := st, code := code, ranges := [] }).retireJob j).after
      (travel x.place (clusterOf x.core)) (.jobRecordUpdate j)

/-- The agenda step that starts a launch's end. -/
def State.failLaunch (s : State) (lid reason : Nat) : State :=
  match s.lau.launches.find? (fun l => l.2.lid = lid && l.2.st ≠ .done && l.2.st ≠ .failed) with
  | none => s
  | some (k, l) =>
    ({ s with lau := { s.lau with launches := sins k { l with reason := reason } s.lau.launches } }).at s.time
      (.launchEnd lid)

/-! ### Control-thread exceptions (R107, R309, R310) -/

/-- Ends a control-thread instruction with result `v` in rd. -/
def ctDone (s : State) (rd : XReg) (v : Word) : State :=
  s.modMyCt (fun t => { (t.wx rd v) with pc := t.pc + 4, minstret := t.minstret + 1, wait := .none })

/-- Ends the waiting instruction of core `i` with result `v` in rd. -/
def ctFinish (s : State) (i : Nat) (rd : XReg) (v : Word) : State :=
  s.modCt i (fun t => { (t.wx rd v) with pc := t.pc + 4, minstret := t.minstret + 1, wait := .none })

/-- The instruction waits and is tried again (R29). -/
def ctRetry (s : State) : State := s.modMyCt (fun t => { t with wait := .retry })

/-- The boundary in bytes (Table 5.3). -/
def Core.bound (k : Core) : Nat := k.xbound.toNat * 128

/-- Takes a machine-mode exception on core `i`: `mepc`, `mcause`, `mtval`, `mstatus`.MPP and MPIE are written, interrupts go
off, and the thread continues at `mtvec`; a handler fetch that would fault halts it and fails the launch (R309, R310). -/
def takeTrap (s : State) (i : Nat) (cause : Nat) (tval : Word) : State :=
  let s1 := s.modCt i (fun t => { t with
    mepc := t.pc, mcause := BitVec.ofNat 64 cause, mtval := tval, mpp := t.priv, mpie := t.mie, mie := false
    priv := .machine, pc := t.mtvec, wait := .none })
  let k := s1.core i
  if k.ct.mtvec.toNat ≥ k.bound || k.ct.mtvec.toNat % 4 ≠ 0 then
    (s1.modCt i (fun t => { t with halted := true })).failLaunch k.lid 7
  else s1

/-- Takes an exception on the core of this step. -/
def trap (s : State) (cause : Nat) (tval : Word) : Out := ok (takeTrap s s.cur.core cause tval)

/-- Illegal instruction, cause 2, with the instruction bits in `mtval` (R67). -/
def illegal (s : State) : Out := trap s 2 (zx s.myCore.ct.ir)

/-- `mret`: the mode and interrupt enable return from `mstatus`, the pc from `mepc`; a return to user mode clears MPRV. -/
def leaveTrap (s : State) : State :=
  s.modMyCt (fun t => { t with
    pc := t.mepc, priv := t.mpp, mie := t.mpie, mpie := true, mprv := t.mprv && t.mpp = .machine, mpp := .user, minstret := t.minstret + 1, wait := .none })

/-! ### Transactions that abort (R152, R283–R287) -/

/-- Whether a marker set names a context. -/
def Marks.drop (m : Marks) (i c : Nat) : Marks :=
  { readers := m.readers.filter (fun r => r ≠ (i, c)), writer := if m.writer = some (i, c) then none else m.writer }

/-- Releases every marker and versioned granule of a context (R287). -/
def State.dropMarks (s : State) (i c : Nat) : State :=
  let tx := (s.coh.tx.map (fun e => (e.1, e.2.drop i c))).filter (fun e => e.2.readers ≠ [] || e.2.writer.isSome)
  let own := s.coh.tx.filterMap (fun e => if e.2.writer = some (i, c) then some e.1 else none)
  { s with coh := { s.coh with tx := tx, vstore := s.coh.vstore.filter (fun e => !own.contains e.1) } }

/-- Takes tracked granules out of a tile buffer, but those another transaction of the core tracks (R276, R287). -/
def Core.dropGrans (k : Core) (c : Nat) (gs : List Nat) : Core :=
  { k with tile := k.tile.filter (fun e => !e.gran || !gs.contains e.key
      || k.ctxs.any (fun x => x.1 ≠ c && (match x.2.txn with
        | some t => (t.rset ++ t.wset).any (fun g => g.1 = e.key)
        | none => false))) }

/-- Jobs held on a transaction are cancelled (R283); answers whether there was one. -/
def cancelHeld (i c : Nat) : List (Nat × Job) → State → State × Bool
  | [], s => (s, false)
  | (j, x) :: t, s =>
    if x.st = .held && x.holders.contains (i, c) then
      ((cancelHeld i c t ((s.endJob j .cancelled 0).at s.time (.jobTerminal j))).1, true)
    else cancelHeld i c t s

/-- TXSTAT after an abort (Table 19.4). -/
def txstatWord (cause code depth : Nat) (retry held : Bool) (gran : Nat) : Word :=
  BitVec.ofNat 64 (code % 256 * 2 ^ 56 + depth % 16 * 2 ^ 52 + b2n retry * 2 ^ 51 + b2n held * 2 ^ 50
    + gran % 2 ^ 40 * 256 + cause % 32)

/-- Gives up the requests of a context that `p` selects: their replies are discarded. -/
def State.giveUp (s : State) (p : Req → Bool) : State :=
  { s with reqs := s.reqs.map (fun e => (e.1, if p e.2 then { e.2 with live := false } else e.2)) }

/-- Transactional requests. -/
def ReqOp.isTx : ReqOp → Bool
  | .tx _ _ | .claim => true
  | _ => false

/-- A held request is applied at the end of the block (R44). -/
def State.blockEnded (s : State) (i c : Nat) : State :=
  match (s.cx i c).held with
  | some _ => s.at s.time (.heldRequestApply i c)
  | none => s

/-- Aborts the open transaction of a context: checkpointed registers come back, TXSTAT is written, D := 0, and the context
continues at the abort target as after a taken branch; a STOPPED context stays STOPPED (R152, R284, R287). DEDUCED (log 35): an
S bit of the aborting bundle has no effect, since the context continues at the target; a handler entered inside the transaction
ends with it. -/
def abortTxn (s : State) (i c : Nat) (cause code : Nat) (retry : Bool) (gran : Nat) : State :=
  match (s.cx i c).txn with
  | none => s
  | some t =>
    let (s1, hb) := cancelHeld i c s.jobs.list (s.dropMarks i c)
    let s1b := (s1.modCore i (fun k => k.dropGrans c ((t.rset ++ t.wset).map (·.1)))).cancel (fun e => match e with
      | .txCommitMessage a b _ => a = i && b = c
      | _ => false)
    let s2 := s1b.giveUp (fun r => r.who = .cx i c && r.op.isTx)
    let s3 := s2.modCx i c (fun x => { x with
      s := t.ckS, m := t.ckM, txn := none, age := if retry then x.age else none, handler := none, shownAt := 0
      txstat := txstatWord cause code t.depth retry hb gran
      st := (match x.st with | .run | .waitMem | .waitQ | .waitBar => .run | st => st)
      pc := t.target, copy := true, bufOk := false, inBlock := false, bcastEnd := none, reissue := false, alone := false
      wait := .none, xfer := none, quash := true, readyAt := s.time + 1 })
    s3.blockEnded i c

/-- The A-slot operation of this step's bundle aborts the transaction; the V-slot still acts (R273). -/
def abortMe (s : State) (cause code : Nat) (gran : Nat) : State :=
  if s.me.txn.isNone then s else
  (abortTxn s s.cur.core s.cur.ctx cause code false gran).modMe (fun x => { x with vStill := x.quash })

/-! ### Context faults (R286, R303–R305) -/

/-- An entry of MTFAULT (Table 21.5). -/
def faultEntry (c : Nat) (f : FaultRep) : Word :=
  BitVec.ofNat 64 (2 ^ 63 + c * 2 ^ 59 + f.cause * 2 ^ 54 + f.pc.toNat / 8 * 2 ^ 40 + f.detail.toNat)

/-- Context of a fault-queue entry. -/
def entryCtx (w : Word) : Nat := bitsOf w.toNat 62 59

/-- Inserts an entry among those of its cycle, in ascending context. -/
def insertFault (c : Nat) (w : Word) : List Word → List Word
  | [] => [w]
  | x :: t => if c < entryCtx x then w :: x :: t else x :: insertFault c w t

/-- Queues a fault entry in cycle `now`; the queue never holds two of one context, and entries of one cycle stand in ascending
context (R305). -/
def Core.queueFault (k : Core) (c : Nat) (f : FaultRep) (now : Nat) : Core :=
  if k.faultq.any (fun w => entryCtx w = c) then k else
  let new := if k.faultAt = now then k.faultNew else 0
  let old := k.faultq.length - new
  { k with faultq := k.faultq.take old ++ insertFault c (faultEntry c f) (k.faultq.drop old), faultAt := now, faultNew := new + 1 }

/-- Removes the entry of a context (R305). -/
def Core.unqueueFault (k : Core) (c : Nat) : Core :=
  let stays := fun (w : Word) => decide (entryCtx w ≠ c)
  { k with faultq := k.faultq.filter stays, faultNew := ((k.faultq.drop (k.faultq.length - k.faultNew)).filter stays).length }

/-- A context takes a fault: with a transaction open it aborts with FAULT (R286); else the context is FAULTED with the
bundle in its retry latch and an entry joins MTFAULT (R303–R305). `alone`: the latch holds no bundle of the block. -/
def takeCtxFault (s : State) (i c : Nat) (f : FaultRep) (alone : Bool) : State :=
  if (s.cx i c).txn.isSome then
    abortTxn s i c 6 f.cause false f.gran
  else
    let s1 := s.modCx i c (fun x => { x with
      st := .faulted, latch := f.bundle, cause := f, alone := alone, wait := .none, reissue := false, quash := true })
    let s2 := (s1.modCore i (fun k => k.queueFault c f s.time)).pokeCt i
    s2.blockEnded i c

/-- A fault the A-slot finds at issue, with the granule concerned: neither slot has an effect and the whole bundle goes to the
latch (R138, R284). -/
def aFaultAt (s : State) (cause : Nat) (detail : BitVec 40) (gran : Nat) : State :=
  takeCtxFault s s.cur.core s.cur.ctx { cause := cause, pc := s.me.irPc, detail := detail, bundle := s.me.ir, gran := gran } s.me.alone
/-- A fault at issue that concerns no granule. -/
def aFault (s : State) (cause : Nat) (detail : BitVec 40) : State := aFaultAt s cause detail 0

/-- Cause numbers of Table 21.4. -/
def cILL : Nat := 1
/-- ALIGN. -/
def cALIGN : Nat := 2
/-- PROT. -/
def cPROT : Nat := 3
/-- PAGE. -/
def cPAGE : Nat := 4
/-- SEVERITY. -/
def cSEV : Nat := 5
/-- ILLCTX. -/
def cILLCTX : Nat := 6
/-- OVERLAY. -/
def cOVERLAY : Nat := 7
/-- DESYNC. -/
def cDESYNC : Nat := 8

/-- The bundle of the A-slot operation alone: V-slot `vnop`, S kept (R138). -/
def aSlotOnly (w : Word) : Word := w &&& 0xFFFFFFFF00000000
/-- The access alone: V-slot `vnop`, X set, S clear (R147). -/
def accessAlone (w : Word) : Word := (w &&& 0x7FFFFFFF00000000) ||| 0x4000000000000000

/-! ### The end of a bundle (R41, R44–R46, R269) -/

/-- Whether the bundle at `pc` is the last its block can hold, or the last of a broadcast. -/
def Ctx.atEnd (x : Ctx) : Bool := x.irPc.toNat / 8 % 16 = 15 || x.bcastEnd = some x.irPc.toNat

/-- Whether the bundle stops the context: S, or the nth bundle of a broadcast, which ends the block as if it set S (R47). -/
def Ctx.stops (x : Ctx) : Bool :=
  bundleS x.ir || (!x.alone && x.bcastEnd = some x.irPc.toNat)

/-- Enters STOPPED, setting CTX in EVPEND. -/
def State.stopCx (s : State) (i c : Nat) : State :=
  ((s.modCx i c (fun x => { x with st := .stopped })).event i evCtx).pokeCt i

/-- Ends the bundle a context has issued: its transfer, S, the end of the block, and what waited for that end. A context
that has faulted keeps FAULTED (R44, R157). DEDUCED (log 45): a debug thread stop held to this end acts as S does, so a light
handler that is due runs first and then stops at its continuation. -/
def finishBundle (s : State) (i c : Nat) : State :=
  let x := s.cx i c
  let stop := x.stops
  let ends := stop || x.xfer.isSome || (!x.alone && x.atEnd)
  if !ends then s.modCx i c (fun x => { x with alone := x.st = .faulted, quash := false, reissue := false }) else
  let pc := match x.xfer with | some t => t.target | none => x.pc
  let copy := match x.xfer with | some t => !t.early | none => x.copy
  let y : Ctx := { x with
    pc := pc, copy := copy, bufOk := false, inBlock := false, bcastEnd := none, xfer := none, alone := x.st = .faulted, quash := false
    reissue := false }
  let s1 := s.setCx i c y
  if y.st = .faulted then s1.blockEnded i c else
  let halt := stop || y.stopReq
  let s2 := s1.modCx i c (fun x => { x with stopReq := false })
  let s3 :=
    match y.handler, stop with
    | some (.follow p), true =>
      let s3 := s2.modCx i c (fun x => { x with handler := none, pc := p, copy := true })
      if y.stopReq then s3.stopCx i c else s3
    | some (.stop p), true => (s2.modCx i c (fun x => { x with handler := none, pc := p })).stopCx i c
    | _, _ =>
      match y.pendHandler with
      | some q =>
        (s2.modCx i c (fun x => { x with pendHandler := none, handler := some (if halt then .stop pc else .follow pc) })).at
          s2.time (.lightHandlerEntry i c q)
      | none => if halt then s2.stopCx i c else s2
  s3.blockEnded i c

/-- The bundle does not issue now: the context waits and takes it up again; a request already held is applied as the wait
in WAIT.Q or WAIT.BAR begins (R44, R147). -/
def holdBundle (s : State) (st : CSt) (w : CWait) : State :=
  let i := s.cur.core
  let c := s.cur.ctx
  let s1 := s.modCx i c (fun x => { x with
    st := st, wait := w, pc := if x.reissue || x.copy then x.pc else x.irPc, quash := true, xfer := none })
  if st = .waitMem then s1 else s1.blockEnded i c

/-! ### Free values -/

/-- A value the spec leaves open, new at each use (log 9). -/
def State.free (s : State) : Word := Config.freeWord s.fresh
/-- Consumes it. -/
def State.freshen (s : State) : State := { s with fresh := s.fresh + 1 }

end Sys2Proof.Machine
end

