-- ==== Sys2Proof/Machine/Operands.lean ====
section
/-!
DEFINITION. Operand forms: vector elements and predicates (R158–R160), rounding and seed (R97, R156), addresses of local and
global accesses (R143–R145), and which registers a bundle names, reads and writes (R35, R69, R147, R162).
-/
namespace Sys2Proof

/-- Bytes of a load kind. -/
def LdK.size : LdK → Nat
  | .i8 | .n8 => 1 | .i16 | .n16 => 2 | .i32 | .n32 => 4 | .d64 => 8
/-- Bytes of a store kind. -/
def StK.size : StK → Nat
  | .b8 => 1 | .b16 => 2 | .b32 => 4 | .b64 => 8
/-- Extension of a loaded value (R143). -/
def LdK.extend (k : LdK) (x : Nat) : Word :=
  match k with
  | .i8 => sext64 8 x | .i16 => sext64 16 x | .i32 => sext64 32 x | _ => BitVec.ofNat 64 x

/-- Bytes of a RISC-V load. -/
def RvLd.size : RvLd → Nat
  | .lb | .lbu => 1 | .lh | .lhu => 2 | .lw | .lwu => 4 | .ld => 8
/-- Extension of a RISC-V load. -/
def RvLd.extend (k : RvLd) (x : Nat) : Word :=
  match k with
  | .lb => sext64 8 x | .lh => sext64 16 x | .lw => sext64 32 x | _ => BitVec.ofNat 64 x
/-- Function number of R150 of an AMO. -/
def AmoOp.fn : AmoOp → Nat
  | .add => 0 | .min => 1 | .max => 2 | .minu => 3 | .maxu => 4 | .and => 5 | .or => 6 | .xor => 7 | .swap => 8

end Sys2Proof

namespace Sys2Proof.Machine

/-! ### Elements -/

/-- Element `e` of width `w` of a register group (R158). -/
def elem (w x e : Nat) : Nat := (x >>> (w * e)) % 2 ^ w
/-- The group of elements of width `w`, element 0 first. -/
def ofElems (w : Nat) (l : List Nat) : Nat := l.foldr (fun a acc => a % 2 ^ w + 2 ^ w * acc) 0
/-- The first `n` elements of width `w`. -/
def elems (w n x : Nat) : List Nat := (List.range n).map (elem w x)

/-- Rounding of an instruction: code 5 reads RMODE as it stood before the bundle (R160). -/
def rndOf (rmode : BitVec 3) : Rnd → Rnd
  | .dyn => (match rmode.toNat with | 1 => .rtz | 2 => .rdn | 3 => .rup | 4 => .sr | _ => .rne)
  | r => r

/-- What an element-wise operation has gathered: elements (reversed), flags, seed. -/
structure Acc where
  out : List Nat
  fl : Nat
  seed : BitVec 32
deriving DecidableEq, Repr

/-- Runs `f` on the active elements 0 to n − 1 in ascending order: an inactive element keeps `old`, raises no flag and takes
no step; under SR (`steps`) an active one takes one step first (R97, R159). -/
def mapEl (n : Nat) (mask : Nat) (sr : Bool) (steps : Nat → Bool) (old : Nat → Nat) (f : Nat → Nat → Res)
    (seed : BitVec 32) : Acc :=
  (List.range n).foldl (fun a e =>
    if !bitOf mask e then { a with out := old e :: a.out }
    else
      let sd := if sr && steps e then srStep a.seed else a.seed
      let r := f e sd.toNat
      { out := r.code :: a.out, fl := a.fl ||| r.fl, seed := sd }) { out := [], fl := 0, seed := seed }

/-- Elements of an accumulator as a group of width `w`. -/
def Acc.group (w : Nat) (a : Acc) : Nat := ofElems w a.out.reverse

/-- Ends a V-slot operation: flags are ORed in, and SRSEED takes the state after the last step unless a `wrcsr` of the
bundle wrote it (R156, R160). -/
def State.vEnd (s : State) (fl : Nat) (seed : BitVec 32) : State :=
  s.modMe (fun x => { x with flags := orFlags x.flags fl, seed := if x.seedSet then x.seed else seed })

/-- RMODE and SRSEED as they stood before the bundle. -/
def State.rmode0 (s : State) : BitVec 3 := s.me.snap.rmode
/-- SRSEED before the bundle. -/
def State.seed0 (s : State) : BitVec 32 := s.me.snap.seed

/-! ### Registers a bundle names -/

/-- Register groups an instruction names in the V-slot or as a vector operand of the A-slot (R33, R69, R162). -/
def vNames : Instr → List Nat
  | .vaddF _ _ v | .vsubF _ _ v | .vmulF _ _ v | .vminF _ v | .vmaxF _ v | .vfma _ _ v | .vfms _ _ v | .vfnma _ _ v
  | .vfnms _ _ v | .vaddI _ _ v | .vsubI _ _ v | .vmulI _ v | .vmulh _ v | .vminI _ v | .vmaxI _ v | .vand _ v | .vor _ v
  | .vxor _ v | .vandn _ v | .vperm _ v | .vsel _ v | .vmrg v => [v.vd.toNat, v.va.toNat, v.vb.toNat]
  | .vabsF _ v | .vnegF _ v | .vrecip _ _ v | .vrsqrt _ _ v | .vsqrt _ _ v | .vexp2 _ _ v | .vlog2 _ _ v | .vabsI _ v
  | .vnegI _ v | .vcvt _ _ _ v | .vslideUp _ _ v | .vslideDn _ _ v | .vmov _ v | .vredsumF _ _ v | .vredmaxF _ _ v
  | .vredminF _ _ v | .vredsumI _ v | .vredmaxI _ v | .vredminI _ v => [v.vd.toNat, v.va.toNat]
  | .vcmpF _ _ _ a b _ | .vcmpI _ _ _ a b _ => [a.toNat, b.toNat]
  | .vsll _ k v | .vsrl _ k v | .vsra _ k v =>
    (match k with | .reg b => [b.toNat] | .imm _ => []) ++ [v.vd.toNat, v.va.toNat]
  | .vmxq _ _ v => [v.vd.toNat, v.va.toNat, v.va.toNat + 1, v.vb.toNat]
  | .vmxdq _ v => [v.vd.toNat, v.vd.toNat + 1, v.va.toNat, v.vb.toNat]
  | .vbcast _ d _ _ => [d.toNat]
  | .vget d a _ => [d.toNat, a.toNat]
  | .vld d _ _ | .vst d _ _ => [d.toNat]
  | .vldx _ d _ vi _ | .vstx _ d _ vi _ => [d.toNat, vi.toNat]
  | .gvld _ _ d _ _ | .gvst _ _ d _ _ | .gvstNt _ d _ _ => [d.toNat]
  | .vext _ _ a _ => [a.toNat]
  | _ => []

/-- Vector registers an instruction writes, and mask registers as 0x100 + number (R35, R162). -/
def vWrites : Instr → List Nat
  | .vaddF _ _ v | .vsubF _ _ v | .vmulF _ _ v | .vminF _ v | .vmaxF _ v | .vfma _ _ v | .vfms _ _ v | .vfnma _ _ v
  | .vfnms _ _ v | .vaddI _ _ v | .vsubI _ _ v | .vmulI _ v | .vmulh _ v | .vminI _ v | .vmaxI _ v | .vand _ v | .vor _ v
  | .vxor _ v | .vandn _ v | .vperm _ v | .vsel _ v | .vmrg v => [v.vd.toNat]
  | .vabsF _ v | .vnegF _ v | .vrecip _ _ v | .vrsqrt _ _ v | .vsqrt _ _ v | .vexp2 _ _ v | .vlog2 _ _ v | .vabsI _ v
  | .vnegI _ v | .vcvt _ _ _ v | .vslideUp _ _ v | .vslideDn _ _ v | .vmov _ v | .vredsumF _ _ v | .vredmaxF _ _ v
  | .vredminF _ _ v | .vredsumI _ v | .vredmaxI _ v | .vredminI _ v => [v.vd.toNat]
  | .vsll _ _ v | .vsrl _ _ v | .vsra _ _ v => [v.vd.toNat]
  | .vcmpF _ _ d _ _ _ | .vcmpI _ _ d _ _ _ | .vmand d _ _ | .vmor d _ _ | .vmxor d _ _ | .vmandn d _ _ | .vmnot d _
  | .vmmov d _ => [256 + d.toNat]
  | .vmxq _ _ v => [v.vd.toNat, v.vb.toNat]
  | .vmxdq _ v => [v.vd.toNat, v.vd.toNat + 1]
  | .vbcast _ d _ _ | .vget d _ _ => [d.toNat]
  | .vld d _ _ => [d.toNat]
  | .vldx _ d _ _ _ => [d.toNat]
  | .gvld _ _ d _ _ => [d.toNat]
  | _ => []

/-- s registers an instruction names (R147). -/
def sNames : Instr → List Nat
  | .add d a b | .sub d a b | .and d a b | .or d a b | .xor d a b | .sll d a b | .srl d a b | .sra d a b | .mul d a b
  | .mulh d a b | .mulhu d a b | .min d a b | .max d a b | .minu d a b | .maxu d a b | .slt d a b | .sltu d a b
  | .gaAdd _ _ d a b | .gaMin _ _ d a b | .gaMax _ _ d a b | .gaMinu _ _ d a b | .gaMaxu _ _ d a b | .gaAnd _ _ d a b
  | .gaOr _ _ d a b | .gaXor _ _ d a b | .gaSwap _ _ d a b | .gaCas _ _ d a b => [d.toNat, a.toNat, b.toNat]
  | .addi d a _ | .andi d a _ | .ori d a _ | .xori d a _ | .slti d a _ | .sltiu d a _ => [d.toNat, a.toNat]
  | .slli d a _ | .srli d a _ | .srai d a _ => [d.toNat, a.toNat]
  | .lui d _ | .xtest d | .qpop d _ | .qpush d _ | .fenceSyA d | .rdtime d | .rdcsr d _
  | .vext _ d _ _ => [d.toNat]
  | .beq a b _ | .bne a b _ | .blt a b _ | .bge a b _ | .bltu a b _ | .bgeu a b _ => [a.toNat, b.toNat]
  | .jmpReg a | .bfetchReg a | .taskPushA a | .wrcsr _ a | .vbcast _ _ a _ => [a.toNat]
  | .ld _ d a _ | .st _ d a _ => [d.toNat, a.toNat]
  | .vld _ a _ | .vst _ a _ | .vldx _ _ a _ _ | .vstx _ _ a _ _ => [a.toNat]
  | .gld _ _ _ d a _ | .gst _ _ _ d a _ | .gstNt _ _ d a _ => [d.toNat, a.toNat]
  | .gvld _ _ _ a _ | .gvst _ _ _ a _ | .gvstNt _ _ a _ => [a.toNat]
  | .lcall d a b _ kn rn =>
    [a.toNat] ++ (List.range (kn.toNat + 1)).map (fun k => b.toNat + k) ++ (List.range rn.toNat).map (fun k => d.toNat + k)
  | .xredAdd _ a b | .xredMin _ a b | .xredMax _ a b | .xredOr _ a b => [a.toNat, b.toNat]
  | .qtrypop d e _ | .qpeek d e _ | .qtrypush d e _ => [d.toNat, e.toNat]
  | .taskPopA => [8, 9, 10, 11, 12, 13, 14, 15]
  | .taskTrypopA d => [d.toNat, 8, 9, 10, 11, 12, 13, 14, 15]
  | _ => []

/-- s registers an instruction reads (R319). -/
def sReads (i : Instr) : List Nat :=
  match i with
  | .add .. | .sub .. | .and .. | .or .. | .xor .. | .sll .. | .srl .. | .sra .. | .mul .. | .mulh .. | .mulhu .. | .min .. | .max ..
  | .minu .. | .maxu .. | .slt .. | .sltu .. | .gaAdd .. | .gaMin .. | .gaMax .. | .gaMinu .. | .gaMaxu .. | .gaAnd .. | .gaOr ..
  | .gaXor .. | .gaSwap .. | .addi .. | .andi .. | .ori .. | .xori .. | .slti .. | .sltiu .. | .slli .. | .srli .. | .srai .. | .ld ..
  | .gld .. => (sNames i).drop 1
  | .lcall _ _ _ _ kn _ => (sNames i).take (2 + kn.toNat)
  | .qtrypush d _ _ => [d.toNat]
  | .lui .. | .xtest _ | .qpop .. | .qtrypop .. | .qpeek .. | .fenceSyA _ | .rdtime _ | .rdcsr .. | .vext .. | .taskPopA
  | .taskTrypopA _ => []
  | _ => sNames i
/-- m registers an instruction reads. -/
def mReads : Instr → List Nat
  | .vaddF _ _ v | .vsubF _ _ v | .vmulF _ _ v | .vminF _ v | .vmaxF _ v | .vfma _ _ v | .vfms _ _ v | .vfnma _ _ v
  | .vfnms _ _ v | .vaddI _ _ v | .vsubI _ _ v | .vmulI _ v | .vmulh _ v | .vminI _ v | .vmaxI _ v | .vand _ v | .vor _ v
  | .vxor _ v | .vandn _ v | .vperm _ v | .vsel _ v | .vmrg v => [v.m.toNat]
  | .vabsF _ v | .vnegF _ v | .vrecip _ _ v | .vrsqrt _ _ v | .vsqrt _ _ v | .vexp2 _ _ v | .vlog2 _ _ v | .vabsI _ v
  | .vnegI _ v | .vcvt _ _ _ v | .vslideUp _ _ v | .vslideDn _ _ v | .vmov _ v | .vredsumF _ _ v | .vredmaxF _ _ v
  | .vredminF _ _ v | .vredsumI _ v | .vredmaxI _ v | .vredminI _ v => [v.m.toNat]
  | .vsll _ _ v | .vsrl _ _ v | .vsra _ _ v => [v.m.toNat]
  | .vmxq _ _ v | .vmxdq _ v => [v.m.toNat]
  | .vbcast _ _ _ m | .vldx _ _ _ _ m | .vstx _ _ _ _ m | .bany _ m _ | .ball _ m _ | .bnone _ m _ | .bnall _ m _ => [m.toNat]
  | .vcmpF _ _ d _ _ m | .vcmpI _ _ d _ _ m => if m = 0 then [] else [m.toNat, d.toNat]
  | .vmand _ a b | .vmor _ a b | .vmxor _ a b | .vmandn _ a b => [a.toNat, b.toNat]
  | .vmnot _ a | .vmmov _ a => [a.toNat]
  | _ => []
/-- Register groups an instruction reads other than as its destination. -/
def vSources (i : Instr) : List Nat :=
  match i with
  | .vsll _ k v | .vsrl _ k v | .vsra _ k v => (match k with | .reg b => [b.toNat] | .imm _ => []) ++ [v.va.toNat]
  | .vmxq _ _ v => [v.va.toNat, v.va.toNat + 1]
  | .vmxdq _ v => [v.va.toNat, v.vb.toNat]
  | .vst d _ _ | .gvst _ _ d _ _ | .gvstNt _ d _ _ => [d.toNat]
  | .vldx _ _ _ vi _ => [vi.toNat]
  | .vcmpF .. | .vcmpI .. | .vext .. | .vstx .. => vNames i
  | _ => (vNames i).drop 1
/-- Whether an instruction reads its destination as an operand. -/
def readsDest : Instr → Bool
  | .vfma .. | .vfms .. | .vfnma .. | .vfnms .. => true
  | _ => false

/-- Whether every register an instruction names is provided by the mode (R33, R69, R72, R162). -/
def modeOk (mode : BitVec 2) (i : Instr) : Bool :=
  (vNames i).all (fun k => decide (k < (if mode = 0 then 16 else 32)))
  && (match i with
    | .vext ty _ _ idx =>
      decide (idx.toNat < vlen mode (match ty with | .i32 | .n32 => 32 | .i16 | .n16 => 16 | .i8 | .n8 => 8 | .d64 => 64))
    | .vget _ _ c => decide (c.toNat < modeN mode)
    | _ => true)

/-- Whether both slots of a bundle write one vector or mask register (R35, R162). -/
def clash (a v : Instr) : Bool := (vWrites a).any (fun k => (vWrites v).contains k)

/-! ### Addresses -/

/-- Local-store address of format AM (R143). -/
def lsAddr (s : State) (sa : SReg) (imm : BitVec 12) : Word := s.aS sa + sx imm
/-- Global address of format AG, imm8 scaled by the size (R145). -/
def gAddr (s : State) (sa : SReg) (imm : BitVec 8) (scale : Nat) : Word := s.aS sa + sx imm * BitVec.ofNat 64 scale

/-- The fault of a local-store access of `n` bytes at `a`, ALIGN before PROT (R138, R143). -/
def lsFault (a : Word) (n : Nat) : Option Nat :=
  if a.toNat % n ≠ 0 then some cALIGN else if a.toNat + n > lsEnd then some cPROT else none

/-- The fault of a global address at issue (R138, R145). -/
def gFault (a : Word) (n : Nat) : Option Nat :=
  if a.toNat % n ≠ 0 then some cALIGN else if a.toNat ≥ 2 ^ 48 then some cPROT else none

end Sys2Proof.Machine
end

