-- ==== Sys2Proof/Machine/Mem.lean ====
section
/-!
DEFINITION. Physical memory: the map of Table 13.1, the copies of a line and their coherence states (R214–R217), check bits
and marks (R316–R323), table entries and walks (R197–R201), page classes (R194).
-/
namespace Sys2Proof.Machine

/-! ### Physical map (Table 13.1) -/

/-- Regions of the physical map. -/
inductive Region where
  | dram | launchPage | reserved | host | peer (p : Nat)
deriving DecidableEq, Repr

/-- Region of a physical address. -/
def regionOf (pa : Nat) : Region :=
  if pa < 2 ^ 38 then .dram
  else if pa < 0x4000010000 then .launchPage
  else if pa < 2 ^ 40 then .reserved
  else if pa < 2 ^ 41 then .dram
  else if pa < 2 ^ 42 then .host
  else .peer ((pa - 2 ^ 42) / 2 ^ 36)

/-- Home die of a physical address (R18). -/
def homeOf (pa : Nat) : Nat := if pa < 2 ^ 38 then pa / 2 ^ 35 else bitsOf pa 18 16
/-- Fill time of its tier (R25). -/
def fillOf (pa : Nat) : Nat := if pa < 2 ^ 38 then 96 else 312
/-- Lines touched by `n` bytes at `a`. -/
def linesOf (a n : Nat) : List Nat := if n = 0 then [] else (List.range ((a + n - 1) / 64 - a / 64 + 1)).map (a / 64 + ·)
/-- Whether two byte ranges overlap. -/
def overlap (a n b m : Nat) : Bool := decide (a < b + m) && decide (b < a + n)

/-! ### Copies of a line -/

/-- Key of a line in the RDC of a die. -/
def rdcKey (die line : Nat) : Nat := line * 8 + die
/-- The RDC copy a die holds. -/
def State.rdcAt (s : State) (die line : Nat) : Option RdcEnt := sfind s.coh.rdc (rdcKey die line)
/-- Sets or drops the copy a die holds. -/
def State.setRdc (s : State) (die line : Nat) (e : Option RdcEnt) : State :=
  { s with coh := { s.coh with rdc := match e with
      | some e => sins (rdcKey die line) e s.coh.rdc
      | none => sdel (rdcKey die line) s.coh.rdc } }
/-- The directory entry of a line (R214). -/
def State.lineDir (s : State) (line : Nat) : DirEnt := (sfind s.coh.dir line).getD { owner := none, recalled := false, sharers := 0 }
/-- Sets the directory entry of a line; one that names no copy goes. -/
def State.setDir (s : State) (line : Nat) (e : DirEnt) : State :=
  { s with coh := { s.coh with dir := if e.owner = none && e.sharers = 0 then sdel line s.coh.dir else sins line e s.coh.dir } }
/-- The bit of a die in a sharer vector. -/
def sharer (die : Nat) : BitVec 8 := BitVec.ofNat 8 (2 ^ die)
/-- An entry without a die. -/
def DirEnt.without (e : DirEnt) (die : Nat) : DirEnt :=
  { e with owner := if e.owner = some die then none else e.owner, recalled := e.recalled && e.owner ≠ some die
           sharers := e.sharers &&& ~~~sharer die }
/-- An entry whose owner has answered a recall: it stays owner in O, or, without dirty data, is a sharer at most. -/
def DirEnt.answered (e : DirEnt) (st : Option Moes) : DirEnt :=
  match e.owner with
  | none => e
  | some o =>
    match st with
    | some .m | some .o => { e with recalled := true }
    | some _ => { owner := none, recalled := false, sharers := e.sharers ||| sharer o }
    | none => { owner := none, recalled := false, sharers := e.sharers }
/-- The dies the directory names for a line. -/
def State.holders (s : State) (line : Nat) : List Nat :=
  let e := s.lineDir line
  (List.range 8).filter (fun d => e.owner = some d || bitOf e.sharers.toNat d)
/-- The die whose RDC holds a line in M, O or E. -/
def State.ownerOf (s : State) (line : Nat) : Option Nat :=
  (List.range 8).find? (fun d => match s.rdcAt d line with | some e => e.st ≠ .s | none => false)
/-- The present bytes of a line: those of the M or O copy, else those of its home. -/
def State.lineNow (s : State) (line : Nat) : List Byte :=
  match (s.ownerOf line).bind (fun d => s.rdcAt d line) with
  | some e => leBytes 64 e.data.toNat
  | none => cells s.mem (line * 64) 64
/-- Coherent read of `n` bytes. -/
def State.pread (s : State) (pa n : Nat) : List Byte :=
  (((linesOf pa n).flatMap s.lineNow).drop (pa % 64)).take n
/-- Coherent read of a 64-bit word. -/
def State.pword (s : State) (pa : Nat) : Nat := leVal (s.pread pa 8)

/-- A line's reservations by control threads but `by'` end when it is written (R107). -/
def State.clearResv (s : State) (line : Nat) (by' : Option Nat) : State :=
  { s with cores := s.cores.map (fun e =>
      (e.1, match e.2.ct.resv with
        | some (l, _) => if l = line && by' ≠ some e.1 then { e.2 with ct := { e.2.ct with resv := none } } else e.2
        | none => e.2)) }

/-- Marks of elements wholly overwritten go (R318). -/
def marksAfter (m : List (Nat × Mark)) (a n : Nat) : List (Nat × Mark) :=
  m.filter (fun m => !(decide (a ≤ m.1) && decide (m.1 + m.2.w ≤ a + n)))
/-- Errors in overwritten bits go, and with a whole line its check bits' (R318). -/
def latentAfter (l : List (Nat × List Nat)) (a n : Nat) : List (Nat × List Nat) :=
  (l.map (fun e => (e.1, e.2.filter (fun b =>
      if a ≤ e.1 * 64 && e.1 * 64 + 64 ≤ a + n then false else
      !(decide (b < 512) && decide (a ≤ e.1 * 64 + b / 8) && decide (e.1 * 64 + b / 8 < a + n)))))).filter (fun e => e.2 ≠ [])
/-- What a write does to marks and errors. -/
def Coh.wrote (c : Coh) (a n : Nat) : Coh :=
  { c with
    marks := marksAfter c.marks a n
    latent := latentAfter c.latent a n }

/-- What every write does besides its bytes. -/
def State.wrote (s : State) (a n : Nat) (by' : Option Nat) : State :=
  (linesOf a n).foldl (fun s l => s.clearResv l by') { s with coh := s.coh.wrote a n }

/-- Next ownership number of a die (R216). -/
def State.nextOwn (s : State) (die : Nat) : State × Nat :=
  let n := (sget 0 s.coh.ownSeq die + 1) % 2 ^ 32
  ({ s with coh := { s.coh with ownSeq := sput 0 s.coh.ownSeq die n } }, n)

/-- Every RDC copy of a line goes, dirty data first to the home under its owner's next ownership number (Table 13.9, R216). -/
def State.dropCopies (s : State) (line : Nat) : State :=
  let s1 := match s.ownerOf line with
    | some o =>
      let s0 := match s.rdcAt o line with
        | some e => if e.st = Moes.m || e.st = Moes.o then (s.nextOwn o).1 else s
        | none => s
      { s0 with mem := putCells s.mem (line * 64) (s.lineNow line) }
    | none => s
  let s2 := (List.range 8).foldl (fun s d => s.setRdc d line none) s1
  { s2 with coh := { s2.coh with mirror := sdel line s2.coh.mirror, dir := sdel line s2.coh.dir } }

/-- A write applied at the home: no other copy stays (log 11). -/
def State.homeWrite (s : State) (pa : Nat) (bs : List Byte) (by' : Option Nat) : State :=
  let s1 := (linesOf pa bs.length).foldl State.dropCopies s
  ({ s1 with mem := putCells s1.mem pa bs }).wrote pa bs.length by'

/-- Replaces `bs` at offset `off` of a line. -/
def patchLine (data : Line) (off : Nat) (bs : List Byte) : Line :=
  let old := leBytes 64 data.toNat
  BitVec.ofNat 512 (leVal (old.take off ++ bs ++ old.drop (off + bs.length)))

/-- A write into a line a die holds in M or E: it becomes M, and the new line is sent to the buddy (R216). -/
def State.rdcWriteLine (s : State) (die line off : Nat) (bs : List Byte) (by' : Option Nat) : State :=
  match s.rdcAt die line with
  | none => s
  | some e =>
    let d := patchLine e.data off bs
    let s1 := (s.setRdc die line (some { st := .m, data := d })).wrote (line * 64 + off) bs.length by'
    let (s2, n) := s1.nextOwn die
    s2.after 44 (.mirrorUpdate die line d n)

/-- A write into the RDC of a die, line by line; `fuel` bounds the lines. -/
def rdcWrite : Nat → State → Nat → Nat → List Byte → Option Nat → State
  | 0, s, _, _, _, _ => s
  | f + 1, s, die, pa, bs, by' =>
    if bs = [] then s else
    let k := 64 - pa % 64
    rdcWrite f (s.rdcWriteLine die (pa / 64) (pa % 64) (bs.take k) by') die (pa + k) (bs.drop k) by'

/-- A line's owner answers the home's recall (Table 13.9): M → O, E → S; dirty data takes an ownership number (R216), and the
directory follows. `again`: data of a line in O are recalled too. -/
def State.recalled (s : State) (line : Nat) (again : Bool) : State :=
  let e := s.lineDir line
  match e.owner with
  | none => s
  | some o =>
    match s.rdcAt o line with
    | none => s.setDir line (e.answered none)
    | some x =>
      let s1 := if x.st = .m || (again && x.st = .o) then (s.nextOwn o).1 else s
      (s1.setRdc o line (some { x with st := match x.st with | .m => .o | .e => .s | y => y })).setDir line (e.answered (some x.st))

/-- The home grants a read to the RDC of a die: an M owner becomes O, an E owner S; the requester is E when the directory names no
other copy, else S (Table 13.9). -/
def State.grantRead (s : State) (die line : Nat) : State :=
  if (s.rdcAt die line).isSome then s else
  let d := BitVec.ofNat 512 (leVal (s.lineNow line))
  let alone := (s.holders line).all (fun x => x = die)
  let s1 := s.recalled line false
  let e := (s1.lineDir line).without die
  (s1.setRdc die line (some { st := if alone then .e else .s, data := d })).setDir line
    (if alone then { e with owner := some die, recalled := false } else { e with sharers := e.sharers ||| sharer die })

/-- The home reads a line for its own die: M → O, E → S. -/
def State.homeRead (s : State) (line : Nat) : State := s.recalled line false

/-- The home grants a write to the RDC of a die: all other copies go, the requester holds the present data in M; the mirror of a
line it held in O stays until its next update (R216). -/
def State.grantWrite (s : State) (die line : Nat) : State :=
  let d := BitVec.ofNat 512 (leVal (s.lineNow line))
  let mine := s.ownerOf line = some die
  let s1 := (if mine then s.setRdc die line none else s).dropCopies line
  let s2 := match (if mine then sfind s.coh.mirror line else none) with
    | some m => { s1 with coh := { s1.coh with mirror := sins line m s1.coh.mirror } }
    | none => s1
  (s2.setRdc die line (some { st := .m, data := d })).setDir line { owner := some die, recalled := false, sharers := 0 }

/-- Whether a line lies in its home L2 bank. -/
def State.inL2 (s : State) (line : Nat) : Bool := s.coh.l2.contains line
/-- Installs a line in its home L2 bank. -/
def State.install (s : State) (line : Nat) : State :=
  if s.inL2 line then s else { s with coh := { s.coh with l2 := line :: s.coh.l2 } }
/-- F of a line at its home: none where L2, or an owner's dirty copy, serves it. -/
def State.fillCost (s : State) (line : Nat) : Nat :=
  if s.inL2 line || (match (s.ownerOf line).bind (fun d => s.rdcAt d line) with | some e => e.st ≠ .e | none => false) then 0
  else fillOf (line * 64)

/-- Reads a line through the slice of `die` as one access of the machine: its cost beyond a hit, and its effects (R197). -/
def State.touch (s : State) (die line : Nat) : State × Nat :=
  let pa := line * 64
  let e := s.lineDir line
  if homeOf pa = die then
    let c := (if e.owner.isSome && !e.recalled then 88 else 0) + s.fillCost line
    ((s.homeRead line).install line, c)
  else if (s.rdcAt die line).isSome then (s, 0)
  else
    let c := (if e.owner.isSome && e.owner ≠ some die then 88 else 0) + s.fillCost line
    (((s.recalled line true).grantRead die line).install line, 88 + c)

/-! ### Launches and address spaces -/

/-- The launch of an id. -/
def State.launch (s : State) (lid : Nat) : Option Launch :=
  (s.lau.launches.find? (fun e => e.2.lid = lid && lid ≠ 0)).map (fun e => e.2)
/-- Descriptor word. -/
def Launch.word (l : Launch) (i : Nat) : Nat := (l.words.getD i 0).toNat
/-- ASID of a launch (Table 21.1). -/
def Launch.asid (l : Launch) : Nat := bitsOf (l.word 0) 11 0
/-- Cores of a launch: those of its clusters (R292). -/
def Launch.names (l : Launch) (k : Nat) : Bool := bitOf (l.word (14 + k / 64)) (k % 64)
/-- Whether a launch holds or asks for a cluster: one it names, unless a snuff has taken it (R326). -/
def Launch.hasCluster (l : Launch) (k : Nat) : Bool := l.names k && !l.freed.contains k
/-- Whether a core belongs to a launch. -/
def Launch.has (l : Launch) (core : Nat) : Bool := decide (core < Config.nCores) && l.hasCluster (clusterOf core)
/-- Cores of a launch in ascending id. -/
def Launch.cores (l : Launch) : List Nat := (List.range Config.nCores).filter l.has
/-- Rank of a core in its launch. -/
def Launch.rank (l : Launch) (core : Nat) : Nat := ((List.range core).filter (fun c => decide (c < Config.nCores) && l.names (clusterOf c))).length
/-- The launch of a core. -/
def State.launchOf (s : State) (core : Nat) : Option Launch := s.launch (s.core core).lid
/-- Address space a core's accesses use. -/
def State.asidOf (s : State) (core : Nat) : Nat := match s.launchOf core with | some l => l.asid | none => 0
/-- Root table installed for an address space (R186). -/
def State.rootOf (s : State) (asid : Nat) : Option Nat := sfind s.coh.roots asid
/-- Whether two cores belong to one launch. -/
def State.sameLaunch (s : State) (a b : Nat) : Bool :=
  decide (b < Config.nCores) && (s.core a).lid ≠ 0 && (s.core b).lid = (s.core a).lid

/-- DEFER of a launch. -/
def Launch.defers (l : Launch) : Bool := bitOf (l.word 0) 20
/-- Whether a running launch has ended: every control thread is finished and every job terminal (R295). -/
def State.launchOver (s : State) (l : Launch) : Bool :=
  l.cores.all (fun c => let t := (s.core c).ct; t.finished || (l.defers && !t.started))
  && s.jobs.list.all (fun j => j.2.lid ≠ l.lid || j.2.st.terminal)
/-- Schedules the end of a launch that is over (R295). -/
def State.checkEnd (s : State) (lid : Nat) : State :=
  match s.launch lid with
  | some l => if l.st = .running && s.launchOver l then s.at s.time (.launchEnd lid) else s
  | none => s

/-! ### Table entries (R197–R199) -/

/-- Fields of an entry (Table 13.5). -/
def pteV (w : Nat) : Bool := bitOf w 0
/-- LEAF. -/
def pteLeaf (w : Nat) : Bool := bitOf w 1
/-- R. -/
def pteR (w : Nat) : Bool := bitOf w 2
/-- W. -/
def pteW (w : Nat) : Bool := bitOf w 3
/-- A. -/
def pteA (w : Nat) : Bool := bitOf w 4
/-- D. -/
def pteD (w : Nat) : Bool := bitOf w 5
/-- ADDR as a physical address. -/
def pteAddr (w : Nat) : Nat := bitsOf w 42 12 * 4096
/-- NL. -/
def pteNl (w : Nat) : Nat := bitsOf w 47 44
/-- HV. -/
def pteHv (w : Nat) : Bool := bitOf w 48
/-- SEAL. -/
def pteSeal (w : Nat) : Bool := bitOf w 49
/-- MIG. -/
def pteMig (w : Nat) : Bool := bitOf w 50
/-- CLS. -/
def pteCls (w : Nat) : Nat := bitsOf w 52 51
/-- OWNER. -/
def pteOwner (w : Nat) : Nat := bitsOf w 63 53
/-- The entry with CLS and OWNER set. -/
def pteSetCls (w cls owner : Nat) : Nat := w % 2 ^ 51 + cls * 2 ^ 51 + owner * 2 ^ 53

/-- Page bits of a level. -/
def levelBits (l : Nat) : Nat := match l with | 0 => 39 | 1 => 30 | 2 => 21 | _ => 16

/-- A malformed entry at a level (R198, R199). -/
def pteBad (l w : Nat) : Bool :=
  if !pteLeaf w then decide (l = 3) || w % 2 ^ 12 ≠ 1 || w / 2 ^ 43 ≠ 0
  else decide (l = 0) || bitOf w 43 || bitsOf w 11 6 ≠ 0 || pteAddr w % 2 ^ levelBits l ≠ 0 || decide (pteCls w = 3)
    || (decide (l < 3) && pteCls w ≠ 2) || (pteOwner w ≠ 0 && pteCls w ≠ 1) || (pteSeal w && pteW w)
    || (pteHv w && (pteCls w ≠ 2 || pteSeal w))

/-- Address of the entry of a level. -/
def entryAddr (base va l : Nat) : Nat :=
  base + 8 * (match l with | 0 => bitsOf va 47 39 | 1 => bitsOf va 38 30 | 2 => bitsOf va 29 21 | _ => bitsOf va 20 16)

/-- A leaf found by a walk: the address of its entry, its level and its value. -/
structure Leaf where
  at' : Nat
  level : Nat
  pte : Nat
deriving DecidableEq, Repr

/-- Physical address of `va` under a leaf. -/
def Leaf.pa (l : Leaf) (va : Nat) : Nat := pteAddr l.pte + va % 2 ^ levelBits l.level

/-- The leaf of `va`, without effects; `fuel` levels from `l` down. -/
def findLeafGo (s : State) : Nat → Nat → Nat → Nat → Option Leaf
  | 0, _, _, _ => none
  | f + 1, l, base, va =>
    let a := entryAddr base va l
    let w := s.pword a
    if !pteV w || pteBad l w then none
    else if pteLeaf w then some ⟨a, l, w⟩
    else findLeafGo s f (l + 1) (pteAddr w) va
/-- The leaf of `va` in an address space. -/
def State.findLeaf (s : State) (asid va : Nat) : Option Leaf :=
  (s.rootOf asid).bind (fun r => findLeafGo s 4 0 r va)

/-- Reads the table lines of a walk through a slice: cost beyond hits (the W term). -/
def walkCostGo : Nat → State → Nat → Nat → Nat → Nat → State × Nat
  | 0, s, _, _, _, _ => (s, 0)
  | f + 1, s, die, l, base, va =>
    let a := entryAddr base va l
    let (s1, c) := s.touch die (a / 64)
    let w := s1.pword a
    if !pteV w || pteBad l w || pteLeaf w then (s1, c)
    else
      let (s2, c') := walkCostGo f s1 die (l + 1) (pteAddr w) va
      (s2, c + c')
/-- Reads the table lines of a walk. -/
def State.walkCost (s : State) (die asid va : Nat) : State × Nat :=
  match s.rootOf asid with
  | none => (s, 0)
  | some r => let (s1, c) := walkCostGo 4 s die 0 r va; (s1, 42 + c)

/-- Updates an entry indivisibly at its home slice, at the cost of a read of it (R200). -/
def State.setPte (s : State) (die a w : Nat) : State × Nat :=
  let (s1, c) := s.touch die (a / 64)
  (s1.homeWrite a (leBytes 8 w) none, c)

/-! ### Translation at a slice (R197–R201) -/

/-- What an access needs. -/
structure Need where
  r : Bool
  w : Bool
  hv : Bool
deriving DecidableEq, Repr

/-- Whether an entry allows an access. -/
def Need.allowed (n : Need) (w : Nat) : Bool := (!n.r || pteR w) && (!n.w || pteW w) && (!n.hv || pteHv w)

/-- Outcome of a translation. -/
inductive Xl where
  | page
  | prot
  /-- MIG = 1: the access waits (R203) -/
  | mig
  | ok (l : Leaf)
deriving DecidableEq, Repr

/-- Translation-cache entries that match. -/
def State.tlbHits (s : State) (die slice asid va : Nat) : List TlbEnt :=
  s.coh.tlb.filter (fun e => e.die = die && e.slice = slice && e.asid = asid && e.page = va >>> levelBits e.level)

/-- A leaf judged for an access. -/
def judge (n : Need) (l : Leaf) : Xl :=
  if pteMig l.pte then .mig
  else if !n.allowed l.pte then .prot
  else if regionOf (pteAddr l.pte) = .reserved then .prot
  else .ok l

/-- Walks, sets A of any leaf it finds (and D for a write that is allowed), installs the entry: result and the cycles of W spent. -/
def State.walk (s : State) (die slice asid va : Nat) (n : Need) : State × Nat × Xl :=
  let (s1, c) := s.walkCost die asid va
  match s1.findLeaf asid va with
  | none => (s1, c, .page)
  | some l =>
    let x := judge n l
    let d := n.w && (match x with | .ok _ => true | _ => false)
    let w' := l.pte ||| 16 ||| (if d then 32 else 0)
    let (s2, c2) := if w' = l.pte then (s1, 0) else s1.setPte die l.at' w'
    match x with
    | .ok _ =>
      let e : TlbEnt := { die := die, slice := slice, asid := asid, level := l.level, page := va >>> levelBits l.level
                          pte := BitVec.ofNat 64 w' }
      let tlb := s2.coh.tlb.filter (fun x => !(x.die = die && x.slice = slice && x.asid = asid && x.level = l.level
        && x.page = e.page))
      ({ s2 with coh := { s2.coh with tlb := e :: tlb } }, c + c2, .ok { l with pte := w' })
    | x => (s2, c + c2, x)

/-- Translates at the slice of a die: by the cache, or by a walk (R197, R200, R201). -/
def State.translate (s : State) (die slice asid va : Nat) (n : Need) : State × Nat × Xl :=
  match s.tlbHits die slice asid va with
  | [] => s.walk die slice asid va n
  | e :: es =>
    let all := e :: es
    if all.any (fun x => pteMig x.pte.toNat) then (s, 0, .mig)
    else if all.any (fun x => !n.allowed x.pte.toNat) then (s, 0, .prot)
    else if n.w && !pteD e.pte.toNat then s.walk die slice asid va n
    else (s, 0, judge n { at' := 0, level := e.level, pte := e.pte.toNat })

/-! ### Page classes (R194) -/

/-- Flushes the private lines of a page from a tile buffer; lines on their way to it are not kept. -/
def State.flushTile (s : State) (core page : Nat) : State :=
  let s1 := s.modCore core (fun k => { k with tile := k.tile.filter (fun t => t.gran || t.key / 1024 ≠ page) })
  { s1 with reqs := s1.reqs.map (fun e =>
      (e.1, if e.2.who.core = core && e.2.va / 65536 = page then { e.2 with priv := none } else e.2)) }

/-- Classifies a page for an access by `owner` (a core whose context or control thread may own it; none: another agent):
the cycles it adds, and whether the access is the owner's own. -/
def State.classify (s : State) (die asid va : Nat) (owner : Option Nat) : State × Nat × Bool :=
  match s.findLeaf asid va with
  | none => (s, 0, false)
  | some l =>
    if l.level ≠ 3 then (s, 0, false) else
    match pteCls l.pte with
    | 0 =>
      match owner with
      | some c => let (s1, k) := s.setPte die l.at' (pteSetCls l.pte 1 c); (s1, k, true)
      | none => let (s1, k) := s.setPte die l.at' (pteSetCls l.pte 2 0); (s1, k, false)
    | 1 =>
      if owner = some (pteOwner l.pte) then (s, 0, true)
      else
        let s1 := s.flushTile (pteOwner l.pte) (va / 65536)
        ((s1.homeWrite l.at' (leBytes 8 (pteSetCls l.pte 2 0)) none), 1024, false)
    | _ => (s, 0, false)

/-! ### Check bits, marks and severity (R316–R323) -/

/-- Element width in bytes of a layout (Table 23.1). -/
def nlWidth (nl : Nat) : Nat :=
  match nl with
  | 1 | 9 => 4
  | 2 | 3 => 2
  | 4 | 5 | 8 => 1
  | _ => 1
/-- Lowest strong bit, lowest parity-covered bit and parity-covered bits end, of an element (Table 23.1). -/
def nlBits (nl : Nat) : Option (Nat × Nat × Nat) :=
  match nl with
  | 1 => some (15, 7, 15)
  | 2 => some (7, 3, 7)
  | 3 => some (10, 3, 10)
  | 4 => some (3, 0, 3)
  | 5 => some (2, 0, 2)
  | 8 => some (4, 0, 4)
  | 9 => some (8, 0, 8)
  | _ => none
/-- Class of a strong-code failure and of a parity mismatch (Table 23.2). -/
def nlClass (nl : Nat) (strong : Bool) : Nat :=
  if strong then (if 1 ≤ nl && nl ≤ 9 then 3 else 4) else (if nl = 1 then 1 else 2)
/-- Float layouts and their format (R323). -/
def nlFloat (nl : Nat) : Option Fmt :=
  match nl with
  | 1 => some .f32 | 2 => some .bf16 | 3 => some .f16 | 4 => some .e4m3 | 5 => some .e5m2 | _ => none

/-- Removes repeats. -/
def dedup (l : List Nat) : List Nat := l.foldr (fun x acc => if acc.contains x then acc else x :: acc) []

/-- Check symbols of the strong code, and the symbol errors it corrects (Table 23.1, R317). -/
def nlCode (nl : Nat) : Nat × Nat := match nlBits nl with | none => (8, 3) | some _ => (5, 2)
/-- Lowest strong bit of an element, and the element's bits. -/
def nlStrong (nl : Nat) : Nat × Nat := match nlBits nl with | none => (0, 8) | some (lo, _, _) => (lo, nlWidth nl * 8)
/-- Symbols of a codeword. -/
def nlSymbols (nl : Nat) : Nat := let (lo, w) := nlStrong nl; (nlCode nl).1 + 512 / w * (w - lo) / 8
/-- Position in the codeword of a bit of a line, data bits 0–511 and check bits from 512, with its value in the symbol; none for a bit
that the strong code does not cover. Check bits 0–39 or 0–63 of a line are the strong code's, bits 40–55 the parity bits (DESIGN CHOICE,
log 17). -/
def strongPos (nl b : Nat) : Option (Nat × Nat) :=
  let (lo, w) := nlStrong nl
  let k := (nlCode nl).1
  if b < 512 then
    (if b % w ≥ lo then let n := b / w * (w - lo) + (b % w - lo); some (k + n / 8, 2 ^ (n % 8)) else none)
  else if b < 512 + 8 * k then some ((b - 512) / 8, 2 ^ (b % 8)) else none
/-- The data bit at bit `j` of a symbol; none in a check symbol. -/
def strongBit (nl p j : Nat) : Option Nat :=
  let (lo, w) := nlStrong nl
  let k := (nlCode nl).1
  if p < k then none else
  let n := (p - k) * 8 + j
  some (n / (w - lo) * w + lo + n % (w - lo))
/-- Parity groups with an odd number of errors: element numbers they cover. -/
def errParity (nl : Nat) (bits : List Nat) : List Nat :=
  match nlBits nl with
  | none => []
  | some (_, plo, phi) =>
    let w := nlWidth nl * 8
    let per := 512 / w / 16
    (List.range 16).flatMap (fun g =>
      let n := (bits.filter (fun b =>
        if b < 512 then decide (b / w / per = g) && decide (plo ≤ b % w) && decide (b % w < phi)
        else decide (b = 552 + g))).length
      if n % 2 = 1 then (List.range per).map (g * per + ·) else [])
/-- Marks elements of a line. -/
def addMarks (m : List (Nat × Mark)) (line nl cls : Nat) (els : List Nat) : List (Nat × Mark) :=
  els.foldl (fun m e => sins (line * 64 + e * nlWidth nl) { w := nlWidth nl, cls := cls, nl := nl } m) m

/-- What the check of a line with errors gives (R317, R318): data bits that end up changed, the elements marked with their class, and
whether something was corrected. -/
structure LineCheck where
  flips : List Nat
  mark : Option (Nat × List Nat)
  ce : Bool
deriving DecidableEq, Repr
/-- Checks a line: the strong code corrects what its decoder corrects, rightly or, beyond its guarantee, wrongly; an error it detects
marks every element, a parity mismatch those that the parity bit covers. -/
def checkLine (nl : Nat) (bits : List Nat) : LineCheck :=
  let (k, t) := nlCode nl
  let e := (bits.filterMap (strongPos nl)).foldl (fun m x => rsErr m x.1 x.2) []
  match rsDecode k t (nlSymbols nl) (syndromes k e) with
  | none => { flips := bits.filter (fun b => decide (b < 512)), mark := some (nlClass nl true, List.range (64 / nlWidth nl)), ce := false }
  | some fix =>
    let left := fix.foldl (fun m x => rsErr m x.1 x.2) e
    let weak := bits.filter (fun b => decide (b < 512) && (strongPos nl b).isNone)
    let els := errParity nl bits
    { flips := weak ++ left.flatMap (fun x => (List.range 8).filterMap (fun j => if bitOf x.2 j then strongBit nl x.1 j else none))
      mark := if els = [] then none else some (nlClass nl false, els)
      ce := fix ≠ [] }
/-- The error counters of a die after a check. -/
def State.countErrors (s : State) (die : Nat) (c : LineCheck) : State :=
  { s with host := { s.host with
      ce := if c.ce then sput 0 s.host.ce die (sget 0 s.host.ce die + 1) else s.host.ce
      ue := if c.mark.isSome then sput 0 s.host.ue die (sget 0 s.host.ue die + 1) else s.host.ue } }

/-- Meets the latent errors of a line under its layout (R317, R318); a correction is written back. -/
def State.scrub (s : State) (line nl : Nat) : State :=
  match sfind s.coh.latent line with
  | none => s
  | some bits =>
    let c := checkLine nl bits
    let d := c.flips.foldl (fun x b => x ^^^ 2 ^ b) (leVal (s.lineNow line))
    let s0 := { s with coh := { s.coh with latent := sdel line s.coh.latent } }
    let s1 := match s.ownerOf line with
      | some o => (match s.rdcAt o line with
        | some e => s0.setRdc o line (some { e with data := BitVec.ofNat 512 d })
        | none => s0)
      | none => { s0 with mem := putCells s0.mem (line * 64) (leBytes 64 d) }
    State.countErrors (match c.mark with
      | some (cls, els) => { s1 with coh := { s1.coh with marks := addMarks s1.coh.marks line nl cls els } }
      | none => s1) (homeOf (line * 64)) c

/-- Action of a severity class under a policy (Table 23.3). -/
def polAction (sevpol : Word) (cls : Nat) : Nat := bitsOf sevpol.toNat (2 * cls + 1) (2 * cls)

/-- A consumption: the most severe action, the class that took it, and the bytes with poisoned float elements replaced. -/
structure Consumed where
  action : Nat
  cls : Nat
  /-- poison met an element of a layout that is no float layout -/
  hard : Bool
  data : List Byte
deriving DecidableEq, Repr

/-- Marks on the lines of a range. -/
def State.marksOn (s : State) (pa n : Nat) : List (Nat × Mark) :=
  s.coh.marks.filter (fun m => (linesOf pa n).contains (m.1 / 64))

/-- Replaces the part of `data` (at `pa`) that an element at `e` of `w` bytes covers by bytes of `x`. -/
def patchEl (data : List Byte) (pa e w x : Nat) : List Byte :=
  (List.range data.length).map (fun k =>
    if e ≤ pa + k && pa + k < e + w then BitVec.ofNat 8 (x >>> (8 * (pa + k - e))) else data.getD k 0)

/-- Consumption of `data`, read at `pa`, under a policy, with the marks of its lines (R322, R323). Marks name the elements; the other
elements of a line that holds marks have class S0. -/
def consumeMarks (ms : List (Nat × Mark)) (sevpol : Word) (pa : Nat) (data : List Byte) : Consumed :=
  let n := data.length
  if ms = [] then { action := 0, cls := 0, hard := false, data := data } else
  let mine := ms.filter (fun m => overlap m.1 m.2.w pa n)
  let s0 : List (Nat × Mark) := (linesOf pa n).flatMap (fun l =>
    match ms.find? (fun m => m.1 / 64 = l) with
    | none => []
    | some m => (List.range (64 / m.2.w)).filterMap (fun e =>
        let a := l * 64 + e * m.2.w
        if overlap a m.2.w pa n && !(mine.any (fun x => x.1 = a)) then some (a, { m.2 with cls := 0 }) else none))
  (mine ++ s0).foldl (fun c m =>
    let act := polAction sevpol m.2.cls
    let c1 := if act > c.action then { c with action := act, cls := m.2.cls } else c
    if act = 1 then
      match nlFloat m.2.nl with
      | some f => { c1 with data := patchEl c1.data pa m.1 m.2.w (canonNaN f) }
      | none => { c1 with hard := true }
    else c1) { action := 0, cls := 0, hard := false, data := data }
/-- Consumption of `data`, read at physical address `pa`. -/
def State.consume (s : State) (sevpol : Word) (pa : Nat) (data : List Byte) : Consumed :=
  consumeMarks (s.marksOn pa data.length) sevpol pa data

/-- Snuffs the rectangle that holds a core, or its cluster (R323): numbers 8 to 39 name cluster n − 8 of the die. -/
def State.snuffCore (s : State) (core : Nat) : State :=
  let die := dieOf core
  let k := clusterOf core % 32
  let hit := (List.range 8).find? (fun n =>
    let w := (sget 0 s.lau.rects (die * 8 + n)).toNat
    bitOf w 63 && decide (bitsOf w 9 7 ≤ k / 4) && decide (k / 4 ≤ bitsOf w 6 4)
      && decide (bitsOf w 3 2 ≤ k % 4) && decide (k % 4 ≤ bitsOf w 1 0))
  s.at s.time (.snuffRun die (match hit with | some n => n | none => 8 + k))

end Sys2Proof.Machine
end

