-- ==== Sys2Proof/Machine/Access.lean ====
section
/-!
DEFINITION. Global and remote accesses: issue, translation and service at the serving slice, the home slice's part, window
forwarding, and the values of atomics (R23–R25, R145–R151, R186–R217, R280).
-/
namespace Sys2Proof.Machine

/-! ### Requests -/

/-- Number of an agent as a fabric source (R334). -/
def Who.agent : Who → Nat
  | .cx c x => c * 32 + x
  | .ct c => c * 32 + 16
  | .gu c => c * 32 + 17
/-- A request with nothing done yet. -/
def Req.new (who : Who) (op : ReqOp) (va size : Nat) (dest : Dest) : Req :=
  { who := who, op := op, va := va, remote := none, size := size, dest := dest, relaxed := false, nt := false, both := false, priv := none, issued := 0
    st := .sent, pa := 0, walked := false, accepted := false, atDv := false, atSy := false, replyAt := 0, data := []
    words := [], ok := true, fault := none, bundle := 0, pc := 0, live := true, quiet := false, hold := false }
/-- Die of the requester. -/
def Req.die (q : Req) : Nat := dieOf q.who.core
/-- Serving slice's index. -/
def Req.slice (q : Req) : Nat := sliceIdx q.va
/-- h of R25. -/
def Req.h (q : Req) : Nat := hops (clusterOf q.who.core) (q.die * 32 + q.slice)
/-- Cycles from the serving slice back: half of 26 + 4h, and the later lines of a vector access (R145); a claim has none (R282). -/
def Req.back (q : Req) : Nat := 13 + 2 * q.h + (match q.op with | .claim => 0 | _ => (q.size + 63) / 64 - 1)
/-- Whether it writes. -/
def ReqOp.writes : ReqOp → Bool
  | .store _ | .atomic .. | .lcall .. | .sc _ | .claim => true
  | .tx w _ => w
  | _ => false
/-- Whether it reads. -/
def ReqOp.reads : ReqOp → Bool
  | .store _ => false
  | .tx w _ => !w
  | .claim => true
  | _ => true
/-- Permissions it needs (R199): atomics, routine calls and reductions need both. -/
def Req.need (q : Req) : Need := { r := q.op.reads || q.both, w := q.op.writes || q.both, hv := false }

/-- The request of a number. -/
def State.req (s : State) (r : Nat) : Option Req := sfind s.reqs r
/-- Sets a request. -/
def State.setReq (s : State) (r : Nat) (q : Req) : State := { s with reqs := sins r q s.reqs }
/-- Changes a request. -/
def State.modReq (s : State) (r : Nat) (f : Req → Req) : State :=
  match s.req r with
  | some q => s.setReq r (f q)
  | none => s
/-- Requests of an agent without their reply. -/
def State.outstanding (s : State) (w : Who) : List (Nat × Req) := s.reqs.filter (fun e => e.2.who = w && !e.2.atDv && e.2.live)
/-- Relaxed ones (R147). -/
def State.relaxedOut (s : State) (w : Who) : List (Nat × Req) := (s.outstanding w).filter (fun e => e.2.relaxed)

/-- The request has its outcome: the reply comes `d` cycles from now and the way back. -/
def State.answer (s : State) (r d : Nat) (f : Req → Req) : State :=
  match s.req r with
  | none => s
  | some q =>
    let t := s.time + d + q.back
    (s.setReq r { (f q) with st := .done, replyAt := t }).at t (.globalReply r)

/-- DETAIL of a slice fault: VA [47:8], or for SEVERITY VA [47:16] and the class (Table 21.4). -/
def sliceDetail (cause va cls : Nat) : BitVec 40 :=
  if cause = cSEV then BitVec.ofNat 40 (va % 2 ^ 48 / 65536 * 256 + cls) else BitVec.ofNat 40 (va / 256)
/-- The request ends in a fault, after `d` cycles. -/
def State.failReq (s : State) (r d cause cls : Nat) : State :=
  s.answer r d (fun q => { q with fault := some { cause := cause, detail := sliceDetail cause q.va cls } })

/-! ### Page-fault reports (R306) -/

/-- The MMP of a die starts the service of its oldest report: it takes at most the 1,000 cycles of an unresolvable page to decide, or the
3,000 of a log's extension (R267; log 5). -/
def startService (s : State) (die : Nat) : State :=
  match ((sfind s.lau.mmps die).getD Mmp.init).queue with
  | [] => s
  | p :: _ => match p.ext with
    | some j => s.after 3000 (.logExtend j)
    | none => s.after 1000 (.pageFaultService die)
/-- A report joins the queue of a die's MMP; a first one is served at once. -/
def State.queueReport (s : State) (die : Nat) (p : PfReport) : State :=
  let m := (sfind s.lau.mmps die).getD Mmp.init
  let s1 := { s with lau := { s.lau with mmps := sins die { m with queue := m.queue ++ [p] } s.lau.mmps } }
  if m.queue = [] then startService s1 die else s1
/-- The service of a die's oldest report is over: the next starts. -/
def State.reportDone (s : State) (die : Nat) : State :=
  let m := (sfind s.lau.mmps die).getD Mmp.init
  startService { s with lau := { s.lau with mmps := sins die { m with queue := m.queue.tail } s.lau.mmps } } die
/-- A page fault joins the service of its page, or the queue of the die's MMP. -/
def State.reportPage (s : State) (die asid page : Nat) (who : List (Nat × Nat)) (jobs reqs : List Nat) : State :=
  let m := (sfind s.lau.mmps die).getD Mmp.init
  let new : PfReport :=
    { asid := asid, page := page, who := who, jobs := jobs, reqs := reqs, tag := none, refused := false, ext := none }
  match m.queue with
  | p :: t =>
    if p.asid = asid && p.page = page && p.ext.isNone then
      let both := { p with who := p.who ++ who, jobs := p.jobs ++ jobs, reqs := p.reqs ++ reqs }
      { s with lau := { s.lau with mmps := sins die { m with queue := both :: t } s.lau.mmps } }
    else s.queueReport die new
  | [] => s.queueReport die new

/-- Who is messaged for a fault of an agent at `va` (R307). -/
def Who.reportee (w : Who) (va : Nat) : List (Nat × Nat) :=
  match w with
  | .cx c x => [(c, x + 32 * (va / 256))]
  | .ct c => [(c, 16 + 32 * (va / 256))]
  | .gu _ => []

/-! ### Strong isolation (R280) -/

/-- Contexts whose markers stand on the granules of a range: readers and writers. -/
def State.markers (s : State) (pa n : Nat) (writersOnly : Bool) : List (Nat × Nat) :=
  ((linesOf pa n).map (· / 4)).foldl (fun acc g =>
    match sfind s.coh.tx g with
    | none => acc
    | some m => (m.writer.toList ++ (if writersOnly then [] else m.readers)).foldl
        (fun a w => if a.contains w then a else a ++ [w]) acc) []
/-- Home slice of a physical address: die × 32 + slice. -/
def homeSlice (pa : Nat) : Nat := homeOf pa * 32 + sliceIdx pa
/-- Whether the home slice `h` has still to clear markers of a context that has committed: 256 + h names that message. -/
def State.committed (s : State) (h : Nat) (w : Nat × Nat) : Bool :=
  s.agenda.any (fun e => e.2 = .txCommitMessage w.1 w.2 (256 + h))
/-- Whether what meets a marker at home slice `h` must wait (R282): its holder's commit message has reached the slice, its writes are
being published, or the message of a commit without writes has still to clear its markers there. -/
def State.publishing (s : State) (h : Nat) (w : Nat × Nat) : Bool :=
  (match (s.cx w.1 w.2).txn with
  | some t => t.committing || t.reached.contains h
  | none => false) || s.committed h w
/-- Strong isolation at once (R280): every transaction that tracks a granule of a range another agent writes aborts with ISOLATE,
and its twin's with it, unless it has passed its commit point. -/
def State.isolate (s : State) (pa n : Nat) : State :=
  (s.markers pa n false).foldl (fun s w =>
    match (s.cx w.1 w.2).txn with
    | none => s
    | some t =>
      if t.committing then s else
      let g := match (t.wset ++ t.rset).find? (fun e => overlap (e.2 * 256) 256 pa n) with | some e => e.1 | none => 0
      let s1 := abortTxn s w.1 w.2 10 0 true g
      if (s.core w.1).pair.on then abortTxn s1 (w.1 ^^^ 1) w.2 10 0 true g else s1) s
/-- `13 + 2h + 44c` from a slice to a core (R278). -/
def toCore (die slice core : Nat) : Nat := 13 + travel (die * 32 + slice) (clusterOf core)
/-- Aborts sent to the holders of a range's markers with a cause; the cycles the access waits (R277, R280). -/
def State.abortHolders (s : State) (die slice : Nat) (hs : List (Nat × Nat)) (cause gran : Nat) : State × Nat :=
  hs.foldl (fun (a : State × Nat) w =>
    let d := toCore die slice w.1
    (a.1.after d (.txAbortArrival w.1 w.2 cause 0 true gran), max a.2 (2 * d))) (s, 0)

/-! ### Values of atomics (R150, R153) -/

/-- Result of atomic function `fn` on `w` bits: FN of R150; 0x20, 0x21, 0x22 are the f32 add, min, max of `xred` (R102). -/
def atomicNew (w fn old b expect : Nat) : Option Nat :=
  let so := toSigned w old
  let sb := toSigned w b
  match fn with
  | 0 => some ((old + b) % 2 ^ w)
  | 1 => some (if so ≤ sb then old else b)
  | 2 => some (if so ≥ sb then old else b)
  | 3 => some (if old ≤ b then old else b)
  | 4 => some (if old ≥ b then old else b)
  | 5 => some (old &&& b)
  | 6 => some (old ||| b)
  | 7 => some (old ^^^ b)
  | 8 => some b
  | 9 => if old = expect then some b else none
  | 0x20 => some (fadd .f32 .rne false 0 (decodeF .f32 old) (decodeF .f32 b)).code
  | 0x21 => some (fminmax .f32 false old b).code
  | _ => some (fminmax .f32 true old b).code

/-! ### Fabric forwarding (R334, R343, R365) -/

/-- A fabric port. -/
def State.port (s : State) (i : Nat) : Port := (sfind s.fab.ports i).getD Port.init
/-- Changes a port. -/
def State.modPort (s : State) (i : Nat) (f : Port → Port) : State :=
  { s with fab := { s.fab with ports := sins i (f (s.port i)) s.fab.ports } }
/-- Ports toward a peer: those of its mask (R344); numbers from 64 name the device behind one port (R348). -/
def State.portsTo (s : State) (p : Nat) : List Nat :=
  if p ≥ 64 then [p - 64] else match sfind s.fab.peers p with | some x => onesBelow 18 x.mask | none => []
/-- Whether a port is up with a session to peer `p`: the device behind it has the bound certificate (R344). -/
def State.linked (s : State) (p i : Nat) : Bool :=
  (s.port i).up && (p ≥ 64 || (match sfind s.fab.peers p with | some x => x.hash = (s.port i).peerCert | none => false))
/-- A bound peer, with whether one of its ports is up. -/
def State.peerUp (s : State) (p : Nat) : Option Bool :=
  if p < 64 && (sfind s.fab.peers p).isNone then none else some ((s.portsTo p).any (s.linked p))
/-- Whether a bound peer's link counts as declared down: from 2 ms after stage C on, none of its ports is up and each has
been declared down, or leads to another device (R344, R358, R365). -/
def State.peerDown (s : State) (p : Nat) : Bool :=
  s.peerUp p = some false && bitOf s.host.stages.toNat 2 && decide (s.time ≥ Config.stageCCycle + Config.retrainBound)
  && (s.portsTo p).all (fun i => (s.port i).declaredDown || (s.port i).up)

/-- Payload bytes of a packet. -/
def fabBytes : FabOp → Nat
  | .store _ bs | .elems _ bs _ _ => bs.length
  | .load _ _ => 0
  | .atomic .. => 16
  | .ring _ _ _ _ ws => 8 * ws.length
/-- Flits of a packet: a header and its payload (PRESUMED for other packets than those of R348, log 15). -/
def fabFlits (o : FabOp) : Nat := 1 + (fabBytes o + 63) / 64
/-- Window offset of a packet. -/
def fabOff : FabOp → Nat
  | .store o _ | .elems o _ _ _ | .load o _ | .atomic o .. => o
  | .ring .. => 0
/-- The port a packet takes: one line's operations use one port (R344). -/
def State.pktPort (s : State) (p : Nat) (o : FabOp) : Option Nat :=
  let ups := (s.portsTo p).filter (s.linked p)
  ups[fabOff o / 64 % (max 1 ups.length)]?
/-- Number of a flow. -/
def flowKey (agent peer : Nat) : Nat := agent * 128 + peer
/-- The fields of an operation, for the bytes of its packet. -/
def opFields : FabOp → List Nat
  | .store o bs => 0 :: o :: bs.map (·.toNat)
  | .elems o bs half bad => 1 :: o :: b2n half :: bad.length :: bad.flatMap (fun x => [x.1, x.2]) ++ bs.map (·.toNat)
  | .load o n => [2, o, n]
  | .atomic o sz fn a b => [3, o, sz, fn, a, b]
  | .ring r k t b ws => 4 :: r :: k :: t :: b :: ws.map (·.toNat)
/-- A packet sealed: ciphertext and tag, under the key of its direction, the sender's port number and packet counter (R346; no
additional data, log 15). -/
def sealPacket (key : BitVec 256) (port ctr flow seq : Nat) (op : FabOp) : List Nat × List Nat :=
  gcmSeal (keyBytes key) (packetIv port ctr) ((Config.packetBytes (flow :: seq :: opFields op)).map (·.toNat))
/-- A port sends a packet: its flits leave the allowance (R343), the packet is sealed and the counter goes on (R346). -/
def Port.send (t : Port) (q flow seq : Nat) (op : FabOp) : Port :=
  let c := sealPacket t.txKey q t.txCtr flow seq op
  { t with allow := t.allow - fabFlits op, txCtr := t.txCtr + 1, wire := (c.1 ++ c.2).map (BitVec.ofNat 8) }
/-- Whether a port holds a packet back: beyond its allowance (R343), or its counter would reach 2^63 before a new session (R346). -/
def Port.holds (t : Port) (op : FabOp) : Bool := decide (t.allow < fabFlits op) || decide (2 ^ 63 ≤ t.txCtr + 1)

/-- Sends what a flow still holds back: within its port's allowance (R343) and at most 4,096 packets unacknowledged (R334). `n`
counts those sent, `held` the ports on which a packet stays behind. -/
def pumpGo (k : Nat) : List Pkt → Nat → List Nat → State → State × List Pkt
  | [], _, _, s => (s, [])
  | p :: t, n, held, s =>
    if !p.due then let (s1, t1) := pumpGo k t n held s; (s1, p :: t1) else
    match s.pktPort (k % 128) p.op with
    | none => let (s1, t1) := pumpGo k t n held s; (s1, p :: t1)
    | some q =>
      if (p.sentAt.isNone && decide (4096 ≤ n)) || held.contains q || (s.port q).holds p.op then
        let (s1, t1) := pumpGo k t n (q :: held) s
        (s1, p :: t1)
      else
        let s0 := (s.modPort q (fun t => t.send q (k / 128) p.seq p.op)).after 24000 (.fabricRetransmit k (k % 128) p.seq)
        let (s1, t1) := pumpGo k t (if p.sentAt.isNone then n + 1 else n) held s0
        (s1, { p with sentAt := some s.time, due := false } :: t1)
/-- Lets a flow send. -/
def State.pump (s : State) (k : Nat) : State :=
  match sfind s.fab.flows k with
  | none => s
  | some f =>
    let (s1, ps) := pumpGo k f.pkts (f.pkts.filter (fun p => p.sentAt.isSome)).length [] s
    { s1 with fab := { s1.fab with flows := sins k { f with pkts := ps } s1.fab.flows } }
/-- Gives a flow a packet (R334). -/
def State.fabSend (s : State) (agent peer : Nat) (op : FabOp) (req job : Option Nat) : State :=
  let k := flowKey agent peer
  let f := (sfind s.fab.flows k).getD { seq := 0, pkts := [] }
  let p : Pkt := { seq := f.seq, sentAt := none, due := true, op := op, req := req, job := job }
  State.pump { s with fab := { s.fab with
    flows := sins k { seq := (f.seq + 1) % 2 ^ 32, pkts := f.pkts ++ [p] } s.fab.flows } } k

/-- Number by which a saved context's window stores still name it: 32 + ENTRY of its handle, or 128 + slot for one that a pre-emption has
evicted. -/
def savedNo (h : Word) : Nat := if h.toNat < 16 then 128 + h.toNat else 32 + h.toNat % 64
/-- Records a lost store in a saved context of a core, or in its control thread (number 200). -/
def Core.recordLost (k : Core) (n : Nat) (lost : Bool) : Core :=
  if n = 200 then { k with ct := if lost then { k.ct with lost := true } else { k.ct with refused := true } } else
  { k with tcc := k.tcc.map (fun e => if savedNo e.handle = n then
      { e with ctx := if lost then { e.ctx with lost := true } else { e.ctx with refused := true } } else e) }
/-- Records a lost window store of an agent (R135, R155), also of a context saved meanwhile, and of a pre-empted launch: its numbers count
from 256 × LID. -/
def State.recordLost (s : State) (w : Who) (lost : Bool) : State :=
  match w with
  | .cx c x =>
    if x < 16 then s.modCx c x (fun t => if lost then { t with lost := true } else { t with refused := true })
    else if x < 256 then s.modCore c (fun k => k.recordLost x lost)
    else { s with lau := { s.lau with launches := s.lau.launches.map (fun l =>
        if l.2.lid = x / 256 then
          (l.1, { l.2 with saveCores := l.2.saveCores.map (fun k => if k.1 = c then (c, k.2.recordLost (x % 256) lost) else k) })
        else l) } }
  | .ct c => s.modCt c (fun t => if lost then { t with lost := true } else { t with refused := true })
  | .gu _ => s
/-- Renames the agent of the requests that `f` gives a new one. -/
def State.renameWho (s : State) (f : Who → Option Who) : State :=
  { s with reqs := s.reqs.map (fun e => match f e.2.who with | some w => (e.1, { e.2 with who := w }) | none => e) }

/-! ### The error log (R347) -/

/-- AGENT of an entry. -/
def logAgent (agent : Nat) : Nat :=
  if agent ≥ 65792 then 0xE000 + (agent - 65792)
  else if agent ≥ 65536 then 0xC000 + (agent - 65536)
  else if agent % 32 < 16 then agent / 32 * 16 + agent % 32
  else 0x8000 + agent / 32
/-- Bytes a packet moves. -/
def fabSize : FabOp → Nat
  | .load _ n => n
  | .atomic _ size _ _ _ => size
  | o => fabBytes o
/-- Enters a packet in the log: reason 0 lost, 1 refused. Entries beyond 65,536 are not kept. -/
def logPkt (s : State) (k : Nat) (p : Pkt) (reason : Nat) : State :=
  if s.fab.log.length ≥ 65536 then s else
  let e := leBytes 2 (logAgent (k / 128)) ++ leBytes 1 (k % 128) ++ leBytes 1 reason ++ leBytes 4 p.seq ++ leBytes 8 (fabOff p.op)
    ++ leBytes 8 s.time ++ leBytes 8 (fabSize p.op)
  { s with fab := { s.fab with log := s.fab.log ++ [e] } }

/-- A store of an agent into the window of a peer whose link counts as declared down: it takes its flow's next number and is lost
at once (R365). -/
def State.lostAtOnce (s : State) (w : Who) (peer off : Nat) (bs : List Byte) : State :=
  let k := flowKey w.agent peer
  let f := (sfind s.fab.flows k).getD { seq := 0, pkts := [] }
  let s1 := logPkt s k { seq := f.seq, sentAt := none, due := true, op := .store off bs, req := none, job := none } 0
  State.recordLost { s1 with fab := { s1.fab with flows := sins k { f with seq := (f.seq + 1) % 2 ^ 32 } s1.fab.flows } } w true

/-- Whether an operation may reach a window or the launch-control page (R188, Table 13.2); a gather unit's may not (R262, R264). -/
def regionAllows (g : Region) (q : Req) : Bool :=
  match (match q.who with | .gu _ => Region.reserved | _ => g), q.op with
  | .host, .load _ | .host, .store _ => true
  | .peer _, .load _ | .peer _, .store _ => true
  | .peer _, .atomic .. => (match q.who with | .ct _ => false | _ => true)
  | .launchPage, .load n => decide (n = 8)
  | .launchPage, .store b => decide (b.length = 8)
  | _, _ => false

/-- Host bus address of an address of the host window (R337). -/
def State.hostBus (s : State) (pa : Nat) : Nat := s.host.hwbase.toNat + (pa - 2 ^ 41)

/-- A host-window read leaves for the host: of a request, or of job `r - 2^40` (R337). -/
def State.hostAsked (s : State) (r : Nat) : State :=
  if s.host.hostReads.contains r then s else { s with host := { s.host with hostReads := s.host.hostReads ++ [r] } }

/-- The serving slice forwards an access uncached (R188, R195): it comes to the hub die 44 cycles later (log 5). A peer number that
is not bound is refused here (R365). -/
def forward (s : State) (r : Nat) (g : Region) (pa : Nat) : State :=
  let s := s.modReq r (fun q => { q with pa := pa, st := .wait })
  match g with
  | .peer p => if (s.peerUp p).isNone then s.failReq r 0 cPROT 0 else s.after 44 (.sliceAccess r)
  | _ => s.after 44 (.sliceAccess r)

/-- A read of the host window at the hub die: it leaves for the host, with 50 ms for its completion, and comes again when the
completion has arrived (R337). -/
def hostRead (s : State) (r : Nat) (q : Req) (pa : Nat) : State :=
  if s.host.hostReads.contains r then
    State.answer { s with host := { s.host with hostReads := s.host.hostReads.filter (fun x => x ≠ r) } } r 44
      (fun x => { x with data := cells s.hostMem (s.hostBus pa) q.size })
  else
    ((s.hostAsked r).after Config.hostReadBound (.hostReadTimeout r)).after (Config.hostDelay r) (.sliceAccess r)

/-- A forwarded access at the hub die: the launch unit's page, the host, or the fabric; its answer takes 44 cycles back. -/
def atHub (s : State) (r : Nat) (q : Req) : State :=
  let pa := q.pa
  match regionOf pa with
  | .launchPage =>
    match q.op with
    | .store bs =>
      let s1 := if pa % 65536 < 32 then s.at s.time (.launchDoorbell (pa % 65536 / 8) (leVal bs) q.die) else s
      s1.answer r 44 (fun q => q)
    | _ => s.answer r 44 (fun q => { q with data := leBytes 8 0 })
  | .host =>
    match q.op with
    | .store bs => ({ s with hostMem := putCells s.hostMem (s.hostBus pa) bs }).answer r 44 (fun q => q)
    | _ => hostRead s r q pa
  | .peer p =>
    let off := (pa - 2 ^ 42) % 2 ^ 36
    if s.peerDown p then
      (match q.op with
       | .store bs => (s.lostAtOnce q.who p off bs).answer r 44 (fun q => { q with atSy := true })
       | _ => s.failReq r 44 cPROT 0)
    else
      match q.op with
      | .store bs => (s.fabSend q.who.agent p (.store off bs) (some r) none).answer r 44 (fun q => q)
      | .load n => s.fabSend q.who.agent p (.load off n) (some r) none
      | .atomic size fn b e => s.fabSend q.who.agent p (.atomic off size fn b.toNat e.toNat) (some r) none
      | _ => s.failReq r 44 cPROT 0
  | _ => s

/-! ### Fills, recalls, invalidations -/

/-- Waits for lines that are not in their home L2 bank: the latest fill ends the wait (R25). -/
def waitFill (s : State) (r : Nat) (lines : List Nat) : State :=
  lines.foldl (fun s l =>
    match sfind s.coh.fills l with
    | some w => { s with coh := { s.coh with fills := sins l (w ++ [r]) s.coh.fills } }
    | none => ({ s with coh := { s.coh with fills := sins l [r] s.coh.fills } }).after (fillOf (l * 64)) (.dramFill l)) s

/-- Requests sent to the RDCs of other dies: 44 cycles there; an unresponsive owner is declared so after 40 µs (R217).
The cycles until every answer is back; a copy on the requester's own die `mine` adds none (R210). -/
def askCopies (s : State) (mine home idx : Nat) (asks : List (Nat × Nat)) (inval : Bool) : State × Nat :=
  asks.foldl (fun (a : State × Nat) x =>
    if s.coh.deaf.contains x.1 && (s.lineDir x.2).owner = some x.1 then
      (a.1.after Config.recallBound (.ownerUnresponsive x.1 home idx), max a.2 (Config.recallBound + 1))
    else if x.1 = mine then (a.1.after 0 (if inval then .invalidationRequest x.1 x.2 else .recallRequest x.1 x.2), a.2)
    else (a.1.after 44 (if inval then .invalidationRequest x.1 x.2 else .recallRequest x.1 x.2), max a.2 88)) (s, 0)

/-- Copies on other dies than `die` and the home that a write must end. -/
def State.otherCopies (s : State) (die home : Nat) (lines : List Nat) : List (Nat × Nat) :=
  lines.flatMap (fun l => ((s.holders l).filter (fun d => d ≠ die && d ≠ home)).map (fun d => (d, l)))
/-- Owners on other dies that a read must recall, as the directory has them. -/
def State.otherOwners (s : State) (die : Nat) (lines : List Nat) : List (Nat × Nat) :=
  lines.filterMap (fun l => match (s.lineDir l).owner with | some o => if o ≠ die then some (o, l) else none | none => none)
/-- Owners not yet recalled that a read at the home must recall (Table 13.9). -/
def State.homeOwners (s : State) (die : Nat) (lines : List Nat) : List (Nat × Nat) :=
  (s.otherOwners die lines).filter (fun x => !(s.lineDir x.2).recalled)
/-- Lines in no cache that can serve them: not in L2 and with no dirty owner. -/
def State.missing (s : State) (lines : List Nat) : List Nat :=
  lines.filter (fun l => !s.inL2 l && (match (s.ownerOf l).bind (fun d => s.rdcAt d l) with
    | some e => e.st = .e | none => true))

/-- Whether a routine run holds a line of the range (R23, R258), or a publishing transaction its granule (R282). -/
def State.lineBusy (s : State) (r : Nat) (pa n : Nat) : Bool :=
  s.near.runs.any (fun e => e.2.req ≠ r && (match s.req e.2.req with
    | some q => (linesOf pa n).contains (q.pa / 64) | none => false))
  || (s.markers pa n false).any (s.publishing (homeSlice pa))

/-! ### Data of an access -/

/-- Policy of a core (R322). -/
def State.sevpol (s : State) (core : Nat) : Word := (s.core core).sevpol

/-- What a consumption does to a context's or control thread's access: the data to use, or the class to trap with. -/
def State.takeConsumed (s : State) (who : Who) (c : Consumed) (data : List Byte) (atomic : Bool) : State × (List Byte ⊕ Nat) :=
  match who with
  | .gu _ => (s, .inl data)
  | _ =>
    let ct := match who with | .ct _ => true | _ => false
    if c.action = 3 then (s.snuffCore who.core, .inl data)
    else if c.action = 2 || (c.action = 1 && (c.hard || ct || atomic)) then (s, .inr c.cls)
    else (s, .inl c.data)
/-- Takes the consumption of `data` read at `pa`. -/
def State.consumeFor (s : State) (who : Who) (pa : Nat) (data : List Byte) (atomic : Bool) : State × (List Byte ⊕ Nat) :=
  s.takeConsumed who (s.consume (s.sevpol who.core) pa data) data atomic

/-- Meets the latent errors of the lines of a range under a layout. -/
def State.scrubAll (s : State) (nl pa n : Nat) : State := (linesOf pa n).foldl (fun s l => s.scrub l nl) s

/-- Which core's control thread made the request, for reservations. -/
def Req.by' (q : Req) : Option Nat := match q.who with | .ct c => some c | _ => none

/-- 32-bit words of a line that holds an error, with the highest class of their elements, as `16 × word + class`: an element without
a mark has class S0 there (R260, R265, R322). -/
def State.badWords (s : State) (pa n : Nat) : List Word :=
  (List.range (n / 4)).filterMap (fun k =>
    match s.marksOn (pa + 4 * k) 4 with
    | [] => none
    | ms => some (BitVec.ofNat 64 (16 * k + (ms.filter (fun m => overlap m.1 m.2.w (pa + 4 * k) 4)).foldl (fun a m => max a m.2.cls) 0)))

/-- Bytes at `va` as a coupled core sees them: its held stores of the interval lie over them (R331). -/
def State.overlay (s : State) (who : Who) (va : Nat) (data : List Byte) : List Byte :=
  match who with
  | .cx i _ =>
    (s.core i).pair.stores.foldl (fun d x =>
      (List.range d.length).map (fun k =>
        if x.va ≤ va + k && va + k < x.va + x.bytes.length then x.bytes.getD (va + k - x.va) 0 else d.getD k 0)) data
  | _ => data

/-- A load's value is fixed at the serving slice, the home or the RDC: reply after `d` and the way back. -/
def finishLoad (s : State) (r d : Nat) (q : Req) (pa n nl : Nat) : State :=
  let s1 := s.scrubAll nl pa n
  match s1.consumeFor q.who pa (s1.pread pa n) false with
  | (s2, .inl data) => s2.answer r d (fun q => { q with data := s2.overlay q.who q.va data, words := s2.badWords pa n })
  | (s2, .inr cls) => s2.failReq r d cSEV cls

/-- An atomic, LR or SC performed at the home slice (R150, R107). -/
def finishAtomic (s : State) (r d : Nat) (q : Req) (pa nl : Nat) : State :=
  let s1 := (s.scrubAll nl pa q.size).modReq r (fun q => { q with pa := pa })
  let old := s1.pread pa q.size
  match q.op with
  | .sc bs =>
    match q.who with
    | .ct c =>
      let good := match (s1.core c).ct.resv with
        | some (l, t) => l = pa / 64 && decide (s1.time ≤ t + 4096)
        | none => false
      let s2 := s1.modCt c (fun t => { t with resv := none })
      -- an SC that writes consumes the word it replaces (Table 21.9)
      if good then
        (match s2.consumeFor q.who pa old true with
        | (s3, .inr cls) => s3.failReq r d cSEV cls
        | (s3, .inl _) => (s3.homeWrite pa bs q.by').answer r d (fun q => { q with ok := true }))
      else s2.answer r d (fun q => { q with ok := false })
    | _ => s1
  | .lr _ =>
    match s1.consumeFor q.who pa old false with
    | (s2, .inr cls) => s2.failReq r d cSEV cls
    | (s2, .inl data) =>
      (s2.modCt q.who.core (fun t => { t with resv := some (pa / 64, s2.time) })).answer r d (fun q => { q with data := data })
  | .atomic size fn b e =>
    match s1.consumeFor q.who pa old true with
    | (s2, .inr cls) => s2.failReq r d cSEV cls
    | (s2, .inl data) =>
      let w := 8 * size
      let s3 := match atomicNew w fn (leVal data) (b.toNat % 2 ^ w) (e.toNat % 2 ^ w) with
        | some x => s2.homeWrite pa (leBytes size x) q.by'
        | none => s2
      s3.answer r d (fun q => { q with data := data })
  | _ => s1

/-- The home slice serves a read that its requester's RDC missed (Table 13.9); `recalled`: the recalls are back. -/
def homeGets (s : State) (r : Nat) (q : Req) (pa nl : Nat) : State :=
  let lines := (linesOf pa q.size).filter (fun l => (s.rdcAt q.die l).isNone)
  let home := homeOf pa
  if s.lineBusy r pa q.size then s.after 1 (.gets r true) else
  let owners := s.otherOwners q.die lines
  if owners ≠ [] && q.ok then
    -- the first pass recalls; the flag `ok` falls so that the second pass grants
    let (s1, w) := askCopies s q.die home q.slice owners false
    (s1.modReq r (fun q => { q with ok := false })).after w (.gets r true)
  else
    let miss := s.missing lines
    if miss ≠ [] then waitFill s r miss else
    let s1 := lines.foldl (fun s l => (s.grantRead q.die l).install l) (s.modReq r (fun q => { q with ok := true }))
    finishLoad s1 r 44 q pa q.size nl

/-- The home slice serves a write, or an atomic, that needs it: other copies go first, transactions on it abort (R210, R280). -/
def homeWriteReq (s : State) (r : Nat) (q : Req) (pa nl : Nat) (bs : List Byte) : State :=
  let lines := linesOf pa q.size
  let home := homeOf pa
  let remote := home ≠ q.die
  let again := fun (s : State) (n : Nat) => s.after n (if remote then .getm r else .sliceAccess r)
  let atom := match q.op with | .atomic .. | .sc _ | .lr _ => true | _ => false
  let lr := match q.op with | .lr _ => true | _ => false
  if s.lineBusy r pa q.size then again s 1 else
  let hs := if lr then [] else s.markers pa q.size false
  if hs ≠ [] then
    let (s1, w) := s.abortHolders home q.slice hs 10 (pa / 256)
    again s1 w
  else
  let others := if lr then s.homeOwners home lines
    else s.otherCopies (if atom then home else q.die) home lines
  if others ≠ [] then
    let (s1, w) := askCopies s q.die home q.slice others (!lr)
    again s1 w
  else
  let whole := q.nt && pa % 64 = 0 && q.size % 64 = 0
  -- a partial `.nt` store whose fill has come merges it and installs nothing (R148)
  let miss := if whole || (q.nt && !q.ok) then [] else s.missing lines
  if miss ≠ [] then waitFill s r miss else
  let d := if remote then 44 else 0
  if atom then finishAtomic (if lr then s else lines.foldl State.install s) r d q pa nl
  else if remote && (!q.nt || lines.any (fun l => (s.rdcAt q.die l).isSome)) then
    let s1 := lines.foldl (fun s l => (s.grantWrite q.die l).install l) (s.scrubAll nl pa q.size)
    (rdcWrite 5 s1 q.die pa bs q.by').answer r d (fun q => q)
  else
    let s1 := (if q.nt then s else lines.foldl State.install s).scrubAll nl pa q.size
    (s1.homeWrite pa bs q.by').answer r d (fun q => q)

/-- Service of a translated access of device memory at its serving slice (R195). -/
def serveDram (s : State) (r : Nat) (q : Req) (pa nl : Nat) : State :=
  let lines := linesOf pa q.size
  let home := homeOf pa
  let local' := home = q.die
  match q.op with
  | .load n =>
    if local' then
      if s.lineBusy r pa n then s.after 1 (.sliceAccess r) else
      let owners := s.homeOwners q.die lines
      if owners ≠ [] && q.ok then
        let (s1, w) := askCopies s q.die home q.slice owners false
        (s1.modReq r (fun q => { q with ok := false })).after w (.sliceAccess r)
      else
        let miss := s.missing lines
        if miss ≠ [] then waitFill s r miss else
        finishLoad (lines.foldl (fun s l => (s.homeRead l).install l) (s.modReq r (fun q => { q with ok := true })))
          r 0 q pa n nl
    else if lines.all (fun l => (s.rdcAt q.die l).isSome) then finishLoad s r 0 q pa n nl
    else s.after 44 (.gets r false)
  | .store bs =>
    if local' then homeWriteReq s r q pa nl bs
    else if s.markers pa q.size false = []
        && lines.all (fun l => match s.rdcAt q.die l with | some e => e.st = .m || e.st = .e | none => false) then
      (rdcWrite 5 (s.scrubAll nl pa q.size) q.die pa bs q.by').answer r 0 (fun q => q)
    else s.after 44 (.getm r)
  | .atomic .. | .lr _ | .sc _ => if local' then homeWriteReq s r q pa nl [] else s.after 44 (.getm r)
  | .lcall .. => s.after (if local' then 0 else 44) (.routineRun r)
  | .tx .. | .claim => s.after (if local' then 0 else 44) (.txRequest r)

/-- Whether the accessing agent may own a page: a context or a control thread, outside transactions and routine calls. -/
def Req.pageOwner (q : Req) : Option Nat :=
  match q.op, q.who with
  | .lcall .., _ | .tx .., _ | .claim, _ => none
  | _, .gu _ => none
  | _, w => some w.core

/-- The acceptance signal of a store or atomic that must go further (R206). -/
def acceptSignal (s : State) (r : Nat) (q : Req) : State :=
  if q.walked then s else
  let s1 := s.modReq r (fun q => { q with walked := true })
  if q.op.writes then s1.after q.back (.globalReply r) else s1

/-- Private lines enter a tile buffer with the permissions they were filled under (R193). -/
def Core.fillTile (c : Core) (lines : List Nat) (r w : Bool) : Core :=
  let t := lines.foldl (fun (t : List TileEnt) k =>
    t.filter (fun e => e.gran || e.key ≠ k) ++ [{ key := k, gran := false, spec := false, r := r, w := w }]) c.tile
  { c with tile := t }
/-- The lines of an access to a private page enter the tile buffer when its reply comes (R193). -/
def State.fillOwn (s : State) (q : Req) : State :=
  match q.priv with
  | some (r, w) => if q.fault.isSome then s else s.modCore q.who.core (fun c => c.fillTile (linesOf q.va q.size) r w)
  | none => s

/-! ### Stores of a coupled pair (R331) -/

/-- Whether a context of a core has a transaction open. -/
def Core.inTxn (k : Core) : Bool := k.ctxs.any (fun c => c.2.txn.isSome)
/-- Whether a context of a pair has a transaction open: the pair takes no checkpoint meanwhile (R289). -/
def State.pairInTxn (s : State) (i : Nat) : Bool := (s.core (i / 2 * 2)).inTxn || (s.core (i / 2 * 2 + 1)).inTxn
/-- Whether a pair takes, or will take, a checkpoint: its contexts issue nothing meanwhile. -/
def State.pairBusy (s : State) (i : Nat) : Bool := s.agenda.any (fun e => e.2 = .pairCheckpoint (i / 2 * 2))
/-- A checkpoint is due, unless a transaction is open: 8 cycles for the exchange. -/
def callCheckpoint (s : State) (i : Nat) : State :=
  if s.pairBusy i || s.pairInTxn i then s else s.after 8 (.pairCheckpoint (i / 2 * 2))

/-- Physical granules of the held stores of a pair. -/
def Pair.grans (p : Pair) : List Nat := dedup (p.stores.flatMap (fun x => (linesOf x.pa x.bytes.length).map (· / 4)))
/-- Granules that the tile buffer of a core cannot give up: speculative ones and held ones. -/
def Core.pinned (k : Core) : Nat := (k.tile.filter (fun e => e.gran && e.spec)).length + (k.pair.grans.length - k.pair.vgrans.length)
/-- Versioned stores give up the held granules of a core. -/
def State.dropHeldGrans (s : State) (i : Nat) : State :=
  let gs := (s.core i).pair.vgrans
  if gs = [] then s else { s with coh := { s.coh with vstore := s.coh.vstore.filter (fun e => !gs.contains e.1) } }
/-- A slice hands an accepted store to the pair: into the tile buffer, else into the versioned store of its granule's home slice; where
neither has room the interval ends first. -/
def holdStore (s : State) (r : Nat) (q : Req) (pa : Nat) (bs : List Byte) : State :=
  let i := q.who.core
  let k := s.core i
  let new := ((linesOf pa bs.length).map (· / 4)).filter (fun g => !k.pair.grans.contains g)
  let inTile := decide (k.pinned + (dedup new).length ≤ 128)
  let room := (dedup new).all (fun g =>
    decide ((s.coh.vstore.filter (fun e => e.2 = homeSlice (g * 256))).length + (dedup new).length ≤ 2048))
  if !inTile && !room then (callCheckpoint (s.modReq r (fun q => { q with ok := false })) i).after 1 (.sliceAccess r) else
  let h : HeldStore := { ctx := (match q.who with | .cx _ c => c | _ => 0), req := r, va := q.va, pa := pa, bytes := bs }
  let gs := if inTile then [] else dedup new
  let s1 := s.modCore i (fun k => { k with pair := { k.pair with stores := k.pair.stores ++ [h], vgrans := k.pair.vgrans ++ gs } })
  State.answer { s1 with coh := { s1.coh with vstore := s1.coh.vstore ++ gs.map (fun g => (g, homeSlice (g * 256))) } } r 0
    (fun q => { q with atSy := true })

/-- The serving slice takes a request (SLICE_ACCESS): same-agent order, translation, page class, region, service. -/
def sliceAccess (s : State) (r : Nat) : State :=
  match s.req r with
  | none => s
  | some q =>
    if q.st = .done then s else
    if q.st = .wait && regionOf q.pa ≠ .dram then atHub s r q else
    if !q.live && q.op.isTx then { s with reqs := sdel r s.reqs } else
    if s.reqs.any (fun e => decide (e.1 < r) && e.2.who = q.who && e.2.st ≠ .done && e.2.remote.isNone
        && overlap e.2.va e.2.size q.va q.size) then s.after 1 (.sliceAccess r) else
    let asid := s.asidOf q.who.core
    let (s1, w, x) := s.translate q.die q.slice asid q.va q.need
    match x with
    | .page =>
      match q.who with
      | .gu _ => s1.reportPage q.die asid (q.va / 65536) [] [] [r]
      | _ =>
      (s1.reportPage q.die asid (q.va / 65536) (if q.op.isTx then [] else q.who.reportee q.va) [] (if q.op.isTx then [r] else [])).failReq
        r w cPAGE 0
    | .prot => s1.failReq r w cPROT 0
    | .mig => { s1 with coh := { s1.coh with stalled := s1.coh.stalled ++ [r] } }
    | .ok l =>
      if w > 0 then s1.after w (.sliceAccess r) else
      let pa := l.pa q.va
      let g := regionOf pa
      let held := match q.op with
        | .store bs => if q.hold && (s.core q.who.core).pair.on then some bs else none
        | _ => none
      if g ≠ .dram then
        if q.op.isTx || regionAllows g q then
          (if q.op.isTx then
            s1.answer r 0 (fun q => { q with ok := false, words := [match g with | .peer _ => 8 | _ => 6] })
           else match held with
           | some bs => holdStore s1 r q pa bs
           | none => forward (acceptSignal s1 r q) r g pa)
        else s1.failReq r 0 cPROT 0
      else
      let (s2, k, own) := s1.classify q.die asid q.va q.pageOwner
      if k > 0 then s2.after k (.sliceAccess r) else
      match held with
      | some bs => holdStore s2 r q pa bs
      | none =>
      let s3 := s2.modReq r (fun q => { q with
        pa := pa, st := .wait, priv := if own then some (pteR l.pte, pteW l.pte && pteD l.pte) else none })
      let s5 := serveDram s3 r q pa (pteNl l.pte)
      match s5.req r with
      | some q' => if q'.st = .done then s5 else acceptSignal s5 r q
      | none => s5

/-- The leaf's physical address and layout for a request already translated. -/
def State.nlOf (s : State) (q : Req) : Nat :=
  match s.findLeaf (s.asidOf q.who.core) q.va with | some l => pteNl l.pte | none => 0

/-- Whether the tile buffer serves an access (R193). -/
def tileServes (k : Core) (q : Req) : Bool :=
  !q.hold && (match q.op with | .load _ | .store _ => true | _ => false) && q.who.core < Config.nCores
  && (match q.who with | .gu _ => false | _ => true)
  && (linesOf q.va q.size).all (fun l => k.tile.any (fun e => !e.gran && e.key = l && (match q.op.writes with | true => e.w | false => e.r)))

/-- Gives a request its number. -/
def newReq (s : State) (q : Req) : State × Nat :=
  let s0 := s.setReq s.nextReq q
  ({ s0 with nextReq := s.nextReq + 1 }, s.nextReq)

/-- Sends request `r` (R145–R147): a private line held in the tile buffer is served there in 26 cycles (R193), all else at
the serving slice. -/
def sendReq (s : State) (r : Nat) : State :=
  match s.req r with
  | none => s
  | some q0 =>
  let q := { q0 with issued := s.time }
  let s1 := s.setReq r q
  let k := s.core q.who.core
  let earlier := s.reqs.any (fun e => decide (e.1 < r) && e.2.who = q.who && e.2.st ≠ .done && overlap e.2.va e.2.size q.va q.size)
  match (if tileServes k q && !earlier then s.findLeaf (s.asidOf q.who.core) q.va else none) with
  | some l =>
    let pa := l.pa q.va
    let s1 := s1.scrubAll (pteNl l.pte) pa q.size
    let t := s.time + 26 + ((q.size + 63) / 64 - 1)
    let s2 := match q.op with
      | .store bs => (s1.homeWrite pa bs q.by').modReq r (fun q => { q with pa := pa, st := .done, replyAt := t })
      | _ =>
        match s1.consumeFor q.who pa (s1.pread pa q.size) false with
        | (s2, .inl d) => s2.modReq r (fun q => { q with pa := pa, st := .done, replyAt := t, data := s2.overlay q.who q.va d })
        | (s2, .inr cls) => s2.modReq r (fun q => { q with
            st := .done, replyAt := t, fault := some { cause := cSEV, detail := sliceDetail cSEV q.va cls } })
    s2.at t (.globalReply r)
  | none => s1.after (13 + 2 * q.h) (.sliceAccess r)

/-- Issues a request: its number and the state with it on its way. -/
def issueReq (s : State) (q : Req) : State × Nat :=
  let (s1, r) := newReq s q
  (sendReq s1 r, r)

/-- A request whose outcome is known at issue and whose reply comes after `d` cycles. -/
def doneReq (s : State) (q : Req) (d : Nat) : State × Nat :=
  let (s1, r) := newReq s { q with st := .done, issued := s.time, replyAt := s.time + d }
  (s1.after d (.globalReply r), r)

/-- A request that a fill serves without the line being installed: a partial `.nt` store (R148). -/
def Req.mergesFill (q : Req) : Bool := q.nt && (match q.op with | .store _ => true | _ => false)

/-- A fill completes (DRAM_FILL): the line is installed, unless only partial `.nt` stores wait for it, and what waits on it goes on
(R25, R148, R196). -/
def dramFill (s : State) (line : Nat) : State :=
  match sfind s.coh.fills line with
  | none => s.install line
  | some rs =>
    let merge := rs.all (fun r => match s.req r with | some q => q.mergesFill | none => false)
    let s0 : State := { s with coh := { s.coh with fills := sdel line s.coh.fills } }
    let s1 := if merge then s0 else s0.install line
    rs.foldl (fun s r =>
      match s.req r with
      | none => s
      | some q =>
        if s.coh.fills.any (fun e => e.2.contains r) then s
        else if q.op.isTx then s.at s.time (.txRequest r)
        else match q.op with
          | .lcall .. => s.at s.time (.routineRun r)
          | .load _ => s.at s.time (if homeOf q.pa = q.die then .sliceAccess r else .gets r true)
          | _ => (s.modReq r (fun q => if q.mergesFill then { q with ok := false } else q)).at s.time
                  (if homeOf q.pa = q.die then .sliceAccess r else .getm r)) s1

/-! ### Remote local store (R190) -/

/-- Issues a remote access to another core's local store: it is performed after the wait of Table 1.8 at its bound (log 5),
and replies at T of R25. -/
def issueRemote (s : State) (q : Req) (target : Nat) : State × Nat :=
  let r := s.nextReq
  let s0 := s.setReq r { q with issued := s.time, remote := some target }
  let s1 := { s0 with nextReq := r + 1 }
  (s1.after (13 + travel (clusterOf q.who.core) (clusterOf target) + 8) (.remoteLsAccess r), r)

end Sys2Proof.Machine
end

