-- ==== Sys2Proof/Machine/Rv.lean ====
section
/-!
DEFINITION. The base set on the control thread: RV64I, M, A, Zicsr, Zba, Zbb with the deviations of R107, the data map of
R189, exceptions and the return from them (R309), and the device CSRs (R62, R63).
-/
namespace Sys2Proof.Machine

/-! ### Computations -/

/-- Quotient, toward zero; by zero all ones. -/
def divS (a b : Int) : Int := if b = 0 then -1 else Int.tdiv a b
/-- Remainder with the dividend's sign; by zero the dividend. -/
def remS (a b : Int) : Int := if b = 0 then a else Int.tmod a b

/-- Register computations of RV64 I, M, Zba, Zbb. -/
def rvAlu (f : RvAlu) (a b : Word) : Word :=
  let k := b.toNat % 64
  let w := BitVec.ofNat 64 (a.toNat % 2 ^ 32)
  match f with
  | .add => a + b
  | .sub => a - b
  | .sll => a <<< k
  | .slt => if a.toInt < b.toInt then 1 else 0
  | .sltu => if a.toNat < b.toNat then 1 else 0
  | .xor => a ^^^ b
  | .srl => a >>> k
  | .sra => a.sshiftRight k
  | .or => a ||| b
  | .and => a &&& b
  | .mul => a * b
  | .mulh => BitVec.ofInt 64 (a.toInt * b.toInt / (2 ^ 64 : Nat))
  | .mulhsu => BitVec.ofInt 64 (a.toInt * (b.toNat : Int) / (2 ^ 64 : Nat))
  | .mulhu => BitVec.ofNat 64 (a.toNat * b.toNat / 2 ^ 64)
  | .div => BitVec.ofInt 64 (divS a.toInt b.toInt)
  | .divu => if b = 0 then BitVec.allOnes 64 else BitVec.ofNat 64 (a.toNat / b.toNat)
  | .rem => BitVec.ofInt 64 (remS a.toInt b.toInt)
  | .remu => if b = 0 then a else BitVec.ofNat 64 (a.toNat % b.toNat)
  | .sh1add => b + a <<< 1
  | .sh2add => b + a <<< 2
  | .sh3add => b + a <<< 3
  | .andn => a &&& ~~~b
  | .orn => a ||| ~~~b
  | .xnor => ~~~(a ^^^ b)
  | .min => if a.toInt < b.toInt then a else b
  | .max => if a.toInt < b.toInt then b else a
  | .minu => if a.toNat < b.toNat then a else b
  | .maxu => if a.toNat < b.toNat then b else a
  | .rol => a <<< k ||| a >>> ((64 - k) % 64)
  | .ror => a >>> k ||| a <<< ((64 - k) % 64)
  | .addUw => b + w
  | .sh1addUw => b + w <<< 1
  | .sh2addUw => b + w <<< 2
  | .sh3addUw => b + w <<< 3

/-- 32-bit register computations, sign-extended. -/
def rvAluW (f : RvAluW) (a b : Word) : Word :=
  let x := a.toNat % 2 ^ 32
  let y := b.toNat % 2 ^ 32
  let k := y % 32
  let sx' := toSigned 32 x
  let sy := toSigned 32 y
  match f with
  | .addw => sext64 32 (x + y)
  | .subw => sext64 32 (x + 2 ^ 32 - y)
  | .sllw => sext64 32 (x <<< k)
  | .srlw => sext64 32 (x >>> k)
  | .sraw => sext64 32 (ofSigned 32 (sx' / (2 ^ k : Nat)))
  | .mulw => sext64 32 (x * y)
  | .divw => sext64 32 (ofSigned 32 (divS sx' sy))
  | .divuw => if y = 0 then BitVec.allOnes 64 else sext64 32 (x / y)
  | .remw => sext64 32 (ofSigned 32 (remS sx' sy))
  | .remuw => if y = 0 then sext64 32 x else sext64 32 (x % y)
  | .rolw => sext64 32 (x <<< k ||| x >>> ((32 - k) % 32))
  | .rorw => sext64 32 (x >>> k ||| x <<< ((32 - k) % 32))

/-- Immediate computations. -/
def rvImm (f : RvImm) (a : Word) (i : BitVec 12) : Word :=
  match f with
  | .addi => rvAlu .add a (sx i)
  | .slti => rvAlu .slt a (sx i)
  | .sltiu => rvAlu .sltu a (sx i)
  | .xori => rvAlu .xor a (sx i)
  | .ori => rvAlu .or a (sx i)
  | .andi => rvAlu .and a (sx i)
  | .addiw => rvAluW .addw a (sx i)

/-- Immediate shifts. -/
def rvSh (f : RvSh) (a : Word) (k : BitVec 6) : Word :=
  match f with
  | .slli => rvAlu .sll a (zx k)
  | .srli => rvAlu .srl a (zx k)
  | .srai => rvAlu .sra a (zx k)
  | .rori => rvAlu .ror a (zx k)
  | .slliUw => BitVec.ofNat 64 (a.toNat % 2 ^ 32) <<< k.toNat

/-- 32-bit immediate shifts. -/
def rvShW (f : RvShW) (a : Word) (k : BitVec 5) : Word :=
  match f with
  | .slliw => rvAluW .sllw a (zx k)
  | .srliw => rvAluW .srlw a (zx k)
  | .sraiw => rvAluW .sraw a (zx k)
  | .roriw => rvAluW .rorw a (zx k)

/-- Count of leading zeros among the low `w` bits. -/
def clz (w x : Nat) : Nat := w - bitLen (x % 2 ^ w)
/-- Count of trailing zeros among the low `w` bits. -/
def ctz (w x : Nat) : Nat := ((List.range w).find? (fun i => x.testBit i)).getD w

/-- One-source computations of Zbb. -/
def rvUn (f : RvUn) (a : Word) : Word :=
  let x := a.toNat
  match f with
  | .clz => BitVec.ofNat 64 (clz 64 x)
  | .ctz => BitVec.ofNat 64 (ctz 64 x)
  | .cpop => BitVec.ofNat 64 (popCount 64 x)
  | .clzw => BitVec.ofNat 64 (clz 32 x)
  | .ctzw => BitVec.ofNat 64 (ctz 32 x)
  | .cpopw => BitVec.ofNat 64 (popCount 32 x)
  | .sextB => sext64 8 x
  | .sextH => sext64 16 x
  | .zextH => BitVec.ofNat 64 (x % 2 ^ 16)
  | .orcB => BitVec.ofNat 64 (leVal ((leBytes 8 x).map (fun b => if b = 0 then 0 else 0xFF)))
  | .rev8 => BitVec.ofNat 64 (beVal (leBytes 8 x))

/-- Branch conditions. -/
def rvBr (c : RvBr) (a b : Word) : Bool :=
  match c with
  | .beq => a = b
  | .bne => a ≠ b
  | .blt => a.toInt < b.toInt
  | .bge => a.toInt ≥ b.toInt
  | .bltu => a.toNat < b.toNat
  | .bgeu => a.toNat ≥ b.toNat

/-- x register of this step's control thread. -/
def State.xr (s : State) (r : XReg) : Word := s.myCore.ct.rx r
/-- pc of this step's control thread. -/
def State.cpc (s : State) : Word := s.myCore.ct.pc

/-- Ends a control-thread instruction that transfers to `t`; a target that is no multiple of 4 raises cause 0. -/
def ctJump (s : State) (rd : XReg) (v t : Word) : Out :=
  if t.toNat % 4 ≠ 0 then trap s 0 t
  else ok (s.modMyCt (fun c => { (c.wx rd v) with pc := t, minstret := c.minstret + 1, wait := .none }))

/-- Computations, branches, jumps, ECALL and EBREAK. -/
def execRvIntegerOp (op : RvOp) (s : State) : Out :=
  match op with
  | .alu f rd a b => ok (ctDone s rd (rvAlu f (s.xr a) (s.xr b)))
  | .aluW f rd a b => ok (ctDone s rd (rvAluW f (s.xr a) (s.xr b)))
  | .opImm f rd a i => ok (ctDone s rd (rvImm f (s.xr a) i))
  | .shImm f rd a k => ok (ctDone s rd (rvSh f (s.xr a) k))
  | .shImmW f rd a k => ok (ctDone s rd (rvShW f (s.xr a) k))
  | .un f rd a => ok (ctDone s rd (rvUn f (s.xr a)))
  | .lui rd i => ok (ctDone s rd (sx (i ++ 0#12)))
  | .auipc rd i => ok (ctDone s rd (s.cpc + sx (i ++ 0#12)))
  | .jal rd o => ctJump s rd (s.cpc + 4) (s.cpc + sx (o ++ 0#1))
  | .jalr rd a i => ctJump s rd (s.cpc + 4) ((s.xr a + sx i) &&& ~~~1)
  | .br c a b o =>
    if rvBr c (s.xr a) (s.xr b) then ctJump s 0 0 (s.cpc + sx (o ++ 0#1)) else ok (ctDone s 0 0)
  | .ecall => trap s (match s.myCore.ct.priv with | .machine => 11 | .user => 8) 0
  | .ebreak => trap s 3 s.cpc

/-! ### Loads, stores, AMOs (R108, R189–R191) -/

/-- Region of a control-thread access of `n` bytes (Table 13.3). -/
inductive CtAddr where
  | own (a : Nat) | global (va : Nat) | remote (core a : Nat) | bad
deriving DecidableEq, Repr

/-- Table 13.3. -/
def ctAddr (s : State) (a n : Nat) : CtAddr :=
  match a / 2 ^ 48 with
  | 0 => if a + n ≤ lsEnd then .own a else .bad
  | 1 => .global (a % 2 ^ 48)
  | 2 =>
    if bitsOf a 47 43 = 0 && bitsOf a 31 17 = 0 && decide (bitsOf a 16 0 + n ≤ lsEnd) && s.sameLaunch s.cur.core (bitsOf a 42 32)
    then .remote (bitsOf a 42 32) (bitsOf a 16 0) else .bad
  | _ => .bad

/-- The action, under the policy of core `who`, on a local-store read of core `i` that meets an uncorrectable word, whose class is S4
(R319, R322); 0: use, or no such word. -/
def State.lsAct (s : State) (who i a n : Nat) : Nat :=
  if (s.core i).lsBad.any (fun w => overlap w 8 a n) then polAction (s.sevpol who) 4 else 0
/-- Whether a read of a core's own local store traps: poison acts as trap. -/
def State.lsTraps (s : State) (i a n : Nat) : Bool := s.lsAct i i a n = 1 || s.lsAct i i a n = 2
/-- Whether it snuffs. -/
def State.lsSnuffs (s : State) (i a n : Nat) : Bool := s.lsAct i i a n = 3
/-- A control thread reads `n` bytes of its local store for an instruction of its own: exception 26 where that traps (R323). -/
def ctReads (s : State) (a n : Nat) (f : State → Out) : Out :=
  if s.lsTraps s.cur.core a n then trap s 26 (BitVec.ofNat 64 a)
  else f (if s.lsSnuffs s.cur.core a n then s.snuffCore s.cur.core else s)
/-- A control thread uses a register's word that may hold an uncorrectable error: exception 26, with no address in `mtval` (DESIGN
CHOICE, log 17), where that traps. -/
def ctUses (s : State) (bad : Bool) (f : State → Out) : Out :=
  let act := if bad then polAction (s.sevpol s.cur.core) 4 else 0
  if act = 1 || act = 2 then trap s 26 0 else f (if act = 3 then s.snuffCore s.cur.core else s)
/-- DETAIL of a SEVERITY fault at local-store address `a` (Table 21.4); local-store errors have class S4. -/
def lsSevDetail (a : Nat) : BitVec 40 := BitVec.ofNat 40 (a / 65536 * 256 + 4)

/-- Reads `n` bytes for a context: the data goes on to `f`, unless an uncorrectable word's policy traps. -/
def lsRead (s : State) (a n : Nat) (f : State → Nat → Out) : Out :=
  let i := s.cur.core
  if s.lsTraps i a n then ok (aFault s cSEV (lsSevDetail a))
  else f (if s.lsSnuffs i a n then s.snuffCore i else s) (s.lsVal i a n)

/-- Registers that an instruction word of the control thread reads, by its major opcode. -/
def ctSources (w : BitVec 32) : List Nat :=
  let rs1 := (fld w 15 5).toNat
  let rs2 := (fld w 20 5).toNat
  match (fld w 0 7).toNat with
  | 0x37 | 0x17 | 0x6F | 0x0F => []
  | 0x67 | 0x03 | 0x13 | 0x1B => [rs1]
  | 0x73 => if 1 ≤ (fld w 12 3).toNat && (fld w 12 3).toNat ≤ 3 then [rs1] else []
  | _ => [rs1, rs2]

/-- Whether a store of `n` bytes meets a local-store range that an in-flight job of the core has still to read (R192). -/
def State.lsHeld (s : State) (i a n : Nat) : Bool :=
  s.jobs.list.any (fun e => e.2.core = i && e.2.ranges.any (fun r => overlap r.1 r.2 a n))

/-- Waits for a request's reply. -/
def ctAwait (s : State) (q : Req) : State :=
  let (s1, r) := issueReq s q
  s1.modMyCt (fun t => { t with wait := .reply r })
/-- Waits for a remote access. -/
def ctAwaitRemote (s : State) (q : Req) (core : Nat) : State :=
  let (s1, r) := issueRemote s q core
  s1.modMyCt (fun t => { t with wait := .reply r })

/-- The agent of this step's control thread. -/
def State.ctWho (s : State) : Who := .ct s.cur.core

/-- Loads (RV_LOAD): misaligned cause 4, no such address cause 5. -/
def execRvLoad (k : RvLd) (rd rs1 : XReg) (imm : BitVec 12) (s : State) : Out :=
  let a := s.xr rs1 + sx imm
  let n := k.size
  if a.toNat % n ≠ 0 then trap s 4 a else
  match ctAddr s a.toNat n with
  | .bad => trap s 5 a
  | .own l =>
    if s.lsTraps s.cur.core l n then trap s 26 a
    else
      let s := if s.lsSnuffs s.cur.core l n then s.snuffCore s.cur.core else s
      ok (ctDone s rd (k.extend (s.lsVal s.cur.core l n)))
  | .global va => ok (ctAwait s (Req.new s.ctWho (.load n) va n (.x rd k)))
  | .remote c l => ok (ctAwaitRemote s (Req.new s.ctWho (.load n) l n (.x rd k)) c)

/-- Stores (RV_STORE): misaligned cause 6, no such address cause 7; a store into a range an engine still reads waits (R192). -/
def execRvStore (k : StK) (rs1 rs2 : XReg) (imm : BitVec 12) (s : State) : Out :=
  let a := s.xr rs1 + sx imm
  let n := k.size
  let bs := leBytes n (s.xr rs2).toNat
  if a.toNat % n ≠ 0 then trap s 6 a else
  match ctAddr s a.toNat n with
  | .bad => trap s 7 a
  | .own l =>
    if s.lsHeld s.cur.core l n then ok (ctRetry s)
    else ok (ctDone (s.lsPut s.cur.core l bs) 0 0)
  | .global va => ok (ctAwait s (Req.new s.ctWho (.store bs) va n .none))
  | .remote c l => ok (ctAwaitRemote s (Req.new s.ctWho (.store bs) l n .none) c)

/-- AMOs (RV_AMO): on the own local store indivisible, on global memory at the home slice, else cause 7. -/
def execRvAmo (op : AmoOp) (d : Bool) (_aq _rl : Bool) (rd rs1 rs2 : XReg) (s : State) : Out :=
  let a := s.xr rs1
  let n := if d then 8 else 4
  let k : RvLd := if d then .ld else .lw
  if a.toNat % n ≠ 0 then trap s 6 a else
  match ctAddr s a.toNat n with
  | .bad | .remote _ _ => trap s 7 a
  | .own l =>
    if s.lsTraps s.cur.core l n then trap s 26 a
    else if s.lsHeld s.cur.core l n then ok (ctRetry s)
    else
      let s := if s.lsSnuffs s.cur.core l n then s.snuffCore s.cur.core else s
      let old := s.lsVal s.cur.core l n
      let new := (atomicNew (8 * n) op.fn old ((s.xr rs2).toNat % 2 ^ (8 * n)) 0).getD old
      ok (ctDone (s.lsPut s.cur.core l (leBytes n new)) rd (k.extend old))
  | .global va => ok (ctAwait s (Req.new s.ctWho (.atomic n op.fn (s.xr rs2) 0) va n (.x rd k)))

/-- LR (RV_LR): a reservation on the line at its home slice. -/
def execRvLr (d : Bool) (_aq _rl : Bool) (rd rs1 : XReg) (s : State) : Out :=
  let a := s.xr rs1
  let n := if d then 8 else 4
  if a.toNat % n ≠ 0 then trap s 4 a else
  match ctAddr s a.toNat n with
  | .global va => ok (ctAwait s (Req.new s.ctWho (.lr n) va n (.x rd (if d then .ld else .lw))))
  | _ => trap s 5 a

/-- SC (RV_SC): rd := 0 when it writes, 1 when it fails. -/
def execRvSc (d : Bool) (_aq _rl : Bool) (rd rs1 rs2 : XReg) (s : State) : Out :=
  let a := s.xr rs1
  let n := if d then 8 else 4
  if a.toNat % n ≠ 0 then trap s 6 a else
  match ctAddr s a.toNat n with
  | .global va => ok (ctAwait s (Req.new s.ctWho (.sc (leBytes n (s.xr rs2).toNat)) va n (.scx rd)))
  | _ => trap s 7 a

/-- FENCE, FENCE.TSO: no operation (R107). -/
def execRvFence (s : State) : Out := ok (ctDone s 0 0)
/-- FENCE.I: no operation (R107). -/
def execRvFenceI (s : State) : Out := ok (ctDone s 0 0)

/-! ### Sleep (R134, R295) -/

/-- Sleeps on mask `m`: done with the pending masked events, finished for ever when the mask is zero, else waits. -/
def sleepOn (s : State) (rd : XReg) (m : Word) : State :=
  let e := s.myCore.events &&& m
  if m = 0 then
    ((s.modMyCt (fun t => { t with finished := true, wait := .none })).checkEnd s.myCore.lid)
  else if e ≠ 0 then ctDone s rd e
  else ctRetry s

/-- `ct.sleep` (CT_SLEEP). -/
def execCtSleep (rd rs1 : XReg) (s : State) : Out :=
  ok (sleepOn s rd (if rs1 = 0 then s.myCore.evmask else s.xr rs1))
/-- WFI acts as `ct.sleep x0, x0` (R107). -/
def execRvWfi (s : State) : Out := ok (sleepOn s 0 s.myCore.evmask)

/-- MRET: returns from an exception; illegal in user mode. -/
def execRvMret (s : State) : Out :=
  match s.myCore.ct.priv with
  | .machine => ok (leaveTrap s)
  | .user => illegal s

end Sys2Proof.Machine
end

