-- ==== Sys2Proof/Machine/Queue.lean ====
section
/-!
DEFINITION. Queue registers (R132, R133, R268–R270): binding, neighbour links, delivery, and the A-slot queue operations.
-/
namespace Sys2Proof.Machine

/-- Queue register `n` of a core. -/
def Core.q (k : Core) (n : Nat) : QReg := (sfind k.qs n).getD QReg.init
/-- Sets a queue register. -/
def State.setQ (s : State) (i n : Nat) (x : QReg) : State := s.modCore i (fun k => { k with qs := sins n x k.qs })
/-- SRC of a binding word (Table 9.4). -/
def QReg.src (x : QReg) : Nat := bitsOf x.bind.toNat 2 0
/-- DIR: 1 outbound. -/
def QReg.out (x : QReg) : Bool := bitOf x.bind.toNat 3
/-- STREAM. -/
def QReg.stream (x : QReg) : Nat := bitsOf x.bind.toNat 11 8
/-- Whether a queue register can be dequeued. -/
def QReg.inbound (x : QReg) : Bool := x.src ≠ 0 && !x.out
/-- Free places (R268). -/
def QReg.room (x : QReg) : Nat := 8 - (x.elems.length + x.reserved)
/-- HEN. -/
def QReg.hen (x : QReg) : Bool := bitOf x.cfg.toNat 10

/-- The lowest-numbered queue of a core bound inbound from a link. -/
def Core.inboundFrom (k : Core) (link : Nat) : Option Nat :=
  (List.range 8).find? (fun n => let x := k.q n; x.inbound && x.src = link)
/-- The outbound queue of a link whose head was pushed first. -/
def Core.outboundTo (k : Core) (link : Nat) : Option Nat :=
  ((List.range 8).filter (fun n => let x := k.q n; x.out && x.src = link && x.elems ≠ [])).foldl
    (fun best n => match best with
      | none => some n
      | some b => if ((k.q n).elems.head?.map (·.ord)).getD 0 < ((k.q b).elems.head?.map (·.ord)).getD 0 then some n else best)
    none

/-- Moves elements over a link while the other end has room: each leaves now and arrives 4 cycles later (R268). -/
def pumpLink : Nat → State → Nat → Nat → State
  | 0, s, _, _ => s
  | f + 1, s, i, link =>
    match neighbour i link with
    | none => s
    | some j =>
      if !s.sameLaunch i j || s.lau.deadClusters.contains (clusterOf j) then s else
      match (s.core i).outboundTo link, (s.core j).inboundFrom (opposite link) with
      | some a, some b =>
        let x := (s.core i).q a
        let y := (s.core j).q b
        match x.elems with
        | [] => s
        | e :: es =>
          if y.room = 0 then s else
          let s1 := (s.setQ i a { x with elems := es }).setQ j b { y with reserved := y.reserved + 1 }
          pumpLink f ((s1.after 4 (.queueDelivery j b e.v e.tag)).poke i) i link
      | _, _ => s

/-- A place has become free in queue `n` of core `i`, or it has just been bound: whoever feeds it goes on. -/
def pumpInto (s : State) (i n : Nat) : State :=
  let x := (s.core i).q n
  if x.inbound && 1 ≤ x.src && x.src ≤ 4 then
    match neighbour i x.src with
    | some j => pumpLink 8 s j (opposite x.src)
    | none => s
  else s

/-- Appends an element to queue `n` of core `i`; an arrival in an empty inbound queue sets its bit of EVPEND (R313). -/
def qAppend (s : State) (i n : Nat) (v : Word) (tag : Bool) : State :=
  let x := (s.core i).q n
  let k := s.core i
  let s1 := (s.setQ i n { x with elems := x.elems ++ [{ v := v, tag := tag, ord := k.qOrd }] }).modCore i
    (fun k => { k with qOrd := k.qOrd + 1 })
  if x.inbound && x.elems = [] then s1.event i (8 + n) else s1

/-- An element arrives over a link or a stream (QUEUE_DELIVERY), in the place reserved for it, also when its queue has been unbound
meanwhile: the register then holds it, and whoever next dequeues from it takes it (R268; DEDUCED, log 18). -/
def execQueueDelivery (s : State) : Out :=
  match s.cur.ev with
  | .queueDelivery i n v tag =>
    let x := (s.core i).q n
    ok ((qAppend (s.setQ i n { x with reserved := x.reserved - 1 }) i n v tag).pokeCxs i)
  | _ => notEnabled "QUEUE_DELIVERY"

/-- Kernel slot of a gather unit's request. -/
def Dest.slot : Dest → Option Nat
  | .index k _ | .fetch k _ _ => some k
  | _ => Option.none

/-- Changes the gather unit of a core. -/
def State.modGat (s : State) (i : Nat) (f : Gather → Gather) : State := s.modCore i (fun k => { k with gat := f k.gat })
/-- The unit takes the oldest trigger when it may; its run starts 2 cycles later, or after the run before (R263). -/
def gatherTake (s : State) (i : Nat) : State :=
  let g := (s.core i).gat
  match g.taken, g.triggers with
  | none, t :: ts =>
    (s.modGat i (fun g => { g with taken := some t, takenAt := s.time, triggers := ts })).after 2 (.gatherRun i)
  | _, _ => s
/-- No run executes any more: the taken trigger's run follows in the next cycle, if its two cycles are over (R263). -/
def gatherNext (s : State) (i : Nat) : State :=
  let g := (s.core i).gat
  gatherTake (if g.taken.isSome && decide (g.takenAt + 2 ≤ s.time + 1) then s.after 1 (.gatherRun i) else s) i

/-- Whether a trigger is one of a slot. -/
def triggerOf (t : Option Trigger) (slot : Nat) : Bool := match t with | some u => u.slot = slot | none => false
/-- Stops the index stream of a slot (R262): its triggers and its run go, replies to its reads and fetches are discarded. Runs of
other slots go on (R265). -/
def stopSlot (s : State) (i slot : Nat) : State :=
  let s1 := s.giveUp (fun q => q.who = .gu i && q.dest.slot = some slot)
  let killed := triggerOf ((s1.core i).gat.run.map (fun r => r.trig)) slot
  let s2 := s1.modGat i (fun g => { g with
    streams := g.streams.filter (fun u => u.slot ≠ slot)
    triggers := g.triggers.filter (fun u => u.slot ≠ slot)
    taken := if triggerOf g.taken slot then none else g.taken
    run := if triggerOf (g.run.map (fun r => r.trig)) slot then none else g.run })
  if killed then gatherNext s2 i else gatherTake s2 i
/-- Stops the index streams of a queue (R262). -/
def stopStream (s : State) (i n : Nat) : State :=
  ((s.core i).gat.streams.filter (fun t => t.q = n)).foldl (fun s t => stopSlot s i t.slot)
    (s.modGat i (fun g => { g with pend := g.pend.filter (fun p => p.1 % 8 ≠ n) }))

/-- Unbinds a queue register: its elements go, its stream stops; the places of elements in flight stay theirs, and what waits at the
other end of its link goes to the next queue bound to it (R132, R262, R268). -/
def qUnbind (s : State) (i n : Nat) : State :=
  let s1 := stopStream s i n
  let x := (s1.core i).q n
  let s2 := (s1.setQ i n { x with bind := 0, elems := [], go := false }).pokeCxs i
  if x.inbound && 1 ≤ x.src && x.src ≤ 4 then
    match neighbour i x.src with
    | some j => pumpLink 8 s2 j (opposite x.src)
    | none => s2
  else s2

/-- `q.bind` (R132). -/
def execQBind (rd rs1 rs2 : XReg) (s : State) : Out :=
  let n := (s.xr rs1).toNat
  let w := s.xr rs2
  let b : QReg := { QReg.init with bind := w }
  let i := s.cur.core
  if s.myCore.pair.on && s.myCore.pair.odd then ok (ctDone s rd 1) else
  -- DEDUCED (log 46): a STREAM with SRC 0 is BADARG, though an unbind succeeds
  if n > 7 || b.src = 7 || (b.src = 5 && b.out) || (1 ≤ b.src && b.src ≤ 4 && (neighbour i b.src).isNone)
      || (b.stream ≠ 0 && b.src ≠ 6) then ok (ctDone s rd 2)
  else if b.src = 0 then ok (ctDone (qUnbind s i n) rd 0)
  else if (s.myCore.q n).src ≠ 0 then ok (ctDone s rd 1)
  else
    let x := s.myCore.q n
    let s1 := s.setQ i n { x with bind := w &&& 0xF0F }
    let s2 := if b.out && 1 ≤ b.src && b.src ≤ 4 then pumpLink 8 s1 i b.src else pumpInto s1 i n
    ok (ctDone s2 rd 0)

/-! ### A-slot queue operations (R133) -/

/-- ILLCTX at issue. -/
def illctx (s : State) : Out := ok (aFault s cILLCTX 0)

/-- The head of queue `n` is dequeued; a tagged one with HEN = 1 calls the light handler of `n` at the block's end (R269). -/
def qTake (s : State) (n : Nat) (x : QReg) (e : QElem) (es : List QElem) : State :=
  let i := s.cur.core
  let s1 := s.setQ i n { x with elems := es }
  let s2 := if e.tag && x.hen then
      s1.modMe (fun c => if c.handler.isNone && c.pendHandler.isNone then { c with pendHandler := some n } else c) else s1
  pumpInto s2 i n

/-- An element with tag 0 is enqueued; over a link it leaves as soon as it can. -/
def qPut (s : State) (n : Nat) (x : QReg) (v : Word) : State :=
  let i := s.cur.core
  let s1 := qAppend s i n v false
  if 1 ≤ x.src && x.src ≤ 4 then pumpLink 8 s1 i x.src else s1

/-- Reads an element: an uncorrectable one has class S4 (R319, R323). -/
def qRead (s : State) (e : QElem) (f : State → Out) : Out :=
  if !s.myCore.qBad.contains e.ord then f s else
  match polAction s.myCore.sevpol 4 with
  | 0 => f s
  | 3 => f (s.snuffCore s.cur.core)
  | _ => ok (aFault s cSEV 4)

/-- Whether this step takes up a bundle that waits on queue `n`: what it has found at issue stands (R37, R60). -/
def State.waitedOn (s : State) (n : Nat) : Bool := s.me.wait = .queue n

/-- `qpop sd, qN`; a wait goes on though the queue has been unbound meanwhile (R60). -/
def execQpop (sd : SReg) (q : BitVec 3) (s : State) : Out :=
  let x := s.myCore.q q.toNat
  if !s.waitedOn q.toNat && (!x.inbound || s.me.handler.isSome) then illctx s else
  match (if x.inbound then x.elems else []) with
  | [] => ok (holdBundle s .waitQ (.queue q.toNat))
  | e :: es => qRead s e (fun s => ok ((qTake s q.toNat x e es).setS sd e.v))

/-- `qtrypop sd, se, qN`: the status is written last. -/
def execQtrypop (sd se : SReg) (q : BitVec 3) (s : State) : Out :=
  let x := s.myCore.q q.toNat
  if !x.inbound then illctx s else
  match x.elems with
  | [] => ok (s.setS se 0)
  | e :: es => qRead s e (fun s => ok (((qTake s q.toNat x e es).setS sd e.v).setS se 1))

/-- `qpeek sd, se, qN`. -/
def execQpeek (sd se : SReg) (q : BitVec 3) (s : State) : Out :=
  let x := s.myCore.q q.toNat
  if !x.inbound then illctx s else
  match x.elems with
  | [] => ok (s.setS se 0)
  | e :: _ => qRead s e (fun s => ok ((s.setS sd e.v).setS se (if e.tag then 3 else 1)))

/-- `qpush qN, sd`; a wait goes on though the queue has been unbound meanwhile (R60). -/
def execQpush (sd : SReg) (q : BitVec 3) (s : State) : Out :=
  let x := s.myCore.q q.toNat
  if !s.waitedOn q.toNat && (x.src = 0 || !x.out || s.me.handler.isSome) then illctx s
  else if x.src = 0 || !x.out || x.room = 0 then ok (holdBundle s .waitQ (.queue q.toNat))
  else ok (qPut s q.toNat x (s.aS sd))

/-- `qtrypush se, qN, sd`. -/
def execQtrypush (sd se : SReg) (q : BitVec 3) (s : State) : Out :=
  let x := s.myCore.q q.toNat
  if x.src = 0 || !x.out then illctx s
  else if x.room = 0 then ok (s.setS se 0)
  else ok ((qPut s q.toNat x (s.aS sd)).setS se 1)

end Sys2Proof.Machine
end

