-- ==== Sys2Proof/Machine/Desc.lean ====
section
/-!
DEFINITION. Tensor descriptors (R80, Table 5.18): their fields and the rules whose breach is BADDESC.
-/
namespace Sys2Proof.Machine

/-- A tensor descriptor that breaks no rule of R80. -/
structure Desc where
  base : Nat
  fmt : Fmt
  loc : Bool
  mx : Bool
  bm : Bool
  levels : Nat
  /-- extents and strides in bytes, dimension 0 first (its stride is zero: packed) -/
  dims : List (Nat × Int)
  sbase : Nat
  sstride : Int
deriving DecidableEq, Repr

/-- Extent of dimension `i`; 1 beyond NDIM. -/
def Desc.ext (d : Desc) (i : Nat) : Nat := match d.dims[i]? with | some x => x.1 | none => 1
/-- Stride of dimension `i` in bytes. -/
def Desc.stride (d : Desc) (i : Nat) : Int := match d.dims[i]? with | some x => x.2 | none => 0
/-- NDIM. -/
def Desc.ndim (d : Desc) : Nat := d.dims.length
/-- Bytes of `n` packed elements. -/
def Desc.bytesOf (d : Desc) (n : Nat) : Nat := (n * d.fmt.width + 7) / 8

/-- Reads the sixteen words of a descriptor (Table 5.18); none: a rule of R80 is broken. Reserved fields are ignored (R8). -/
def parseDesc (ws : List Word) : Option Desc :=
  let w := fun (i : Nat) => (ws.getD i 0).toNat
  let w1 := w 1
  let nd := bitsOf w1 11 8
  let mx := bitOf w1 5
  let bm := bitOf w1 6
  let dims := (List.range nd).map (fun i => (bitsOf (w (2 + i)) 23 0, toSigned 40 (bitsOf (w (2 + i)) 63 24)))
  match Fmt.ofCode (bitsOf w1 3 0) with
  | none => none
  | some f =>
    let bad := nd = 0 || decide (nd > 10) || dims.any (fun d => d.1 = 0)
      || ((dims.head?.map (fun d => d.2)).getD 0) ≠ 0
      || (List.range (10 - nd)).any (fun i => w (2 + nd + i) ≠ 0)
      || (!mx && !bm && w 12 ≠ 0) || (!mx && bitsOf (w 13) 39 0 ≠ 0) || (mx && !f.isMx) || (mx && bm)
      || bitsOf w1 13 12 = 3
    if bad then none else
    some { base := bitsOf (w 0) 47 0, fmt := f, loc := bitOf w1 4, mx := mx, bm := bm, levels := bitsOf w1 13 12 + 2
           dims := dims, sbase := w 12, sstride := toSigned 40 (bitsOf (w 13) 39 0) }

/-- What the rules of R80 and R93 ask of word 1, for a command that reads words 0 and 1 alone (R251, R252). -/
def word1Ok (w : Nat) : Bool :=
  let nd := bitsOf w 11 8
  (match Fmt.ofCode (bitsOf w 3 0) with | some f => !bitOf w 5 || f.isMx | none => false)
  && decide (nd ≠ 0) && decide (nd ≤ 10) && !(bitOf w 5 && bitOf w 6) && bitsOf w 13 12 ≠ 3 && (!bitOf w 6 || nd = 2)

/-- The sixteen words at a local-store address. -/
def State.descWords (s : State) (i a : Nat) : List Word :=
  (List.range 16).map (fun k => BitVec.ofNat 64 (s.lsVal i (a + 8 * k) 8))

end Sys2Proof.Machine
end

