-- ==== Sys2Proof/Machine/Gather.lean ====
section
/-!
DEFINITION. Gather units (R261–R265) and routine slots (R258–R260): index streams, triggers, the start and the end of kernel
and routine runs.
-/
namespace Sys2Proof.Machine

/-! ### Index streams (R261, R262) -/

/-- DESC of a QCFG value: byte address. -/
def cfgDesc (w : Nat) : Nat := bitsOf w 31 22 * 128
/-- KSLOT. -/
def cfgSlot (w : Nat) : Nat := bitsOf w 21 20
/-- EOS. -/
def cfgEos (w : Nat) : Bool := bitOf w 19
/-- The stored fields of a QCFG write: DESC, KSLOT, EOS, HEN, HBLK. -/
def cfgMask (w : Word) : Word := w &&& 0xFFF807FF
/-- The value a QCFG read shows. -/
def QReg.qcfg (x : QReg) : Word :=
  x.cfg ||| BitVec.ofNat 64 (b2n x.go * 2 ^ 63 + x.err.toNat * 2 ^ 60)

/-- Requests a gather unit has outstanding: index reads and both kinds of fetch. -/
def State.gatOut (s : State) (i : Nat) : List (Nat × Req) := s.outstanding (.gu i)

/-- Triggers of a slot waiting or in flight: queued, taken, and reads or fetches whose reply will trigger (R262). -/
def State.slotBusy (s : State) (i slot : Nat) : Nat :=
  let g := (s.core i).gat
  (g.triggers.filter (fun t => t.slot = slot)).length
  + (match g.taken with | some t => b2n (t.slot = slot) | none => 0)
  + (s.reqs.filter (fun e => e.2.who = .gu i && e.2.live && (match e.2.dest with
      | .index k _ => k = slot
      | .fetch k rt _ => k = slot && rt
      | _ => false))).length

/-- Whether the stream of a queue has drained (R264). -/
def State.drained (s : State) (i : Nat) (t : Stream) : Bool :=
  t.next = t.total && s.slotBusy i t.slot = 0
  && (match (s.core i).gat.run with | some r => r.trig.slot ≠ t.slot | none => true)

/-- Looks whether a slot's stream has drained. -/
def checkDrain (s : State) (i slot : Nat) : State :=
  match (s.core i).gat.streams.find? (fun t => t.slot = slot) with
  | some t => if s.drained i t then s.at s.time (.gatherDrain i slot) else s
  | none => s

/-- Whether a stream of queue `n` runs: GO reads 1 until then (Table 17.4). -/
def State.streaming (s : State) (i n : Nat) : Bool := (s.core i).gat.streams.any (fun t => t.q = n)
/-- Writes GO, ERR of a queue whose stream has ended; GO stays where another of its streams still runs (log 31). -/
def State.endGo (s : State) (i n err : Nat) : State :=
  s.setQ i n { (s.core i).q n with go := s.streaming i n, err := BitVec.ofNat 3 err }

/-- A fault of a slot stops its stream and pushes a tagged fault word (R265). -/
def gatherFault (s : State) (i slot cause info va : Nat) : State :=
  match (s.core i).gat.streams.find? (fun t => t.slot = slot) with
  | none => s
  | some t =>
    let w := BitVec.ofNat 64 (cause * 2 ^ 56 + info % 256 * 2 ^ 48 + va % 2 ^ 48)
    let s1 := (stopSlot s i slot).modGat i (fun g => { g with pend := g.pend ++ [(slot * 8 + t.q, w)] })
    s1.at s1.time (.gatherDrain i slot)

/-- A run of the unit has ended (R263). -/
def gatherEnd (s : State) (i slot : Nat) : State :=
  checkDrain (gatherNext (s.modGat i (fun g => { g with run := none })) i) i slot

/-- A write of QCFG with GO = 1 (QCFG_GO): stores the fields, and starts the stream unless a check fails (R261, R262). -/
def execQcfgGo (q : BitVec 3) (v : Word) (s : State) : Out :=
  let i := s.cur.core
  let n := q.toNat
  let x := { s.myCore.q n with cfg := cfgMask v }
  let fail := fun (e : BitVec 3) => ok (s.setQ i n { x with err := e })
  if x.src ≠ 5 then fail 2 else
  let slot := cfgSlot v.toNat
  if s.myCore.gat.streams.any (fun t => t.slot = slot) then fail 1
  else if (sfind s.myCore.gat.kernels slot).isNone then fail 4
  else
    match (if cfgDesc v.toNat + 128 ≤ lsEnd then parseDesc (s.descWords i (cfgDesc v.toNat)) else none) with
    | none => fail 3
    | some d =>
      if d.ndim ≠ 1 || d.loc || d.mx || d.bm || d.base % 64 ≠ 0 then fail 3
      else
        let bytes := d.bytesOf (d.ext 0)
        let t : Stream := { q := n, slot := slot, base := d.base, bytes := bytes, next := 0, total := (bytes + 63) / 64 }
        ok (((s.setQ i n { x with go := true, err := 0 }).modGat i (fun g => { g with streams := g.streams ++ [t] })).after 1
          (.gatherReadIssue i slot))

/-- A write of QCFG with GO = 0 (QCFG_STOP): stores the fields and stops the stream (R262). -/
def execQcfgStop (q : BitVec 3) (v : Word) (s : State) : Out :=
  let i := s.cur.core
  let n := q.toNat
  let s1 := stopStream s i n
  ok (s1.setQ i n { (s1.core i).q n with cfg := cfgMask v, go := false })

/-- The stream reads its next line when the limits allow, and goes on in the next cycle (R262). -/
def execGatherReadIssue (s : State) : Out :=
  match s.cur.ev with
  | .gatherReadIssue i slot =>
    match (s.core i).gat.streams.find? (fun t => t.slot = slot) with
    | none => ok s
    | some t =>
      if t.next ≥ t.total then ok s
      else if (s.gatOut i).length ≥ 32 || s.slotBusy i t.slot ≥ 32 then ok (s.after 1 (.gatherReadIssue i slot))
      else
        let (s1, _) := issueReq s { Req.new (.gu i) (.load 64) (t.base + 64 * t.next) 64 (.index t.slot t.next) with relaxed := true }
        let s2 := s1.modGat i (fun g => { g with streams := g.streams.map (fun u => if u.slot = slot then { u with next := u.next + 1 } else u) })
        ok (if t.next + 1 < t.total then s2.after 1 (.gatherReadIssue i slot) else s2)
  | _ => notEnabled "GATHER_READ_ISSUE"

/-- A returned index line or `nfetch.rt` reply becomes a trigger; while the queue of 32 is full it waits (R263). -/
def execGatherTrigger (s : State) : Out :=
  match s.cur.ev with
  | .gatherTrigger i r =>
    match s.req r with
    | none => ok s
    | some q =>
      let s1 := { s with reqs := sdel r s.reqs }
      if !q.live then ok s1
      else if (s.core i).gat.triggers.length ≥ 32 then ok (s.after 1 (.gatherTrigger i r)) else
      let line := BitVec.ofNat 512 (leVal q.data)
      let bad := q.words.map (fun w => (w.toNat / 16, w.toNat % 16))
      let put := fun (t : Trigger) =>
        ok (gatherTake (s1.modGat i (fun g => { g with triggers := g.triggers ++ [t] })) i)
      match q.dest with
      | .index slot ord =>
        match (s.core i).gat.streams.find? (fun t => t.slot = slot) with
        | none => ok s1
        | some t =>
          put { slot := slot, va := q.va, line := line, bad := bad
                n12 := min 64 (t.bytes - 64 * ord), n13 := b2n (ord + 1 = t.total), n15 := BitVec.ofNat 64 ord }
      | .fetch slot true n15 => put { slot := slot, va := q.va, line := line, bad := bad, n12 := 64, n13 := 0, n15 := n15 }
      | _ => ok s1
  | _ => notEnabled "GATHER_TRIGGER"

/-- The unit starts the run of the taken trigger (R263). -/
def execGatherRun (s : State) : Out :=
  match s.cur.ev with
  | .gatherRun i =>
    let g := (s.core i).gat
    match g.taken, g.run with
    | some t, none =>
      if g.takenAt + 2 > s.time then ok s else
      let n : List (Nat × Word) :=
        sput 0 (sput 0 (sput 0 (sput 0 [] 12 (BitVec.ofNat 64 t.n12)) 13 (BitVec.ofNat 64 t.n13)) 14 (BitVec.ofNat 64 t.va)) 15 t.n15
      let r : GRun := { trig := t, n := n, w := t.line, pc := 0, count := 0, usedRt := false, digs := 0, startAt := s.time }
      let s1 := gatherTake (s.modGat i (fun g => { g with run := some r, taken := none })) i
      ok { s1 with todo := s1.todo ++ [.gu i] }
    | _, _ => ok s
  | _ => notEnabled "GATHER_RUN"

/-- An index read or a fetch met a fault at the slice: the stream of its slot faults, if it runs (R262, R264). -/
def execGatherFetchFault (s : State) : Out :=
  match s.cur.ev with
  | .gatherFetchFault i slot cause va => ok (gatherFault s i slot cause 0 va)
  | _ => notEnabled "GATHER_FETCH_FAULT"

/-- A stream ends: a waiting fault word is pushed, or a drained stream gives up its plain fetches and pushes its end element; both
wait for room (R264, R265). -/
def execGatherDrain (s : State) : Out :=
  match s.cur.ev with
  | .gatherDrain i slot =>
    let again := ok (s.after 1 (.gatherDrain i slot))
    match (s.core i).gat.pend.find? (fun p => p.1 / 8 = slot) with
    | some p =>
      let n := p.1 % 8
      let x := (s.core i).q n
      let gone := s.modGat i (fun g => { g with pend := g.pend.erase p })
      if x.src ≠ 5 then ok (checkDrain gone i slot)
      else if x.room = 0 then again
      else ok (checkDrain ((qAppend gone i n p.2 true).endGo i n 5) i slot)
    | none =>
      match (s.core i).gat.streams.find? (fun t => t.slot = slot) with
      | none => ok s
      | some t =>
        if !s.drained i t then ok s else
        let x := (s.core i).q t.q
        let stop := fun (s : State) => (stopSlot s i slot).endGo i t.q 0
        if cfgEos x.cfg.toNat then
          (if x.room = 0 then again else ok (stop (qAppend s i t.q 0 true)))
        else ok (stop s)
  | _ => notEnabled "GATHER_DRAIN"

/-! ### Routines at the home slice (R258–R260) -/

/-- Slice id of a routine call's home. -/
def Req.homeSlice (q : Req) : Nat := homeOf q.pa * 32 + q.slice
/-- Routine code of a launch. -/
def Launch.routine (l : Launch) (rid : Nat) : Option (List (BitVec 32)) := sfind l.routines rid
/-- Whether a slot runs: a call holds its line under the slot's routine (R259). -/
def State.slotRuns (s : State) (slice : Nat) (x : RSlot) : Bool :=
  s.near.runs.any (fun e => e.2.slice = slice && e.2.rid = x.rid && (match s.req e.2.req with
    | some q => s.asidOf q.who.core = x.asid | none => false))
/-- The slot that holds a routine. -/
def State.slotOf (s : State) (slice asid rid : Nat) : Option RSlot :=
  (sget [] s.near.slots slice).find? (fun x => x.asid = asid && x.rid = rid)

/-- RFAULT detail (Table 17.2). -/
def rfaultWord (sev kind code : Nat) : BitVec 32 :=
  BitVec.ofNat 32 ((if sev = 0 then 0 else 2 ^ 19 + (sev - 1) % 8 * 2 ^ 16) + kind % 256 * 256 + code % 256)

/-- A call ends in RFAULT. -/
def failCall (s : State) (r d : Nat) (w : BitVec 32) : State :=
  s.answer r d (fun q => { q with fault := some { cause := 12, detail := w.setWidth 40 } })

/-- The release of the line at the end of the hold: the words written are stored, the reply leaves (R258, R260). -/
def endRoutine (s : State) (key : Nat) (x : RRun) : State :=
  let s0 := { s with near := { s.near with runs := sdel key s.near.runs } }
  match s.req x.req with
  | none => s0
  | some q =>
    let d := if homeOf q.pa = q.die then 0 else 44
    match x.rfault with
    | some w => failCall s0 x.req d w
    | none =>
      let line := q.pa / 64 * 64
      let s1 := (List.range 16).foldl (fun s k =>
        if bitOf x.wrote.toNat k then s.homeWrite (line + 4 * k) (leBytes 4 (elem 32 x.w.toNat k)) none else s)
        ((s0.dropCopies (line / 64)).clearResv (line / 64) none)
      s1.answer x.req d (fun q => { q with words := x.k })

/-- ROUTINE_RUN: a call reaches its home slice, waits for its slot and line, and takes the line; or its hold ends. -/
def execRoutineRun (s : State) : Out :=
  match s.cur.ev with
  | .routineRun r =>
    match s.near.runs.find? (fun e => e.2.req = r) with
    | some (k, x) => if x.ended then ok (endRoutine s k x) else ok s
    | none =>
    match s.req r with
    | none => ok s
    | some q =>
      match q.op with
      | .lcall rid rn ws =>
        let asid := s.asidOf q.who.core
        let home := homeOf q.pa
        match s.slotOf q.homeSlice asid rid with
        | none =>
          let l := sget [] s.near.slotReqs home
          let s1 := { s with near := { s.near with slotReqs := sput [] s.near.slotReqs home (l ++ [r]) } }
          ok (if l = [] then s1.after 600 (.routineSlotLoad home) else s1)
        | some slot =>
          if s.lineBusy r q.pa 64 then ok (s.after 1 (.routineRun r)) else
          let hs := s.markers q.pa 64 false
          if hs ≠ [] then
            let (s1, w) := s.abortHolders home q.slice hs 10 (q.pa / 256)
            ok (s1.after w (.routineRun r))
          else
          let others := s.otherCopies home home [q.pa / 64]
          if others ≠ [] then
            let (s1, w) := askCopies s q.die home q.slice others true
            ok (s1.after w (.routineRun r))
          else if s.missing [q.pa / 64] ≠ [] then ok (waitFill s r [q.pa / 64])
          else
            let s1 := (s.install (q.pa / 64)).scrub (q.pa / 64) (s.nlOf q)
            let run : RRun :=
              { req := r, slice := q.homeSlice, rid := rid, code := slot.code, n := []
                w := BitVec.ofNat 512 (leVal (s1.lineNow (q.pa / 64))), k := ws, pc := 0, startAt := s1.time, wrote := 0
                bad := (s1.badWords (q.pa / 64 * 64) 64).map (fun w => (w.toNat / 16, w.toNat % 16)), sev := 0
                ended := false, rfault := none }
            let slots := (sget [] s1.near.slots q.homeSlice).map (fun x =>
              if x.asid = asid && x.rid = rid then { x with started := s1.time } else x)
            let s2 := { s1 with near := { s1.near with
              runs := sins s1.near.nextRun run s1.near.runs, nextRun := s1.near.nextRun + 1
              slots := sput [] s1.near.slots q.homeSlice slots } }
            ok ((s2.modReq r (fun q => { q with words := [BitVec.ofNat 64 rn] })).after (slot.code.length + 6) (.routineRun r))
      | _ => ok s
  | _ => notEnabled "ROUTINE_RUN"

/-- The MMP of a die loads the routine of the oldest slot request (R259), or answers NOROUTINE. -/
def execRoutineSlotLoad (s : State) : Out :=
  match s.cur.ev with
  | .routineSlotLoad die =>
    match sget [] s.near.slotReqs die with
    | [] => ok s
    | r :: rs =>
      let pop := fun (s : State) =>
        let s1 := { s with near := { s.near with slotReqs := sput [] s.near.slotReqs die rs } }
        if rs = [] then s1 else s1.after 600 (.routineSlotLoad die)
      match s.req r with
      | none => ok (pop s)
      | some q =>
        match q.op with
        | .lcall rid _ _ =>
          match (s.launchOf q.who.core).bind (fun l => l.routine rid) with
          | none => ok (failCall (pop s) r (if homeOf q.pa = q.die then 0 else 44) (rfaultWord 0 1 0))
          | some code =>
            let sl := q.homeSlice
            let have' := sget [] s.near.slots sl
            let idle := have'.filter (fun x => !s.slotRuns sl x)
            let new : RSlot := { asid := s.asidOf q.who.core, rid := rid, code := code, started := s.time }
            if (s.slotOf sl new.asid rid).isSome then ok ((pop s).at s.time (.routineRun r))
            else if have'.length < 64 then
              ok ((pop { s with near := { s.near with slots := sput [] s.near.slots sl (have' ++ [new]) } }).at s.time (.routineRun r))
            else
              match idle with
              | [] => ok (s.after 1 (.routineSlotLoad die))
              | x :: xs =>
                let old := xs.foldl (fun b y => if y.started < b.started then y else b) x
                let sl' := have'.filter (fun y => y ≠ old) ++ [new]
                ok ((pop { s with near := { s.near with slots := sput [] s.near.slots sl sl' } }).at s.time (.routineRun r))
        | _ => ok (pop s)
  | _ => notEnabled "ROUTINE_SLOT_LOAD"

end Sys2Proof.Machine
end

