-- ==== Sys2Proof/Machine/Areas.lean ====
section
/-!
DEFINITION. The areas of memory in which the device keeps state of a launch: spilled task records (R300), thread-context entries behind
the cache (R312) and pre-emption save areas (R296). Their accesses go line by line through the serving slices of the core's die, one a
cycle, at the times of R25 (log 47).
-/
namespace Sys2Proof.Machine

/-- `n` bytes that the spec leaves open, as the layout of an area is (log 9, log 47). -/
def State.drawBytes (s : State) (n : Nat) : State × List Byte :=
  ({ s with fresh := s.fresh + (n + 7) / 8 },
    (List.range n).map (fun k => BitVec.ofNat 8 ((Config.freeWord (s.fresh + k / 8)).toNat >>> (8 * (k % 8)))))

/-- An access of core `i` to `n` bytes of one line of an area, a write when `w` gives them: the bytes, and its reply time. A line that
does not translate to device memory reads as zero bytes and is not written (log 47). -/
def areaLine (s : State) (i va n : Nat) (w : Option (List Byte)) : State × List Byte × Nat :=
  let die := dieOf i
  let t0 := 26 + 4 * hops (clusterOf i) (die * 32 + sliceIdx va)
  let zero := List.replicate n 0
  match s.translate die (sliceIdx va) (s.asidOf i) (va % 2 ^ 48) { r := w.isNone, w := w.isSome, hv := false } with
  | (s1, c, .ok l) =>
    let pa := l.pa (va % 2 ^ 48)
    if regionOf pa ≠ .dram then (s1, zero, t0 + c) else
    (match w with
    | some bs =>
      let k := (if homeOf pa = die then 0 else 88) + (if bs.length = 64 then 0 else s1.fillCost (pa / 64))
      ((((s1.isolate pa bs.length).scrub (pa / 64) (pteNl l.pte)).install (pa / 64)).homeWrite pa bs none, bs, t0 + c + k)
    | none =>
      let (s2, k) := s1.touch die (pa / 64)
      let s3 := s2.scrub (pa / 64) (pteNl l.pte)
      (s3, s3.pread pa n, t0 + c + k))
  | (s1, c, _) => (s1, zero, t0 + c)

/-- Lines of an area written with bytes the spec leaves open, one a cycle: the state, and the cycles until the last is performed. -/
def areaFill (s : State) (i va lines : Nat) : State × Nat :=
  (List.range lines).foldl (fun (a : State × Nat) k =>
    let (s1, bs) := a.1.drawBytes 64
    let (s2, _, t) := areaLine s1 i (va + 64 * k) 64 (some bs)
    (s2, max a.2 (k + t))) (s, 0)
/-- Lines of an area read, one a cycle: the state, and the cycles until the last has come. -/
def areaScan (s : State) (i va lines : Nat) : State × Nat :=
  (List.range lines).foldl (fun (a : State × Nat) k =>
    let (s2, _, t) := areaLine a.1 i (va + 64 * k) 64 none
    (s2, max a.2 (k + t))) (s, 0)

/-- Where a core's area begins: descriptor word `w` of its launch, areas of `size` bytes by rank (R292). -/
def State.areaOf (s : State) (i w size : Nat) : Nat :=
  match s.launchOf i with | some l => l.word w + l.rank i * size | none => 0

end Sys2Proof.Machine
end

