-- ==== Sys2Proof/Machine/Jobs.lean ====
section
/-!
DEFINITION. Tile commands as jobs (R76–R79, R121–R124, R218–R232, R283): the push checks, job records, the dependency window,
which job starts, ends and reports, and capabilities.
-/
namespace Sys2Proof.Machine

/-! ### The dependency window (R57, R220, R301) -/

/-- Whether two entries form a read-after-write, write-after-read or write-after-write pair. -/
def WinEnt.conflict (a b : WinEnt) : Bool :=
  (a.all || b.all || overlap a.lo a.len b.lo b.len) && (a.w || b.w)

/-- Whether no earlier entry of another owner conflicts with an owner's entries; `acc` holds the entries before. -/
def winReadyGo (isJob : Bool) (key : Nat) : List WinEnt → List WinEnt → Bool
  | _, [] => true
  | acc, e :: es =>
    let mine := e.isJob = isJob && e.key = key
    if mine then !(acc.any (fun x => x.conflict e)) && winReadyGo isJob key acc es
    else winReadyGo isJob key (e :: acc) es
/-- Readiness of an owner in a window. -/
def winReady (isJob : Bool) (key : Nat) (win : List WinEnt) : Bool := winReadyGo isJob key [] win

/-- Entries of a task's or command's range words (R78, R220, R301): a malformed word overlaps all as a write. -/
def rangeEntries (isJob : Bool) (key : Nat) (ws : List Word) : List WinEnt :=
  ws.filterMap (fun w =>
    let x := w.toNat
    if fpMalformed w then some { isJob := isJob, key := key, all := true, r := true, w := true, lo := 0, len := 0 }
    else if bitsOf x 61 40 = 0 then none
    else some { isJob := isJob, key := key, all := false, r := bitOf x 62, w := bitOf x 63, lo := bitsOf x 39 0, len := bitsOf x 61 40 })
/-- Entries of a command. -/
def cmdEntries (j : Nat) (c : TileCmd) : List WinEnt :=
  if c.fpv then rangeEntries true j [c.fp0, c.fp1]
  else [{ isJob := true, key := j, all := true, r := true, w := true, lo := 0, len := 0 }]

/-- Whether a job is ready: nothing earlier conflicts, in whichever window its entries stand. -/
def State.jobReady (s : State) (j : Nat) : Bool := s.jobs.clusters.all (fun c => winReady true j c.2.win)
/-- Whether a task record is ready: its window is that of the core it was pushed on. -/
def State.taskReady (s : State) (t : TaskRec) : Bool := winReady false t.key (s.cluster (clusterOf t.owner)).win

/-! ### Engines and their queues (R218, R219) -/

/-- Engine classes. -/
inductive Engine where
  | mxe | cpe | cle
deriving DecidableEq, Repr

/-- The engine of an opcode (Table 5.16). -/
def engineOf (op : Nat) : Engine := if op < 0x20 then .mxe else if op < 0x40 then .cpe else .cle
/-- The unit in whose queue a job stands or that runs it: its engine class and its cluster or H-die. A collective stands in the CPE
queue of its cluster until it is forwarded to the CLE (R218). -/
def Job.unit (x : Job) : Engine × Nat := if engineOf x.op = .cle && !x.fwd then (.cpe, clusterOf x.core) else (engineOf x.op, x.cluster)
/-- Whether a job belongs to a unit: it is the job's own, or an MXE of its gang (R239). -/
def Job.inUnit (x : Job) (u : Engine × Nat) : Bool :=
  x.unit = u || (u.1 = .mxe && engineOf x.op = .mxe && x.gang.contains u.2)
/-- A gang command the arbiter has still to enter (R239). -/
def Job.unentered (x : Job) : Bool := engineOf x.op = .mxe && x.cmd.grp && x.gang = []
/-- Whether a job holds a queue entry: accepted and not started. -/
def Job.queued (x : Job) : Bool := x.accepted && (x.st = .waiting || x.st = .ready || x.st = .held)
/-- Entries in use in a unit's queue. -/
def State.queueLen (s : State) (u : Engine × Nat) : Nat := (s.jobs.list.filter (fun e => e.2.inUnit u && e.2.queued)).length
/-- Queue depth. -/
def Engine.depth : Engine → Nat
  | .cle => 32
  | _ => 16
/-- Jobs a unit runs, paused and starting ones among them. -/
def State.unitBusy (s : State) (u : Engine × Nat) : Nat :=
  (s.jobs.list.filter (fun e => e.2.inUnit u && (e.2.st = .running || e.2.st = .paused || (e.2.st = .ready && e.2.startAt ≠ 0)))).length

/-- Jobs of a unit that hold a queue entry, in acceptance order. -/
def State.queueOf (s : State) (u : Engine × Nat) : List (Nat × Job) :=
  (s.jobs.list.filter (fun e => e.2.inUnit u && e.2.queued && !e.2.unentered && e.2.startAt = 0)).foldl
    (fun acc e => (acc.takeWhile (fun x => x.2.order < e.2.order)) ++ [e] ++ acc.dropWhile (fun x => x.2.order < e.2.order)) []

/-- Jobs that have become ready leave WAITING (R223). -/
def State.markReady (s : State) : State :=
  s.jobs.list.foldl (fun s e => s.modJob e.1 (fun x =>
    if x.st = .waiting && x.accepted && !x.unentered && s.jobReady e.1 then { x with st := .ready } else x)) s

/-- Whether a job may start: nothing new of a launch that is being pre-empted starts once its contexts have been evicted, for its
unstarted jobs are then removed (R296, steps 2 and 4; DEDUCED, log 16). -/
def State.mayStart (s : State) (x : Job) : Bool :=
  match s.launch x.lid with
  | some l => l.st ≠ .preempting || l.cores.any (fun c => (s.core c).ctxs.any (fun e => e.2.st ≠ .empty))
  | none => true

/-- Whether a gang command is at the head of every member's queue, with every member's MXE free (R239). -/
def State.gangHead (s : State) (j : Nat) (x : Job) : Bool :=
  x.gang.all (fun k => s.unitBusy (.mxe, k) = 0 && ((s.queueOf (.mxe, k)).head?.map (·.1)) = some j)

/-- The next job a unit may start (R219, R239). -/
def State.nextJob (s : State) (u : Engine × Nat) : Option Nat :=
  let q := s.queueOf u
  match u.1 with
  | .cpe => if s.unitBusy u < 4 then (q.find? (fun e => e.2.st = .ready && engineOf e.2.op = .cpe && s.mayStart e.2)).map (·.1) else none
  | _ =>
    if s.unitBusy u ≠ 0 then none else
    match q with
    | e :: _ => if e.2.st = .ready && s.mayStart e.2 && s.gangHead e.1 e.2 then some e.1 else none
    | [] => none

/-- Collectives go on from their clusters' CPE queues to the CLE queues, in acceptance order, where those have room (R218; at once: log
28). -/
def State.forwardColls (s : State) : State :=
  s.jobs.list.foldl (fun s e =>
    match s.job e.1 with
    | none => s
    | some x =>
      if engineOf x.op = .cle && !x.fwd && x.accepted && (x.st = .waiting || x.st = .ready) && decide (s.queueLen (.cle, x.cluster) < 32)
      then s.setJob e.1 { x with fwd := true } else s) s

/-- Starts what a unit may start, 2 cycles from now; `fuel` bounds the CPE's four. -/
def startUnit : Nat → State → Engine × Nat → State
  | 0, s, _ => s
  | f + 1, s, u =>
    match s.nextJob u with
    | none => s
    | some j =>
      match s.job j with
      | none => s
      | some x =>
        startUnit f ((s.setJob j { x with startAt := s.time + 2 }).after 2 (.jobRun j)) u

/-- Tasks of a core that are ready. -/
def State.readyTasks (s : State) (i : Nat) : List TaskRec :=
  ((List.range 4).flatMap (fun p => sget [] (s.core i).deques p ++ sget [] (s.core i).spills p)).filter s.taskReady

/-- Units with queued jobs. -/
def State.units (s : State) : List (Engine × Nat) :=
  s.jobs.list.foldl (fun acc e => if e.2.queued && !e.2.unentered && !acc.contains e.2.unit then acc ++ [e.2.unit] else acc) []

/-- After a change of queues or windows: jobs become ready, collectives are forwarded, jobs start. -/
def kickJobs (s : State) : State :=
  let s1 := s.markReady.forwardColls
  s1.units.foldl (fun s u => startUnit 4 s u) s1

/-- Cores whose deques hold records of a window that changed. -/
def taskCores (s : State) : List Nat := s.cores.filterMap (fun e => if e.2.deques ≠ [] || e.2.spills ≠ [] then some e.1 else none)

/-- After window entries have gone from `s0`: tasks that have become ready set TASK and wake their core; pushes that wait for
room are tried again from their next own slot (R125); jobs start. -/
def kickWindows (s0 s : State) : State :=
  let s1 := kickJobs s
  let s2 := (taskCores s1).foldl (fun s i =>
    if (s.readyTasks i).length > (s0.readyTasks i).length then (s.event i evTask).poke i else s) s1
  { s2 with cores := s2.cores.map (fun e => (e.1, { e.2 with ctxs := e.2.ctxs.map (fun c =>
      match c.2.wait with
      | .taskPush _ => (c.1, { c.2 with readyAt := min c.2.readyAt (s2.time + 1) })
      | _ => c) })) }

/-- A job reaches a terminal state at its engine. -/
def State.terminate (s : State) (j : Nat) (st : JSt) (code : Nat) : State :=
  match s.job j with
  | none => s
  | some x => if x.st.terminal then s else (kickWindows s (s.endJob j st code)).checkEnd x.lid

/-! ### Job records (R222, R226) -/

/-- Whether a record of a core is free, or holds a terminal job that can be reclaimed. -/
def Core.recFree (k : Core) (n : Nat) : Bool :=
  match sfind k.recs n with | some r => r.job = 0 | none => true
/-- The record an acceptance takes: the lowest free one, else the oldest that shows a terminal job. -/
def Core.takeRec (k : Core) : Option Nat :=
  match (List.range 64).find? k.recFree with
  | some n => some n
  | none =>
    ((List.range 64).filter (fun n => match sfind k.recs n with | some r => r.shown.isSome | none => false)).foldl
      (fun (b : Option Nat) n => match b with
        | none => some n
        | some m => if ((sfind k.recs n).map (·.job)).getD 0 < ((sfind k.recs m).map (·.job)).getD 0 then some n else b) none
/-- JOBSTAT (Tables 5.6 and 15.5). -/
def State.jobstat (s : State) (i : Nat) : Word :=
  let k := s.core i
  let live := (k.recs.filter (fun e => e.2.job ≠ 0 && e.2.shown.isNone))
  let sent := (live.filter (fun e => match s.job e.2.job with | some x => x.sent | none => false)).length
  let done := (k.recs.filter (fun e => e.2.job ≠ 0 && e.2.shown.isSome)).length
  BitVec.ofNat 64 (sent * 2 ^ 32 + live.length * 2 ^ 24 + done * 2 ^ 16 + k.push.toNat)
/-- Sent jobs of a core not yet terminal in its records. -/
def State.sentLive (s : State) (i : Nat) : Nat :=
  ((s.core i).recs.filter (fun e => e.2.job ≠ 0 && e.2.shown.isNone && (match s.job e.2.job with | some x => x.sent | none => false))).length

/-- State codes of Table 15.1. -/
def JSt.code : JSt → Nat
  | .waiting => 1 | .ready => 2 | .running => 3 | .paused => 4 | .done => 5 | .failed => 6 | .cancelled => 7 | .rejected => 8 | .held => 9
/-- The status word (Table 15.2). -/
def Job.status (x : Job) : Word :=
  -- SIGNAL and HASH show 0 while they run (Table 15.4)
  let progress := if x.st = .running && (x.op = 0x27 || x.op = 0x28) then 0 else x.progress
  BitVec.ofNat 64 (x.st.code * 2 ^ 60 + (if x.st = .failed || x.st = .rejected then x.code else 0) * 2 ^ 52 + x.flags % 32 * 2 ^ 47
    + b2n (bitOf x.flags 6) * 2 ^ 46 + b2n (bitOf x.flags 5) * 2 ^ 45 + min x.nbad 4095 * 2 ^ 32 + progress % 2 ^ 32)

/-- A job as it is entered. -/
def Job.new (core recNo seq lid cluster op : Nat) (c : TileCmd) : Job :=
  { core := core, recNo := recNo, seq := seq, lid := lid, cluster := cluster, op := op, cmd := c, st := .waiting, code := 0
    flags := 0, nbad := 0, progress := 0, sent := false, cap := [], accepted := false, fwd := false, order := 0, holders := [], gang := []
    reports := 0, startAt := 0, descs := [], ranges := [], tmp := [], waitVa := 0 }

/-- Takes a record for a new job: the state, the job's number and its id. -/
def State.newJob (s : State) (i n : Nat) (x : Job) : State × Nat × Word :=
  let j := s.jobs.next
  let seq := match sfind (s.core i).recs n with | some r => r.seq % 1023 + 1 | none => 1
  let old := match sfind (s.core i).recs n with | some r => r.job | none => 0
  let s1 := { s with jobs := { s.jobs with
    list := sins j { x with recNo := n, seq := seq } (sdel old s.jobs.list), next := j + 1 } }
  (s1.modCore i (fun k => { k with recs := sins n { seq := seq, job := j, shown := none } k.recs }), j, BitVec.ofNat 64 (seq * 64 + n))

/-! ### Push checks (R77, R121) -/

/-- Outcome of the checks of a command word. -/
inductive PushCheck where
  | badOp | badField
  | ok (op : Nat) (c : TileCmd)
deriving DecidableEq, Repr

/-- A group table entry of a launch. -/
def State.groupOk (s : State) (i gid : Nat) : Bool :=
  match (s.launchOf i).bind (fun l => sfind l.groups gid) with | some g => g.valid | none => false

/-- Checks a command word (R77). -/
def wordCheck (s : State) (i : Nat) (w : BitVec 256) : PushCheck :=
  let op := (fld w 248 8).toNat
  let c := tileFields w
  if (tileOfOp c op).isNone then .badOp
  else if fld w 244 1 ≠ 0 || !tileFieldsOk op c || (c.grp && !s.groupOk i c.gid.toNat) then .badField
  else .ok op c
/-- The command word at local-store address `a`. -/
def State.cmdWord (s : State) (i a : Nat) : BitVec 256 := BitVec.ofNat 256 (s.lsVal i a 32)
/-- Reads and checks the word at local-store address `a` (R77, R121). -/
def pushCheck (s : State) (i : Nat) (a : Nat) : PushCheck :=
  if a % 32 ≠ 0 || a ≥ lsEnd then .badField else wordCheck s i (s.cmdWord i a)

/-- Sets JOBSTAT.PUSH. -/
def State.setPush (s : State) (v : BitVec 8) : State := s.modCore s.cur.core (fun k => { k with push := v })

/-- Open transactions of a core's contexts that hold a command: those past their commit point do not (R283). -/
def txHolders (s : State) (i : Nat) (c : TileCmd) : List (Nat × Nat) :=
  (List.range 16).filterMap (fun x =>
    match (s.cx i x).txn with
    | none => none
    | some t =>
      if t.committing then none else
      let grans := t.wset.map (·.1) ++ t.recs.map (fun r => r.va / 256)
      let hit := !c.fpv || (rangeEntries true 0 [c.fp0, c.fp1]).any (fun e => grans.any (fun g => e.all || overlap e.lo e.len g 1))
      if hit then some (i, x) else none)

/-- The unit that runs a command of a cluster; a collective is run by the CLE of its die's side (R218). -/
def unitFor (op cluster : Nat) : Engine × Nat :=
  match engineOf op with
  | .cle => (.cle, if cluster / 32 < 4 then 0 else 1)
  | e => (e, cluster)

/-- The queue of a cluster that a command enters: a collective enters the CPE's (R218). -/
def queueFor (op cluster : Nat) : Engine × Nat := (if engineOf op = .mxe then .mxe else .cpe, cluster)
/-- Whether a queue has no entry or the window no room (R121, R218). -/
def State.noRoom (s : State) (op cluster : Nat) (c : TileCmd) : Bool :=
  let u := queueFor op cluster
  decide (s.queueLen u ≥ u.1.depth) || decide ((s.cluster cluster).win.length + (cmdEntries 0 c).length > 64)

/-- Whether the queue `u` may take a source's command: it is the next in turn of those waiting sources that have room, each local
core and the remote port counting as one (R218). `src` is a core's number in the cluster, or 8. -/
def State.myTurn (s : State) (u : Engine × Nat) (src : Nat) : Bool :=
  let k := u.2
  let c := s.cluster k
  let ready := fun (n : Nat) =>
    if n < 8 then
      match (s.core (k * 8 + n)).ct.wait with
      | .push w => (let op := (fld w 248 8).toNat; queueFor op k = u && !s.noRoom op k (tileFields w) && (s.core (k * 8 + n)).takeRec.isSome)
      | _ => false
    else match c.port.find? (fun j => match s.job j with | some x => queueFor x.op k = u | none => false) with
      | some j => (match s.job j with | some x => !s.noRoom x.op k x.cmd | none => false)
      | none => false
  let last := if u.1 = .mxe then c.lastM else c.lastC
  match ((List.range 9).map (fun n => (last + 1 + n) % 9)).find? ready with
  | some n => n = src
  | none => true
/-- Records that a source has been granted an entry of a queue. -/
def State.entryGranted (s : State) (u : Engine × Nat) (src : Nat) : State :=
  s.modCluster u.2 (fun c => if u.1 = .mxe then { c with lastM := src } else { c with lastC := src })

/-- Bytes of a descriptor that a command reads (R251, R252). -/
def descBytes (op d : Nat) : Nat := if (op = 0x27 && d = 0) || (op = 0x28 && d = 1) then 16 else 128
/-- The local-store descriptor ranges of a command (R192). -/
def descRanges (op : Nat) (c : TileCmd) : List (Nat × Nat) :=
  let u := tileUse op
  (if u.d0 then [(c.d0.toNat * 128, descBytes op 0)] else []) ++ (if u.d1 then [(c.d1.toNat * 128, descBytes op 1)] else [])
    ++ (if u.d2 then [(c.d2.toNat * 128, 128)] else [])
/-- Bytes of local store an operand's descriptor spans, elements and scale or bitmap bytes, for the ranges of R192. -/
def operandRanges (d : Desc) : List (Nat × Nat) :=
  if !d.loc then [] else
  let lo := (List.range d.ndim).foldl (fun a i => a + (if d.stride i < 0 then d.stride i * ((d.ext i : Int) - 1) else 0)) (d.base : Int)
  let hi := (List.range d.ndim).foldl (fun a i => a + (if d.stride i > 0 then d.stride i * ((d.ext i : Int) - 1) else 0)) (d.base : Int)
  let n := (hi - lo).toNat + d.bytesOf (d.ext 0)
  let blocks := ((List.range (d.ndim - 1)).foldl (fun a i => a * d.ext (i + 1)) 1)
  [(lo.toNat, n)] ++ (if d.mx then [(d.sbase, (((d.ext 1 : Int) - 1) * d.sstride).natAbs + (d.ext 0 + 31) / 32)] else [])
    ++ (if d.bm then [(d.sbase, (d.ext 0 * blocks + 7) / 8 * 2)] else [])
/-- Descriptors a command reads operands through (R192): those it only writes are not counted. -/
def readDescs (op : Nat) (c : TileCmd) : List Nat :=
  let a := fun (x : BitVec 10) => x.toNat * 128
  match op with
  | 0x01 | 0x02 | 0x03 => [a c.d0, a c.d1]
  | 0x04 => [a c.d0, a c.d1, a c.d2]
  | 0x06 | 0x20 | 0x23 | 0x24 | 0x25 | 0x28 => [a c.d0]
  | 0x21 | 0x22 => [a c.d0, a c.d2]
  | 0x40 => [a c.d0]
  | 0x41 | 0x42 => [a c.d0, a c.d2]
  | _ => []
/-- The read operands' part of a job's range. -/
def State.operandPart (s : State) (i op : Nat) (c : TileCmd) : List (Nat × Nat) :=
  (readDescs op c).flatMap (fun a =>
    if a + 128 ≤ lsEnd then (match parseDesc (s.descWords i a) with | some d => operandRanges d | none => []) else [])
/-- The ranges of a job at acceptance. -/
def State.jobRanges (s : State) (i op : Nat) (c : TileCmd) : List (Nat × Nat) := descRanges op c ++ s.operandPart i op c

/-- Enters a job in its queue and window; a gang command goes to the arbiter of its die, which enters it for every member (R239). -/
def State.accept (s : State) (j cluster : Nat) (x : Job) : State :=
  let s1 := s.setJob j { x with accepted := true, order := s.jobs.order, ranges := s.jobRanges x.core x.op x.cmd }
  let s2 := { s1 with jobs := { s1.jobs with order := s1.jobs.order + 1 } }
  if x.unentered then (if x.st = .held then s2 else s2.at s2.time (.gangArbiterEntry j))
  else kickJobs (s2.modCluster cluster (fun c => { c with win := c.win ++ cmdEntries j x.cmd }))

/-- `tc.push` and `tc.trypush` (R121): `wait` tells them apart. -/
def pushCmd (s : State) (rd rs1 : XReg) (wait : Bool) : State :=
  let i := s.cur.core
  let k := clusterOf i
  let a := (s.xr rs1).toNat
  -- a waiting push keeps the word of its first cycle
  let held := match s.myCore.ct.wait with | .push w => some w | _ => none
  let w := held.getD (s.cmdWord i a)
  let check := match held with
    | some w => PushCheck.ok (fld w 248 8).toNat (tileFields w)
    | none => pushCheck s i a
  match check with
  | .badOp => ctDone (s.setPush 1) rd 0
  | .badField => ctDone (s.setPush 2) rd 0
  | .ok op c =>
    let q := queueFor op k
    match (if s.noRoom op k c || !s.myTurn q (i % 8) then none else (s.core i).takeRec) with
    | none => if wait then s.modMyCt (fun t => { t with wait := .push w }) else ctDone (s.setPush 3) rd 0
    | some n =>
      let hs := txHolders s i c
      let x := { Job.new i n 0 s.myCore.lid (unitFor op k).2 op c with st := (if hs = [] then .waiting else .held), holders := hs }
      let (s1, j, id) := (s.entryGranted q (i % 8)).newJob i n x
      match s1.job j with
      | some x' => ctDone ((s1.accept j k x').setPush 0) rd id
      | none => s1

/-- Reads the command word at rs1, unless a waiting push holds it or the address is refused, and goes on (R323). -/
def ctCommand (rs1 : XReg) (f : State → Out) (s : State) : Out :=
  let a := (s.xr rs1).toNat
  let held := match s.myCore.ct.wait with | .push _ => true | _ => false
  if held || a % 32 ≠ 0 || a ≥ lsEnd then f s else ctReads s a 32 f

/-- `tc.push`. -/
def execTcPush (rd rs1 : XReg) (s : State) : Out := ctCommand rs1 (fun s => ok (pushCmd s rd rs1 true)) s
/-- `tc.trypush`. -/
def execTcTrypush (rd rs1 : XReg) (s : State) : Out := ctCommand rs1 (fun s => ok (pushCmd s rd rs1 false)) s

/-- `tc.send` with its command word read: local checks, a job id at once, and the command on its way to the target cluster. DESIGN
CHOICE (log 46): of a capability that would lie at or above address 98,304 the model sends sixteen zero bytes. -/
def sendCmd (rd rs1 rs2 : XReg) (s : State) : Out :=
  let i := s.cur.core
  let a := (s.xr rs1).toNat
  let t := (s.xr rs2).toNat
  match (if t ≥ 256 then PushCheck.badField else pushCheck s i a) with
  | .badOp => ok (ctDone (s.setPush 1) rd 0)
  | .badField => ok (ctDone (s.setPush 2) rd 0)
  | .ok op c =>
    match (if s.sentLive i ≥ 16 then none else (s.core i).takeRec) with
    | none => ok (ctDone (s.setPush 3) rd 0)
    | some n => ctReads s (a + 32) 16 (fun s =>
      let hs := txHolders s i c
      let x := { Job.new i n 0 s.myCore.lid t op c with
        st := (if hs = [] then .waiting else .held), holders := hs, sent := true, cap := s.lsGet i (a + 32) 16 }
      let (s1, j, id) := s.newJob i n x
      let s2 := if hs = [] then s1.after (13 + travel (clusterOf i) t) (.sendArrival j) else s1
      ok (ctDone (s2.setPush 0) rd id))
/-- `tc.send` (R122). -/
def execTcSend (rd rs1 rs2 : XReg) (s : State) : Out :=
  if (s.xr rs2).toNat ≥ 256 then sendCmd rd rs1 rs2 s else ctCommand rs1 (sendCmd rd rs1 rs2) s

/-- The launch that holds a cluster. -/
def State.launchAt (s : State) (cluster : Nat) : Option Launch :=
  (s.lau.launches.find? (fun e => (e.2.st = .running || e.2.st = .preempting) && e.2.hasCluster cluster)).map (·.2)
/-- A sent job leaves the line at a cluster's remote port. -/
def State.leavePort (s : State) (k j : Nat) : State := s.modCluster k (fun c => { c with port := c.port.filter (fun x => x ≠ j) })
/-- Whether no sent job for the same queue waits at the port before this one. -/
def State.firstAtPort (s : State) (k j : Nat) (q : Engine × Nat) : Bool :=
  match (s.cluster k).port.find? (fun n => match s.job n with | some y => queueFor y.op k = q | none => false) with
  | some n => n = j
  | none => true

/-- A sent command reaches its target (SEND_ARRIVAL): the capability is checked in the order of R232, a full queue waits (R218). -/
def execSendArrival (s : State) : Out :=
  match s.cur.ev with
  | .sendArrival j =>
    match s.job j with
    | none => ok s
    | some x =>
      if x.st.terminal || x.accepted then ok (s.leavePort x.cluster j) else
      let off := fun (st : JSt) (c : Nat) => ok ((s.leavePort x.cluster j).terminate j st c)
      let body := x.cap.take 8
      let b := leVal body
      let tag := BitVec.ofNat 64 (leVal (x.cap.drop 8))
      if s.lau.deadClusters.contains x.cluster || (match s.launch x.lid with | some l => l.freed.contains x.cluster | none => false) then off .cancelled 0
      else if engineOf x.op = .cle then off .rejected 7
      else
        match s.launchAt x.cluster with
        | none => off .rejected 6
        | some l =>
          let good := capTag (Config.launchKey l.lid) body = tag && decide (bitsOf b 31 0 = l.lid)
            && decide (bitsOf b 63 56 ≤ x.cluster) && decide (x.cluster ≤ bitsOf b 55 48)
            && (match engineOf x.op with | .mxe => bitOf b 40 | _ => bitOf b 41) && (!x.cmd.grp || bitOf b 42)
          let q := queueFor x.op x.cluster
          if !good then off .rejected 6
          else if s.noRoom x.op x.cluster x.cmd || !s.firstAtPort x.cluster j q || !s.myTurn q 8 then
            ok ((s.modCluster x.cluster (fun c => { c with port := if c.port.contains j then c.port else c.port ++ [j] })).after 1
              (.sendArrival j))
          else ok (((s.leavePort x.cluster j).entryGranted q 8).accept j x.cluster x)
  | _ => notEnabled "SEND_ARRIVAL"

/-! ### Completion -/

/-- A job ends at its engine (JOB_TERMINAL): DONE, or FAILED when a code has been set. For a held job that an abort has cancelled, what
waited for it in queue or window goes on (R283). -/
def execJobTerminal (s : State) : Out :=
  match s.cur.ev with
  | .jobTerminal j =>
    match s.job j with
    | some x =>
      if x.st.terminal then ok ((kickJobs s).checkEnd x.lid) else ok (s.terminate j (if x.code = 0 then .done else .failed) x.code)
    | none => ok s
  | _ => notEnabled "JOB_TERMINAL"

/-- The members of a collective's group; without one, its own core. -/
def State.collMembers (s : State) (x : Job) : List Nat :=
  match (if x.cmd.grp then (s.launchOf x.core).bind (fun l => sfind l.groups x.cmd.gid.toNat) else none) with
  | some g => if g.members.contains x.core then g.members else x.core :: g.members
  | none => [x.core]
/-- The issuing core's record shows the terminal state; EV = 1 sets the job event (R227), a collective's at every member (R253). -/
def execJobRecordUpdate (s : State) : Out :=
  match s.cur.ev with
  | .jobRecordUpdate j =>
    match s.job j with
    | none => ok s
    | some x =>
      let s1 := s.modCore x.core (fun k => { k with recs := k.recs.map (fun e =>
        if e.2.job = j then (e.1, { e.2 with shown := some x.status }) else e) })
      let s2 := if !x.cmd.ev then s1 else
        if x.op ≥ 0x40 then (s.collMembers x).foldl (fun s c => s.event c evJob) s1 else s1.event x.core evJob
      ok (s2.pokeCt x.core)
  | _ => notEnabled "JOB_RECORD_UPDATE"

/-- The record of a job id of a core. -/
def State.recOf (s : State) (i : Nat) (id : Word) : Option (Nat × JRec) :=
  let n := id.toNat % 64
  match sfind (s.core i).recs n with
  | some r => if r.job ≠ 0 && decide (id.toNat = r.seq * 64 + n) then some (n, r) else none
  | none => none
/-- A returned terminal status frees the record. -/
def State.freeRec (s : State) (i n : Nat) (r : JRec) : State :=
  { (s.modCore i (fun k => { k with recs := sins n { r with job := 0, shown := none } k.recs })) with
    jobs := { s.jobs with list := sdel r.job s.jobs.list } }

/-- `job.wait` (R124). -/
def execJobWait (rd rs1 : XReg) (s : State) : Out :=
  let i := s.cur.core
  match s.recOf i (s.xr rs1) with
  | none => ok (ctDone s rd 0)
  | some (n, r) =>
    match r.shown with
    | some w => ok (ctDone (s.freeRec i n r) rd w)
    | none => ok (ctRetry s)

/-- `job.poll` (R124): the status as the record shows it. -/
def execJobPoll (rd rs1 : XReg) (s : State) : Out :=
  let i := s.cur.core
  match s.recOf i (s.xr rs1) with
  | none => ok (ctDone s rd 0)
  | some (n, r) =>
    match r.shown with
    | some w => ok (ctDone (s.freeRec i n r) rd w)
    | none =>
      match s.job r.job with
      | some x => ok (ctDone s rd (if x.st.terminal then ({ x with st := .running, code := 0 }).status else x.status))
      | none => ok (ctDone s rd 0)

/-- `tc.mint` (R123): LID and TAG are written; it takes 40 cycles. -/
def execTcMint (rd rs1 : XReg) (s : State) : Out :=
  if s.myCore.ct.priv = .user then illegal s else
  let i := s.cur.core
  let a := (s.xr rs1).toNat
  if a % 16 ≠ 0 || a ≥ lsEnd then ok (ctDone s rd 2) else
  ctReads s a 8 (fun s =>
  let b := s.lsVal i a 8
  if bitsOf b 47 43 ≠ 0 || bitsOf b 39 32 ≠ 0 || bitsOf b 63 56 > bitsOf b 55 48 then ok (ctDone s rd 2)
  else
    let lid := s.myCore.lid
    let body := leBytes 8 (b / 2 ^ 32 * 2 ^ 32 + lid % 2 ^ 32)
    let s1 := s.lsPut i a (body ++ leBytes 8 (capTag (Config.launchKey lid) body).toNat)
    ok (s1.modMyCt (fun t => { t with wait := .until (s.time + 40) rd 0 })))

/-! ### Held commands (R283) -/

/-- A transaction has committed: what waited on it alone becomes WAITING, and a held send leaves. -/
def releaseHeld (s : State) (i c : Nat) : State :=
  kickJobs (s.jobs.list.foldl (fun s e =>
    if e.2.st = .held && e.2.holders.contains (i, c) then
      let hs := e.2.holders.filter (fun h => h ≠ (i, c))
      let s1 := s.setJob e.1 { e.2 with holders := hs, st := if hs = [] then .waiting else .held }
      if hs = [] && e.2.sent && !e.2.accepted then s1.after (13 + travel (clusterOf e.2.core) e.2.cluster) (.sendArrival e.1)
      else if hs = [] && e.2.accepted && e.2.unentered then s1.at s1.time (.gangArbiterEntry e.1)
      else s1
    else s) s)

end Sys2Proof.Machine
end

