-- ==== Sys2Proof/Machine/Tasks.lean ====
section
/-!
DEFINITION. Tasks (R56–R59, R125–R127, R298–R302): deques and their spill queues, pushes, pops, retirement and steals, from
the control thread and from the A-slot.
-/
namespace Sys2Proof

/-- Word 0 of a record. -/
def TaskRec.w0 (t : TaskRec) : Nat := (t.words.getD 0 0).toNat
/-- PIN. -/
def TaskRec.pin (t : TaskRec) : Bool := bitOf t.w0 61

end Sys2Proof

namespace Sys2Proof.Machine

/-! ### Records and deques (R298, R300) -/

/-- Whether word 0 keeps Table 21.3. DEDUCED (log 46): a set reserved bit breaks the table (R299), though R8 has reserved bits
ignored elsewhere. -/
def taskWordOk (w : Word) : Bool :=
  let x := w.toNat
  decide (bitsOf x 60 17 = 0) && decide (bitsOf x 6 0 = 0) && decide (bitsOf x 16 0 < lsEnd)
/-- The eight words at a local-store address. -/
def State.taskWords (s : State) (i a : Nat) : List Word := (List.range 8).map (fun k => BitVec.ofNat 64 (s.lsVal i (a + 8 * k) 8))
/-- Deque PRI of a core, near end first: what the core holds, then what is spilled. -/
def Core.deq (k : Core) (p : Nat) : List TaskRec := sget [] k.deques p ++ sget [] k.spills p
/-- Whether the launch of a core has a spill area. -/
def State.hasSpill (s : State) (i : Nat) : Bool := match s.launchOf i with | some l => l.word 13 ≠ 0 | none => false

/-- The line of a spill queue that holds place `n` (R300). -/
def State.spillVa (s : State) (i p n : Nat) : Nat := s.areaOf i 13 262144 + p * 65536 + n % 1024 * 64
/-- Writes records to their places in a spill queue. -/
def spillOut (s : State) (i p : Nat) (ts : List TaskRec) : State :=
  ts.foldl (fun s t => (areaLine s i (s.spillVa i p t.slot) 64 (some (t.words.flatMap (fun w => leBytes 8 w.toNat)))).1) s
/-- Reads records from their places in a spill queue, one a cycle: the records, and the cycles until the last has come (R25). -/
def spillIn (s : State) (i p : Nat) (ts : List TaskRec) : State × List TaskRec × Nat :=
  ts.foldl (fun (a : State × List TaskRec × Nat) t =>
    let (s1, bs, c) := areaLine a.1 i (a.1.spillVa i p t.slot) 64 none
    (s1, a.2.1 ++ [{ t with words := (chunks 8 8 bs).map (fun b => BitVec.ofNat 64 (leVal b)) }], max a.2.2 (a.2.1.length + c))) (s, [], 0)

/-- Sets what a core and its spill queue hold of a deque. -/
def State.setDeque (s : State) (i p : Nat) (d sp : List TaskRec) : State :=
  s.modCore i (fun k => { k with deques := sput [] k.deques p d, spills := sput [] k.spills p sp })
/-- Places a record at the near end of a deque; 16 records first spill their 8 far-end ones, in order (R300). -/
def State.putNear (s : State) (i p : Nat) (t : TaskRec) : State :=
  let d := sget [] (s.core i).deques p
  let sp := sget [] (s.core i).spills p
  if d.length ≥ 16 && s.hasSpill i && sp.length + 8 ≤ 1024 then
    let keep := d.length - 8
    let next := match sp.head? with | some x => x.slot + 1 | none => 0
    let out := (List.range 8).filterMap (fun k => (d.drop keep)[k]?.map (fun t => { t with slot := (next + 7 - k) % 1024 }))
    spillOut (s.setDeque i p (t :: d.take keep) (out ++ sp)) i p out.reverse
  else s.setDeque i p (t :: d) sp

/-- Takes a record out of deque `p`; a pop that leaves 4 in the core brings 8 spilled records back, and the deque's next operation
waits for their reads (R300). -/
def State.dropTask (s : State) (i : Nat) (pop : Bool) (p : Nat) (t : TaskRec) : State :=
  let d := (sget [] (s.core i).deques p).filter (fun x => x.key ≠ t.key)
  let sp := (sget [] (s.core i).spills p).filter (fun x => x.key ≠ t.key)
  if pop && decide (d.length ≤ 4) && sp ≠ [] then
    let (s1, back, n) := spillIn s i p (sp.take 8)
    (s1.setDeque i p (d ++ back) (sp.drop 8)).modCore i (fun k => { k with refill := sput 0 k.refill p (s.time + n), spillGot := none })
  else s.setDeque i p d sp

/-- The cycle in which the owner's pop of a record is served: a spilled one is read first, and an operation waits for the records that
come back to its deque (R300). -/
def spillGate (s : State) (i p : Nat) (t : TaskRec) : State × Nat :=
  let k := s.core i
  let sp := sget [] k.spills p
  if !sp.any (fun x => x.key = t.key) then (s, sget 0 k.refill p) else
  match (if (k.spillGot.map (·.1)) = some t.key then k.spillGot else none) with
  | some (_, d) => (s, d)
  | none =>
    let (s1, back, n) := spillIn s i p [t]
    ((s1.setDeque i p (sget [] k.deques p) (sp.map (fun x => if x.key = t.key then back.headD x else x))).modCore i
      (fun k => { k with spillGot := some (t.key, s.time + n) }), s.time + n)

/-- Contexts that wait to push on deque `p` of core `i` try again from their next own slot (R125). -/
def wakePush (s : State) (i p : Nat) : State :=
  s.modCore i (fun k => { k with ctxs := k.ctxs.map (fun c =>
    match c.2.wait with
    | .taskPush q => if q = p then (c.1, { c.2 with readyAt := min c.2.readyAt (s.time + 1) }) else c
    | _ => c) })

/-! ### Push (R125, R299, R300) -/

/-- Pushes a record on core `i`; none: no room. -/
def pushTask (s : State) (i : Nat) (words : List Word) : Option State :=
  let p := bitsOf (words.getD 0 0).toNat 63 62
  let c := clusterOf i
  let key := s.jobs.nextKey
  let es := rangeEntries false key (words.drop 4)
  let k := s.core i
  let full := decide ((sget [] k.deques p).length ≥ 16) && (!s.hasSpill i || decide ((sget [] k.spills p).length + 8 > 1024))
  if full || decide ((s.cluster c).win.length + es.length > 64) then none else
  let t : TaskRec := { words := words, owner := i, key := key }
  let s1 := (s.putNear i p t).modCluster c (fun x => { x with win := x.win ++ es })
  let s2 := { s1 with jobs := { s1.jobs with nextKey := key + 1 } }
  some (if s2.taskReady t then (s2.event i evTask).poke i else s2)

/-- Whether the control thread of a coupled pair's odd core acts (R329). -/
def State.oddCt (s : State) : Bool := s.myCore.pair.on && s.myCore.pair.odd

/-- `task.push rd, rs1`. -/
def execTaskPush (rd rs1 : XReg) (s : State) : Out :=
  let i := s.cur.core
  let a := (s.xr rs1).toNat
  if s.oddCt then ok (ctDone s rd 1)
  else if a % 64 ≠ 0 || a ≥ lsEnd then ok (ctDone s rd 2)
  else ctReads s a 64 (fun s =>
    let ws := s.taskWords i a
    if !taskWordOk (ws.getD 0 0) then ok (ctDone s rd 2)
    else match pushTask s i ws with
      | some s1 => ok (ctDone s1 rd 0)
      | none => ok (ctDone s rd 4))

/-- `task.push sa` in the A-slot: a full window or deque holds the bundle until it is tried again (R125). -/
def execTaskPushA (sa : SReg) (s : State) : Out :=
  let i := s.cur.core
  let a := s.aS sa
  match lsFault a 64 with
  | some c => ok (aFault s c 0)
  | none =>
    if s.me.txn.isSome then ok (abortMe s 5 0 0) else
    lsRead s a.toNat 64 (fun s _ =>
    let ws := s.taskWords i a.toNat
    if !taskWordOk (ws.getD 0 0) then illctx s
    else if s.time < sget 0 s.myCore.refill (bitsOf (ws.getD 0 0).toNat 63 62) then ok (holdBundle s .waitMem .range)
    else match pushTask s i ws with
      | some s1 => ok s1
      | none =>
        ok ((holdBundle s .waitQ (.taskPush (bitsOf (ws.getD 0 0).toNat 63 62))).modMe (fun x => { x with readyAt := 2 ^ 64 })))

/-- A waiting push is tried in the context's own slot (TASK_PUSH_RETRY): the bundle issues again in this slot. -/
def execTaskPushRetry (s : State) : Out :=
  match s.cur.ev with
  | .taskPushRetry i c =>
    match (s.cx i c).wait with
    | .taskPush _ =>
      let s1 := s.modCx i c (fun x => { x with wait := .none, readyAt := s.time })
      ok { s1 with todo := .cx i c :: s1.todo }
    | _ => ok s
  | _ => notEnabled "TASK_PUSH_RETRY"

/-! ### Pop and steal (R126, R300, R302) -/

/-- The record the owner's pop takes: the highest deque with a ready record, the one nearest its near end. -/
def State.popChoice (s : State) (i : Nat) : Option (Nat × TaskRec) :=
  [3, 2, 1, 0].findSome? (fun p => ((s.core i).deq p).find? s.taskReady |>.map (fun t => (p, t)))
/-- The record a steal takes: the highest deque with a ready unpinned record, the one nearest its far end. -/
def State.stealChoice (s : State) (i : Nat) : Option (Nat × TaskRec) :=
  [3, 2, 1, 0].findSome? (fun p => ((s.core i).deq p).reverse.find? (fun t => s.taskReady t && !t.pin) |>.map (fun t => (p, t)))

/-- Removes a chosen record from a core's deques. -/
def State.removeTask (s : State) (i : Nat) (pop : Bool) (p : Nat) (t : TaskRec) : State :=
  wakePush (s.dropTask i pop p t) i p

/-- The cores a core may steal from, in the order they are tried (R302). -/
def State.victims (s : State) (i : Nat) : List Nat :=
  match s.launchOf i with
  | none => []
  | some l =>
    let near := fun (c : Nat) => match bitsOf (l.word 0) 19 18 with
      | 1 => decide (clusterOf c = clusterOf i)
      | 2 => decide (dieOf c = dieOf i)
      | 3 => true
      | _ => false
    let all := l.cores.filter (fun c => c ≠ i && near c)
    all.filter (fun c => decide (i < c)) ++ all.filter (fun c => decide (c < i))

/-- Whether someone waits in a pop on a core. -/
def Core.popWaits (k : Core) (ctPops : Bool) : Bool :=
  ctPops || k.ctxs.any (fun c => c.2.waiting && (match c.2.wait with | .taskPop => true | _ => false))
/-- Whether the control thread of a core waits in `task.pop`. -/
def State.ctPops (s : State) (i : Nat) : Bool :=
  let t := (s.core i).ct
  t.wait = .retry && (match decodeCt t.ir with | some (.taskPop _ _) => true | _ => false)
/-- Whether a core is idle (R302). -/
def State.idle (s : State) (i : Nat) : Bool := (s.core i).popWaits (s.ctPops i) && (s.popChoice i).isNone

/-- Sends the try number `n` of a steal pass; past the last victim a new pass follows 256 cycles later. -/
def stealNext (s : State) (i n : Nat) : State :=
  match (s.victims i)[n]? with
  | some v => (s.modCore i (fun k => { k with steal := some n })).after (10 + travel (clusterOf i) (clusterOf v)) (.stealTry i v)
  | none => (s.modCore i (fun k => { k with steal := some n })).after 256 (.stealPassRetry i)

/-- A core that has become idle begins a steal pass. -/
def startSteal (s : State) (i : Nat) : State :=
  if (s.core i).steal.isSome || s.victims i = [] then s else stealNext s i 0

/-- A pass that waits for its next beginning ends when a record is found at home. -/
def endPassWait (s : State) (i : Nat) : State :=
  match (s.core i).steal with
  | some n =>
    if n < (s.victims i).length then s
    else (s.modCore i (fun k => { k with steal := none })).cancel (fun e => e = .stealPassRetry i)
  | none => s

/-- The control thread takes a record into its local store. -/
def ctTakes (s : State) (rd rs1 : XReg) (wait : Bool) : State :=
  let i := s.cur.core
  let a := (s.xr rs1).toNat
  if s.oddCt then ctDone s rd 1
  else if a % 64 ≠ 0 || a ≥ lsEnd then ctDone s rd 2
  else if s.myCore.ct.task.isSome then ctDone s rd 1
  else match s.popChoice i with
    | none => if wait then startSteal (ctRetry s) i else ctDone s rd 3
    | some (p, t) =>
      let (s0, d) := spillGate s i p t
      if wait && (s.lsHeld i a 64 || decide (s.time < d)) then ctRetry s0 else
      let s1 := endPassWait (s0.removeTask i true p t) i
      ctDone ((s1.lsPut i a (t.words.flatMap (fun w => leBytes 8 w.toNat))).modMyCt (fun c => { c with task := some t })) rd 0

/-- `task.pop rd, rs1`. -/
def execTaskPop (rd rs1 : XReg) (s : State) : Out := ok (ctTakes s rd rs1 true)
/-- `task.trypop rd, rs1`. -/
def execTaskTrypop (rd rs1 : XReg) (s : State) : Out := ok (ctTakes s rd rs1 false)

/-- The context takes a record into s8–s15. -/
def cxTakes (s : State) (p : Nat) (t : TaskRec) : State :=
  let s1 := endPassWait (s.removeTask s.cur.core true p t) s.cur.core
  (List.range 8).foldl (fun s k => s.setS (BitVec.ofNat 4 (8 + k)) (t.words.getD k 0))
    (s1.modMe (fun x => { x with task := some t }))

/-- `task.pop` in the A-slot. -/
def execTaskPopA (s : State) : Out :=
  if s.me.txn.isSome then ok (abortMe s 5 0 0)
  else if s.me.task.isSome || s.me.handler.isSome then illctx s
  else match s.popChoice s.cur.core with
    | some (p, t) =>
      let (s1, d) := spillGate s s.cur.core p t
      ok (if s.time < d then holdBundle s1 .waitQ .taskPop else cxTakes s1 p t)
    | none => ok (startSteal (holdBundle s .waitQ .taskPop) s.cur.core)

/-- `task.trypop sd` in the A-slot: the status is written after the record. -/
def execTaskTrypopA (sd : SReg) (s : State) : Out :=
  if s.me.txn.isSome then ok (abortMe s 5 0 0)
  else if s.me.task.isSome then illctx s
  else match s.popChoice s.cur.core with
    | some (p, t) =>
      let (s1, d) := spillGate s s.cur.core p t
      ok (if s.time < d then holdBundle s1 .waitMem .range else (cxTakes s1 p t).setS sd 1)
    | none => ok (s.setS sd 0)

/-- A steal reaches its victim (STEAL_TRY): its record goes on its way, or word that there is none. -/
def execStealTry (s : State) : Out :=
  match s.cur.ev with
  | .stealTry thief v =>
    let back := 10 + travel (clusterOf thief) (clusterOf v)
    if s.lau.deadClusters.contains (clusterOf v) || !s.sameLaunch thief v then ok (s.after back (.stealReply thief v none)) else
    match s.stealChoice v with
    | some (p, t) =>
      -- a record taken from a spill queue adds its read time
      let (s1, d) := spillGate s v p t
      let t' := ((sget [] (s1.core v).spills p).find? (fun x => x.key = t.key)).getD t
      ok ((s1.removeTask v false p t').after (back + (d - s.time)) (.stealReply thief v (some t')))
    | none => ok (s.after back (.stealReply thief v none))
  | _ => notEnabled "STEAL_TRY"

/-- The reply of a try (STEAL_REPLY): a record goes to the waiter, which pops it in this cycle, or, when none waits any more, to the
near end of the thief's deque; else the pass goes on while the core is idle. -/
def execStealReply (s : State) : Out :=
  match s.cur.ev with
  | .stealReply i _ r =>
    match r with
    | some t =>
      let p := bitsOf t.w0 63 62
      let s0 := s.modCore i (fun k => { k with steal := none })
      if s.idle i then
        ok ((s0.setDeque i p (t :: sget [] (s.core i).deques p) (sget [] (s.core i).spills p)).poke i)
      else ok (((s0.putNear i p t).event i evTask).poke i)
    | none =>
      match (s.core i).steal with
      | some n => ok (if s.idle i then stealNext s i (n + 1) else s.modCore i (fun k => { k with steal := none }))
      | none => ok s
  | _ => notEnabled "STEAL_REPLY"

/-- A new pass begins while the core is still idle (STEAL_PASS_RETRY). -/
def execStealPassRetry (s : State) : Out :=
  match s.cur.ev with
  | .stealPassRetry i =>
    let s1 := s.modCore i (fun k => { k with steal := none })
    ok (if s1.idle i then startSteal s1 i else s1)
  | _ => notEnabled "STEAL_PASS_RETRY"

/-! ### Retirement (R58, R127) -/

/-- A party's task is done: it retires once the stores issued before are performed. -/
def retire (s : State) (t : TaskRec) (w : Who) : State :=
  s.at s.time (.taskRetire (clusterOf t.owner) w.agent t.key s.nextReq)

/-- `task.done rd`. -/
def execTaskDone (rd : XReg) (s : State) : Out :=
  if s.oddCt then ok (ctDone s rd 1) else
  match s.myCore.ct.task with
  | some t => ok (ctDone (retire (s.modMyCt (fun c => { c with task := none })) t (.ct s.cur.core)) rd 0)
  | none => ok (ctDone s rd 1)

/-- `task.done` in the A-slot. -/
def execTaskDoneA (s : State) : Out :=
  if s.me.txn.isSome then ok (abortMe s 5 0 0) else
  match s.me.task with
  | some t => ok (retire (s.modMe (fun x => { x with task := none })) t (.cx s.cur.core s.cur.ctx))
  | none => illctx s

/-- The entries of a finished task leave the window when the stores before its `task.done` are performed (TASK_RETIRE). -/
def execTaskRetire (s : State) : Out :=
  match s.cur.ev with
  | .taskRetire c agent key upto =>
    if s.reqs.any (fun e => decide (e.1 < upto) && e.2.who.agent = agent && e.2.op.writes && e.2.st ≠ .done) then
      ok (s.after 1 (.taskRetire c agent key upto))
    else ok (kickWindows s (s.modCluster c (fun x => { x with win := x.win.filter (fun w => w.isJob || w.key ≠ key) })))
  | _ => notEnabled "TASK_RETIRE"

end Sys2Proof.Machine
end

