-- ==== Sys2Proof/Machine/Sync.lean ====
section
/-!
DEFINITION. Mailboxes (R128, R129) and barriers, local and of groups (R50–R55, R130, R131).
-/
namespace Sys2Proof.Machine

/-! ### Mailbox -/

/-- `mbx.send` (R128). -/
def execMbxSend (rd rs1 rs2 : XReg) (s : State) : Out :=
  let i := s.cur.core
  let t := (s.xr rs1).toNat
  if !s.sameLaunch i t then ok (ctDone s rd 2)
  else if s.myCore.flying ≥ 4 then ok (ctDone s rd 4)
  else
    let s1 := s.modCore i (fun k => { k with flying := k.flying + 1 })
    ok (ctDone (s1.after (13 + travel (clusterOf i) (clusterOf t)) (.mbxAccept i t (s.xr rs2) s.time)) rd 0)

/-- Whether a message that a sender sent to the same destination before cycle `sent`, or before this one in that cycle, is still
refused (R128). -/
def State.resending (s : State) (src dst sent : Nat) : Bool :=
  s.agenda.any (fun e => match e.2 with
    | .mbxResend a b _ n => a = src && b = dst && (decide (n < sent) || (decide (n = sent) && decide (e.1 > s.time)))
    | _ => false)

/-- A message is accepted, dropped with its launch, or refused and sent again after 64 cycles. -/
def deliver (s : State) (src dst : Nat) (msg : Word) (sent : Nat) : State :=
  let free := fun (s : State) => if src < Config.nCores then s.modCore src (fun k => { k with flying := k.flying - 1 }) else s
  if (s.core dst).lid = 0 || s.lau.deadClusters.contains (clusterOf dst) then free s
  else if (s.core dst).mbx.length ≥ 8 || s.resending src dst sent then s.after 64 (.mbxResend src dst msg sent)
  else ((free s).modCore dst (fun k => { k with mbx := k.mbx ++ [(src, msg)] })).pokeCt dst

/-- A message reaches a mailbox (MBX_ACCEPT). -/
def execMbxAccept (s : State) : Out :=
  match s.cur.ev with
  | .mbxAccept src dst msg sent => ok (deliver s src dst msg sent)
  | _ => notEnabled "MBX_ACCEPT"

/-- A refused message is sent again (MBX_RESEND). -/
def execMbxResend (s : State) : Out :=
  match s.cur.ev with
  | .mbxResend src dst msg sent => ok (deliver s src dst msg sent)
  | _ => notEnabled "MBX_RESEND"

/-- `mbx.recv` (R129). -/
def execMbxRecv (rd : XReg) (s : State) : Out :=
  match s.myCore.mbx with
  | [] => ok (ctRetry s)
  | m :: ms => ok (ctDone (s.modCore s.cur.core (fun k => { k with mbx := ms })) rd m.2)

/-- `mbx.tryrecv` (R129). -/
def execMbxTryrecv (rd rs1 : XReg) (s : State) : Out :=
  let i := s.cur.core
  let a := (s.xr rs1).toNat
  if a % 16 ≠ 0 || a ≥ lsEnd then ok (ctDone s rd 2) else
  match s.myCore.mbx with
  | [] => ok (ctDone s rd 3)
  | m :: ms =>
    ok (ctDone ((s.modCore i (fun k => { k with mbx := ms })).lsPut i a (leBytes 8 m.2.toNat ++ leBytes 8 m.1)) rd 0)

/-! ### Barriers -/

/-- Barrier `b` of a core. -/
def Core.bar (k : Core) (b : Nat) : Bar := (sfind k.bars b).getD Bar.init
/-- Sets a barrier. -/
def State.setBar (s : State) (i b : Nat) (x : Bar) : State := s.modCore i (fun k => { k with bars := sins b x k.bars })
/-- Group `g` of the launch of a core, if valid. -/
def State.groupOf (s : State) (i g : Nat) : Option Group :=
  match (s.launchOf i).bind (fun l => sfind l.groups g) with
  | some x => if x.valid then some x else none
  | none => none
/-- Whether phase `p` has been released: phase numbers are 32-bit counts. -/
def Bar.isReleased (x : Bar) (p : BitVec 32) : Bool := decide ((x.released - p - 1).toNat < 2 ^ 31)
/-- Whether R55 allows a change: nothing arrived, no phase awaiting release. -/
def Bar.quiet (x : Bar) : Bool := x.arrived = 0 && x.released = x.phase

/-- `bar.init` (R130, R55). -/
def execBarInit (rd rs1 rs2 : XReg) (s : State) : Out :=
  let i := s.cur.core
  let b := (s.xr rs1).toNat
  let e := (s.xr rs2).toNat
  if b > 47 || e = 0 || e > 17 then ok (ctDone s rd 2)
  else if !(s.myCore.bar b).quiet then ok (ctDone s rd 1)
  else ok (ctDone (s.setBar i b { s.myCore.bar b with expect := e }) rd 0)

/-- `bar.bind` (R130, R55). -/
def execBarBind (rd rs1 rs2 : XReg) (s : State) : Out :=
  let i := s.cur.core
  let b := (s.xr rs1).toNat
  let g := s.xr rs2
  let member := match s.groupOf i g.toNat with | some x => x.members.contains i | none => false
  if b > 47 || (g ≠ BitVec.allOnes 64 && !member) then ok (ctDone s rd 2)
  else if !(s.myCore.bar b).quiet then ok (ctDone s rd 1)
  else if g = BitVec.allOnes 64 then ok (ctDone (s.setBar i b { s.myCore.bar b with group := none }) rd 0)
  else if s.myCore.bars.any (fun e => e.1 ≠ b && e.2.group = some g.toNat) then ok (ctDone s rd 1)
  else ok (ctDone (s.setBar i b { s.myCore.bar b with group := some g.toNat }) rd 0)

/-- An arrival at barrier `b` of core `i`: the closing one starts the release, or goes to the root of the bound group. -/
def arrive (s : State) (i b : Nat) : State :=
  let x := (s.core i).bar b
  if x.arrived + 1 < x.expect then s.setBar i b { x with arrived := x.arrived + 1 }
  else
    let s1 := s.setBar i b { x with arrived := 0, phase := x.phase + 1 }
    match x.group with
    | none => s1.after 3 (.barrierRelease i b)
    | some g =>
      match s.groupOf i g with
      | some gr => s1.after (2 * groupH (clusterOf i) (clusterOf gr.root)) (.groupArrival (s.core i).lid g i)
      | none => s1

/-- The oldest closed phase of a barrier is released: BAR is set and waiters go on. -/
def releasePhase (s : State) (i b : Nat) : State :=
  ((s.setBar i b { (s.core i).bar b with released := ((s.core i).bar b).released + 1 }).event i evBar).poke i

/-- BARRIER_RELEASE. -/
def execBarrierRelease (s : State) : Out :=
  match s.cur.ev with
  | .barrierRelease i b => ok (releasePhase s i b)
  | _ => notEnabled "BARRIER_RELEASE"

/-- Place of a member of a group in its root's count of arrivals. -/
def rootKey (g m : Nat) : Nat := g * 4096 + m
/-- An arrival reaches the root of its group: once every member has one, each counts down by one and every member is released
(GROUP_ARRIVAL). A group with a member whose core has been snuffed or released never releases again (R327). -/
def execGroupArrival (s : State) : Out :=
  match s.cur.ev with
  | .groupArrival lid g core =>
    match (s.launch lid).bind (fun l => sfind l.groups g) with
    | none => ok s
    | some gr =>
      if gr.members.any (fun m => s.lau.deadClusters.contains (clusterOf m) || (s.core m).lid ≠ lid) then ok s else
      let s1 := s.modCore gr.root (fun k => { k with roots := sput 0 k.roots (rootKey g core) (sget 0 k.roots (rootKey g core) + 1) })
      let roots := (s1.core gr.root).roots
      if gr.members.any (fun m => sget 0 roots (rootKey g m) = 0) then ok s1
      else
        let s2 := s1.modCore gr.root (fun k => { k with
          roots := gr.members.foldl (fun r m => sput 0 r (rootKey g m) (sget 0 r (rootKey g m) - 1)) k.roots })
        ok (gr.members.foldl (fun s m => s.after (10 + 2 * groupH (clusterOf m) (clusterOf gr.root)) (.groupRelease lid g m)) s2)
  | _ => notEnabled "GROUP_ARRIVAL"

/-- A member's barrier bound to the group releases (GROUP_RELEASE). -/
def execGroupRelease (s : State) : Out :=
  match s.cur.ev with
  | .groupRelease lid g m =>
    if (s.core m).lid ≠ lid then ok s else
    match (s.core m).bars.find? (fun e => e.2.group = some g) with
    | some (b, _) => ok (releasePhase s m b)
    | none => ok s
  | _ => notEnabled "GROUP_RELEASE"

/-- `bar.arrive rd, rs1` (R131). -/
def execBarArrive (rd rs1 : XReg) (s : State) : Out :=
  let i := s.cur.core
  let b := (s.xr rs1).toNat
  if b > 47 || (s.myCore.bar b).expect = 0 then ok (ctDone s rd (BitVec.allOnes 64)) else
  let p := (s.myCore.bar b).phase
  ok (ctDone ((arrive s i b).modMyCt (fun t => { t with joined := sins b p t.joined })) rd (zx p))

/-- `bar.wait rd, rs1` (R53, R131): a thread that has not arrived waits for the present phase. -/
def execBarWait (rd rs1 : XReg) (s : State) : Out :=
  let b := (s.xr rs1).toNat
  if b > 47 then ok (ctDone s rd 2) else
  let x := s.myCore.bar b
  let p := (sfind s.myCore.ct.joined b).getD x.phase
  if x.isReleased p then ok (ctDone (s.modMyCt (fun t => { t with joined := sdel b t.joined })) rd 0)
  else ok (ctRetry (s.modMyCt (fun t => { t with joined := sins b p t.joined })))

/-- `bar.test rd, rs1` (R131). -/
def execBarTest (rd rs1 : XReg) (s : State) : Out :=
  let b := (s.xr rs1).toNat
  if b > 47 then ok (ctDone s rd 2) else
  let x := s.myCore.bar b
  let p := (sfind s.myCore.ct.joined b).getD x.phase
  ok (ctDone s rd (if x.isReleased p then 1 else 0))

/-- `bar.arrive bN` (R131). -/
def execBarArriveA (b : BitVec 6) (s : State) : Out :=
  let x := s.myCore.bar b.toNat
  if x.expect = 0 then illctx s else
  ok ((arrive s s.cur.core b.toNat).modMe (fun c => { c with joined := sins b.toNat x.phase c.joined }))

/-- `bar.wait bN` (R53, R131); a retried wait keeps the phase it waits for. -/
def execBarWaitA (b : BitVec 6) (s : State) : Out :=
  if s.me.handler.isSome then illctx s else
  let x := s.myCore.bar b.toNat
  let p := match sfind s.me.joined b.toNat, s.me.wait with
    | some p, _ => p
    | none, .bar k p => if k = b.toNat then p else x.phase
    | none, _ => x.phase
  if x.isReleased p then ok (s.modMe (fun c => { c with joined := sdel b.toNat c.joined }))
  else ok (holdBundle s .waitBar (.bar b.toNat p))

end Sys2Proof.Machine
end

