-- ==== Sys2Proof/Machine/Csr.lean ====
section
/-!
DEFINITION. CSRs of the control thread: the standard machine-mode set (R107; the fields the standards leave open: log 8), the
device CSRs of Table 5.2 (R62, R63, R304, R313, R314, R321, R328, R360, R363), and the thread-count mode (R40, R116).
-/
namespace Sys2Proof.Machine

/-! ### Thread-count mode (R40, R116) -/

/-- Cores a context-control instruction of core `i` acts on: both of a coupled pair (R329). -/
def State.twins (s : State) (i : Nat) : List Nat := if (s.core i).pair.on then [i, i ^^^ 1] else [i]

/-- Whether a core is quiescent (R40). -/
def State.quiescent (s : State) (i : Nat) : Bool :=
  let k := s.core i
  k.ctxs.all (fun c => c.2.st = .empty || c.2.st = .stopped)
  && !(s.reqs.any (fun e => match e.2.who with | .cx c _ => c = i && e.2.live && !e.2.atDv | _ => false))
  && k.tcc = [] && (List.range 8).all (fun n => (k.q n).src = 0)

/-- Sets the mode: the register file is zeroed and every context takes the state of Table 3.1. -/
def Core.remode (k : Core) (m : BitVec 2) : Core := { k with mode := m, v := [], vBad := [], ctxs := [] }

/-- Changes the mode if the core, and its twin, are quiescent. -/
def setMode (s : State) (i : Nat) (m : BitVec 2) : Option State :=
  if (s.twins i).all s.quiescent then some ((s.twins i).foldl (fun s c => s.modCore c (fun k => k.remode m)) s) else none

/-! ### Values -/

/-- Codes of the privilege modes in MPP. -/
def Priv.code : Priv → Nat
  | .machine => 3
  | .user => 0
/-- `mstatus`: MIE, MPIE, MPP, MPRV and UXL; every other field reads zero (log 8). -/
def Ct.mstatus (t : Ct) : Word :=
  BitVec.ofNat 64 (b2n t.mie * 8 + b2n t.mpie * 128 + t.mpp.code * 2 ^ 11 + b2n t.mprv * 2 ^ 17 + 2 * 2 ^ 32)
/-- `PAIRCTL` (Table 23.7). -/
def Pair.ctl (p : Pair) : Word :=
  BitVec.ofNat 64 (p.ckpt.toNat * 2 ^ 32 + p.mism.toNat * 256 + b2n p.rb * 4 + b2n p.odd * 2 + b2n p.on)
/-- A trigger as TRIGCTL shows it. -/
def Core.trig (k : Core) (n : Nat) : Word := sget 0 k.trigs n

/-- Device CSRs (Table 5.2). -/
def devCsr (n : Nat) : Bool := (0x7C0 ≤ n && n ≤ 0x7C6) || (0x800 ≤ n && n ≤ 0x805) || (0x808 ≤ n && n ≤ 0x80F)
/-- Standard CSRs the thread has. -/
def stdCsr (n : Nat) : Bool :=
  [0x300, 0x301, 0x304, 0x305, 0x306, 0x30A, 0x320, 0x340, 0x341, 0x342, 0x343, 0x344, 0xB00, 0xB02].contains n
  || (0x323 ≤ n && n ≤ 0x33F) || (0xB03 ≤ n && n ≤ 0xB1F) || (0xC00 ≤ n && n ≤ 0xC1F) || (0xF11 ≤ n && n ≤ 0xF15)
/-- Read-only CSRs. -/
def roCsr (n : Nat) : Bool := n = 0x7C4 || n = 0x800 || n = 0x801 || n = 0x805 || 0xC00 ≤ n
/-- Whether the mode may access a CSR: machine CSRs and the 0x7C0 range only in machine mode, user counters as mcounteren says. -/
def Ct.mayAccess (t : Ct) (n : Nat) : Bool :=
  match t.priv with
  | .machine => true
  | .user => if n / 256 % 4 = 3 || (0x7C0 ≤ n && n ≤ 0x7FF) then false
             else if 0xC00 ≤ n && n ≤ 0xC1F then decide (n < 0xC03) && bitOf t.mcounteren.toNat (n - 0xC00) else true

/-- Value of a CSR but for what a read changes. -/
def csrRead (s : State) (n : Nat) : Word :=
  let k := s.myCore
  let t := k.ct
  match n with
  | 0x300 => t.mstatus
  | 0x301 => 0x8000000000101101
  | 0x305 => t.mtvec
  | 0x306 => zx t.mcounteren
  | 0x340 => t.mscratch
  | 0x341 => t.mepc
  | 0x342 => t.mcause
  | 0x343 => t.mtval
  | 0xB00 | 0xC00 | 0xC01 => s.tick64
  | 0xB02 | 0xC02 => t.minstret
  | 0xF14 => BitVec.ofNat 64 s.cur.core
  | 0x7C0 => BitVec.ofNat 64 k.bound
  | 0x7C1 => k.ovlvec
  | 0x7C2 => zx k.mode
  | 0x7C3 => k.sevpol
  | 0x7C4 => k.pair.ctl
  | 0x7C5 => k.glimctl
  | 0x7C6 => if k.trig k.trigIdx.toNat = 0 then BitVec.ofNat 64 (k.trigIdx.toNat * 2 ^ 60) else k.trig k.trigIdx.toNat
  | 0x800 => s.mtstat s.cur.core
  | 0x801 => k.faultq.headD 0
  | 0x802 => k.timecmp
  | 0x803 => k.evmask
  | 0x804 => k.events
  | 0x805 => s.jobstat s.cur.core
  | n => if 0x808 ≤ n && n ≤ 0x80F then (k.q (n - 0x808)).qcfg else 0

/-! ### Writes -/

/-- A write to a CSR that has no behaviour of its own stores the value in the fields it has; none: not such a CSR. -/
def plainCsr (s : State) (n : Nat) (v : Word) : Option State :=
  match n with
  | 0x300 => some (s.modMyCt (fun t => { t with
      mie := bitOf v.toNat 3, mpie := bitOf v.toNat 7
      mpp := match bitsOf v.toNat 12 11 with | 3 => .machine | 0 => .user | _ => t.mpp
      mprv := bitOf v.toNat 17 }))
  | 0x305 => some (s.modMyCt (fun t => { t with mtvec := v &&& ~~~3 }))
  | 0x306 => some (s.modMyCt (fun t => { t with mcounteren := v.setWidth 3 }))
  | 0x340 => some (s.modMyCt (fun t => { t with mscratch := v }))
  | 0x341 => some (s.modMyCt (fun t => { t with mepc := v &&& ~~~3 }))
  | 0x342 => some (s.modMyCt (fun t => { t with mcause := v }))
  | 0x343 => some (s.modMyCt (fun t => { t with mtval := v }))
  | 0xB02 => some (s.modMyCt (fun t => { t with minstret := v }))
  | 0x7C0 => some (s.modCore s.cur.core (fun k => { k with xbound := BitVec.ofNat 10 (min (bitsOf v.toNat 16 7) 768) }))
  | 0x7C1 => some (s.modCore s.cur.core (fun k => { k with ovlvec := v &&& 0x800000000001FF80 }))
  | 0x7C3 => some (s.modCore s.cur.core (fun k => { k with sevpol := v &&& 0x3FF }))
  | 0x7C5 => some (s.modCore s.cur.core (fun k => { k with glimctl := v &&& 1 }))
  | 0x803 => some (s.modCore s.cur.core (fun k => { k with evmask := v &&& 0xFF7F }))
  | n => if stdCsr n && !roCsr n then some s else none

/-- CSR_WRITE. -/
def execCsrWrite (csr : BitVec 12) (v : Word) (s : State) : Out :=
  match plainCsr s csr.toNat v with
  | some s1 => ok s1
  | none => notEnabled "CSR_WRITE"

/-- A write of CTXMODE (R63, R116): a refused one changes nothing. -/
def modeWrite (s : State) (v : Word) : State := (setMode s s.cur.core (v.setWidth 2)).getD s
/-- CTXMODE_WRITE. -/
def execCtxmodeWrite (v : Word) (s : State) : Out := ok (modeWrite s v)

/-- A write of TIMECMP: TIMER is set when TIME equals it, or in the next cycle when it is not above TIME (R314). -/
def timerWrite (s : State) (v : Word) : State :=
  let i := s.cur.core
  let s1 := (s.modCore i (fun k => { k with timecmp := v })).cancel (fun e => e = .timerMatch i)
  s1.at (if v.toNat > s.time then v.toNat else s.time + 1) (.timerMatch i)
/-- TIMECMP_WRITE. -/
def execTimecmpWrite (v : Word) (s : State) : Out := ok (timerWrite s v)

/-- TIMER is set (TIMER_MATCH). -/
def execTimerMatch (s : State) : Out :=
  match s.cur.ev with
  | .timerMatch i => ok (s.event i evTimer)
  | _ => notEnabled "TIMER_MATCH"

/-- A write of EVPEND clears the edge bits written 1 (R313). -/
def evpendClear (s : State) (v : Word) : State :=
  s.modCore s.cur.core (fun k => { k with evpend := k.evpend &&& ~~~(v &&& 0xFF7C) })
/-- EVPEND_WRITE. -/
def execEvpendWrite (v : Word) (s : State) : Out := ok (evpendClear s v)

/-- A read of MTFAULT takes the oldest entry (R304). -/
def mtfaultTake (s : State) : Word × State :=
  (s.myCore.faultq.headD 0, s.modCore s.cur.core (fun k => { k with faultq := k.faultq.tail }))
/-- MTFAULT_READ: the entry goes to rd. -/
def execMtfaultRead (rd : XReg) (s : State) : Out :=
  let (w, s1) := mtfaultTake s
  ok (s1.modMyCt (fun t => t.wx rd w))

/-- A write of TRIGCTL: trigger IDX takes the word, a reserved ACT becomes 0 (R360). -/
def trigWrite (s : State) (v : Word) : State :=
  let v' := if bitsOf v.toNat 59 57 ≥ 6 then v &&& 0xF1FFFFFFFFFFFFFF else v
  let n := bitsOf v.toNat 63 60
  s.modCore s.cur.core (fun k => { k with trigs := sput 0 k.trigs n v', trigIdx := BitVec.ofNat 4 n })
/-- TRIGCTL_WRITE. -/
def execTrigctlWrite (v : Word) (s : State) : Out := ok (trigWrite s v)

/-- The state an outcome leads to, else the present one. -/
def outOr (o : Out) (s : State) : State := match o with | .next s' => s' | _ => s

/-- A write of any CSR the thread has. -/
def csrStore (s : State) (n : Nat) (v : Word) : State :=
  match plainCsr s n v with
  | some s1 => s1
  | none =>
    match n with
    | 0x7C2 => modeWrite s v
    | 0x7C6 => trigWrite s v
    | 0x802 => timerWrite s v
    | 0x804 => evpendClear s v
    | n =>
      if 0x808 ≤ n && n ≤ 0x80F then
        let q := BitVec.ofNat 3 (n - 0x808)
        outOr (if bitOf v.toNat 63 then execQcfgGo q v s else execQcfgStop q v s) s
      else s

/-- CSR instructions (R62, R107). A set or clear form with source x0 or immediate 0 only reads. -/
def execRvCsrAccess (op : CsrOp) (immForm : Bool) (csr : BitVec 12) (rd src : XReg) (s : State) : Out :=
  let n := csr.toNat
  let x : Word := if immForm then zx src else s.xr src
  let writes := op = .rw || src ≠ 0
  if !(devCsr n || stdCsr n) || !s.myCore.ct.mayAccess n || (writes && roCsr n) then illegal s else
  let old := csrRead s n
  let s1 := if n = 0x801 then (mtfaultTake s).2 else s
  if !writes then ok (ctDone s1 rd old) else
  let new := match op with | .rw => x | .rs => old ||| x | .rc => old &&& ~~~x
  let s2 := ctDone (csrStore s1 n new) rd old
  ok (if n = 0xB02 then s2.modMyCt (fun t => { t with minstret := new }) else s2)

end Sys2Proof.Machine
end

