-- ==== Sys2Proof/Machine/Alu.lean ====
section
/-!
DEFINITION. A-slot integer operations (R139, R140), branches, jumps and block fetch (R141, R142), `vext`, `rdtime`, context
CSRs and `trap` (R64, R154, R156, R157).
-/
namespace Sys2Proof.Machine

/-- Writes sd. -/
def aRes (s : State) (sd : SReg) (v : Word) : Out := ok (s.setS sd v)

/-- `nop`. -/
def execNop (s : State) : Out := ok s
/-- `vnop`. -/
def execVnop (s : State) : Out := ok s

/-- `add`. -/
def execAdd (d a b : SReg) (s : State) : Out := aRes s d (rvAlu .add (s.aS a) (s.aS b))
/-- `sub`. -/
def execSub (d a b : SReg) (s : State) : Out := aRes s d (rvAlu .sub (s.aS a) (s.aS b))
/-- `and`. -/
def execAnd (d a b : SReg) (s : State) : Out := aRes s d (rvAlu .and (s.aS a) (s.aS b))
/-- `or`. -/
def execOr (d a b : SReg) (s : State) : Out := aRes s d (rvAlu .or (s.aS a) (s.aS b))
/-- `xor`. -/
def execXor (d a b : SReg) (s : State) : Out := aRes s d (rvAlu .xor (s.aS a) (s.aS b))
/-- `sll`. -/
def execSll (d a b : SReg) (s : State) : Out := aRes s d (rvAlu .sll (s.aS a) (s.aS b))
/-- `srl`. -/
def execSrl (d a b : SReg) (s : State) : Out := aRes s d (rvAlu .srl (s.aS a) (s.aS b))
/-- `sra`. -/
def execSra (d a b : SReg) (s : State) : Out := aRes s d (rvAlu .sra (s.aS a) (s.aS b))
/-- `mul`. -/
def execMul (d a b : SReg) (s : State) : Out := aRes s d (rvAlu .mul (s.aS a) (s.aS b))
/-- `mulh`. -/
def execMulh (d a b : SReg) (s : State) : Out := aRes s d (rvAlu .mulh (s.aS a) (s.aS b))
/-- `mulhu`. -/
def execMulhu (d a b : SReg) (s : State) : Out := aRes s d (rvAlu .mulhu (s.aS a) (s.aS b))
/-- `min`: signed. -/
def execMin (d a b : SReg) (s : State) : Out := aRes s d (rvAlu .min (s.aS a) (s.aS b))
/-- `max`: signed. -/
def execMax (d a b : SReg) (s : State) : Out := aRes s d (rvAlu .max (s.aS a) (s.aS b))
/-- `minu`. -/
def execMinu (d a b : SReg) (s : State) : Out := aRes s d (rvAlu .minu (s.aS a) (s.aS b))
/-- `maxu`. -/
def execMaxu (d a b : SReg) (s : State) : Out := aRes s d (rvAlu .maxu (s.aS a) (s.aS b))
/-- `slt`. -/
def execSlt (d a b : SReg) (s : State) : Out := aRes s d (rvAlu .slt (s.aS a) (s.aS b))
/-- `sltu`. -/
def execSltu (d a b : SReg) (s : State) : Out := aRes s d (rvAlu .sltu (s.aS a) (s.aS b))
/-- `addi`. -/
def execAddi (d a : SReg) (i : BitVec 16) (s : State) : Out := aRes s d (rvAlu .add (s.aS a) (sx i))
/-- `andi`. -/
def execAndi (d a : SReg) (i : BitVec 16) (s : State) : Out := aRes s d (rvAlu .and (s.aS a) (sx i))
/-- `ori`. -/
def execOri (d a : SReg) (i : BitVec 16) (s : State) : Out := aRes s d (rvAlu .or (s.aS a) (sx i))
/-- `xori`. -/
def execXori (d a : SReg) (i : BitVec 16) (s : State) : Out := aRes s d (rvAlu .xor (s.aS a) (sx i))
/-- `slti`. -/
def execSlti (d a : SReg) (i : BitVec 16) (s : State) : Out := aRes s d (rvAlu .slt (s.aS a) (sx i))
/-- `sltiu`. -/
def execSltiu (d a : SReg) (i : BitVec 16) (s : State) : Out := aRes s d (rvAlu .sltu (s.aS a) (sx i))
/-- `slli`. -/
def execSlli (d a : SReg) (k : BitVec 6) (s : State) : Out := aRes s d (rvAlu .sll (s.aS a) (zx k))
/-- `srli`. -/
def execSrli (d a : SReg) (k : BitVec 6) (s : State) : Out := aRes s d (rvAlu .srl (s.aS a) (zx k))
/-- `srai`. -/
def execSrai (d a : SReg) (k : BitVec 6) (s : State) : Out := aRes s d (rvAlu .sra (s.aS a) (zx k))
/-- `lui`. -/
def execLui (d : SReg) (i : BitVec 20) (s : State) : Out := aRes s d (sx (i ++ 0#12))

/-! ### Transfers (R41, R42, R141, R142) -/

/-- Address of block BLK. -/
def blkAddr (b : BitVec 10) : Word := zx b <<< 7
/-- PC for a transfer target: a target beyond the 17 bits of a PC lies beyond `XBOUND` whatever it is (log 5). -/
def pcOf (t : Word) : BitVec 17 := if t.toNat < 2 ^ 17 then t.setWidth 17 else t.setWidth 17 ||| 0x18000
/-- The bundle takes a transfer. -/
def transfer (s : State) (t : Word) (early : Bool) : Out :=
  ok (s.modMe (fun x => { x with xfer := some { target := pcOf t, early := early } }))
/-- A branch. -/
def branch (s : State) (taken : Bool) (b : BitVec 10) : Out := if taken then transfer s (blkAddr b) false else ok s
/-- The first L bits of a mask (R141). -/
def maskBits (s : State) (w : EW) (m : MReg) : Nat := (s.aM m).toNat % 2 ^ vlen s.myCore.mode w.bits
/-- All L bits. -/
def fullMask (s : State) (w : EW) : Nat := 2 ^ vlen s.myCore.mode w.bits - 1

/-- `beq`. -/
def execBeq (a b : SReg) (t : BitVec 10) (s : State) : Out := branch s (rvBr .beq (s.aS a) (s.aS b)) t
/-- `bne`. -/
def execBne (a b : SReg) (t : BitVec 10) (s : State) : Out := branch s (rvBr .bne (s.aS a) (s.aS b)) t
/-- `blt`. -/
def execBlt (a b : SReg) (t : BitVec 10) (s : State) : Out := branch s (rvBr .blt (s.aS a) (s.aS b)) t
/-- `bge`. -/
def execBge (a b : SReg) (t : BitVec 10) (s : State) : Out := branch s (rvBr .bge (s.aS a) (s.aS b)) t
/-- `bltu`. -/
def execBltu (a b : SReg) (t : BitVec 10) (s : State) : Out := branch s (rvBr .bltu (s.aS a) (s.aS b)) t
/-- `bgeu`. -/
def execBgeu (a b : SReg) (t : BitVec 10) (s : State) : Out := branch s (rvBr .bgeu (s.aS a) (s.aS b)) t
/-- `bany`. -/
def execBany (w : EW) (m : MReg) (t : BitVec 10) (s : State) : Out := branch s (maskBits s w m ≠ 0) t
/-- `ball`. -/
def execBall (w : EW) (m : MReg) (t : BitVec 10) (s : State) : Out := branch s (maskBits s w m = fullMask s w) t
/-- `bnone`. -/
def execBnone (w : EW) (m : MReg) (t : BitVec 10) (s : State) : Out := branch s (maskBits s w m = 0) t
/-- `bnall`. -/
def execBnall (w : EW) (m : MReg) (t : BitVec 10) (s : State) : Out := branch s (maskBits s w m ≠ fullMask s w) t

/-- `jmp target`. -/
def execJmp (t : BitVec 10) (s : State) : Out := transfer s (blkAddr t) false
/-- `jmp sa`. -/
def execJmpReg (a : SReg) (s : State) : Out :=
  if (s.aS a).toNat % 128 ≠ 0 then ok (aFault s cALIGN 0) else transfer s (s.aS a) false
/-- `bfetch target`. -/
def execBfetch (t : BitVec 10) (s : State) : Out := transfer s (blkAddr t) true
/-- `bfetch sa`: early unless the bundle before wrote sa (R142). -/
def execBfetchReg (a : SReg) (s : State) : Out :=
  if (s.aS a).toNat % 128 ≠ 0 then ok (aFault s cALIGN 0)
  else transfer (s.modMe (fun x => { x with sWrote := 0 })) (s.aS a) (!bitOf s.me.sWrote.toNat a.toNat)

/-! ### Other operations (R154, R156, R157) -/

/-- Width of a `vext` element. -/
def VxTy.bits : VxTy → Nat
  | .i32 | .n32 => 32 | .i16 | .n16 => 16 | .i8 | .n8 => 8 | .d64 => 64
/-- Extension of a `vext` element. -/
def vextVal (ty : VxTy) (x : Nat) : Word :=
  match ty with
  | .i32 => sext64 32 x | .i16 => sext64 16 x | .i8 => sext64 8 x | _ => BitVec.ofNat 64 x

/-- `vext` (R154). -/
def execVext (ty : VxTy) (sd : SReg) (va : VReg) (idx : BitVec 8) (s : State) : Out :=
  aRes s sd (vextVal ty (elem (VxTy.bits ty) (s.aV va) idx.toNat))
/-- `rdtime` (R156). -/
def execRdtime (sd : SReg) (s : State) : Out := aRes s sd s.tick64

/-- CTXID (Table 5.7). -/
def ctxid (core ctx : Nat) : Word := BitVec.ofNat 64 (core * 16 + ctx)
/-- `rdcsr` (R64): FLAGS, RMODE and SRSEED as they stood before the bundle. -/
def execRdcsr (sd : SReg) (n : BitVec 4) (s : State) : Out :=
  aRes s sd (match n.toNat with
    | 0 => s.me.snap.flags
    | 1 => zx s.me.snap.rmode
    | 2 => zx s.me.snap.seed
    | 3 => s.me.txstat
    | _ => ctxid s.cur.core s.cur.ctx)
/-- `wrcsr` (R64, R96, R156): a value RMODE refuses raises ILL; a zero STATE stores 0x9E37_79B9. -/
def execWrcsr (n : BitVec 4) (sa : SReg) (s : State) : Out :=
  let v := s.aS sa
  match n.toNat with
  | 0 => ok (s.modMe (fun x => { x with flags := v &&& 0x1F }))
  | 1 => if v.toNat > 4 then ok (aFault s cILL 0) else ok (s.modMe (fun x => { x with rmode := v.setWidth 3 }))
  | 2 =>
    let w : BitVec 32 := v.setWidth 32
    ok (s.modMe (fun x => { x with seed := if w = 0 then 0x9E3779B9 else w, seedSet := true }))
  | _ => ok (aFault s cILL 0)

/-- `trap` (R157): FAULTED with cause TRAP; the latch holds an all-zero bundle with the S of this one, and the PC names the
next bundle. The V-slot still completes, so the bundle is not quashed. DEDUCED (log 46): S in the latch is the bundle's own bit, also
where the bundle is the nth of a broadcast (R47). -/
def execTrap (code : BitVec 16) (s : State) : Out :=
  let x := s.me
  let s1 := takeCtxFault s s.cur.core s.cur.ctx
    { cause := 11, pc := x.irPc, detail := zx code |>.setWidth 40, bundle := x.ir &&& 0x8000000000000000 } true
  if x.txn.isSome then ok s1 else ok (s1.modMe (fun y => { y with quash := false, alone := false }))

end Sys2Proof.Machine
end

