-- ==== Sys2Proof/Machine/Local.lean ====
section
/-!
DEFINITION. A-slot local-store accesses (R143, R144, R192) with their faults and the policy for uncorrectable words (R319).
-/
namespace Sys2Proof.Machine

/-- `ld` (R143). -/
def execLd (k : LdK) (sd sa : SReg) (imm : BitVec 12) (s : State) : Out :=
  let a := lsAddr s sa imm
  match lsFault a k.size with
  | some c => ok (aFault s c 0)
  | none => lsRead s a.toNat k.size (fun s v => aRes s sd (k.extend v))

/-- `st` (R143): waits while an in-flight job has still to read bytes it would write (R192). -/
def execSt (k : StK) (sd sa : SReg) (imm : BitVec 12) (s : State) : Out :=
  let a := lsAddr s sa imm
  match lsFault a k.size with
  | some c => ok (aFault s c 0)
  | none =>
    if s.lsHeld s.cur.core a.toNat k.size then ok (holdBundle s .waitMem .range)
    else ok (s.lsStore s.cur.core s.cur.ctx a.toNat (leBytes k.size (s.aS sd).toNat))

/-- Bytes of a register group. -/
def State.groupBytes (s : State) : Nat := 64 * modeG s.myCore.mode

/-- `vld` (R143). -/
def execVld (vd : VReg) (sa : SReg) (imm : BitVec 12) (s : State) : Out :=
  let a := lsAddr s sa imm
  match lsFault a s.groupBytes with
  | some c => ok (aFault s c 0)
  | none => lsRead s a.toNat s.groupBytes (fun s v => ok (s.setV vd v))

/-- `vst` (R143): waits while an in-flight job has still to read bytes it would write (R192). -/
def execVst (vd : VReg) (sa : SReg) (imm : BitVec 12) (s : State) : Out :=
  let a := lsAddr s sa imm
  match lsFault a s.groupBytes with
  | some c => ok (aFault s c 0)
  | none =>
    if s.lsHeld s.cur.core a.toNat s.groupBytes then ok (holdBundle s .waitMem .range)
    else ok (s.lsStore s.cur.core s.cur.ctx a.toNat (leBytes s.groupBytes (s.aV vd)))

/-- Active elements of an indexed access with their addresses (R144). DEDUCED (log 46): the sum is taken modulo 2^64. -/
def idxAddrs (s : State) (w : EW) (sa : SReg) (vi : VReg) (m : MReg) : List (Nat × Word) :=
  ((List.range (vlen s.myCore.mode w.bits)).filter (fun e => bitOf (s.aM m).toNat e)).map
    (fun e => (e, s.aS sa + BitVec.ofNat 64 (elem w.bits (s.aV vi) e * (w.bits / 8))))
/-- The fault of an indexed access, checked before any effect. -/
def idxFault (s : State) (w : EW) (sa : SReg) (as : List (Nat × Word)) : Option Nat :=
  let n := w.bits / 8
  if (s.aS sa).toNat % n ≠ 0 then some cALIGN
  else if as.any (fun e => decide (e.2.toNat + n > lsEnd)) then some cPROT else none

/-- `vldx` (R144). -/
def execVldx (w : EW) (vd : VReg) (sa : SReg) (vi : VReg) (m : MReg) (s : State) : Out :=
  let as := idxAddrs s w sa vi m
  let n := w.bits / 8
  match idxFault s w sa as with
  | some c => ok (aFault s c 0)
  | none =>
    match as.find? (fun e => s.lsTraps s.cur.core e.2.toNat n) with
    | some e => ok (aFault s cSEV (lsSevDetail e.2.toNat))
    | none =>
      let s1 := if as.any (fun e => s.lsSnuffs s.cur.core e.2.toNat n) then s.snuffCore s.cur.core else s
      let l := (List.range (vlen s.myCore.mode w.bits)).map (fun e =>
        match as.find? (fun x => x.1 = e) with
        | some x => s.lsVal s.cur.core x.2.toNat n
        | none => elem w.bits (s.aV vd) e)
      ok (s1.setV vd (ofElems w.bits l))

/-- `vstx` (R144, R192): active elements in ascending order. -/
def execVstx (w : EW) (vd : VReg) (sa : SReg) (vi : VReg) (m : MReg) (s : State) : Out :=
  let as := idxAddrs s w sa vi m
  let n := w.bits / 8
  match idxFault s w sa as with
  | some c => ok (aFault s c 0)
  | none =>
    if as.any (fun e => s.lsHeld s.cur.core e.2.toNat n) then ok (holdBundle s .waitMem .range)
    else ok (as.foldl (fun s e => s.lsStore s.cur.core s.cur.ctx e.2.toNat (leBytes n (elem w.bits (s.aV vd) e.1))) s)

end Sys2Proof.Machine
end

