-- ==== Sys2Proof/Machine/Vector.lean ====
section
/-!
DEFINITION. V-slot instructions (R158–R185) over the element operations of Flags.lean.
-/
namespace Sys2Proof.Machine

/-! ### Element-wise operations -/

/-- Applies `f` (element number, seed after its step) to the active elements of width `w` and writes vd; under SR those that
`steps` names take a step. -/
def vMap (s : State) (w : Nat) (sr : Bool) (steps : Nat → Bool) (m : MReg) (vd : VReg) (f : Nat → Nat → Res) : Out :=
  let a := mapEl (vlen s.myCore.mode w) (s.aM m).toNat sr steps (elem w (s.aV vd)) f s.seed0
  ok ((s.setV vd (a.group w)).vEnd a.fl a.seed)

/-- Element `e` of a register as a value. -/
def State.fe (s : State) (f : Fmt) (r : VReg) (e : Nat) : Fv := decodeF f (elem f.width (s.aV r) e)
/-- Element `e` of a register as a code. -/
def State.ce (s : State) (f : Fmt) (r : VReg) (e : Nat) : Nat := elem f.width (s.aV r) e

/-- A rounded operation on va and vb (R163). -/
def vFp2 (s : State) (f : Fmt) (rm : RM) (v : V3) (op : Rnd → Nat → Fv → Fv → Res) : Out :=
  let rnd := rndOf s.rmode0 rm.rnd
  vMap s f.width (rnd = .sr) (fun _ => true) v.m v.vd (fun e r => op rnd r (s.fe f v.va e) (s.fe f v.vb e))

/-- `vadd` floating. -/
def execVaddF (f : Fmt) (rm : RM) (v : V3) (s : State) : Out := vFp2 s f rm v (fun rnd r x y => fadd f rnd rm.sat r x y)
/-- `vsub` floating. -/
def execVsubF (f : Fmt) (rm : RM) (v : V3) (s : State) : Out := vFp2 s f rm v (fun rnd r x y => fadd f rnd rm.sat r x y.negate)
/-- `vmul` floating. -/
def execVmulF (f : Fmt) (rm : RM) (v : V3) (s : State) : Out := vFp2 s f rm v (fun rnd r x y => fmul f rnd rm.sat r x y)

/-- `vmin` floating. -/
def execVminF (f : Fmt) (v : V3) (s : State) : Out :=
  vMap s f.width false (fun _ => false) v.m v.vd (fun e _ => fminmax f false (s.ce f v.va e) (s.ce f v.vb e))
/-- `vmax` floating. -/
def execVmaxF (f : Fmt) (v : V3) (s : State) : Out :=
  vMap s f.width false (fun _ => false) v.m v.vd (fun e _ => fminmax f true (s.ce f v.va e) (s.ce f v.vb e))

/-- A sign operation: a NaN gives the canonical NaN (R165). -/
def signOp (f : Fmt) (op : Nat → Nat) (c : Nat) : Res :=
  match decodeF f c with
  | .nan sg => nanRes f sg
  | _ => ⟨op c, 0⟩
/-- `vabs` floating. -/
def execVabsF (f : Fmt) (v : V2) (s : State) : Out :=
  vMap s f.width false (fun _ => false) v.m v.vd (fun e _ => signOp f (fun c => c % signBit f) (s.ce f v.va e))
/-- `vneg` floating. -/
def execVnegF (f : Fmt) (v : V2) (s : State) : Out :=
  vMap s f.width false (fun _ => false) v.m v.vd (fun e _ => signOp f (fun c => c ^^^ signBit f) (s.ce f v.va e))

/-- Fused multiply-add with the signs of product and addend (R164). -/
def vFma (s : State) (f : Fmt) (rm : RM) (v : V3) (np na : Bool) : Out :=
  let rnd := rndOf s.rmode0 rm.rnd
  let sg := fun (n : Bool) (x : Fv) => if n then x.negate else x
  vMap s f.width (rnd = .sr) (fun _ => true) v.m v.vd
    (fun e r => ffma f rnd r (sg np (s.fe f v.va e)) (s.fe f v.vb e) (sg na (s.fe f v.vd e)))
/-- `vfma`. -/
def execVfma (f : Fmt) (rm : RM) (v : V3) (s : State) : Out := vFma s f rm v false false
/-- `vfms`. -/
def execVfms (f : Fmt) (rm : RM) (v : V3) (s : State) : Out := vFma s f rm v false true
/-- `vfnma`. -/
def execVfnma (f : Fmt) (rm : RM) (v : V3) (s : State) : Out := vFma s f rm v true false
/-- `vfnms`. -/
def execVfnms (f : Fmt) (rm : RM) (v : V3) (s : State) : Out := vFma s f rm v true true

/-- A function of R166; special operands take no step. -/
def vFn (s : State) (f : Fmt) (rm : RM) (v : V2) (fn : Fn5) : Out :=
  let rnd := rndOf s.rmode0 rm.rnd
  vMap s f.width (rnd = .sr) (fun e => !fn5Special f fn (s.fe f v.va e)) v.m v.vd
    (fun e r => frac5 f fn rnd rm.sat r (s.fe f v.va e))
/-- `vrecip`. -/
def execVrecip (f : Fmt) (rm : RM) (v : V2) (s : State) : Out := vFn s f rm v .recip
/-- `vrsqrt`. -/
def execVrsqrt (f : Fmt) (rm : RM) (v : V2) (s : State) : Out := vFn s f rm v .rsqrt
/-- `vsqrt`. -/
def execVsqrt (f : Fmt) (rm : RM) (v : V2) (s : State) : Out := vFn s f rm v .sqrt
/-- `vexp2`. -/
def execVexp2 (f : Fmt) (rm : RM) (v : V2) (s : State) : Out := vFn s f rm v .exp2
/-- `vlog2`. -/
def execVlog2 (f : Fmt) (rm : RM) (v : V2) (s : State) : Out := vFn s f rm v .log2

/-- A compare writes bits of active elements of md; the other bits keep their values (R167). -/
def vCmp (s : State) (w : Nat) (m md : MReg) (p : Nat → Bool × Nat) : Out :=
  let n := vlen s.myCore.mode w
  let act := (List.range n).filter (fun e => bitOf (s.aM m).toNat e)
  let old := (s.aM md).toNat
  let new := act.foldl (fun x e =>
    if (p e).1 then x ||| 2 ^ e else if bitOf x e then x - 2 ^ e else x) old
  let fl := act.foldl (fun x e => x ||| (p e).2) 0
  ok ((s.modMe (fun x => x.wm md (BitVec.ofNat 256 new))).vEnd fl s.seed0)
/-- `vcmp` floating. -/
def execVcmpF (f : Fmt) (p : Pred) (md : MReg) (va vb : VReg) (m : MReg) (s : State) : Out :=
  vCmp s f.width m md (fun e => fcmp p (s.fe f va e) (s.fe f vb e))

/-! ### Integers (R168–R173) -/

/-- An integer operation on va and vb. -/
def vInt2 (s : State) (f : Fmt) (v : V3) (op : Nat → Nat → Res) : Out :=
  vMap s f.width false (fun _ => false) v.m v.vd (fun e _ => op (s.ce f v.va e) (s.ce f v.vb e))
/-- An integer operation on va. -/
def vInt1 (s : State) (f : Fmt) (v : V2) (op : Nat → Nat) : Out :=
  vMap s f.width false (fun _ => false) v.m v.vd (fun e _ => ⟨op (s.ce f v.va e), 0⟩)
/-- `vadd` integer. -/
def execVaddI (f : Fmt) (sat : Bool) (v : V3) (s : State) : Out := vInt2 s f v (intAddSub f false sat)
/-- `vsub` integer. -/
def execVsubI (f : Fmt) (sat : Bool) (v : V3) (s : State) : Out := vInt2 s f v (intAddSub f true sat)
/-- `vmul` integer. -/
def execVmulI (f : Fmt) (v : V3) (s : State) : Out := vInt2 s f v (fun a b => ⟨intCode f (intVal f a * intVal f b), 0⟩)
/-- `vmulh`. -/
def execVmulh (f : Fmt) (v : V3) (s : State) : Out :=
  vInt2 s f v (fun a b => ⟨intCode f (intVal f a * intVal f b / ((2 ^ f.width : Nat) : Int)), 0⟩)
/-- `vmin` integer. -/
def execVminI (f : Fmt) (v : V3) (s : State) : Out := vInt2 s f v (fun a b => ⟨if intVal f a ≤ intVal f b then a else b, 0⟩)
/-- `vmax` integer. -/
def execVmaxI (f : Fmt) (v : V3) (s : State) : Out := vInt2 s f v (fun a b => ⟨if intVal f a ≤ intVal f b then b else a, 0⟩)
/-- `vabs` integer: wraps. -/
def execVabsI (f : Fmt) (v : V2) (s : State) : Out := vInt1 s f v (fun a => intCode f (intVal f a).natAbs)
/-- `vneg` integer: wraps. -/
def execVnegI (f : Fmt) (v : V2) (s : State) : Out := vInt1 s f v (fun a => intCode f (-(intVal f a)))
/-- `vand`. -/
def execVand (f : Fmt) (v : V3) (s : State) : Out := vInt2 s f v (fun a b => ⟨a &&& b, 0⟩)
/-- `vor`. -/
def execVor (f : Fmt) (v : V3) (s : State) : Out := vInt2 s f v (fun a b => ⟨a ||| b, 0⟩)
/-- `vxor`. -/
def execVxor (f : Fmt) (v : V3) (s : State) : Out := vInt2 s f v (fun a b => ⟨a ^^^ b, 0⟩)
/-- `vandn`. -/
def execVandn (f : Fmt) (v : V3) (s : State) : Out := vInt2 s f v (fun a b => ⟨a ^^^ (a &&& b), 0⟩)

/-- A shift: the amount from vb's elements or the immediate (R172). -/
def vShift (s : State) (f : Fmt) (k : ShAmt) (v : V2) (kind : Nat) : Out :=
  vMap s f.width false (fun _ => false) v.m v.vd (fun e _ =>
    ⟨shiftEl kind f.width (s.ce f v.va e) (match k with | .reg b => s.ce f b e | .imm n => n.toNat), 0⟩)
/-- `vsll`. -/
def execVsll (f : Fmt) (k : ShAmt) (v : V2) (s : State) : Out := vShift s f k v 0
/-- `vsrl`. -/
def execVsrl (f : Fmt) (k : ShAmt) (v : V2) (s : State) : Out := vShift s f k v 1
/-- `vsra`. -/
def execVsra (f : Fmt) (k : ShAmt) (v : V2) (s : State) : Out := vShift s f k v 2

/-- An integer predicate (R173). -/
def intPred (p : Pred) (a b : Int) : Bool :=
  match p with
  | .eq => a = b | .ne => a ≠ b | .lt => a < b | .le => a ≤ b | .gt => a > b | .ge => a ≥ b | .uno => false | .ord => true
/-- `vcmp` integer. -/
def execVcmpI (f : Fmt) (p : Pred) (md : MReg) (va vb : VReg) (m : MReg) (s : State) : Out :=
  vCmp s f.width m md (fun e => (intPred p (intVal f (s.ce f va e)) (intVal f (s.ce f vb e)), 0))

/-! ### Masks (R174) -/

/-- Writes md. -/
def vMask (s : State) (md : MReg) (x : BitVec 256) : Out := ok (s.modMe (fun t => t.wm md x))
/-- `vmand`. -/
def execVmand (md ma mb : MReg) (s : State) : Out := vMask s md (s.aM ma &&& s.aM mb)
/-- `vmor`. -/
def execVmor (md ma mb : MReg) (s : State) : Out := vMask s md (s.aM ma ||| s.aM mb)
/-- `vmxor`. -/
def execVmxor (md ma mb : MReg) (s : State) : Out := vMask s md (s.aM ma ^^^ s.aM mb)
/-- `vmandn`. -/
def execVmandn (md ma mb : MReg) (s : State) : Out := vMask s md (s.aM ma &&& ~~~(s.aM mb))
/-- `vmnot`. -/
def execVmnot (md ma : MReg) (s : State) : Out := vMask s md (~~~(s.aM ma))
/-- `vmmov`. -/
def execVmmov (md ma : MReg) (s : State) : Out := vMask s md (s.aM ma)

/-! ### Conversions (R175–R177) -/

/-- `vcvt` (R175). -/
def execVcvt (dst src : Fmt) (rm : RM) (v : V2) (s : State) : Out :=
  let rnd := rndOf s.rmode0 rm.rnd
  let n := vlen s.myCore.mode (max (max src.width dst.width) 8)
  let a := mapEl n (s.aM v.m).toNat (rnd = .sr) (fun _ => convSteps src dst) (elem dst.width (s.aV v.vd))
    (fun e r => convert src dst rnd rm.sat r (elem src.width (s.aV v.va) e)) s.seed0
  ok ((s.setV v.vd (a.group dst.width)).vEnd a.fl a.seed)

/-- EMAX of an MX element format (R176). -/
def mxEmax : Fmt → Int
  | .e4m3 => 8 | .e5m2 => 15 | _ => 2
/-- `⌊log2 |x|⌋` of a finite non-zero value. -/
def fvExp : Fv → Option Int
  | .fin _ 0 _ => none
  | .fin _ m e => some ((bitLen m : Int) + e - 1)
  | _ => none
/-- Largest exponent of a list of values, none when all are zero. -/
def maxExp (l : List Fv) : Option Int :=
  l.foldl (fun a x => match a, fvExp x with
    | none, y => y
    | some p, some q => some (max p q)
    | some p, none => some p) none
/-- One block of `vmxq`: codes (reversed onto the accumulator) and its scale. -/
def mxBlock (f : Fmt) (rnd : Rnd) (sat : Bool) (src : List (Fv × Bool)) (a : Acc) : Acc × Nat :=
  let act := (src.filter (·.2)).map (·.1)
  let bad := act.any (fun x => match x with | .fin _ _ _ => false | _ => true)
  if bad then
    let nv := act.any (fun x => match x with | .inf _ => true | x => x.sig)
    ({ a with out := src.map (fun _ => 0) ++ a.out, fl := a.fl ||| (if nv then fNV else 0) }, 0xFF)
  else
    let x : Int := match maxExp act with | none => -127 | some k => max (k - mxEmax f) (-127)
    let step := fun (a : Acc) (v : Fv × Bool) =>
      if !v.2 then { a with out := 0 :: a.out } else
      match v.1 with
      | .fin neg m e =>
        let sd := if rnd = .sr then srStep a.seed else a.seed
        let r := roundMag f rnd sat sd.toNat neg m (e - x) false
        { out := r.code :: a.out, fl := a.fl ||| r.fl, seed := sd }
      | _ => { a with out := 0 :: a.out }
    (src.foldl step a, (x + 127).toNat)

/-- FP32 element `e` of the pair va, va + 1. -/
def pairEl (s : State) (va : VReg) (e : Nat) : Nat :=
  let n := vlen s.myCore.mode 32
  if e < n then elem 32 (s.aV va) e else elem 32 (s.aV (va + 1)) (e - n)

/-- `vmxq` (R176): codes to vd, scales to vb. -/
def execVmxq (f : Fmt) (rm : RM) (v : V3) (s : State) : Out :=
  let rnd := rndOf s.rmode0 rm.rnd
  let g := modeG s.myCore.mode
  let (a, sc) := (List.range g).foldl (fun (p : Acc × List Nat) b =>
    let src := (List.range 32).map (fun k => (decodeF .f32 (pairEl s v.va (32 * b + k)), bitOf (s.aM v.m).toNat (32 * b + k)))
    let (a, x) := mxBlock f rnd rm.sat src p.1
    (a, p.2 ++ [x])) (({ out := [], fl := 0, seed := s.seed0 } : Acc), ([] : List Nat))
  ok (((s.setV v.vd (a.group f.width)).setV v.vb (ofElems 8 sc)).vEnd a.fl a.seed)

/-- An MX element times its scale as FP32 (R177, R92). -/
def mxVal (f : Fmt) (code scale : Nat) : Res :=
  if scale = 0xFF then ⟨canonNaN .f32, 0⟩ else
  match decodeF f code with
  | .nan sg => nanRes .f32 sg
  | .inf n => ⟨infCode .f32 n, 0⟩
  | .fin n m e => roundMag .f32 .rne false 0 n m (e + ((scale : Int) - 127)) false

/-- `vmxdq` (R177): writes the pair vd, vd + 1. -/
def execVmxdq (f : Fmt) (v : V3) (s : State) : Out :=
  let n := vlen s.myCore.mode 32
  let a := mapEl (2 * n) (s.aM v.m).toNat false (fun _ => false) (pairEl s v.vd)
    (fun e _ => mxVal f (elem f.width (s.aV v.va) e) (elem 8 (s.aV v.vb) (e / 32))) s.seed0
  let out := a.out.reverse
  ok (((s.setV v.vd (ofElems 32 (out.take n))).setV (v.vd + 1) (ofElems 32 (out.drop n))).vEnd a.fl a.seed)

/-! ### Moving elements (R178–R182) -/

/-- Writes the active elements of width `w`. -/
def vMove (s : State) (w : EW) (m : MReg) (vd : VReg) (f : Nat → Nat) : Out :=
  vMap s w.bits false (fun _ => false) m vd (fun e _ => ⟨f e, 0⟩)
/-- `vperm`. -/
def execVperm (w : EW) (v : V3) (s : State) : Out :=
  vMove s w v.m v.vd (fun e =>
    let i := elem w.bits (s.aV v.vb) e
    if i < vlen s.myCore.mode w.bits then elem w.bits (s.aV v.va) i else 0)
/-- `vslide.up`. -/
def execVslideUp (w : EW) (k : BitVec 5) (v : V2) (s : State) : Out :=
  vMove s w v.m v.vd (fun e => if k.toNat ≤ e then elem w.bits (s.aV v.va) (e - k.toNat) else 0)
/-- `vslide.dn`. -/
def execVslideDn (w : EW) (k : BitVec 5) (v : V2) (s : State) : Out :=
  vMove s w v.m v.vd (fun e => if e + k.toNat < vlen s.myCore.mode w.bits then elem w.bits (s.aV v.va) (e + k.toNat) else 0)
/-- `vsel`: every element is written. -/
def execVsel (w : EW) (v : V3) (s : State) : Out :=
  let l := (List.range (vlen s.myCore.mode w.bits)).map (fun e =>
    elem w.bits (if bitOf (s.aM v.m).toNat e then s.aV v.va else s.aV v.vb) e)
  ok (s.setV v.vd (ofElems w.bits l))
/-- `vbcast`. -/
def execVbcast (w : EW) (vd : VReg) (sa : SReg) (m : MReg) (s : State) : Out := vMove s w m vd (fun _ => (s.aS sa).toNat)
/-- `vmov`. -/
def execVmov (w : EW) (v : V2) (s : State) : Out := vMove s w v.m v.vd (fun e => elem w.bits (s.aV v.va) e)
/-- `vget` (R49, R182, R183): another context's register with the writes that were complete before the bundle issued, which the
snapshot of the file holds; the own one as before the bundle. -/
def execVget (vd va : VReg) (c : BitVec 4) (s : State) : Out :=
  ok (s.setV vd (groupOf s.me.snap.v s.myCore.mode c.toNat va.toNat))

/-! ### Reductions (R106, R184) -/

/-- One level of the tree. -/
def redLevel (comb : BitVec 32 → Nat → Nat → Res × BitVec 32) :
    List (Option Nat) → Nat → BitVec 32 → List (Option Nat) × Nat × BitVec 32
  | x :: y :: t, fl, sd =>
    match x, y with
    | some a, some b =>
      let (r, sd') := comb sd a b
      let (l, fl', sd'') := redLevel comb t (fl ||| r.fl) sd'
      (some r.code :: l, fl', sd'')
    | some a, none => let (l, fl', sd') := redLevel comb t fl sd; (some a :: l, fl', sd')
    | none, y => let (l, fl', sd') := redLevel comb t fl sd; (y :: l, fl', sd')
  | l, fl, sd => (l, fl, sd)
/-- The whole tree; `fuel` bounds its levels. -/
def redTree (comb : BitVec 32 → Nat → Nat → Res × BitVec 32) :
    Nat → List (Option Nat) → Nat → BitVec 32 → Option Nat × Nat × BitVec 32
  | 0, l, fl, sd => (l.headD none, fl, sd)
  | n + 1, l, fl, sd =>
    match l with
    | _ :: _ :: _ => let (l', fl', sd') := redLevel comb l fl sd; redTree comb n l' fl' sd'
    | _ => (l.headD none, fl, sd)

/-- A reduction writes element 0 and zeroes the rest; a NaN result is canonical (R98). -/
def vRed (s : State) (f : Fmt) (v : V2) (ident : Nat) (comb : BitVec 32 → Nat → Nat → Res × BitVec 32) : Out :=
  let l := (List.range (vlen s.myCore.mode f.width)).map (fun e =>
    if bitOf (s.aM v.m).toNat e then some (s.ce f v.va e) else none)
  let (r, fl, sd) := redTree comb 8 l 0 s.seed0
  let x : Res := match r with
    | none => ⟨ident, 0⟩
    | some c => if f.isFloat then (match decodeF f c with | .nan sg => nanRes f sg | _ => ⟨c, 0⟩) else ⟨c, 0⟩
  ok ((s.setV v.vd (x.code % 2 ^ f.width)).vEnd (fl ||| x.fl) sd)

/-- `vredsum` floating. -/
def execVredsumF (f : Fmt) (rm : RM) (v : V2) (s : State) : Out :=
  let rnd := rndOf s.rmode0 rm.rnd
  vRed s f v 0 (fun sd a b =>
    let sd' := if rnd = .sr then srStep sd else sd
    (fadd f rnd rm.sat sd'.toNat (decodeF f a) (decodeF f b), sd'))
/-- `vredmax` floating. -/
def execVredmaxF (f : Fmt) (_rm : RM) (v : V2) (s : State) : Out := vRed s f v (infCode f true) (fun sd a b => (fminmax f true a b, sd))
/-- `vredmin` floating. -/
def execVredminF (f : Fmt) (_rm : RM) (v : V2) (s : State) : Out := vRed s f v (infCode f false) (fun sd a b => (fminmax f false a b, sd))
/-- `vredsum` integer. -/
def execVredsumI (f : Fmt) (v : V2) (s : State) : Out := vRed s f v 0 (fun sd a b => (intAddSub f false false a b, sd))
/-- `vredmax` integer. -/
def execVredmaxI (f : Fmt) (v : V2) (s : State) : Out :=
  vRed s f v (intCode f (intLo f)) (fun sd a b => (⟨if intVal f a ≤ intVal f b then b else a, 0⟩, sd))
/-- `vredmin` integer. -/
def execVredminI (f : Fmt) (v : V2) (s : State) : Out :=
  vRed s f v (intCode f (intHi f)) (fun sd a b => (⟨if intVal f a ≤ intVal f b then a else b, 0⟩, sd))

/-! ### Softmax pair merge (R185) -/

/-- The exact product of two values; 0 × ∞ is an invalid NaN. -/
def exactMul (x y : Fv) : Fv :=
  match x, y with
  | .nan a, .nan b => .nan (a || b)
  | .nan a, _ => .nan a
  | _, .nan b => .nan b
  | .inf a, .inf b => .inf (a != b)
  | .inf a, .fin b m _ => if m = 0 then .nan true else .inf (a != b)
  | .fin a m _, .inf b => if m = 0 then .nan true else .inf (a != b)
  | .fin n m e, .fin n' m' e' => .fin (n != n') (m * m') (e + e')
/-- `2^(x − M)` for x below M, in FP32 under RNE. -/
def pow2Diff (x big : Fv) : Res :=
  match x, big with
  | .fin n m e, .fin n' m' e' =>
    let (q, k, st) := exp2Mag ((dyOf n m e).add (dyOf n' m' e').neg)
    roundMag .f32 .rne false 0 false q k st
  | _, _ => ⟨0, 0⟩
/-- One merged pair: M, S and the flags. -/
def mergePair (ma sa mb sb : Nat) : Nat × Nat × Nat :=
  let a := decodeF .f32 ma
  let b := decodeF .f32 mb
  if a.isNaN || b.isNaN then (canonNaN .f32, canonNaN .f32, if a.sig || b.sig then fNV else 0) else
  let big := (fminmax .f32 true ma mb).code
  let M := decodeF .f32 big
  let one : Res := ⟨0x3F800000, 0⟩
  let fa := if fvEq a M then one else pow2Diff a M
  let fb := if fvEq b M then one else pow2Diff b M
  let r := fadd .f32 .rne false 0 (exactMul (decodeF .f32 sa) (decodeF .f32 fa.code)) (exactMul (decodeF .f32 sb) (decodeF .f32 fb.code))
  (big, r.code, fa.fl ||| fb.fl ||| r.fl)

/-- `vmrg.f32`. -/
def execVmrg (v : V3) (s : State) : Out :=
  let x := fun (r : VReg) (e : Nat) => elem 32 (s.aV r) e
  let ps := (List.range (vlen s.myCore.mode 32 / 2)).map (fun p =>
    if bitOf (s.aM v.m).toNat (2 * p) then mergePair (x v.va (2 * p)) (x v.va (2 * p + 1)) (x v.vb (2 * p)) (x v.vb (2 * p + 1))
    else (x v.vd (2 * p), x v.vd (2 * p + 1), 0))
  ok ((s.setV v.vd (ofElems 32 (ps.flatMap (fun p => [p.1, p.2.1])))).vEnd (ps.foldl (fun a p => a ||| p.2.2) 0) s.seed0)

end Sys2Proof.Machine
end

