-- ==== Sys2Proof/Machine/Global.lean ====
section
/-!
DEFINITION. A-slot global accesses (R145–R151, R153, R155, R273, R281): issue and waits, fences and releases, transactional
accesses.
-/
namespace Sys2Proof.Machine

/-! ### Who issues, and what has been performed -/

/-- The issuer of a context's requests: a coupled odd core's stand under its twin (R329). -/
def State.whoOf (s : State) (i c : Nat) : Who :=
  let p := (s.core i).pair
  .cx (if p.on && p.odd then i ^^^ 1 else i) c
/-- The issuer of this step's context. -/
def State.myWho (s : State) : Who := s.whoOf s.cur.core s.cur.ctx

/-- Whether every request of an agent below `upto` is performed at a scope (R206, R149, R155). -/
def State.performedAt (s : State) (w : Who) (sc : Scope) (upto : Nat) : Bool :=
  s.reqs.all (fun e => !(e.2.who = w && e.2.live && decide (e.1 < upto)) || (match sc with
    | .cl => e.2.atDv || (e.2.op.writes && e.2.accepted)
    | .dv => e.2.atDv
    | .sy => e.2.atDv && e.2.atSy))

/-- Whether a bundle names the destination of an outstanding relaxed load of its context (R147). -/
def State.namesPending (s : State) (i c : Nat) (ir : Word) : Bool :=
  match decodeBundle ir with
  | none => false
  | some (a, v) =>
    (s.relaxedOut (s.whoOf i c)).any (fun e => match e.2.dest with
      | .s sd _ => (sNames a ++ sNames v).contains sd.toNat
      | .v vd => (vNames a ++ vNames v).contains vd.toNat
      | _ => false)

/-- Ends a `fence.sy`: its status goes to `r` and the record is cleared. -/
def Ctx.fenced (x : Ctx) (r : SReg) (v : Word) : Ctx :=
  let y := x.ws r v
  { y with lost := false, refused := false }

/-- Status of `fence.sy` from a record of lost and refused window stores (R135, R155). -/
def fenceStatus (lost refused : Bool) : Word := if lost then 5 else if refused then 6 else 0

/-! ### Waits that end -/

/-- The awaited event has come: the context leaves its wait and its bundle ends (R37). -/
def wakeCx (s : State) (i c : Nat) : State :=
  finishBundle (s.modCx i c (fun x => { x with st := .run, wait := .none, readyAt := s.time + 1 })) i c

/-- Opens a transaction on the registers as they stood before the bundle (R152, R272). -/
def openTxn (s : State) (i c : Nat) (target : BitVec 17) : State :=
  s.modCx i c (fun x =>
    let t : Txn := { depth := 1, age := x.age.getD ⟨s.time, i, c⟩, ckS := x.snap.s, ckM := x.snap.m, target := target, rset := [],
                     wset := [], spec := [], latent := [], marks := [], recs := [], claims := 0, committing := false, msgs := 0, reached := [] }
    { x with txn := some t })

/-- Looks whether what a context waits for has come about: a fence, a release, the opening of a transaction, or a bundle
that could not issue. -/
def recheck (s : State) (i c : Nat) : State :=
  let x := s.cx i c
  let w := s.whoOf i c
  if x.st ≠ .waitMem then s else
  match x.wait with
  | .fence sc sd =>
    if !s.performedAt w sc s.nextReq then s else
    match sd with
    | some r => wakeCx (s.modCx i c (fun x => x.fenced r (fenceStatus x.lost x.refused))) i c
    | none => wakeCx s i c
  | .release sc r wait =>
    if (s.core i).pair.on && (s.core i).pair.odd then
      match (s.cx (i ^^^ 1) c).wait with
      | .release .. => s
      | .reply r => s.modCx i c (fun x => { x with wait := .reply r })
      | _ => wakeCx s i c
    else if !s.performedAt w sc r then s
    else if sc = .sy && (x.lost || x.refused) then
      let va := match s.req r with | some q => q.va | none => 0
      takeCtxFault { s with reqs := sdel r s.reqs } i c
        { cause := cPROT, pc := x.irPc, detail := sliceDetail cPROT va 0, bundle := aSlotOnly x.ir, gran := va / 256 } x.alone
    else
      let s1 := sendReq s r
      if wait then s1.modCx i c (fun x => { x with wait := .reply r }) else wakeCx s1 i c
  | .xbegin t => if s.performedAt w .dv s.nextReq then wakeCx (openTxn s i c t) i c else s
  | .pending oldest =>
    let clear := match oldest with
      | some r => (match s.req r with | some q => q.atDv || !q.live | none => true)
      | none => !s.namesPending i c x.ir
    if clear then s.modCx i c (fun x => { x with st := .run, wait := .none, readyAt := s.time + 1 }) else s
  | _ => s

/-- Rechecks the contexts that issue under an agent's name. -/
def recheckWho (s : State) (w : Who) : State :=
  match w with
  | .cx i c =>
    if c ≥ 16 then s else
    let s1 := recheck s i c
    if (s1.core i).pair.on then recheck s1 (i ^^^ 1) c else s1
  | _ => s

/-! ### Issue -/

/-- The request the twin of an odd core has just sent for the same bundle (R329). -/
def State.twinReq (s : State) (va : Nat) : Option Nat :=
  ((s.reqs.filter (fun e => e.2.who = s.myWho && e.2.issued = s.time && e.2.va = va)).getLast?).map (·.1)

/-- The context waits for the reply of request `r`. -/
def State.awaitReq (s : State) (r : Nat) : State := s.modMe (fun x => { x with st := .waitMem, wait := .reply r })

/-- Sends a context's access; an odd twin shares the even core's request. -/
def ctxIssue (s : State) (q : Req) (wait : Bool) : State :=
  let x := s.me
  if s.myCore.pair.on && s.myCore.pair.odd then
    match s.twinReq q.va with
    | some r => if wait then s.awaitReq r else s
    | none => s
  else
    let (s1, r) := issueReq s { q with bundle := (if wait then aSlotOnly x.ir else accessAlone x.ir), pc := x.irPc }
    if wait then s1.awaitReq r else s1

/-- A release access: sent at once when every earlier access is performed at the scope, else when it is (R149). -/
def ctxRelease (s : State) (q : Req) (sc : Scope) (wait : Bool) : State :=
  let x := s.me
  let twin := (s.cx (s.cur.core ^^^ 1) s.cur.ctx).wait
  if s.oddCt then
    match twin with
    | .release .. => s.modMe (fun x => { x with st := .waitMem, wait := twin })
    | _ => ctxIssue s q wait
  else
  if s.performedAt s.myWho sc s.nextReq && !(sc = .sy && (x.lost || x.refused)) then ctxIssue s q wait
  else
    let (s1, r) := newReq s { q with bundle := (if wait then aSlotOnly x.ir else accessAlone x.ir), pc := x.irPc }
    -- a release that faults at once on the record faults as after issue: the V-slot still acts (R149)
    (recheck (s1.modMe (fun x => { x with st := .waitMem, wait := .release sc r wait })) s.cur.core s.cur.ctx).modMe
      (fun x => { x with vStill := x.quash })

/-! ### Transactional accesses (R273, R274, R281) -/

/-- Physical granule of a tracked granule. -/
def Txn.phys (t : Txn) (g : Nat) : Option Nat := ((t.wset ++ t.rset).find? (fun e => e.1 = g)).map (·.2)
/-- Bytes of a tracked granule as the transaction sees them. -/
def State.txView (s : State) (i c va n : Nat) : List Byte :=
  match (s.cx i c).txn with
  | none => []
  | some t =>
    let base := s.pread ((t.phys (va / 256)).getD 0 * 256 + va % 256) n
    (List.range n).map (fun k => (sfind t.spec (va + k)).getD (base.getD k 0))
/-- Writes speculative bytes. -/
def Txn.put (t : Txn) (va : Nat) (bs : List Byte) : Txn :=
  { t with
    marks := marksAfter t.marks va bs.length
    latent := latentAfter t.latent va bs.length
    spec := ((List.range bs.length).map (fun k => (va + k, bs.getD k 0))).foldl (fun m e => sins e.1 e.2 m) t.spec }
/-- Changes an open transaction. -/
def State.modTxn (s : State) (i c : Nat) (f : Txn → Txn) : State := s.modCx i c (fun x => { x with txn := x.txn.map f })

/-- Meets the errors of one speculative line under its page's layout (R316–R318). -/
def scrubSpec (s : State) (i c line : Nat) : State :=
  match (s.cx i c).txn with
  | none => s
  | some t =>
    match sfind t.latent line with
    | none => s
    | some bits =>
      let nl := match s.findLeaf (s.asidOf i) (line * 64) with | some l => pteNl l.pte | none => 0
      let k := checkLine nl bits
      let d := k.flips.foldl (fun x b => x ^^^ 2 ^ b) (leVal (s.txView i c (line * 64) 64))
      let put := fun (t : Txn) => if k.flips = [] then t else
        { t with spec := ((List.range 64).map (fun j => (line * 64 + j, (leBytes 64 d).getD j 0))).foldl (fun m e => sins e.1 e.2 m) t.spec }
      (s.modTxn i c (fun t =>
        { put t with
          latent := sdel line t.latent
          marks := match k.mark with | some (cls, els) => addMarks t.marks line nl cls els | none => t.marks })).countErrors (dieOf i) k
/-- Meets the errors of the speculative lines of a range. -/
def scrubSpecs (s : State) (i c va n : Nat) : State := (linesOf va n).foldl (fun s l => scrubSpec s i c l) s
/-- Marks on the lines of a range as the transaction sees them: its own, and those of elements it has not wholly overwritten. -/
def State.txMarks (s : State) (t : Txn) (va n : Nat) : List (Nat × Mark) :=
  let base := (t.phys (va / 256)).getD 0 * 256
  let g := va / 256 * 256
  ((s.marksOn (base + va % 256) n).map (fun m => (g + (m.1 - base), m.2))).filter (fun m =>
    !((List.range m.2.w).all (fun k => t.spec.any (fun e => e.1 = m.1 + k))) && !t.marks.any (fun x => x.1 = m.1))
  ++ t.marks.filter (fun m => (linesOf va n).contains (m.1 / 64))

/-- Function number and width of an `xred` (R153). -/
def xredFn (op : Nat) (ty : XTy) : Nat :=
  match op, ty with
  | 0, .f32 => 0x20 | 1, .f32 => 0x21 | 2, .f32 => 0x22
  | 0, _ => 0
  | 1, .i32 | 1, .i64 => 1
  | 1, _ => 3
  | 2, .i32 | 2, .i64 => 2
  | 2, _ => 4
  | _, _ => 6
/-- Bytes of an `xred` element. -/
def XTy.bytes : XTy → Nat
  | .i64 | .n64 => 8
  | _ => 4

/-- Reads a range in the transaction's view: errors in it are met, and what is read is consumed (R286, R322); a class where that
traps. -/
def txRead (s : State) (i c : Nat) (who : Who) (va n : Nat) (atomic : Bool) : State × (List Byte ⊕ Nat) :=
  let s0 := scrubSpecs s i c va n
  let d := s0.txView i c va n
  match (s0.cx i c).txn with
  | none => (s0, .inl d)
  | some t => s0.takeConsumed who (consumeMarks (s0.txMarks t va n) (s0.sevpol who.core) va d) d atomic
/-- Combines one reduction record with the value `d` of the transaction's copy. -/
def putRec (s : State) (i c : Nat) (r : RedRec) (d : List Byte) : State :=
  let n := XTy.bytes r.ty
  match atomicNew (8 * n) r.fn (leVal d) (r.val.toNat % 2 ^ (8 * n)) 0 with
  | some x => s.modTxn i c (fun t => t.put r.va (leBytes n x))
  | none => s
/-- Applies one reduction record to the transaction's copy; a class where its consumption traps. -/
def applyRec (s : State) (i c : Nat) (r : RedRec) : State × Option Nat :=
  match txRead s i c (.cx i c) r.va (XTy.bytes r.ty) true with
  | (s1, .inl d) => (putRec s1 i c r d, none)
  | (s1, .inr cls) => (s1, some cls)
/-- Applies the records of a granule in program order and removes them (R281). -/
def applyRecs (s : State) (i c g : Nat) : State × Option Nat :=
  match (s.cx i c).txn with
  | none => (s, none)
  | some t =>
    let (s1, x) := (t.recs.filter (fun r => r.va / 256 = g)).foldl (fun (a : State × Option Nat) r =>
      if a.2.isSome then a else applyRec a.1 i c r) (s, none)
    (s1.modTxn i c (fun t => { t with recs := t.recs.filter (fun r => r.va / 256 ≠ g) }), x)
/-- Publishes the records of a granule: past the commit point nothing traps (R282); their consumption stood with the claim. -/
def commitRecs (s : State) (i c g : Nat) : State :=
  match (s.cx i c).txn with
  | none => s
  | some t => (t.recs.filter (fun r => r.va / 256 = g)).foldl (fun s r => putRec s i c r (s.txView i c r.va (XTy.bytes r.ty))) s

/-- Performs a granted access on the transaction's view: a store's bytes stand in `data`, an atomic's function and operands in
`words`; the value read, or the class with which its consumption traps. -/
def txApply (s : State) (i c : Nat) (q : Req) (n : Nat) : State × (List Byte ⊕ Nat) :=
  match applyRecs s i c (q.va / 256) with
  | (s0, some cls) => (s0, .inr cls)
  | (s0, none) =>
    match q.words with
    | [fn, b, e] =>
      let w := 8 * n
      (match txRead s0 i c q.who q.va n true with
      | (s1, .inr cls) => (s1, .inr cls)
      | (s1, .inl old) =>
        match atomicNew w fn.toNat (leVal old) (b.toNat % 2 ^ w) (e.toNat % 2 ^ w) with
        | some x => (s1.modTxn i c (fun t => t.put q.va (leBytes n x)), .inl old)
        | none => (s1, .inl old))
    | _ => if q.data = [] then txRead s0 i c q.who q.va n false else (s0.modTxn i c (fun t => t.put q.va q.data), .inl [])

/-- A tracked granule becomes the most recently used one. -/
def Core.touchGran (k : Core) (g : Nat) : Core :=
  { k with tile := k.tile.filter (fun e => !(e.gran && e.key = g)) ++ k.tile.filter (fun e => e.gran && e.key = g) }

/-- An access inside a transaction: served from the granules held, else requested at the home directory (R274). -/
def txAccess (s : State) (q : Req) (write : Bool) (n : Nat) : State :=
  let i := s.cur.core
  let c := s.cur.ctx
  let g := q.va / 256
  match s.me.txn with
  | none => s
  | some t =>
    let recs := t.recs.any (fun r => r.va / 256 = g)
    let w := t.wset.any (fun e => e.1 = g)
    let r := t.rset.any (fun e => e.1 = g)
    let held := (s.core q.who.core).tile.any (fun e => e.gran && e.key = g)
    if !recs && held && (w || (r && !write)) then
      let q' := { q with who := .cx i c, op := .tx write n, words := [], pc := s.me.irPc }
      let (s2, k) := match txApply (s.modCore q.who.core (fun k => k.touchGran g)) i c q n with
        | (s2, .inl d) => doneReq s2 { q' with data := d } 26
        | (s2, .inr cls) => doneReq s2 { q' with fault := some { cause := cSEV, detail := sliceDetail cSEV q.va cls } } 26
      s2.awaitReq k
    else ctxIssue s { q with op := .tx (write || recs) n, both := q.words ≠ [] || recs } true

/-! ### Loads and stores -/

/-- Checks a global address at issue (R138, R145). -/
def gChecked (s : State) (a : Word) (n : Nat) (k : State) : Out :=
  match gFault a n with
  | some c => ok (aFaultAt s c 0 (a.toNat / 256 % 2 ^ 40))
  | none => ok k

/-- A load of `n` bytes at `va`. -/
def gLoad (s : State) (va : Word) (n : Nat) (dest : Dest) (rx : Bool) (acq : Option Scope) : Out :=
  let q := Req.new s.myWho (.load n) va.toNat n dest
  let relaxed := rx && acq.isNone
  gChecked s va n (
    if s.me.txn.isSome then txAccess s q false n
    else
      let s0 := match dest with
        | .s sd _ => s.modMe (fun x => { x with sWrote := x.sWrote ||| BitVec.ofNat 16 (2 ^ sd.toNat) })
        | _ => s
      ctxIssue s0 { q with relaxed := relaxed } (!relaxed))

/-- A store of `bs` at `va`. -/
def gStore (s : State) (va : Word) (bs : List Byte) (rx nt : Bool) (rel : Option Scope) : Out :=
  let n := bs.length
  let q := { Req.new s.myWho (.store bs) va.toNat n .none with nt := nt, relaxed := rx || nt }
  let wait := !(rx || nt)
  let s0 := s.modMe (fun x => { x with stRes := x.stRes ++ [(va.toNat, bs)] })
  gChecked s va n (
    if s.me.txn.isSome then txAccess s0 { q with data := bs, nt := false, relaxed := false } true n
    else match rel with
      | some sc => ctxRelease s0 q sc wait
      | none => ctxIssue s0 { q with hold := s.myCore.pair.on } wait)

/-- `gld` (R145). -/
def execGld (k : LdK) (rx : Bool) (acq : Option Scope) (sd sa : SReg) (imm : BitVec 8) (s : State) : Out :=
  gLoad s (gAddr s sa imm k.size) k.size (.s sd k) rx acq
/-- `gst`. -/
def execGst (k : StK) (rx : Bool) (rel : Option Scope) (sd sa : SReg) (imm : BitVec 8) (s : State) : Out :=
  gStore s (gAddr s sa imm k.size) (leBytes k.size (s.aS sd).toNat) rx false rel
/-- `gst.nt` (R148). -/
def execGstNt (k : StK) (rx : Bool) (sd sa : SReg) (imm : BitVec 8) (s : State) : Out :=
  gStore s (gAddr s sa imm k.size) (leBytes k.size (s.aS sd).toNat) rx true none
/-- `gvld`. -/
def execGvld (rx : Bool) (acq : Option Scope) (vd : VReg) (sa : SReg) (imm : BitVec 8) (s : State) : Out :=
  gLoad s (gAddr s sa imm 64) s.groupBytes (.v vd) rx acq
/-- `gvst`. -/
def execGvst (rx : Bool) (rel : Option Scope) (vd : VReg) (sa : SReg) (imm : BitVec 8) (s : State) : Out :=
  gStore s (gAddr s sa imm 64) (leBytes s.groupBytes (s.aV vd)) rx false rel
/-- `gvst.nt` (R148). -/
def execGvstNt (rx : Bool) (vd : VReg) (sa : SReg) (imm : BitVec 8) (s : State) : Out :=
  gStore s (gAddr s sa imm 64) (leBytes s.groupBytes (s.aV vd)) rx true none

/-! ### Atomics, routine calls, reductions (R150, R151, R153) -/

/-- `ga.op`: function `fn` of R150. -/
def gAtomic (fn : Nat) (w64 : Bool) (o : GaOrd) (sd sa sb : SReg) (s : State) : Out :=
  let n := if w64 then 8 else 4
  let va := s.aS sa
  let q := Req.new s.myWho (.atomic n fn (s.aS sb) (s.aS sd)) va.toNat n (.s sd (if w64 then .d64 else .i32))
  gChecked s va n (
    if s.me.txn.isSome then txAccess s { q with words := [BitVec.ofNat 64 fn, s.aS sb, s.aS sd] } true n
    else match o with
      | .rel sc | .acqRel sc => ctxRelease s q sc true
      | _ => ctxIssue s q true)
/-- `ga.add`. -/
def execGaAdd (w : Bool) (o : GaOrd) (d a b : SReg) (s : State) : Out := gAtomic 0 w o d a b s
/-- `ga.min`. -/
def execGaMin (w : Bool) (o : GaOrd) (d a b : SReg) (s : State) : Out := gAtomic 1 w o d a b s
/-- `ga.max`. -/
def execGaMax (w : Bool) (o : GaOrd) (d a b : SReg) (s : State) : Out := gAtomic 2 w o d a b s
/-- `ga.minu`. -/
def execGaMinu (w : Bool) (o : GaOrd) (d a b : SReg) (s : State) : Out := gAtomic 3 w o d a b s
/-- `ga.maxu`. -/
def execGaMaxu (w : Bool) (o : GaOrd) (d a b : SReg) (s : State) : Out := gAtomic 4 w o d a b s
/-- `ga.and`. -/
def execGaAnd (w : Bool) (o : GaOrd) (d a b : SReg) (s : State) : Out := gAtomic 5 w o d a b s
/-- `ga.or`. -/
def execGaOr (w : Bool) (o : GaOrd) (d a b : SReg) (s : State) : Out := gAtomic 6 w o d a b s
/-- `ga.xor`. -/
def execGaXor (w : Bool) (o : GaOrd) (d a b : SReg) (s : State) : Out := gAtomic 7 w o d a b s
/-- `ga.swap`. -/
def execGaSwap (w : Bool) (o : GaOrd) (d a b : SReg) (s : State) : Out := gAtomic 8 w o d a b s
/-- `ga.cas`: sd holds the expected value. -/
def execGaCas (w : Bool) (o : GaOrd) (d a b : SReg) (s : State) : Out := gAtomic 9 w o d a b s

/-- `lcall` (R151); inside a transaction it aborts with UNSAFE. -/
def execLcall (sd sa sb : SReg) (rid : BitVec 8) (kn rn : BitVec 2) (s : State) : Out :=
  let va := s.aS sa
  let ws := (List.range (kn.toNat + 1)).map (fun k => s.aS (BitVec.ofNat 4 (sb.toNat + k)))
  let q := Req.new s.myWho (.lcall rid.toNat rn.toNat ws) va.toNat 64 (.words sd rn.toNat)
  gChecked s va 64 (
    if s.me.txn.isSome then abortMe s 5 0 (va.toNat / 256) else ctxIssue s q true)

/-- `xred`: a record inside a transaction, else an atomic without a result (R153, R281). -/
def gReduce (op : Nat) (ty : XTy) (sa sb : SReg) (s : State) : Out :=
  let n := XTy.bytes ty
  let va := s.aS sa
  let i := s.cur.core
  let c := s.cur.ctx
  let fn := xredFn op ty
  let r : RedRec := { va := va.toNat, fn := fn, ty := ty, val := s.aS sb }
  gChecked s va n (
    match s.me.txn with
    | none => ctxIssue s (Req.new s.myWho (.atomic n fn (s.aS sb) 0) va.toNat n .none) true
    | some t =>
      let g := va.toNat / 256
      if t.wset.any (fun e => e.1 = g) then
        (match applyRec s i c r with
        | (s1, none) => s1
        | (s1, some _) => abortMe s1 6 cSEV g)
      else if t.recs.length ≥ 64 then abortMe s 2 0 g
      else
        let s1 := s.modTxn i c (fun t => { t with recs := t.recs ++ [r] })
        if t.rset.any (fun e => e.1 = g) then txAccess s1 { Req.new s.myWho (.tx true 0) va.toNat n .none with both := true } true 0 else s1)
/-- `xred.add`. -/
def execXredAdd (ty : XTy) (sa sb : SReg) (s : State) : Out := gReduce 0 ty sa sb s
/-- `xred.min`. -/
def execXredMin (ty : XTy) (sa sb : SReg) (s : State) : Out := gReduce 1 ty sa sb s
/-- `xred.max`. -/
def execXredMax (ty : XTy) (sa sb : SReg) (s : State) : Out := gReduce 2 ty sa sb s
/-- `xred.or`. -/
def execXredOr (ty : XTy) (sa sb : SReg) (s : State) : Out := gReduce 3 ty sa sb s

/-! ### Fences (R135, R155) -/

/-- An A-slot fence: inside a transaction it completes at issue. -/
def ctxFence (s : State) (sc : Scope) (sd : Option SReg) : State :=
  if s.me.txn.isSome then (match sd with | some r => s.setS r 0 | none => s)
  else if s.performedAt s.myWho sc s.nextReq then
    (match sd with
     | some r => s.modMe (fun x => x.fenced r (fenceStatus x.lost x.refused))
     | none => s)
  else s.modMe (fun x => { x with st := .waitMem, wait := .fence sc sd })
/-- `fence.cl`. -/
def execFenceClA (s : State) : Out := ok (ctxFence s .cl none)
/-- `fence.dv`. -/
def execFenceDvA (s : State) : Out := ok (ctxFence s .dv none)
/-- `fence.sy sd`. -/
def execFenceSyA (sd : SReg) (s : State) : Out := ok (ctxFence s .sy (some sd))

/-- `fence.cl rd` (R135). -/
def execFenceCl (rd : XReg) (s : State) : Out := ok (ctDone s rd 0)
/-- `fence.dv rd`. -/
def execFenceDv (rd : XReg) (s : State) : Out := ok (ctDone s rd 0)
/-- `fence.sy rd`: waits for the thread's window stores, then reports and clears its record. -/
def execFenceSy (rd : XReg) (s : State) : Out :=
  if !s.performedAt s.ctWho .sy s.nextReq then ok (ctRetry s) else
  let t := s.myCore.ct
  ok (ctDone (s.modMyCt (fun t => { t with lost := false, refused := false })) rd (fenceStatus t.lost t.refused))

end Sys2Proof.Machine
end

