-- ==== Sys2Proof/Machine/Txn.lean ====
section
/-!
DEFINITION. Transactions (R152, R271–R291): opening, the home directory's decision, capacity, commit, and aborts that arrive.
-/
namespace Sys2Proof.Machine

/-! ### Opening, `xabort`, `xtest` (R152, R271) -/

/-- `xbegin target`: in a light handler ILLCTX; at D = 8 it aborts with NEST; at D = 0 it waits until the accesses before it are
performed at dv. -/
def execXbegin (blk : BitVec 10) (s : State) : Out :=
  let i := s.cur.core
  let c := s.cur.ctx
  let target := blk.setWidth 17 <<< 7
  if s.me.handler.isSome then illctx s else
  match s.me.txn with
  | some t =>
    if t.depth ≥ 8 then ok (abortMe s 4 0 0)
    else ok (s.modTxn i c (fun t => { t with depth := t.depth + 1 }))
  | none =>
    let s0 := s.modMe (fun x => { x with age := some (x.age.getD ⟨s.time, i, c⟩) })
    if s.performedAt s.myWho .dv s.nextReq then ok (openTxn s0 i c target)
    else ok (s0.modMe (fun x => { x with st := .waitMem, wait := .xbegin target }))

/-- `xabort code`: EXPLICIT inside a transaction; in a light handler ILLCTX. -/
def execXabort (code : BitVec 8) (s : State) : Out :=
  if s.me.handler.isSome then illctx s else ok (abortMe s 3 code.toNat 0)

/-- `xtest sd`: sd := D. -/
def execXtest (sd : SReg) (s : State) : Out :=
  ok (s.setS sd (match s.me.txn with | some t => BitVec.ofNat 64 t.depth | none => 0))

/-! ### The home directory (R274–R277) -/

/-- Whether an age is younger than another (R272). -/
def Age.after (a b : Age) : Bool :=
  decide (a.time > b.time) || (decide (a.time = b.time) && (decide (a.core > b.core) || (decide (a.core = b.core) && decide (a.ctx > b.ctx))))

/-- Age of a context's transaction. -/
def State.ageOf (s : State) (w : Nat × Nat) : Age := match (s.cx w.1 w.2).txn with | some t => t.age | none => ⟨0, w.1, w.2⟩

/-- The youngest of a list of contexts. -/
def State.youngest (s : State) (ws : List (Nat × Nat)) : Option (Nat × Nat) :=
  ws.foldl (fun (b : Option (Nat × Nat)) w => match b with
    | none => some w
    | some v => if (s.ageOf w).after (s.ageOf v) then some w else b) none

/-- Markers of a granule. -/
def State.marksOf (s : State) (g : Nat) : Marks := (sfind s.coh.tx g).getD { readers := [], writer := none }
/-- Directory entries of a home slice. -/
def State.dirAt (s : State) (h : Nat) : List (Nat × Marks) := s.coh.tx.filter (fun e => homeSlice (e.1 * 256) = h)

/-- Holders of the resource a request lacks at its home slice, a reader place or a directory entry, each with a granule it tracks there
(R276). -/
def State.dirFull (s : State) (h g : Nat) (w : Nat × Nat) (write : Bool) : Option (List ((Nat × Nat) × Nat)) :=
  let m := s.marksOf g
  let all := (s.dirAt h).flatMap (fun e => (e.2.readers ++ e.2.writer.toList).map (fun w => (w, e.1)))
  if (sfind s.coh.tx g).isNone && decide ((s.dirAt h).length ≥ 8192) then some all
  else if !write && !m.readers.contains w && decide (m.readers.length ≥ 8) then some (m.readers.map (fun w => (w, g)))
  else none

/-- The least recently used speculative granule of a full tile buffer must move to the versioned store (R276). -/
def Core.mustSpill (k : Core) (g : Nat) : Option Nat :=
  let sp := k.tile.filter (fun e => e.gran && e.spec && e.key ≠ g)
  if sp.length + (k.pair.grans.length - k.pair.vgrans.length) ≥ 128 then sp.head?.map (·.key) else none

/-- Physical granule and holder of a speculative granule of a core. -/
def Core.ownerOfGran (k : Core) (g : Nat) : Option (Nat × Nat) :=
  k.ctxs.findSome? (fun x => match x.2.txn with
    | some t => (t.wset.find? (fun e => e.1 = g)).map (fun e => (x.1, e.2))
    | none => none)

/-- A marker is set for a context. -/
def State.mark (s : State) (g : Nat) (w : Nat × Nat) (write : Bool) : State :=
  let m := s.marksOf g
  let m' : Marks := if write then { m with writer := some w }
    else if m.readers.contains w then m else { m with readers := m.readers ++ [w] }
  { s with coh := { s.coh with tx := sins g m' s.coh.tx } }

/-- The transaction of a context tracks a granule. -/
def Txn.track (t : Txn) (vg pg : Nat) (write : Bool) : Txn :=
  let k := (vg, pg)
  if write then { t with wset := if t.wset.contains k then t.wset else t.wset ++ [k] }
  else { t with rset := if t.rset.contains k then t.rset else t.rset ++ [k] }

/-- A granule enters the tile buffer as its most recently used entry, speculative when its transaction has it in its write set; a full
buffer drops its oldest read copy, whose marker stays (R276). -/
def Core.fillGran (k : Core) (g : Nat) (spec : Bool) : Core :=
  let rest := k.tile.filter (fun e => !(e.gran && e.key = g))
  let kept := if (rest.filter (fun e => e.gran)).length < 128 then rest else
    match rest.find? (fun e => e.gran && !e.spec) with
    | some x => rest.erase x
    | none => rest
  { k with tile := kept ++ [{ key := g, gran := true, spec := spec, r := true, w := spec }] }

/-- The fill of a granule's line is on its way; the cycles until it is there. -/
def startFill (s : State) (line : Nat) : State × Nat :=
  let f := s.fillCost line
  if f = 0 then (s, 0)
  else if (sfind s.coh.fills line).isSome then (s, f)
  else (State.after { s with coh := { s.coh with fills := sins line [] s.coh.fills } } f (.dramFill line), f)

/-- Answers a request that loses: the reply comes at T and carries the abort (R277). -/
def txLose (s : State) (r d cause : Nat) : State :=
  s.answer r d (fun q => { q with ok := false, words := [BitVec.ofNat 64 cause] })

/-- Consumes the values that the records of a claimed granule combine with; a class where one traps (R282, R286). -/
def readRecs (s : State) (i c g : Nat) : State × Option Nat :=
  match (s.cx i c).txn with
  | none => (s, none)
  | some t =>
    (t.recs.filter (fun r => r.va / 256 = g)).foldl (fun (a : State × Option Nat) x =>
      if a.2.isSome then a else
      match txRead a.1 i c (.cx i c) x.va (XTy.bytes x.ty) true with
      | (s1, .inl _) => (s1, none)
      | (s1, .inr cls) => (s1, some cls)) (s, none)

/-- The home grants a request: markers, the granule in the tile buffer, the access on the transaction's view (R274). -/
def txGrant (s : State) (r : Nat) (q : Req) (i c d extra : Nat) : State :=
  let g := q.va / 256
  let pg := q.pa / 256
  let write := q.op.writes
  let had := (match (s.cx i c).txn with | some t => t.rset.any (fun e => e.1 = g) | none => false)
    && (s.core i).tile.any (fun e => e.gran && e.key = g)
  let spec := write || (match (s.cx i c).txn with | some t => t.wset.any (fun e => e.1 = g) | none => false)
  let claim := match q.op with | .claim => true | _ => false
  let s1 := ((s.mark pg (i, c) write).modTxn i c (fun t => t.track g pg write)).modCore i (fun k => k.fillGran g spec)
  let s1 := { s1 with coh := { s1.coh with vstore := s1.coh.vstore.filter (fun e => e.1 ≠ pg) } }
  let s2 := (linesOf (pg * 256) 256).foldl (fun s l => s.homeRead l) (s1.scrubAll (s1.nlOf q) q.pa q.size)
  if claim then
    -- the records of a claimed granule are consumed here, before the commit point (R282, R286)
    (match readRecs s2 i c g with
    | (s3, none) => s3.answer r d (fun q => { q with ok := true, words := [] })
    | (s3, some cls) => s3.failReq r d cSEV cls)
  else
  let (s3, f) := if had && write then (s2, 0) else startFill s2 (q.pa / 64)
  let n := match q.op with | .tx _ n => n | _ => 0
  let (s4, old) := txApply s3 i c q n
  let s5 := if (s4.core i).pair.on then
      (txApply (s4.modTxn (i ^^^ 1) c (fun t => t.track g pg write)) (i ^^^ 1) c q n).1
    else s4
  match (s5, old) with
  -- an upgrade moves no lines: its reply comes at T with F = 0
  | (s6, .inl x) => s6.answer r (d + f + extra + (if had && write then 0 else 3)) (fun q => { q with ok := true, data := x, words := [] })
  | (s6, .inr cls) => s6.failReq r (d + f + extra) cSEV cls

/-- A transactional request is decided at its home slice (TX_REQUEST). -/
def txRequest (s : State) (r : Nat) : State :=
  match s.req r with
  | none => s
  | some q =>
    match q.who with
    | .cx i c =>
      if !q.live then { s with reqs := sdel r s.reqs } else
      let home := homeOf q.pa
      let h := homeSlice q.pa
      let pg := q.pa / 256
      let write := q.op.writes
      let d := if home = q.die then 0 else 44
      let again := fun (s : State) (n : Nat) => s.after n (.txRequest r)
      if s.lineBusy r (pg * 256) 256 then again s 1 else
      let m := s.marksOf pg
      let rivals := ((if write then m.readers else []) ++ m.writer.toList).filter (fun w => w ≠ (i, c))
      let mine := s.ageOf (i, c)
      if rivals ≠ [] then
        if rivals.all (fun w => (s.ageOf w).after mine) then
          let (s1, w) := s.abortHolders home q.slice rivals 1 pg
          again s1 w
        else txLose s r d 1
      else
        let owners := s.homeOwners home (linesOf (pg * 256) 256)
        if owners ≠ [] && q.ok then
          let (s1, w) := askCopies s q.die home q.slice owners false
          again (s1.modReq r (fun q => { q with ok := false })) w
        else
        -- a victim of CAPACITY: the requester loses, another is aborted and the request decided afresh
        let evict := fun (s : State) (hs : List ((Nat × Nat) × Nat)) =>
          match s.youngest ((i, c) :: hs.map (·.1)) with
          | some w =>
            if w = (i, c) then txLose s r d 2
            else
              let g := match hs.find? (fun e => e.1 = w) with | some e => e.2 | none => pg
              let (s1, n) := s.abortHolders home q.slice [w] 2 g
              again s1 n
          | none => s
        match s.dirFull h pg (i, c) write with
        | some hs => evict s hs
        | none =>
          match (s.core i).mustSpill (q.va / 256) with
          | none => txGrant s r q i c d 0
          | some old =>
            match (s.core i).ownerOfGran old with
            | none => txGrant (s.modCore i (fun k => { k with tile := k.tile.filter (fun e => !(e.gran && e.key = old)) })) r q i c d 0
            | some (_, pg') =>
              let h' := homeSlice (pg' * 256)
              let held := s.coh.vstore.filter (fun e => e.2 = h')
              if held.length ≥ 2048 then
                evict s (held.filterMap (fun e => (s.marksOf e.1).writer.map (fun w => (w, e.1))))
              else
                let hh := hops (clusterOf i) (dieOf i * 32 + h' % 32)
                let cc := if h' / 32 = dieOf i then 0 else 1
                txGrant { (s.modCore i (fun k => { k with tile := k.tile.filter (fun e => !(e.gran && e.key = old)) })) with
                  coh := { s.coh with vstore := s.coh.vstore ++ [(pg', h')] } } r q i c d (4 * hh + 88 * cc + 4)
    | _ => s

/-- TX_REQUEST. -/
def execTxRequest (s : State) : Out :=
  match s.cur.ev with
  | .txRequest r => ok (txRequest s r)
  | _ => notEnabled "TX_REQUEST"

/-- An abort reaches its victim (TX_ABORT_ARRIVAL): a transaction that still tracks the granule and has not passed its commit
point aborts, and its twin's with it (R278, R282, R289). -/
def execTxAbortArrival (s : State) : Out :=
  match s.cur.ev with
  | .txAbortArrival i c cause code retry pg =>
    match (s.cx i c).txn with
    | none => ok s
    | some t =>
      match (t.wset ++ t.rset).find? (fun e => e.2 = pg) with
      | none => ok s
      | some e =>
        if t.committing then ok s else
        let s1 := abortTxn s i c cause code retry e.1
        ok (if (s.core i).pair.on then abortTxn s1 (i ^^^ 1) c cause code retry e.1 else s1)
  | _ => notEnabled "TX_ABORT_ARRIVAL"

/-! ### Commit (R282) -/

/-- Home slices of tracked granules. -/
def Txn.slices (t : Txn) (l : List (Nat × Nat)) : List Nat :=
  dedup ((l.filter (fun e => t.rset.contains e || t.wset.contains e)).map (fun e => homeSlice (e.2 * 256)))
/-- h and c of R25 from a core's cluster to a home slice, as `2h + 44c`. -/
def wayTo (core h : Nat) : Nat := 2 * hops (clusterOf core) (dieOf core * 32 + h % 32) + (if h / 32 = dieOf core then 0 else 44)
/-- Greatest of a list. -/
def maxOf (l : List Nat) : Nat := l.foldl max 0

/-- The bookkeeping of a commit point: TXSTAT cleared, age latch empty, held commands free (R283, R284). -/
def commitPoint (s : State) (i c : Nat) : State :=
  releaseHeld (s.modCx i c (fun x => { x with txstat := 0, age := none })) i c

/-- A commit without writes: its commit point is now, the reply comes 26 cycles later, and a message to each home slice that
holds its read markers clears them there. -/
def commitReads (s : State) (i c : Nat) (t : Txn) : State :=
  let s1 := commitPoint (s.modCx i c (fun x => { x with txn := none })) i c
  let s2 := (s1.modCore i (fun k => k.dropGrans c (t.rset.map (·.1))))
  let s3 := (t.slices t.rset).foldl (fun s h => s.after (13 + wayTo i h) (.txCommitMessage i c (256 + h))) s2
  let (s4, r) := doneReq s3 { Req.new (.cx i c) (.tx false 0) 0 1 .none with atSy := true } 26
  s4.modCx i c (fun x => { x with st := .waitMem, wait := .reply r })

/-- The publish step: a message to each home slice; the reply comes when all have published. -/
def startPublish (s : State) (i c : Nat) (t : Txn) : State :=
  let hs := t.slices (t.wset ++ t.rset)
  let n := fun (h : Nat) => ((dedup (t.wset.map (·.2))).filter (fun g => homeSlice (g * 256) = h)).length
  let s1 := s.modTxn i c (fun t => { t with msgs := hs.length })
  let s2 := hs.foldl (fun s h => s.after (13 + wayTo i h) (.txCommitMessage i c h)) s1
  let (s3, r) := doneReq s2 { Req.new (.cx i c) (.tx true 0) 0 1 .none with atSy := true }
    (26 + maxOf (hs.map (fun h => 2 * wayTo i h + 4 * n h)))
  s3.modCx i c (fun x => { x with st := .waitMem, wait := .reply r })

/-- Begins a commit: the claim step when records remain, else the publish step. -/
def startCommit (s : State) (i c : Nat) : State :=
  match (s.cx i c).txn with
  | none => s
  | some t =>
    let gs := dedup (t.recs.map (fun r => r.va / 256))
    if gs = [] then (if t.wset = [] then commitReads s i c t else startPublish s i c t)
    else
      let s1 := (s.modTxn i c (fun t => { t with claims := gs.length })).modCx i c
        (fun x => { x with st := .waitMem, wait := .commit })
      gs.foldl (fun s g => (issueReq s { Req.new (.cx i c) .claim (g * 256) 256 .none with pc := (s.cx i c).irPc }).1) s1

/-- Marks on speculative elements travel with the lines to their home (R318). -/
def publishMarks (t : Txn) (m : List (Nat × Mark)) : List (Nat × Mark) :=
  t.marks.foldl (fun m e => match t.phys (e.1 / 256) with
    | some pg => sins (pg * 256 + e.1 % 256) e.2 m
    | none => m) m
/-- Bytes in runs of rising addresses, each within a granule. -/
def cellRuns (m : List Host.Cell) : List (Nat × List Byte) :=
  m.foldr (fun e r => match r with
    | (a, bs) :: t => if a = e.1 + 1 && a % 256 ≠ 0 then (e.1, e.2 :: bs) :: t else (e.1, [e.2]) :: r
    | [] => [(e.1, [e.2])]) []
/-- The last commit message has arrived: everything the transaction wrote, with its records applied, is published. -/
def publish (s : State) (i c : Nat) (t : Txn) : State :=
  let gs := dedup (t.recs.map (fun r => r.va / 256))
  let s1 := gs.foldl (fun s g => commitRecs s i c g)
    (match t.latent with | [] => s | l => l.foldl (fun s e => scrubSpec s i c e.1) s)
  match (s1.cx i c).txn with
  | none => s1
  | some t1 =>
    let s2 := (cellRuns t1.spec).foldl (fun s e => match t1.phys (e.1 / 256) with
      | some pg => s.homeWrite (pg * 256 + e.1 % 256) e.2 none
      | none => s) s1
    let s2 := { s2 with coh := { s2.coh with marks := publishMarks t1 s2.coh.marks } }
    let s3 := commitPoint (s2.modTxn i c (fun t => { t with committing := true })) i c
    s3.modCore i (fun k => k.dropGrans c ((t1.rset ++ t1.wset).map (·.1)))

/-- A commit message arrives (TX_COMMIT_MESSAGE). The last one at a slice is the commit point; each slice publishes its granules
in 4 cycles each and then clears the transaction's markers, the step that 256 + slice names. -/
def execTxCommitMessage (s : State) : Out :=
  match s.cur.ev with
  | .txCommitMessage i c h =>
    if h ≥ 256 then
      let k := h - 256
      let tx := (s.coh.tx.map (fun e => if homeSlice (e.1 * 256) = k then (e.1, e.2.drop i c) else e)).filter
        (fun e => e.2.readers ≠ [] || e.2.writer.isSome)
      let mine := s.coh.tx.filterMap (fun e => if e.2.writer = some (i, c) then some e.1 else none)
      ok { s with coh := { s.coh with tx := tx, vstore := s.coh.vstore.filter (fun e => !(e.2 = k && mine.contains e.1)) } }
    else
    match (s.cx i c).txn with
    | none => ok s
    | some t =>
      if t.msgs ≠ 1 then ok (s.modTxn i c (fun t => { t with msgs := t.msgs - 1, reached := t.reached ++ [h] })) else
      let hs := t.slices (t.wset ++ t.rset)
      let last := maxOf (hs.map (wayTo i))
      let s1 := publish (s.modTxn i c (fun t => { t with msgs := 0 })) i c t
      ok (hs.foldl (fun s k =>
        let n := ((dedup (t.wset.map (·.2))).filter (fun g => homeSlice (g * 256) = k)).length
        s.after (wayTo i k + 4 * n - last) (.txCommitMessage i c (256 + k))) s1)
  | _ => notEnabled "TX_COMMIT_MESSAGE"

/-- `xend` (R152, R282): in a light handler or at D = 0 ILLCTX. A coupled pair first exchanges fingerprints for 8 cycles (R289). -/
def execXend (s : State) : Out :=
  if s.me.handler.isSome then illctx s else
  match s.me.txn with
  | none => illctx s
  | some t =>
    if t.depth > 1 then ok (s.modTxn s.cur.core s.cur.ctx (fun t => { t with depth := t.depth - 1 }))
    else if s.myCore.pair.on then
      let s1 := s.modMe (fun x => { x with st := .waitMem, wait := .commit })
      ok (if s.myCore.pair.odd then s1 else s1.after 8 (.pairCheckpoint s.cur.core))
    else ok (startCommit s s.cur.core s.cur.ctx)

/-- The commit of a context, or of both twins, is over: D := 0 (R152). -/
def endCommit (s : State) (i c : Nat) : State := s.modCx i c (fun x => match x.txn with
  | some t => if t.committing then { x with txn := none } else x
  | none => x)

end Sys2Proof.Machine
end

