-- ==== Sys2Proof/Machine/Reply.lean ====
section
/-!
DEFINITION. Replies that reach contexts, control threads and gather units (R138, R146, R147, R189, R206, R264), and the steps
of slices that send them.
-/
namespace Sys2Proof.Machine

/-! ### The fingerprint (R330) -/

/-- One step of the CRC for `n` bits. -/
def crcBits : Nat → Nat → Nat
  | 0, x => x
  | n + 1, x => crcBits n (if x ≥ 2 ^ 63 then (x * 2 % 2 ^ 64) ^^^ 0x42F0E1EBA9EA3693 else x * 2)
/-- CRC-64 of bytes, most significant bit first. -/
def crc64 (f : Word) (bs : List Byte) : Word :=
  bs.foldl (fun f b => BitVec.ofNat 64 (crcBits 8 (f.toNat ^^^ (b.toNat * 2 ^ 56)))) f
/-- PC and context number of a bundle. -/
def bundleHead (c : Nat) (pc : BitVec 17) : List Byte := leBytes 8 (pc.toNat + c * 2 ^ 32)
/-- The result of a relaxed load enters the fingerprint of a coupled core when it comes (DEDUCED, log 36: its bundle retired before). -/
def pairLate (s : State) (i c : Nat) (q : Req) : State :=
  let bytes := match q.dest with
    | .s _ k => leBytes 8 (k.extend (leVal q.data)).toNat
    | .v _ => q.data
    | _ => []
  if !q.relaxed || bytes = [] then s else
  s.modCore i (fun k => if !k.pair.on then k else { k with pair := { k.pair with f := crc64 k.pair.f (bundleHead c q.pc ++ bytes) } })

/-! ### Replies -/

/-- A register that a load's data reaches holds it from this cycle on, also in the snapshot of a bundle that waits (R35, R160, R271). -/
def Ctx.land (x : Ctx) (r : SReg) (v : Word) : Ctx :=
  if r = 0 then x else { x with snap := { x.snap with s := sput 0 x.snap.s r.toNat v } }
/-- Delivers a reply's data to a context's registers; that a bundle wrote the register stands since its issue (R142). -/
def deliverData (s : State) (i c : Nat) (q : Req) : State :=
  match q.dest with
  | .s sd k => s.modCx i c (fun x =>
      let v := k.extend (leVal q.data)
      let y := (x.ws sd v).land sd v
      if q.relaxed then { y with sWrote := x.sWrote, aRes := x.aRes } else y)
  | .v vd => (s.putV i c vd.toNat (leVal q.data)).modCx i c (fun x => { x with
      vRes := if q.relaxed then (s.cx i c).vRes else x.vRes
      snap := { x.snap with v := setGroup x.snap.v (s.core i).mode c vd.toNat (leVal q.data) } })
  | .words sd rn =>
    (List.range rn).foldl (fun s k => s.modCx i c (fun x => x.ws (BitVec.ofNat 4 (sd.toNat + k)) (q.words.getD k 0))) s
  | _ => s

/-- An abort that a transactional reply carries (R274, R277, R286): after a page fault the context waits for the MMP. -/
def txFailed (s : State) (i c : Nat) (q : Req) : State :=
  match q.fault with
  | some f =>
    -- a service that has ended before this reply has left its answer in `words` (R286)
    let retry := f.cause = cPAGE && q.words ≠ [0]
    let s1 := abortTxn s i c 6 f.cause retry (q.va / 256)
    if retry && q.words = [] then s1.modCx i c (fun x => if x.st = .run then { x with st := .waitMem, wait := .page } else x) else s1
  | none =>
    match (q.words.getD 0 0).toNat with
    | 6 => abortTxn s i c 6 cPROT false (q.va / 256)
    | 2 => abortTxn s i c 2 0 false (q.va / 256)
    | 8 => abortTxn s i c 8 0 false (q.va / 256)
    | _ => abortTxn s i c 1 0 true (q.va / 256)

/-- Whether a reply is that of a commit's publish step. -/
def Req.isCommit (q : Req) : Bool := q.op.isTx && q.size = 1

/-- A transactional reply: a claim granted, the end of a commit, the value of an access, or an abort. -/
def txReply (s : State) (i c r : Nat) (q : Req) : State :=
  let x := s.cx i c
  let odd := (s.core i).pair.on && (s.core i).pair.odd
  if q.fault.isSome || !q.ok then (if x.wait = .reply r || x.wait = .commit then txFailed s i c q else s)
  else match q.op with
    | .claim =>
      if odd || x.wait ≠ .commit then s else
      let s1 := s.modTxn i c (fun t => { t with claims := t.claims - 1 })
      (match (s1.cx i c).txn with
      | some t => if t.claims = 0 then startPublish s1 i c t else s1
      | none => s1)
    | _ =>
      if odd && q.isCommit && x.wait = .commit then
        wakeCx (s.modCx i c (fun x => { x with txn := none, txstat := 0, age := none })) i c
      else if x.wait = .reply r then wakeCx (deliverData (endCommit s i c) i c q) i c
      else s

/-- A reply reaches a context: data, a fault, or the end of its wait (R138, R146, R147). -/
def cxReply (s : State) (i c r : Nat) (q : Req) : State :=
  let x := s.cx i c
  let waits := x.wait = .reply r
  if q.op.isTx then txReply s i c r q
  else match q.fault with
    | some f =>
      let rep : FaultRep := { cause := f.cause, pc := q.pc, detail := f.detail, bundle := q.bundle, gran := q.va / 256 }
      if waits then takeCtxFault s i c rep x.alone
      else if q.quiet then s
      else s.modCx i c (fun x => { x with heldFaults := x.heldFaults ++ [rep] })
    | none =>
      let s1 := pairLate (deliverData s i c q) i c q
      if waits then wakeCx s1 i c else s1

/-- Cause of the control-thread exception a slice fault becomes (R189, R309). -/
def ctCause (op : ReqOp) (cause : Nat) : Nat :=
  let st := match op with | .load _ | .lr _ => false | _ => true
  if cause = cPAGE then (if st then 15 else 13) else if cause = cSEV then 26 else if st then 7 else 5

/-- A reply reaches a control thread. -/
def ctReply (s : State) (i r : Nat) (q : Req) : State :=
  if (s.core i).ct.wait ≠ .reply r then s else
  match q.fault with
  | some f =>
    let a := match q.remote with
      | some c => 2 * 2 ^ 48 + c * 2 ^ 32 + q.va
      | none => 2 ^ 48 + q.va
    takeTrap s i (ctCause q.op f.cause) (BitVec.ofNat 64 a)
  | none =>
    match q.dest with
    | .x rd k => ctFinish s i rd (k.extend (leVal q.data))
    | .scx rd => ctFinish s i rd (if q.ok then 0 else 1)
    | _ => ctFinish s i 0 0

/-- A reply reaches a gather unit (R262–R264). -/
def guReply (s : State) (i r : Nat) (q : Req) : State :=
  let drop := { s with reqs := sdel r s.reqs }
  match q.dest.slot, q.fault with
  | some slot, some f => checkDrain (drop.at s.time (.gatherFetchFault i slot (match f.cause with | 4 => 1 | _ => 2) (q.va / 64 * 64))) i slot
  | some slot, none =>
    match q.dest with
    | .fetch _ false _ => checkDrain drop i slot
    | _ => s.at s.time (.gatherTrigger i r)
  | none, _ => drop

/-- A reply that has come: performed at dv, and at sy unless the fabric has still to acknowledge it; then the issuer sees it. -/
def replyArrives (s : State) (r : Nat) (q : Req) : State :=
  let keep := !q.atSy && (match q.op, regionOf q.pa with | .store _, .peer _ => q.fault.isNone | _, _ => false)
  let s1 := s.setReq r { q with atDv := true, atSy := q.atSy || !keep }
  let page := q.op.isTx && (match q.fault with | some f => f.cause = cPAGE && q.words = [] | none => false)
  let s1 := s1.fillOwn q
  let s2 := if !q.live then s1 else
    match q.who with
    | .cx i c =>
      let p := (s1.core i).pair
      let s1 := if p.on && !q.op.isTx && (decide (r < p.ckReq) || p.kept.contains r) then
          s1.modCore i (fun k => { k with pair := { k.pair with came := k.pair.came ++ [(r, q)] } })
        else s1
      let a := cxReply s1 i c r q
      if (s.core i).pair.on && !(s.core i).pair.odd then cxReply a (i ^^^ 1) c r q else a
    | .ct i => ctReply s1 i r q
    | .gu i => guReply s1 i r q
  let gu := match q.who with | .gu _ => q.live | _ => false
  let s3 := if keep || page || gu then s2 else { s2 with reqs := sdel r s2.reqs }
  recheckWho s3 q.who

/-- GLOBAL_REPLY: the reply of a request, or before it the serving slice's acceptance signal (R206). -/
def execGlobalReply (s : State) : Out :=
  match s.cur.ev with
  | .globalReply r =>
    match s.req r with
    | none => ok s
    | some q =>
      if q.atDv then ok s
      else if q.st ≠ .done || s.time < q.replyAt then
        ok (recheckWho (s.setReq r { q with accepted := true }) q.who)
      else ok (replyArrives s r q)
  | _ => notEnabled "GLOBAL_REPLY"

/-- A held fault report puts its context in FAULTED in its own slot (R147, R305). -/
def execRelaxedLateFault (s : State) : Out :=
  match s.cur.ev with
  | .relaxedLateFault i c _ =>
    match (s.cx i c).heldFaults with
    | [] => ok s
    | f :: fs => ok (takeCtxFault (s.modCx i c (fun x => { x with heldFaults := fs })) i c f true)
  | _ => notEnabled "RELAXED_LATE_FAULT"

/-- SLICE_ACCESS. -/
def execSliceAccess (s : State) : Out :=
  match s.cur.ev with
  | .sliceAccess r => ok (sliceAccess s r)
  | _ => notEnabled "SLICE_ACCESS"

/-- DRAM_FILL. -/
def execDramFill (s : State) : Out :=
  match s.cur.ev with
  | .dramFill l => ok (dramFill s l)
  | _ => notEnabled "DRAM_FILL"

/-- A remote local-store access is performed at its target (R190); one into a released or snuffed core faults (R327). -/
def execRemoteLsAccess (s : State) : Out :=
  match s.cur.ev with
  | .remoteLsAccess r =>
    match s.req r with
    | none => ok s
    | some q =>
      match q.remote with
      | none => ok s
      | some t =>
        let i := q.who.core
        let back := 13 + travel (clusterOf i) (clusterOf t)
        let fin := fun (s : State) (f : Req → Req) =>
          (s.modReq r (fun q => { (f q) with st := .done, atSy := true, replyAt := s.time + back })).after back (.globalReply r)
        if s.lau.deadClusters.contains (clusterOf t) || !s.sameLaunch i t then
          ok (fin s (fun q => { q with fault := some { cause := cPROT, detail := 0 } }))
        else
          match q.op with
          | .store bs => ok (fin (s.lsPut t q.va bs) (fun q => q))
          | _ =>
            let act := s.lsAct i t q.va q.size
            if act = 1 || act = 2 then ok (fin s (fun q => { q with fault := some { cause := cSEV, detail := 0 } }))
            else
              let s1 := if act = 3 then s.snuffCore i else s
              ok (fin s1 (fun q => { q with data := s.lsGet t q.va q.size }))
  | _ => notEnabled "REMOTE_LS_ACCESS"

end Sys2Proof.Machine
end

