-- ==== Sys2Proof/Machine/Mmp.lean ====
section
/-!
DEFINITION. Coherence between dies (R214–R217), frames and tables, changes of translations (R202, R203), the clock sweeper
(R204) and the page-fault service (R306, R307, R342).
-/
namespace Sys2Proof.Machine

/-! ### Spaces -/

/-- The space of an ASID. -/
def State.space (s : State) (asid : Nat) : Option Space := sfind s.lau.spaces asid
/-- Changes a space. -/
def State.modSpace (s : State) (asid : Nat) (f : Space → Space) : State :=
  match s.space asid with
  | some x => { s with lau := { s.lau with spaces := sins asid (f x) s.lau.spaces } }
  | none => s
/-- The leaf of a page of a space, whether or not its root is installed. -/
def State.spaceLeaf (s : State) (asid va : Nat) : Option Leaf :=
  (s.space asid).bind (fun x => findLeafGo s 4 0 x.root va)
/-- The numeric layout of the page a physical address lies in; 0 for an address of no page. -/
def State.nlOfPa (s : State) (pa : Nat) : Nat :=
  (s.lau.spaces.findSome? (fun x => x.2.pages.findSome? (fun p =>
    match s.spaceLeaf x.1 (p * 65536) with
    | some l => if pa / 65536 = l.pa (p * 65536) / 65536 then some (pteNl l.pte) else none
    | none => none))).getD 0

/-! ### Home actions and RDC messages (R215) -/

/-- GETS: the home handles an RDC read miss. -/
def execGets (s : State) : Out :=
  match s.cur.ev with
  | .gets r _ => ok (match s.req r with | some q => homeGets s r q q.pa (s.nlOf q) | none => s)
  | _ => notEnabled "GETS"

/-- GETM: the home handles an RDC write to a line not in M or E, and what another die's agent performs at the home. -/
def execGetm (s : State) : Out :=
  match s.cur.ev with
  | .getm r =>
    ok (match s.req r with
    | some q => homeWriteReq s r q q.pa (s.nlOf q) (match q.op with | .store bs => bs | _ => [])
    | none => s)
  | _ => notEnabled "GETM"

/-- Whether the home discards a message of this number from an owner (R217). -/
def State.cutOff (s : State) (owner num : Nat) : Bool :=
  match sfind s.coh.ownCut owner with
  | some q => decide ((num + 2 ^ 32 - q) % 2 ^ 32 < 2 ^ 31) && num ≠ q
  | none => false

/-- A die gives up its copy of a line, if it still holds one; dirty data goes to the home under the die's next ownership number, and
the directory no longer names the die (R215, R216). -/
def giveLine (s : State) (die line : Nat) : State :=
  let s0 := s.setDir line ((s.lineDir line).without die)
  match s.rdcAt die line with
  | none => s0
  | some e =>
    if e.st = .m || e.st = .o then
      let (s1, n) := s0.nextOwn die
      let s2 := s1.setRdc die line none
      let s3 := { s2 with coh := { s2.coh with mirror := sdel line s2.coh.mirror } }
      if s.cutOff die n then s3 else State.install { s3 with mem := putCells s3.mem (line * 64) (leBytes 64 e.data.toNat) } line
    else s0.setRdc die line none

/-- WBACK: an RDC evicts a line in M or O. -/
def execWback (s : State) : Out :=
  match s.cur.ev with
  | .wback die line =>
    (match s.rdcAt die line with
    | some e => if e.st = .m || e.st = .o then ok (giveLine s die line) else ok s
    | none => ok s)
  | _ => notEnabled "WBACK"

/-- RDC_EVICT_CLEAN: an RDC drops a line in E or S. -/
def execRdcEvictClean (s : State) : Out :=
  match s.cur.ev with
  | .rdcEvictClean die line =>
    (match s.rdcAt die line with
    | some e => if e.st = .e || e.st = .s then ok (s.setRdc die line none) else ok s
    | none => ok s)
  | _ => notEnabled "RDC_EVICT_CLEAN"

/-- RECALL_REQUEST: an owner answers with its data: M → O, E → S; one that has dropped its copy silently answers without (R215). -/
def execRecallRequest (s : State) : Out :=
  match s.cur.ev with
  | .recallRequest die line => ok (if (s.lineDir line).owner = some die then s.recalled line true else s)
  | _ => notEnabled "RECALL_REQUEST"

/-- INVALIDATION_REQUEST: a die's copy goes, dirty data to the home. -/
def execInvalidationRequest (s : State) : Out :=
  match s.cur.ev with
  | .invalidationRequest die line => ok (giveLine s die line)
  | _ => notEnabled "INVALIDATION_REQUEST"

/-- MIRROR_UPDATE: the buddy's slice keeps the new line, or writes the home copy when the buddy is the home (R216). -/
def execMirrorUpdate (s : State) : Out :=
  match s.cur.ev with
  | .mirrorUpdate owner line data num =>
    (match s.rdcAt owner line with
    | some e =>
      if s.cutOff owner num || !(e.st = .m || e.st = .o) then ok s
      else if homeOf (line * 64) = owner ^^^ 1 then ok { s with mem := putCells s.mem (line * 64) (leBytes 64 data.toNat) }
      else ok { s with coh := { s.coh with mirror := sins line { owner := owner, data := data, num := num } s.coh.mirror } }
    | none => ok s)
  | _ => notEnabled "MIRROR_UPDATE"

/-- Ownership numbers of an owner's mirror updates still on their way. -/
def State.mirrorPending (s : State) (owner : Nat) : List Nat :=
  s.agenda.filterMap (fun e => match e.2 with | .mirrorUpdate o _ _ n => if o = owner then some n else none | _ => none)

/-- One line of an unresponsive owner passes to its buddy, or is lost with both (R217). -/
def handLine (s : State) (owner line : Nat) : State :=
  let buddy := owner ^^^ 1
  let s1 := s.setRdc owner line none
  if s.coh.deaf.contains buddy then
    let nl := s.nlOfPa (line * 64)
    let s2 := s1.setDir line ((s1.lineDir line).without owner)
    { s2 with coh := { s2.coh with marks := addMarks s2.coh.marks line nl 4 (List.range (64 / nlWidth nl)), mirror := sdel line s2.coh.mirror } }
  else
    let s2 := (List.range 8).foldl (fun s d => s.setRdc d line none) s1
    match (if homeOf (line * 64) = buddy then none else sfind s2.coh.mirror line) with
    | some m =>
      let s3 := (s2.setRdc buddy line (some { st := .m, data := m.data })).setDir line { owner := some buddy, recalled := false, sharers := 0 }
      { s3 with coh := { s3.coh with mirror := sdel line s3.coh.mirror } }
    | none => s2.setDir line { owner := none, recalled := false, sharers := 0 }

/-- A line of which the unresponsive die may hold a clean copy: the home counts it as gone. -/
def forgetOwner (s : State) (owner line : Nat) : State :=
  (s.setRdc owner line none).setDir line ((s.lineDir line).without owner)

/-- OWNER_UNRESPONSIVE: the home hands the owner's lines of its slice to the buddy; what the buddy has not applied is discarded,
and every rectangle of the owner's die, with the rest of the die as one more, is snuffed (R325). -/
def execOwnerUnresponsive (s : State) : Out :=
  match s.cur.ev with
  | .ownerUnresponsive owner homeDie idx =>
    let q := match s.mirrorPending owner with
      | [] => sget 0 s.coh.ownSeq owner
      | n :: ns => (ns.foldl min n + 2 ^ 32 - 1) % 2 ^ 32
    let s1 := { s with coh := { s.coh with
      ownCut := sins owner q s.coh.ownCut
      deaf := if s.coh.deaf.contains owner then s.coh.deaf else s.coh.deaf ++ [owner] } }
    let lines := s1.coh.rdc.filterMap (fun e =>
      if e.1 % 8 = owner && (e.2.st = .m || e.2.st = .o) && homeSlice (e.1 / 8 * 64) = homeDie * 32 + idx then some (e.1 / 8) else none)
    let clean := s1.coh.dir.filterMap (fun e =>
      if e.2.owner = some owner && homeSlice (e.1 * 64) = homeDie * 32 + idx && !lines.contains e.1 then some e.1 else none)
    let s2 := clean.foldl (fun s l => forgetOwner s owner l) (lines.foldl (fun s l => handLine s owner l) s1)
    ok (if s.coh.deaf.contains owner && s.lau.snuffs.any (fun x => x.die = owner) then s2
        else (List.range 9).foldl (fun s n => s.at s.time (.snuffRun owner (if n = 8 then 40 else n))) s2)
  | _ => notEnabled "OWNER_UNRESPONSIVE"

/-! ### Frames -/

/-- Address of the `n`-th 64 KiB frame of a tier (0–7: near memory of that C-die; 8: LPDDR-6). -/
def frameAt (tier n : Nat) : Nat := if tier = 8 then 2 ^ 40 + n * 65536 else tier * 2 ^ 35 + n * 65536
/-- Frames of a tier. -/
def tierFrames (tier : Nat) : Nat := if tier = 8 then 2 ^ 24 else 2 ^ 19
/-- Tier of a frame. -/
def tierOf (pa : Nat) : Nat := if pa < 2 ^ 38 then pa / 2 ^ 35 else 8
/-- Whether a tier can be used: its C-die is announced, or LPDDR-6 is up (Table 25.4). -/
def State.tierUp (s : State) (tier : Nat) : Bool :=
  if tier = 8 then bitOf s.host.stages.toNat 2 else bitOf s.host.announced.toNat tier

/-- The frames of a tier's ready queue that hold no page any more (R204). -/
def State.emptied (s : State) (tier : Nat) : List Nat :=
  let used := s.lau.spaces.flatMap (fun x => x.2.pages.filterMap (fun p => (s.spaceLeaf x.1 (p * 65536)).map (fun l => l.pa (p * 65536))))
  (((sfind s.lau.mmps tier).getD Mmp.init).ready).filter (fun f => !used.contains f)

/-- Takes a frame of a tier: one of the MMP's ready queue, a freed one, else the next never used. -/
def takeFrame (s : State) (tier : Nat) : Option (State × Nat) :=
  if !s.tierUp tier then none else
  match (if tier = 8 then [] else s.emptied tier) with
  | f :: _ =>
    let m := (sfind s.lau.mmps tier).getD Mmp.init
    some ({ s with lau := { s.lau with mmps := sins tier { m with ready := m.ready.filter (fun x => x ≠ f) } s.lau.mmps } }, f)
  | [] =>
  match s.lau.freed.find? (fun f => tierOf f = tier) with
  | some f => some ({ s with lau := { s.lau with freed := s.lau.freed.filter (fun x => x ≠ f) } }, f)
  | none =>
    let n := sget 0 s.lau.nextFrame tier
    if n ≥ tierFrames tier then none
    else some ({ s with lau := { s.lau with nextFrame := sput 0 s.lau.nextFrame tier (n + 1) } }, frameAt tier n)

/-- Takes a frame from the lowest tier that has one: near memory of C-die 0 upward, then LPDDR-6 (DESIGN CHOICE, log 19). -/
def anyFrame (s : State) : Option (State × Nat) := (List.range 9).findSome? (fun t => takeFrame s t)

/-- Takes a run of `n` frames, a power of two, aligned to its size, for a large page. -/
def takeRun (s : State) (tier n : Nat) : Option (State × Nat) :=
  if n = 1 then takeFrame s tier
  else if !s.tierUp tier then none else
  let k := (sget 0 s.lau.nextFrame tier + n - 1) / n * n
  if k + n > tierFrames tier then none
  else
    let gap := (List.range (k - sget 0 s.lau.nextFrame tier)).map (fun i => frameAt tier (sget 0 s.lau.nextFrame tier + i))
    some ({ s with lau := { s.lau with freed := s.lau.freed ++ gap, nextFrame := sput 0 s.lau.nextFrame tier (k + n) } }, frameAt tier k)

/-- Every copy of the lines of a range goes, dirty data to the home. -/
def State.flushRange (s : State) (pa n : Nat) : State :=
  let known : List Nat := s.coh.rdc.map (fun (e : Nat × RdcEnt) => e.1 / 8) ++ s.coh.dir.map (fun (e : Nat × DirEnt) => e.1)
  (dedup (known.filter (fun l => decide (pa / 64 ≤ l) && decide (l * 64 < pa + n)))).foldl State.dropCopies s
/-- Zeroes a range. -/
def State.zeroRange (s : State) (pa n : Nat) : State :=
  let s1 := s.flushRange pa n
  { s1 with
    mem := s1.mem.filter (fun e => !(decide (pa ≤ e.1) && decide (e.1 < pa + n)))
    coh := { s1.coh with
      marks := s1.coh.marks.filter (fun m => !(decide (pa ≤ m.1) && decide (m.1 < pa + n)))
      latent := s1.coh.latent.filter (fun m => !(decide (pa / 64 ≤ m.1) && decide (m.1 * 64 < pa + n))) } }
/-- Copies a frame under its layout: each line is read, so that the errors in it are met; a marked line has every element marked
again, under its highest class (R318; log 17). -/
def State.copyRange (s : State) (src dst n nl : Nat) : State :=
  let s0 := ((s.coh.latent.map (·.1)).filter (fun l => decide (src / 64 ≤ l) && decide (l * 64 < src + n))).foldl (fun s l => s.scrub l nl) s
  let s1 := (s0.flushRange src n).zeroRange dst n
  let moved := s1.mem.filter (fun e => decide (src ≤ e.1) && decide (e.1 < src + n))
  let marks := s1.coh.marks.filter (fun e => decide (src ≤ e.1) && decide (e.1 < src + n))
  let lines := dedup (marks.map (fun e => e.1 / 64))
  { s1 with
    mem := moved.foldl (fun m e => sput 0 m (dst + (e.1 - src)) e.2) s1.mem
    coh := { s1.coh with
      marks := lines.foldl (fun m l =>
        addMarks m (dst / 64 + (l - src / 64)) nl
          (marks.foldl (fun a e => if e.1 / 64 = l then max a e.2.cls else a) 0) (List.range (64 / nlWidth nl))) s1.coh.marks } }

/-- Gives a frame back, zeroed; one of the ready queue stays in it. -/
def State.freeFrame (s : State) (f : Nat) : State :=
  let s1 := s.zeroRange f 65536
  if s1.lau.mmps.any (fun m => m.2.ready.contains f) then s1 else
  { s1 with lau := { s1.lau with freed := s1.lau.freed ++ [f] } }

/-! ### Spaces and their tables -/

/-- Writes an entry at its home. -/
def State.putPte (s : State) (a w : Nat) : State := s.homeWrite a (leBytes 8 w) none

/-- Broadcasts an invalidation to all 256 slices; it reaches each 44 cycles later (log 5). A length of 0 names the whole ASID. -/
def broadcastInval (s : State) (asid va len : Nat) : State :=
  (List.range 256).foldl (fun s k => s.after 44 (.invalidateBroadcast (k / 32) (k % 32) asid va len)) s

/-- Splits a large leaf of level `k` at `a` into the entries of table `t`: they map the same frames with CLS = 2, and the leaf's range
is invalidated (R203). -/
def splitLeaf (s : State) (asid va k a w t : Nat) : State :=
  let n := if k = 1 then 512 else 32
  let step := 2 ^ levelBits (k + 1)
  let s1 := (List.range n).foldl (fun (s : State) i => s.putPte (t + 8 * i) (pteSetCls (w + i * step) 2 0)) s
  broadcastInval (s1.putPte a (t + 1)) asid (va / 2 ^ levelBits k * 2 ^ levelBits k) (2 ^ levelBits k)

/-- Address of the entry of level `l` for `va`, with the tables above made where they lack, and large leaves above split; `fuel`
levels from `k` down. -/
def entryFor : Nat → State → Nat → Nat → Nat → Nat → Nat → Option (State × Nat)
  | 0, _, _, _, _, _, _ => none
  | f + 1, s, asid, k, l, base, va =>
    let a := entryAddr base va k
    if k = l then some (s, a) else
    let w := s.pword a
    if pteV w && !pteLeaf w then entryFor f s asid (k + 1) l (pteAddr w) va
    else
      match anyFrame s with
      | none => none
      | some (s1, t) =>
        let s2 := (s1.zeroRange t 65536).modSpace asid (fun x => { x with tables := x.tables ++ [t] })
        let s3 := if pteV w && k ≠ 0 then splitLeaf s2 asid va k a w t else s2.putPte a (t + 1)
        entryFor f s3 asid (k + 1) l t va
/-- Address of the 64 KiB leaf entry of `va`. -/
def leafEntry (s : State) (asid va : Nat) : Option (State × Nat) :=
  match s.space asid with
  | some x => entryFor 4 s asid 0 3 x.root va
  | none => none

/-- A leaf entry: frame, NL, R, W, HV, CLS (Table 13.5). -/
def leafWord (frame nl : Nat) (r w hv : Bool) (cls : Nat) : Nat :=
  frame + 3 + b2n r * 4 + b2n w * 8 + nl * 2 ^ 44 + b2n hv * 2 ^ 48 + cls * 2 ^ 51

/-- Maps one page to a frame. -/
def mapPage (s : State) (asid va w : Nat) : Option State :=
  (leafEntry s asid va).map (fun x => (x.1.putPte x.2 w).modSpace asid (fun y => { y with pages := y.pages ++ [va / 65536] }))

/-! ### Changing translations (R202) -/

/-- Whether an invalidation of a page is not yet acknowledged by every slice. -/
def State.invalPending (s : State) (asid page : Nat) : Bool :=
  s.agenda.any (fun e => match e.2 with
    | .invalidateBroadcast _ _ a va len => a = asid && (len = 0 || (decide (va / 65536 ≤ page) && decide (page * 65536 < va + len)))
    | _ => false)
/-- Requests and jobs that wait on a page's migration go on, in arrival order (R203). -/
def releasePage (s : State) (asid page : Nat) : State :=
  let mine := fun (r : Nat) => match s.req r with
    | some q => s.asidOf q.who.core = asid && q.va / 65536 = page
    | none => true
  let s1 := (s.coh.stalled.filter mine).foldl (fun s r => s.at s.time (.sliceAccess r))
    { s with coh := { s.coh with stalled := s.coh.stalled.filter (fun r => !mine r) } }
  s1.jobs.list.foldl (fun s e =>
    if e.2.st = .paused && e.2.waitVa / 65536 = page && s.asidOf e.2.core = asid then s.at s.time (.jobRun e.1) else s) s1

/-- INVALIDATE_BROADCAST: a slice drops matching translations, transactions that used one abort with ISOLATE, private lines are
flushed, and it acknowledges once every access it accepted under one is performed at dv (R202, R280). -/
def execInvalidateBroadcast (s : State) : Out :=
  match s.cur.ev with
  | .invalidateBroadcast die idx asid va len =>
    let hit := fun (a : Nat) => len = 0 || (decide (va ≤ a) && decide (a < va + len))
    let s1 := { s with coh := { s.coh with tlb := s.coh.tlb.filter (fun e =>
      !(e.die = die && e.slice = idx && e.asid = asid && (len = 0 || overlap (e.page <<< levelBits e.level) (2 ^ levelBits e.level) va len))) } }
    let victims : List (Nat × Nat × Nat) := s1.cores.flatMap (fun k =>
      if dieOf k.1 ≠ die || s1.asidOf k.1 ≠ asid then [] else k.2.ctxs.filterMap (fun x => match x.2.txn with
        | some t => if t.committing then none else
          ((t.rset ++ t.wset).find? (fun g => hit (g.1 * 256) && sliceIdx (g.1 * 256) = idx)).map (fun g => (k.1, x.1, g.1))
        | none => none))
    let s2 : State := victims.foldl (fun s v => abortTxn s v.1 v.2.1 10 0 true v.2.2) s1
    let s3 : State := { s2 with
      cores := s2.cores.map (fun (k : Nat × Core) =>
      if dieOf k.1 = die && s2.asidOf k.1 = asid then
        (k.1, { k.2 with tile := k.2.tile.filter (fun t => t.gran || !(hit (t.key * 64) && sliceIdx (t.key * 64) = idx)) })
      else k)
      reqs := s2.reqs.map (fun (e : Nat × Req) =>
        if e.2.die = die && e.2.slice = idx && hit e.2.va && s2.asidOf e.2.who.core = asid then (e.1, { e.2 with priv := none }) else e) }
    let busy := s3.reqs.any (fun e => e.2.st = .wait && !e.2.atDv && e.2.die = die && e.2.slice = idx && hit e.2.va
      && s3.asidOf e.2.who.core = asid)
    if busy then ok (s3.after 1 (.invalidateBroadcast die idx asid va len))
    else if len ≠ 65536 || s3.invalPending asid (va / 65536) then ok s3
    else
      match s3.spaceLeaf asid va with
      | some l => ok (if pteMig l.pte then s3 else releasePage s3 asid (va / 65536))
      | none => ok s3
  | _ => notEnabled "INVALIDATE_BROADCAST"

/-- The tables below a non-leaf entry, whose level is `k`. -/
def tablesBelow (s : State) : Nat → Nat → Nat → List Nat
  | 0, _, _ => []
  | f + 1, k, w =>
    if !pteV w || pteLeaf w then [] else
    pteAddr w :: (if k ≥ 2 then [] else
      (List.range 512).flatMap (fun i => tablesBelow s f (k + 1) (s.pword (pteAddr w + 8 * i))))

/-- TRANSLATION_CHANGE: the MMP writes an entry and broadcasts the invalidation of what it maps. A large leaf has CLS = 2; one that
takes the place of tables merges their leaves, and the tables' frames are free (R202, R203). -/
def execTranslationChange (s : State) : Out :=
  match s.cur.ev with
  | .translationChange asid va level entry =>
    (match (s.space asid).bind (fun x => entryFor 4 s asid 0 level x.root va) with
    | some (s1, a) =>
      let len := 2 ^ levelBits level
      let lo := va / len * len
      let leaf := pteLeaf entry
      let below := if leaf && level < 3 then tablesBelow s1 3 level (s1.pword a) else []
      let ps := (List.range (len / 65536)).map (fun i => lo / 65536 + i)
      let s2 := (s1.putPte a (if leaf && level < 3 then pteSetCls entry 2 0 else entry)).modSpace asid (fun x =>
        { x with tables := x.tables.filter (fun t => !below.contains t)
                 pages := if pteV entry && leaf then x.pages.filter (fun p => !ps.contains p) ++ ps else x.pages })
      ok (broadcastInval (below.foldl State.freeFrame s2) asid lo len)
    | none => ok s)
  | _ => notEnabled "TRANSLATION_CHANGE"

/-- Whether a page of a tier is being migrated. -/
def State.moving (s : State) (tier : Nat) : Bool :=
  s.agenda.any (fun e => match e.2 with
    | .migratePage asid va _ => (match s.spaceLeaf asid va with | some l => tierOf (l.pa va) = tier | none => false)
    | _ => false)
/-- A tier has no frame left: the MMP moves the page of the first frame of its ready queue to LPDDR-6 (R204; log 37). -/
def makeRoom (s : State) (tier : Nat) : State :=
  if tier = 8 || s.moving tier then s else
  match ((sfind s.lau.mmps tier).getD Mmp.init).ready.findSome? (fun f => s.lau.spaces.findSome? (fun x => x.2.pages.findSome? (fun p =>
    match s.spaceLeaf x.1 (p * 65536) with | some l => if l.pa (p * 65536) = f then some (x.1, p) else none | none => none))) with
  | some (asid, p) => s.at s.time (.migratePage asid (p * 65536) .lpddr)
  | none => s

/-- MIGRATE_PAGE: sets MIG and invalidates; when that is acknowledged everywhere, copies the frame, writes the new ADDR with MIG
clear and invalidates again. A page under a large leaf is split off first; a sealed page, and a page no longer mapped, is not
migrated (R203, R355). -/
def execMigratePage (s : State) : Out :=
  match s.cur.ev with
  | .migratePage asid va t =>
    match s.spaceLeaf asid va with
    | none => ok s
    | some l =>
      let again := fun (s : State) (n : Nat) => ok (s.after n (.migratePage asid va t))
      let tier := match t with | .near d => d | .lpddr => 8
      if pteSeal l.pte || regionOf (pteAddr l.pte) ≠ .dram then ok s
      else if l.level ≠ 3 then
        (match leafEntry s asid va with
        | some (s1, _) => again s1 88
        | none => again s 1)
      else if !pteMig l.pte then
        again (broadcastInval (s.putPte l.at' (l.pte + 2 ^ 50)) asid (va / 65536 * 65536) 65536) 88
      else if s.invalPending asid (va / 65536) then again s 1
      else
        match takeFrame s tier with
        | none => again (makeRoom s tier) 1
        | some (s1, f) =>
          let old := pteAddr l.pte
          let s2 := s1.copyRange old f 65536 (pteNl l.pte)
          let w := l.pte - old - 2 ^ 50 + f
          ok (broadcastInval ((s2.putPte l.at' w).freeFrame old) asid (va / 65536 * 65536) 65536)
  | _ => notEnabled "MIGRATE_PAGE"

/-! ### The clock sweeper (R204) -/

/-- The frame table of a die: its near frames with the page each holds, in frame order. -/
def State.frameTable (s : State) (die : Nat) : List (Nat × Nat × Nat) :=
  let all := s.lau.spaces.flatMap (fun x => x.2.pages.filterMap (fun p =>
    match s.spaceLeaf x.1 (p * 65536) with
    | some l => if pteAddr l.pte / 2 ^ 35 = die && pteAddr l.pte < 2 ^ 38 then some (pteAddr l.pte, x.1, p) else none
    | none => none))
  (all.foldl (fun m e => sins e.1 e.2 m) ([] : List (Nat × Nat × Nat))).map (fun e => (e.1, e.2.1, e.2.2))

/-- CLOCK_SWEEP: while the ready queue is below the watermark, one frame in frame order: A is cleared and the page invalidated, or a
frame found with A = 0 joins the ready queue. The pace is the implementation's (log 37). -/
def execClockSweep (s : State) : Out :=
  match s.cur.ev with
  | .clockSweep die =>
    let m := (sfind s.lau.mmps die).getD Mmp.init
    let on := fun (s : State) => ok (s.after (Config.sweepPace die + 1) (.clockSweep die))
    if m.ready.length ≥ m.watermark then on s else
    let t := (s.frameTable die).filter (fun e => !m.ready.contains e.1)
    match (match t.find? (fun e => decide (e.1 > m.sweep)) with | some e => some e | none => t.head?) with
    | none => on s
    | some (f, asid, p) =>
      let put := fun (s : State) (m : Mmp) => { s with lau := { s.lau with mmps := sins die m s.lau.mmps } }
      match s.spaceLeaf asid (p * 65536) with
      | none => on s
      | some l =>
        on (if pteA l.pte then
            put (broadcastInval (s.putPte l.at' (l.pte - 16)) asid (p * 65536) 65536) { m with sweep := f }
          else put s { m with sweep := f, ready := m.ready ++ [f] })
  | _ => notEnabled "CLOCK_SWEEP"

/-! ### The page-fault service (R306, R307, R342) -/

/-- The MMP's message (Table 21.7). -/
def mmpMessage (resolved : Bool) (w : Nat) : Word :=
  BitVec.ofNat 64 (0xF * 2 ^ 60 + (if resolved then 0 else 1) * 2 ^ 56 + w % 32 * 2 ^ 51 + w / 32 % 2 ^ 40)

/-- A transaction whose context waits for the MMP after a PAGE abort: RETRY is 1 when the page was resolved (R286). -/
def pageAnswered (s : State) (i c : Nat) (resolved : Bool) : State :=
  s.modCx i c (fun x =>
    if x.wait ≠ .page then x
    else if resolved then { x with st := .run, wait := .none, readyAt := s.time + 1 }
    else { x with st := .run, wait := .none, readyAt := s.time + 1, age := none, txstat := x.txstat &&& ~~~(BitVec.ofNat 64 (2 ^ 51)) })

/-- The service of a report ends: messages, jobs, gather requests and transactions. -/
def endService (s : State) (die : Nat) (p : PfReport) (resolved : Bool) : State :=
  let s2 := p.who.foldl (fun s w => s.after (13 + travel (die * 32) (clusterOf w.1)) (.mbxAccept (0x800 + die) w.1 (mmpMessage resolved w.2) s.time)) s
  let s3 := p.jobs.foldl (fun s j => if resolved then s.at s.time (.jobRun j) else s.terminate j .failed 3) s2
  let s4 := p.reqs.foldl (fun s r =>
    match s.req r with
    | none => s
    | some q =>
      match q.who with
      | .cx i c =>
        if q.live && !q.atDv then s.setReq r { q with words := [BitVec.ofNat 64 (b2n resolved)] } else
        let s' := pageAnswered { s with reqs := sdel r s.reqs } i c resolved
        if (s'.core i).pair.on then pageAnswered s' (i ^^^ 1) c resolved else s'
      | _ => if resolved then s.at s.time (.sliceAccess r) else s.failReq r 0 cPAGE 0) s3
  s4.reportDone die

/-- The host-backed range of a page. -/
def State.hbRange (s : State) (asid page : Nat) : Option HbRange :=
  (s.space asid).bind (fun x => x.hb.find? (fun r => decide (r.lo ≤ page * 65536) && decide (page * 65536 < r.lo + r.len)))

/-- Posts the request for a host-backed page (Table 25.10). -/
def postHb (s : State) (die : Nat) (p : PfReport) : State :=
  let tag := s.host.hbTag
  let w := BitVec.ofNat 64 (2 ^ 63 + p.asid * 2 ^ 48 + p.page * 2 ^ 16 + tag)
  let m := (sfind s.lau.mmps die).getD Mmp.init
  let q := match m.queue with | _ :: t => { p with tag := some tag } :: t | [] => []
  (State.after { s with
    lau := { s.lau with mmps := sins die { m with queue := q } s.lau.mmps }
    host := { s.host with hbq := s.host.hbq ++ [w], hbTag := (tag + 1) % 65536, msix := s.host.msix || s.host.msixOn } } Config.hbBound (.hbreqTimeout tag))

/-- The entry at which a walk of `va` ends, valid or not: its address, level and value; `fuel` levels from `k` down. -/
def lastEntry (s : State) : Nat → Nat → Nat → Nat → Option Leaf
  | 0, _, _, _ => none
  | f + 1, k, base, va =>
    let a := entryAddr base va k
    let w := s.pword a
    if pteV w && !pteLeaf w && !pteBad k w then lastEntry s f (k + 1) (pteAddr w) va else some ⟨a, k, w⟩

/-- A page of the address space's regions whose entry is not valid (Table 21.6): with LEAF = 1 the entry names the frame that holds the
page, which moves to the die's near memory; with LEAF = 0 and R or W the page is zero-filled. A large entry takes a large frame. The
frames come from the ready queue; where the tier has none, the MMP makes room and the service waits (log 37). -/
def fillPage (s : State) (die : Nat) (p : PfReport) : Option State :=
  match s.space p.asid with
  | none => none
  | some x =>
    if !x.pages.contains p.page then none else
    match lastEntry s 4 0 x.root (p.page * 65536) with
    | none => none
    | some l =>
      if l.level = 0 || pteV l.pte || !(pteLeaf l.pte || pteR l.pte || pteW l.pte) then none else
      let len := 2 ^ levelBits l.level
      let va := p.page * 65536 / len * len
      let near := if pteLeaf l.pte && tierOf (pteAddr l.pte) ≠ 8 then 8 else die
      match takeRun s near (len / 65536) with
      | none => some (State.after (makeRoom s near) 1 (.pageFaultService die))
      | some (s1, f) =>
        let w := l.pte - pteAddr l.pte + f
        let s2 := if pteLeaf l.pte then
            (List.range (len / 65536)).foldl (fun s i => s.freeFrame (pteAddr l.pte + i * 65536)) ((s1.copyRange (pteAddr l.pte) f len (pteNl l.pte)).putPte l.at' (w ||| 1))
          else (s1.zeroRange f len).putPte l.at' (w ||| 3)
        some ((broadcastInval s2 p.asid va len).after 44 (.pageFaultService die))

/-- Another MMP's host request for the same page is outstanding: the report joins it (R342). -/
def joinService (s : State) (die : Nat) (p : PfReport) : Option State :=
  match s.lau.mmps.find? (fun m => m.1 ≠ die && (match m.2.queue with
    | h :: _ => h.asid = p.asid && h.page = p.page && h.ext.isNone && h.tag.isSome && !h.refused
    | [] => false)) with
  | none => none
  | some (d, m) =>
    let q := match m.queue with
      | h :: t => { h with who := h.who ++ p.who, jobs := h.jobs ++ p.jobs, reqs := h.reqs ++ p.reqs } :: t
      | [] => []
    some (State.reportDone { s with lau := { s.lau with mmps := sins d { m with queue := q } s.lau.mmps } } die)

/-- PAGE_FAULT_SERVICE: the MMP of a die comes to the end of a step of its oldest report's service. -/
def execPageFaultService (s : State) : Out :=
  match s.cur.ev with
  | .pageFaultService die =>
    match ((sfind s.lau.mmps die).getD Mmp.init).queue with
    | [] => ok s
    | p :: _ =>
      if p.ext.isSome then ok s
      else if s.invalPending p.asid p.page then ok (s.after 1 (.pageFaultService die))
      else if (s.spaceLeaf p.asid (p.page * 65536)).isSome then ok (endService s die p true)
      else if p.refused then ok (endService s die p false)
      else if p.tag.isSome then ok s
      else
        match fillPage s die p with
        | some s1 => ok s1
        | none =>
          if (s.hbRange p.asid p.page).isNone then ok (endService s die p false)
          else match joinService s die p with
            | some s1 => ok s1
            | none => ok (postHb s die p)
  | _ => notEnabled "PAGE_FAULT_SERVICE"

end Sys2Proof.Machine
end

