-- ==== Sys2Proof/Machine/Mt.lean ====
section
/-!
DEFINITION. Context control (R39, R43–R48, R112–R120, R269, R305, R308, R311, R312): `mt.*`, held requests, block copies, light
handlers, eviction and admission. A coupled pair's even control thread acts on both cores (R329).
-/
namespace Sys2Proof.Machine

/-! ### Masks and states -/

/-- Contexts a mask names (R112). -/
def State.masked (s : State) (i : Nat) (m : Word) : List Nat := (List.range (modeN (s.core i).mode)).filter (fun c => bitOf m.toNat c)
/-- RUN or a WAIT state. -/
def CSt.busy : CSt → Bool
  | .run | .waitMem | .waitQ | .waitBar => true
  | _ => false
/-- Whether a request waits for the block's end (R44). -/
def Ctx.holds (x : Ctx) : Bool := x.st = .waitMem || (x.st = .run && x.inBlock)
/-- The odd control thread of a pair is refused (R329). -/
def oddRefused (s : State) (rd : XReg) (k : Out) : Out := if s.oddCt then ok (ctDone s rd 1) else k
/-- A privileged instruction is illegal in user mode (R31). -/
def privileged (s : State) (k : Out) : Out := if s.myCore.ct.priv = .user then illegal s else k

/-! ### Block copies (R43, R308) -/

/-- The sixteen words of a block. -/
def State.blockWords (s : State) (i base : Nat) : List (Nat × Word) :=
  (List.range 16).foldl (fun m k => sput 0 m k (BitVec.ofNat 64 (s.lsVal i (base + 8 * k) 8))) []
/-- Words of a block that hold an uncorrectable error; a copy keeps them (R319). -/
def State.blockBad (s : State) (i base n : Nat) : List Nat := (List.range n).filter (fun k => (s.core i).lsBad.contains (base + 8 * k))
/-- The buffer of a context takes the block at `base`. -/
def fillBuf (s : State) (i c base : Nat) : State :=
  s.modCx i c (fun x => { x with bufBase := base, buf := s.blockWords i base, bufBad := s.blockBad i base 16, bufOk := true, copy := false, inBlock := false })

/-- BLOCK_COPY: the block at PC goes to the buffer; beyond XBOUND the copy is redirected to the stub, or raises OVERLAY. -/
def execBlockCopy (s : State) : Out :=
  match s.cur.ev with
  | .blockCopy =>
    let i := s.cur.core
    let c := s.cur.ctx
    let k := s.myCore
    let a := s.me.pc.toNat / 128 * 128
    let stub := bitsOf k.ovlvec.toNat 16 7 * 128
    if a + 128 ≤ k.bound then ok (fillBuf s i c a)
    else if bitOf k.ovlvec.toNat 63 && decide (stub + 128 ≤ k.bound) then
      ok (fillBuf (s.modCx i c (fun x => { (x.ws 15 (BitVec.ofNat 64 a)) with pc := BitVec.ofNat 17 stub })) i c stub)
    else
      ok (takeCtxFault s i c { cause := cOVERLAY, pc := BitVec.ofNat 17 a, detail := BitVec.ofNat 40 k.bound, bundle := 0 } true)
  | _ => notEnabled "BLOCK_COPY"

/-! ### `mt.bcast`, `mt.start` (R47, R48, R112, R113) -/

/-- A context enters RUN at block address `a`, to act from cycle `t`. -/
def Ctx.begin' (x : Ctx) (a t : Nat) (copy : Bool) : Ctx :=
  { x with st := .run, pc := BitVec.ofNat 17 a, copy := copy, bufOk := false, inBlock := false, bcastEnd := none, readyAt := t
           wait := .none, xfer := none, quash := false, reissue := false, alone := false, sWrote := 0, pcOld := none }

/-- Masked contexts of a core in EMPTY or STOPPED, and the mask of the others. -/
def State.startable (s : State) (i : Nat) (m : Word) : List Nat × Nat :=
  let ok := (s.masked i m).filter (fun c => (s.cx i c).st = .empty || (s.cx i c).st = .stopped)
  (ok, maskOf ((s.masked i m).filter (fun c => !ok.contains c)))

/-- `mt.bcast rd, rs1, rs2, n`: rs1 the block address, rs2 the mask. DEDUCED (log 46): the bundles are those that stand in the local
store at issue. -/
def execMtBcast (n : BitVec 4) (rd rs1 rs2 : XReg) (s : State) : Out :=
  let a := s.xr rs1
  let k := n.toNat + 1
  oddRefused s rd (
    if a.toNat % 128 ≠ 0 then trap s 24 a
    else if a.toNat + 128 > s.myCore.bound then trap s 25 a
    else
      let s1 := (s.twins s.cur.core).foldl (fun s i =>
        let ts := (s.startable i (s.xr rs2)).1
        let ws := (List.range k).map (fun j => BitVec.ofNat 64 (s.lsVal i (a.toNat + 8 * j) 8))
        let s' := ts.foldl (fun s c => s.modCx i c (fun x => x.begin' a.toNat (s.time + 2 + k) false)) s
        s'.after (1 + k) (.bcastDelivery i (maskOf ts) a.toNat ws)) s
      ok (ctDone s1 rd (BitVec.ofNat 64 (s.startable s.cur.core (s.xr rs2)).2)))

/-- BCAST_DELIVERY: the targets' buffers take the bundles; the block ends at the last of them. -/
def execBcastDelivery (s : State) : Out :=
  match s.cur.ev with
  | .bcastDelivery i mask base ws =>
    let buf := (List.range ws.length).foldl (fun m k => sput 0 m k (ws.getD k 0)) ([] : List (Nat × Word))
    ok ((onesBelow 16 mask).foldl (fun s c => s.modCx i c (fun x =>
      if x.st = .run && x.readyAt = s.time + 1 && x.pc.toNat = base && !x.copy then
        { x with bufBase := base, buf := buf, bufBad := s.blockBad i base ws.length, bufOk := true, bcastEnd := some (base + 8 * (ws.length - 1)) }
      else x)) s)
  | _ => notEnabled "BCAST_DELIVERY"

/-- `mt.start rd, rs1, rs2`. -/
def execMtStart (rd rs1 rs2 : XReg) (s : State) : Out :=
  let a := s.xr rs1
  oddRefused s rd (
    if a.toNat % 128 ≠ 0 then trap s 24 a
    else
      let pc := (pcOf a).toNat
      let s1 := (s.twins s.cur.core).foldl (fun s i =>
        (s.startable i (s.xr rs2)).1.foldl (fun s c => s.modCx i c (fun x =>
          { (x.begin' pc (s.time + 2) true) with pcOld := some (s.time + 2, x.pc) })) s) s
      ok (ctDone s1 rd (BitVec.ofNat 64 (s.startable s.cur.core (s.xr rs2)).2)))

/-! ### `mt.wait`, `mt.poll` (R114) -/

/-- Masked contexts whose state meets `p`, as a mask. -/
def State.maskWhere (s : State) (m : Word) (p : CSt → Bool) : Nat :=
  maskOf ((s.masked s.cur.core m).filter (fun c => p (s.cx s.cur.core c).st))
/-- The context-summary word without BUSY. -/
def State.summary (s : State) (m : Word) : Nat :=
  s.maskWhere m (fun t => t = .empty || t = .evicted) * 2 ^ 32 + s.maskWhere m (fun t => t = .stopped) * 2 ^ 16
    + s.maskWhere m (fun t => t = .faulted)

/-- `mt.wait`. -/
def execMtWait (rd rs1 : XReg) (s : State) : Out :=
  oddRefused s rd (
    let m := s.xr rs1
    if s.maskWhere m (fun t => t = .faulted) ≠ 0 || s.maskWhere m CSt.busy = 0 then ok (ctDone s rd (BitVec.ofNat 64 (s.summary m)))
    else ok (ctRetry s))
/-- `mt.poll`. -/
def execMtPoll (rd rs1 : XReg) (s : State) : Out :=
  oddRefused s rd (
    let m := s.xr rs1
    ok (ctDone s rd (BitVec.ofNat 64 (s.summary m + b2n (s.maskWhere m CSt.busy ≠ 0) * 2 ^ 63))))

/-! ### Mode (R116) -/

/-- `mt.mode`. -/
def execMtMode (rd rs1 : XReg) (s : State) : Out :=
  privileged s (oddRefused s rd (
    match (match (s.xr rs1).toNat with | 16 => some 0 | 8 => some 1 | 4 => some 2 | 2 => some 3 | _ => none : Option (BitVec 2)) with
    | none => ok (ctDone s rd 2)
    | some m =>
      match setMode s s.cur.core m with
      | some s1 => ok (ctDone s1 rd 0)
      | none => ok (ctDone s rd 1)))

/-! ### Requests applied to a context (R44, R115, R117, R118) -/

/-- Kills a context: its transaction aborts, its loads are given up, its slot is EMPTY (R115). -/
def killCx (s : State) (i c : Nat) : State :=
  let s1 := abortTxn s i c 9 0 false 0
  let w := s.whoOf i c
  let s2 : State := { s1 with reqs := s1.reqs.map (fun (e : Nat × Req) =>
    if e.2.who = w then (e.1, { e.2 with quiet := true, live := e.2.live && (match e.2.op with | .load _ => false | _ => true) }) else e) }
  let s3 := s2.modCx i c (fun x => { x with
    st := .empty, wait := .none, task := none, handler := none, pendHandler := none, held := none, heldFaults := [], age := none
    reissue := false, alone := false, xfer := none, quash := true, inBlock := false, bufOk := false, bcastEnd := none, copy := false
    joined := [], noTrig := false, stopReq := false })
  (s3.modCore i (fun k => k.unqueueFault c)).event i evCtx

/-- Redirects a context to a block address; none: its state does not allow it (R118). -/
def redirectCx (s : State) (i c : Nat) (pc : BitVec 17) : Option State :=
  let st := (s.cx i c).st
  if st = .stopped || st = .faulted || st = .waitQ || st = .waitBar then
    let s1 := (abortTxn s i c 9 0 false 0).modCx i c (fun x => { (x.begin' pc.toNat (s.time + 1) true) with
      latch := 0, handler := none, pendHandler := none, noTrig := false })
    some (s1.modCore i (fun k => k.unqueueFault c))
  else none

/-- Fields of a register selector (Table 5.8). -/
def selCtx (w : Word) : Nat := bitsOf w.toNat 3 0
/-- Whether a selector names a word of a context's state (R65). -/
def selOk (mode : BitVec 2) (w : Word) : Bool :=
  let word := bitsOf w.toNat 17 13
  let num := bitsOf w.toNat 12 8
  decide (selCtx w < modeN mode) && (match bitsOf w.toNat 7 4 with
    | 0 => decide (num < 16) && word = 0
    | 1 => decide (num < (if mode = 0 then 16 else 32)) && decide (word < 8 * modeG mode)
    | 2 => decide (num < 4) && decide (word < 4)
    | k => decide (k < 10) && num = 0 && word = 0)

/-- The word a selector names: of the registers whose writes are complete (R160), and PC before a start has set it (R113). -/
def selRead (s : State) (i : Nat) (w : Word) : Word :=
  let c := selCtx w
  let y := s.cx i c
  let x := y.seen s.time
  let word := bitsOf w.toNat 17 13
  let num := bitsOf w.toNat 12 8
  if !selOk (s.core i).mode w then 0 else
  match bitsOf w.toNat 7 4 with
  | 0 => x.rs (BitVec.ofNat 4 num)
  | 1 => BitVec.ofNat 64 (groupOf (if y.busyUnit s.time then y.snap.v else (s.core i).v) (s.core i).mode c num >>> (64 * word))
  | 2 => BitVec.ofNat 64 ((x.rm (BitVec.ofNat 2 num)).toNat >>> (64 * word))
  | 3 => zx (match x.pcOld with | some (t, p) => if s.time < t then p else x.pc | none => x.pc)
  | 4 => x.flags
  | 5 => zx x.rmode
  | 6 => zx x.seed
  | 7 => x.txstat
  | 8 => ctxid i c
  | _ => x.latch

/-- Whether the word a selector names holds an uncorrectable error (R319). -/
def selBad (s : State) (i : Nat) (w : Word) : Bool :=
  let c := selCtx w
  let x := s.cx i c
  let word := bitsOf w.toNat 17 13
  let num := bitsOf w.toNat 12 8
  selOk (s.core i).mode w && (match bitsOf w.toNat 7 4 with
    | 0 => x.sBad.contains num
    | 1 => (s.core i).vBad.contains (physBase (s.core i).mode c num * 8 + word)
    | 2 => x.mBad.contains (4 * num + word)
    | _ => false)
/-- `x` with its 64-bit word `k` replaced. -/
def putWord (x k : Nat) (v : Word) : Nat := x - (x >>> (64 * k)) % 2 ^ 64 * 2 ^ (64 * k) + v.toNat * 2 ^ (64 * k)

/-- Writes the word a selector names: status and state (R117). A PC write makes a bundle that a latch holds, or that waits, one of no
block. -/
def selWrite (s : State) (i : Nat) (w v : Word) : State × Word :=
  let c := selCtx w
  let word := bitsOf w.toNat 17 13
  let num := bitsOf w.toNat 12 8
  if !selOk (s.core i).mode w then (s, 2) else
  match bitsOf w.toNat 7 4 with
  | 0 => (s.modCx i c (fun x => if num = 0 then x else { x with s := sput 0 x.s num v, sBad := x.sBad.erase num }), 0)
  | 1 =>
    (s.modCore i (fun k => { k with
      v := setGroup k.v k.mode c num (putWord (groupOf k.v k.mode c num) word v)
      vBad := k.vBad.erase (physBase k.mode c num * 8 + word) }), 0)
  | 2 =>
    (s.modCx i c (fun x => if num = 0 then x else
      { x with m := sput 0 x.m num (BitVec.ofNat 256 (putWord (sget 0 x.m num).toNat word v)), mBad := x.mBad.erase (4 * num + word) }), 0)
  | 3 =>
    if v.toNat % 8 ≠ 0 || v.toNat ≥ lsEnd then (s, 2)
    else (s.modCx i c (fun x => { x with
      pc := v.setWidth 17, copy := true, bufOk := false, inBlock := false, bcastEnd := none
      alone := x.reissue || x.st = .faulted || x.st = .waitQ || x.st = .waitBar }), 0)
  | 4 => (s.modCx i c (fun x => { x with flags := v &&& 0x1F }), 0)
  | 5 => if v.toNat > 4 then (s, 2) else (s.modCx i c (fun x => { x with rmode := v.setWidth 3 }), 0)
  | 6 =>
    let t : BitVec 32 := v.setWidth 32
    (s.modCx i c (fun x => { x with seed := if t = 0 then 0x9E3779B9 else t }), 0)
  | 9 => (s.modCx i c (fun x => { x with latch := v }), 0)
  | _ => (s, 2)

/-- Writes the selected word in both cores of a coupled pair. -/
def selWriteAll (s : State) (i : Nat) (w v : Word) : State × Word :=
  (s.twins i).foldl (fun a c => let r := selWrite a.1 c w v; (r.1, if c = i then r.2 else a.2)) (s, 0)

/-! ### Eviction and admission (R119, R120, R311, R312) -/

/-- Cycles of a save or load, and entries the cache holds, by mode (Table 21.10). -/
def saveCycles (m : BitVec 2) : Nat := match m.toNat with | 0 => 24 | 1 => 40 | 2 => 72 | _ => 136
/-- Entries in the 32 KiB cache. -/
def cacheEntries (m : BitVec 2) : Nat := match m.toNat with | 0 => 21 | 1 => 12 | 2 => 7 | _ => 3
/-- Lines of an entry. -/
def entryLines (m : BitVec 2) : Nat := match m.toNat with | 0 => 24 | 1 => 40 | 2 => 72 | _ => 136
/-- ENTRY of a handle. -/
def handleEntry (h : Word) : Nat := h.toNat % 64
/-- The save area of evicted contexts of a core's launch (TCB, word 12). -/
def State.hasTcb (s : State) (i : Nat) : Bool := match s.launchOf i with | some l => l.word 12 ≠ 0 | none => false

/-- Whether an eviction can be taken in: a live handle free, and room in the cache or behind it. -/
def State.canEvict (s : State) (i : Nat) : Bool :=
  let k := s.core i
  decide (k.tcc.length < 64) && (s.hasTcb i || (!k.pair.on && decide ((k.tcc.filter (·.inCache)).length < cacheEntries k.mode)))

/-- The context as it is saved: a waiting bundle becomes its retry point. -/
def Ctx.retryPoint (x : Ctx) : Ctx :=
  if x.st = .waitQ || x.st = .waitBar then
    { x with
      st := .run, latch := x.ir, reissue := true, cause := { x.cause with pc := x.irPc }
      pc := if x.reissue || x.copy then x.pc else x.irPc + 8
      joined := (match x.wait with | .bar b p => sins b p x.joined | _ => x.joined)
      wait := .none }
  else x

/-- A context reads EVICTED while its accesses end and it is saved under a handle, from `d` cycles on. -/
def parkCx (s : State) (i c d : Nat) (tcc : List Saved) (h : Word) (cached : Bool) : State :=
  let x := s.cx i c
  let s1 := s.modCore i (fun k => { k with
    tcc := tcc ++ [{ handle := h, mode := k.mode, ctx := x.retryPoint, slot := some c, v := [], bad := [], inCache := cached }] })
  (s1.modCx i c (fun x => { x with st := .evicted, wait := .none, readyAt := 2 ^ 64 })).after d (.evictSave i c)

/-- An eviction aborts the open transaction first; the context is then saved with an empty retry latch (R287). -/
def preemptTxn (s : State) (i c : Nat) : State :=
  if (s.cx i c).txn.isNone then s else (abortTxn s i c 7 0 true 0).modCx i c (fun x => { x with latch := 0 })

/-- An eviction for a pre-emption: no handle, no cache entry, never refused (R296). -/
def evictForLaunch (s : State) (i c : Nat) : State :=
  let s1 := (preemptTxn s i c).modCore i (fun k => k.unqueueFault c)
  parkCx s1 i c 1 (s1.core i).tcc (BitVec.ofNat 64 c) false

/-- The backing slot of a handle (R312). -/
def State.backing (s : State) (i : Nat) (h : Word) : Nat := s.areaOf i 12 557056 + handleEntry h * 8704
/-- Begins the eviction of a context: the state and the handle, a new one unless the even twin's is given. With no room in the cache the
least recently saved entry goes to its backing slot first; a coupled core's goes there itself (R312, R329). -/
def evictCx (s : State) (i c : Nat) (twin : Option Word) : State × Word :=
  let s1 := (preemptTxn s i c).modCore i (fun k => k.unqueueFault c)
  let k := s1.core i
  let seq := k.seq % 4095 + 1
  let entry := ((List.range 64).find? (fun n => !k.tcc.any (fun e => handleEntry e.handle = n))).getD 0
  let h := twin.getD (BitVec.ofNat 64 (seq * 2 ^ 18 + k.mode.toNat * 2 ^ 16 + entry))
  let cached := k.tcc.filter (·.inCache)
  let full := decide (cached.length ≥ cacheEntries k.mode)
  let tcc := if full then (match cached.head? with
      | some o => k.tcc.map (fun e => if e.handle = o.handle then { e with inCache := false } else e)
      | none => k.tcc) else k.tcc
  let s2 := s1.modCore i (fun k => { k with seq := if twin.isSome then k.seq else seq })
  let (s3, t) := if k.pair.on then areaFill s2 i (s2.backing i h) (entryLines k.mode)
    else match (if full then cached.head? else none) with
      | some o => areaFill s2 i (s2.backing i o.handle) (entryLines o.mode)
      | none => (s2, 0)
  (parkCx s3 i c (1 + t) tcc h (!k.pair.on), h)

/-- EVICT_SAVE: once every access has its reply the save runs; when it is complete the partition is zeroed and the slot EMPTY. -/
def execEvictSave (s : State) : Out :=
  match s.cur.ev with
  | .evictSave i c =>
    let x := s.cx i c
    let k := s.core i
    if x.st ≠ .evicted then ok s
    else if x.readyAt = 2 ^ 64 then
      if s.outstanding (s.whoOf i c) ≠ [] then ok (s.after 1 (.evictSave i c))
      else ok ((s.modCx i c (fun x => { x with readyAt := s.time + saveCycles k.mode })).after (saveCycles k.mode) (.evictSave i c))
    else
      let n := 256 / modeN k.mode
      let part := (List.range n).foldl (fun m j => sput 0 m j (sget 0 k.v (c * n + j))) ([] : List (Nat × Line))
      let v := (List.range n).foldl (fun m j => sput 0 m (c * n + j) 0) k.v
      let tcc := k.tcc.map (fun e =>
        if e.slot = some c then
          { e with v := part, slot := none, bad := (k.vBad.filter (fun w => decide (c * n * 8 ≤ w) && decide (w < (c + 1) * n * 8))).map (· - c * n * 8)
                   ctx := { x with
                     st := e.ctx.st, pc := e.ctx.pc, latch := e.ctx.latch, reissue := e.ctx.reissue, cause := e.ctx.cause
                     joined := e.ctx.joined, wait := .none, readyAt := 0 } }
        else e)
      let s1 := s.modCore i (fun k => { k with
        v := v, tcc := tcc, vBad := k.vBad.filter (fun w => !(decide (c * n * 8 ≤ w) && decide (w < (c + 1) * n * 8))) })
      let s2 := s1.modCx i c (fun x => { x with
        st := .empty, wait := .none, task := none, handler := none, pendHandler := none, held := none, heldFaults := [], age := none
        reissue := false, alone := false, inBlock := false, bufOk := false, copy := false, joined := [], noTrig := false
        stopReq := false })
      -- its window stores go on under the number of its saved form (R155)
      let own := k.tcc.find? (fun e => e.slot = some c)
      let s3 := (s2.renameWho (fun w => if w = .cx i c then own.map (fun e => .cx i (savedNo e.handle)) else none)).event i evCtx
      ok (match (s3.core i).ct.wait with
        | .save rd h => ctFinish s3 i rd h
        | _ => s3)
  | _ => notEnabled "EVICT_SAVE"

/-- The admitted context in its new slot. -/
def Saved.enter (e : Saved) (t : Nat) : Ctx := { e.ctx with readyAt := t, wait := .none }

/-- The context saved under a handle takes a slot of core `i`: registers and partition stand in it, it joins the rotation, its window
stores are its own again; a FAULTED context's entry is queued again (R155, R305). -/
def admitCx (s : State) (i c : Nat) (h : Word) : State :=
  match (s.core i).tcc.find? (fun e => e.handle = h) with
  | none => s
  | some e =>
    let n := 256 / modeN (s.core i).mode
    let s1 := s.modCore i (fun k => { k with
      v := (List.range n).foldl (fun m j => sput 0 m (c * n + j) (sget 0 e.v j)) k.v
      vBad := e.bad.map (· + c * n * 8) ++ k.vBad
      tcc := k.tcc.filter (fun e => e.handle ≠ h) })
    let x := Saved.enter e (s.time + 1)
    let s2 := (s1.setCx i c x).renameWho (fun w => if w = .cx i (savedNo h) then some (.cx i c) else none)
    if x.st = .faulted then (s2.modCore i (fun k => k.queueFault c x.cause s.time)).pokeCt i else s2

/-- ADMIT_LOAD: the load is complete, in both cores of a coupled pair (R329). -/
def execAdmitLoad (s : State) : Out :=
  match s.cur.ev with
  | .admitLoad i c =>
    match (s.core i).ct.wait with
    | .save rd h =>
      if (s.core i).tcc.any (fun e => e.handle = h)
      then ok (ctFinish ((s.twins i).foldl (fun s j => admitCx s j c h) s) i rd 0) else ok s
    | _ => ok s
  | _ => notEnabled "ADMIT_LOAD"

/-! ### The instructions -/

/-- Takes contexts of the present core, and of its twin, into a held request; the thread waits. -/
def holdReq (s : State) (rd : XReg) (cs : List Nat) (q : HeldReq) (acc : Word) : State :=
  let s1 := (s.twins s.cur.core).foldl (fun s i => cs.foldl (fun s c => s.modCx i c (fun x => { x with held := some q })) s) s
  s1.modMyCt (fun t => { t with wait := .held rd (BitVec.ofNat 16 (maskOf cs)) acc })

/-- `mt.kill`. -/
def execMtKill (rd rs1 : XReg) (s : State) : Out :=
  oddRefused s rd (
    let i := s.cur.core
    let cs := (s.masked i (s.xr rs1)).filter (fun c => (s.cx i c).st ≠ .empty && (s.cx i c).st ≠ .evicted)
    let held := cs.filter (fun c => (s.cx i c).holds)
    let now := cs.filter (fun c => !(s.cx i c).holds)
    let s1 := (s.twins i).foldl (fun s j => now.foldl (fun s c => killCx s j c) s) s
    let acc := BitVec.ofNat 64 (maskOf now)
    if held = [] then ok (ctDone s1 rd acc) else ok (holdReq s1 rd held .kill acc))

/-- `mt.rdreg`. -/
def execMtRdreg (rd rs1 : XReg) (s : State) : Out :=
  oddRefused s rd (
    let w := s.xr rs1
    if selOk s.myCore.mode w && (s.cx s.cur.core (selCtx w)).holds then ok (holdReq s rd [selCtx w] (.rdreg w) 0)
    else ctUses s (selBad s s.cur.core w) (fun s => ok (ctDone s rd (selRead s s.cur.core w))))

/-- `mt.wrreg`. -/
def execMtWrreg (rd rs1 rs2 : XReg) (s : State) : Out :=
  oddRefused s rd (
    let w := s.xr rs1
    if selOk s.myCore.mode w && (s.cx s.cur.core (selCtx w)).holds then ok (holdReq s rd [selCtx w] (.wrreg w (s.xr rs2)) 0)
    else
      let (s1, v) := selWriteAll s s.cur.core w (s.xr rs2)
      ok (ctDone s1 rd v))

/-- A FAULTED context goes back to RUN and reissues its latch (R118). -/
def Ctx.resume (x : Ctx) (t : Nat) : Ctx :=
  { x with st := .run, reissue := true, noTrig := x.cause.cause = 9 || x.cause.cause = 10, readyAt := t, wait := .none }

/-- `mt.resume`. -/
def execMtResume (rd rs1 : XReg) (s : State) : Out :=
  oddRefused s rd (
    let i := s.cur.core
    let c := (s.xr rs1).toNat
    if c ≥ modeN s.myCore.mode then ok (ctDone s rd 2)
    else if (s.cx i c).st ≠ .faulted then ok (ctDone s rd 1)
    else ok (ctDone ((s.twins i).foldl (fun s j =>
      s.modCx j c (fun x => if x.st = .faulted then x.resume (s.time + 1) else x)) s) rd 0))

/-- `mt.redirect`. -/
def execMtRedirect (rd rs1 rs2 : XReg) (s : State) : Out :=
  oddRefused s rd (
    let i := s.cur.core
    let c := (s.xr rs1).toNat
    let a := s.xr rs2
    if a.toNat % 128 ≠ 0 then trap s 24 a
    else if c ≥ modeN s.myCore.mode then ok (ctDone s rd 2)
    else if (s.cx i c).holds then ok (holdReq s rd [c] (.redirect (pcOf a)) 0)
    else match redirectCx s i c (pcOf a) with
      | none => ok (ctDone s rd 1)
      | some s1 =>
        ok (ctDone ((s.twins i).foldl (fun s j => if j = i then s else (redirectCx s j c (pcOf a)).getD s) s1) rd 0))

/-- Begins an eviction for the waiting control thread, in both cores of a pair. -/
def startEvict (s : State) (i c : Nat) (rd : XReg) : State :=
  let (s1, h) := evictCx s i c none
  let s2 := (s.twins i).foldl (fun s j => if j = i then s else (evictCx s j c (some h)).1) s1
  s2.modCt i (fun t => { t with wait := .save rd h })

/-- `mt.evict`. -/
def execMtEvict (rd rs1 : XReg) (s : State) : Out :=
  privileged s (oddRefused s rd (
    let i := s.cur.core
    let c := (s.xr rs1).toNat
    let x := s.cx i c
    if c ≥ modeN s.myCore.mode || x.st = .empty || x.st = .evicted || !s.canEvict i then ok (ctDone s rd 0)
    else if x.holds then ok (holdReq s rd [c] .evict 0)
    else ok (startEvict s i c rd)))

/-- `mt.admit`. -/
def execMtAdmit (rd rs1 rs2 : XReg) (s : State) : Out :=
  privileged s (oddRefused s rd (
    let i := s.cur.core
    let c := (s.xr rs1).toNat
    let h := s.xr rs2
    if c ≥ modeN s.myCore.mode then ok (ctDone s rd 2)
    else match s.myCore.tcc.find? (fun e => e.handle = h) with
      | none => ok (ctDone s rd 2)
      | some e =>
        if e.mode ≠ s.myCore.mode then ok (ctDone s rd 2)
        else if (s.cx i c).st ≠ .empty then ok (ctDone s rd 1)
        else
          -- an entry held in its backing slot alone is read first
          let (s1, t) := if e.inCache then (s, 0) else (s.twins i).foldl (fun (a : State × Nat) j =>
            let (s1, t) := areaScan a.1 j (a.1.backing j h) (entryLines e.mode)
            (s1, max a.2 t)) (s, 0)
          ok ((s1.after (saveCycles e.mode + t) (.admitLoad i c)).modMyCt (fun t => { t with wait := .save rd h }))))

/-- A held request of the thread of core `i` has been answered for context `c`: the last answer ends the instruction. -/
def answerHeld (s : State) (i c : Nat) (bit : Bool) (v : Option Word) : State :=
  match (s.core i).ct.wait with
  | .held rd left acc =>
    let left' := left &&& ~~~(BitVec.ofNat 16 (2 ^ c))
    let acc' := match v with
      | some w => w
      | none => if bit then acc ||| BitVec.ofNat 64 (2 ^ c) else acc
    if left' = 0 then ctFinish s i rd acc' else s.modCt i (fun t => { t with wait := .held rd left' acc' })
  | _ => s

/-- HELD_REQUEST_APPLY: what was held to the block's end acts on the context as it now is. -/
def execHeldRequestApply (s : State) : Out :=
  match s.cur.ev with
  | .heldRequestApply i c =>
    let s0 := s.modCx i c (fun x => { x with held := none })
    let odd := (s.core i).pair.on && (s.core i).pair.odd
    match (s.cx i c).held with
    | none => ok s
    | some .kill => ok (answerHeld (killCx s0 i c) i c true none)
    | some (.rdreg w) =>
      let act := if selBad s0 i w then polAction (s0.sevpol i) 4 else 0
      ok (if odd then s0 else if act = 1 || act = 2 then takeTrap s0 i 26 0
          else answerHeld (if act = 3 then s0.snuffCore i else s0) i c false (some (selRead s0 i w)))
    | some (.wrreg w v) => let r := selWrite s0 i w v; ok (answerHeld r.1 i c false (some r.2))
    | some (.redirect pc) =>
      ok (match redirectCx s0 i c pc with
      | some s1 => answerHeld s1 i c false (some 0)
      | none => answerHeld s0 i c false (some 1))
    | some .evict =>
      (match (s0.core i).ct.wait with
      | .held rd _ _ =>
        if !s0.canEvict i || (s0.cx i c).st = .empty then ok (answerHeld s0 i c false (some 0))
        else ok (startEvict s0 i c rd)
      | _ =>
        -- the odd twin's goes with the even one's
        if odd && (match (s0.core (i ^^^ 1)).ct.wait with | .held .. | .save .. => true | _ => false) then ok s0
        else ok (evictForLaunch s0 i c))
  | _ => notEnabled "HELD_REQUEST_APPLY"

/-- LIGHT_HANDLER_ENTRY: the context copies block HBLK of the queue's QCFG as after a taken branch (R269). -/
def execLightHandlerEntry (s : State) : Out :=
  match s.cur.ev with
  | .lightHandlerEntry i c q =>
    let x := s.cx i c
    if x.handler.isNone || x.st ≠ .run then ok s else
    let b := bitsOf ((s.core i).q q).cfg.toNat 9 0
    ok (s.modCx i c (fun x => { x with pc := BitVec.ofNat 17 (b * 128), copy := true, bufOk := false }))
  | _ => notEnabled "LIGHT_HANDLER_ENTRY"

end Sys2Proof.Machine
end

