-- ==== Sys2Proof/Machine/Pair.lean ====
section
/-!
DEFINITION. Twinned cores (R136, R289, R328–R333): coupling, the fingerprint, checkpoints and rollbacks.
-/
namespace Sys2Proof.Machine

/-! ### The fingerprint (R330) -/

/-- The bytes a retired bundle of context `c` adds to its core's fingerprint. -/
def bundleBytes (k : Core) (c : Nat) (x : Ctx) : List Byte :=
  bundleHead c x.irPc
  ++ (if x.aRes.isNone then [] else
      ((List.range 16).filter (fun r => bitOf x.sWrote.toNat r)).flatMap (fun r => leBytes 8 (x.rs (BitVec.ofNat 4 r)).toNat))
  ++ x.vRes.flatMap (fun r => if r ≥ 256 then leBytes 32 (x.rm (BitVec.ofNat 2 r)).toNat
                  else leBytes (64 * modeG k.mode) (groupOf k.v k.mode c r))
  ++ x.stRes.flatMap (fun st => leBytes 8 st.1 ++ st.2)

/-- A bundle of a coupled core's context has retired. -/
def pairRetire (s : State) (i c : Nat) : State :=
  s.modCore i (fun k => if !k.pair.on then k else
    { k with pair := { k.pair with f := crc64 k.pair.f (bundleBytes k c ((sfind k.ctxs c).getD (Ctx.init i c))), count := k.pair.count + 1 } })

/-! ### Coupling (R136) -/

/-- The checkpoint of a core as it now stands. -/
def Core.checkpoint (k : Core) (req : Nat) : Core :=
  { k with pair := { k.pair with
      f := BitVec.allOnes 64, count := 0, undo := [], units := [], stores := [], vgrans := []
      ckCtx := k.ctxs, ckV := k.v, ckReq := req, kept := [], came := [] } }

/-- `pair.on` (R136). DEDUCED (log 46): on a core that is already coupled it is REFUSED. -/
def execPairOn (rd : XReg) (s : State) : Out :=
  privileged s (
    let i := s.cur.core
    let j := i ^^^ 1
    if s.myCore.pair.on || !s.sameLaunch i j || !s.quiescent i || !s.quiescent j then ok (ctDone s rd 1)
    else
      let on := fun (s : State) (c : Nat) => s.modCore c (fun k =>
        Core.checkpoint { k with pair := { Pair.init with on := true, odd := c % 2 = 1 } } s.nextReq)
      ok (ctDone (on (on s i) j) rd 0))

/-- `pair.off`: takes a checkpoint first (R333). -/
def execPairOff (rd : XReg) (s : State) : Out :=
  privileged s (
    if !s.myCore.pair.on then ok (ctDone s rd 1)
    else ok (callCheckpoint (s.modMyCt (fun t => { t with wait := .pair rd })) s.cur.core))

/-- Whether an interval must end (R331): 1,024 bundles, or 256 units logged; a held store without room ends it too (`holdStore`). -/
def Core.intervalOver (k : Core) : Bool := decide (k.pair.count ≥ 1024) || decide (k.pair.units.length ≥ 256)
/-- Whether a core has retired or held anything since its checkpoint. -/
def Core.sinceCheckpoint (k : Core) : Bool := k.pair.count ≠ 0 || k.pair.stores ≠ []

/-- Bundles that cannot be undone (R331). -/
def noUndo : Instr → Bool
  | .gaAdd .. | .gaMin .. | .gaMax .. | .gaMinu .. | .gaMaxu .. | .gaAnd .. | .gaOr .. | .gaXor .. | .gaSwap .. | .gaCas ..
  | .lcall .. | .xredAdd .. | .xredMin .. | .xredMax .. | .xredOr .. | .fenceClA | .fenceDvA | .fenceSyA _
  | .qpop .. | .qtrypop .. | .qpeek .. | .qpush .. | .qtrypush .. | .barArriveA _ | .barWaitA _
  | .taskPopA | .taskTrypopA _ | .taskPushA _ | .taskDoneA | .trap _ => true
  | .gst _ _ rel _ _ _ => rel.isSome
  | .gvst _ rel _ _ _ => rel.isSome
  | _ => false
/-- Operations whose core resource only the even core has: the odd twin takes their results (R329, R331). -/
def mirrored : Instr → Bool
  | .qpop .. | .qtrypop .. | .qpeek .. | .qpush .. | .qtrypush .. | .barArriveA _ | .barWaitA _
  | .taskPopA | .taskTrypopA _ | .taskPushA _ | .taskDoneA => true
  | _ => false

/-! ### Checkpoints and rollbacks (R331, R332) -/

/-- Where a held store goes at its checkpoint: its address translated afresh, and the layout of its page. -/
def State.heldAt (s : State) (i : Nat) (x : HeldStore) : Nat × Nat :=
  match s.findLeaf (s.asidOf i) x.va with
  | some l => (l.pa x.va, pteNl l.pte)
  | none => (x.pa, 0)
/-- Publishes one held store. -/
def publishStore (s : State) (i : Nat) (x : HeldStore) : State :=
  let (pa, nl) := s.heldAt i x
  match regionOf pa with
  | .dram => (s.scrubAll nl pa x.bytes.length).homeWrite pa x.bytes none
  | .host => { s with hostMem := putCells s.hostMem (s.hostBus pa) x.bytes }
  | .peer p =>
    let off := (pa - 2 ^ 42) % 2 ^ 36
    if s.peerDown p then s.lostAtOnce (Who.cx i x.ctx) p off x.bytes else
    let q := { Req.new (.cx i x.ctx) (.store x.bytes) x.va x.bytes.length .none with st := .done, pa := pa, atDv := true, issued := s.time }
    let (s1, r) := newReq s q
    s1.fabSend (Who.cx i x.ctx).agent p (.store off x.bytes) (some r) none
  | _ => s

/-- What a checkpoint waits for before it publishes a held store: the end of its page's migration, of a run or a commit that holds the
line, and the acknowledgements of the transactions it aborts (R203, R280). -/
def State.heldWait (s : State) (i : Nat) (x : HeldStore) : State × Nat :=
  let (pa, _) := s.heldAt i x
  let n := x.bytes.length
  if regionOf pa ≠ .dram then (s, 0)
  else if (match s.findLeaf (s.asidOf i) x.va with | some l => pteMig l.pte | none => false) || s.lineBusy s.nextReq pa n then (s, 1)
  else s.abortHolders (homeOf pa) (sliceIdx pa) (s.markers pa n false) 10 (pa / 256)

/-- Agreement: held stores are published, the state is the new checkpoint, CKPT counts (R331). -/
def pairAgree (s : State) (i : Nat) : State :=
  let p := (s.core i).pair
  let n := p.grans.length
  let s1 := p.stores.foldl (fun s x => publishStore s i x) (s.dropHeldGrans i)
  [i, i + 1].foldl (fun (s : State) (c : Nat) => s.modCore c (fun (k : Core) =>
    let k' := { k with
      ctxs := k.ctxs.map (fun (x : Nat × Ctx) => (x.1, { x.2 with readyAt := max x.2.readyAt (s.time + 1 + 4 * n) }))
      pair := { k.pair with ckpt := k.pair.ckpt + 1, rb := false } }
    k'.checkpoint s.nextReq)) s1

/-- A context whose bundle no rollback repeats: the checkpoint has it as it stands, and its requests stay (R331). -/
def pairKeep (s : State) (i c : Nat) : State :=
  let k := s.core i
  let x := s.cx i c
  let once := match decodeBundle x.ir with | some (a, _) => noUndo a | none => false
  if !k.pair.on || x.txn.isSome || !once then s else
  let n := 256 / modeN k.mode
  let mine := (s.reqs.filter (fun e => e.2.who = s.whoOf i c && decide (e.1 ≥ k.pair.ckReq))).map (·.1)
  s.modCore i (fun k => { k with pair := { k.pair with
    ckCtx := sins c x k.pair.ckCtx
    ckV := (List.range n).foldl (fun v j => sput 0 v (c * n + j) (sget 0 k.v (c * n + j))) k.pair.ckV
    kept := k.pair.kept ++ mine.filter (fun r => !k.pair.kept.contains r) } })

/-- A context of a checkpoint that waited to send a release: it has been sent since (R332). -/
def releaseSent (s : State) (i c : Nat) : State :=
  match (s.cx i c).st, (s.cx i c).wait with
  | .waitMem, .release _ r wait =>
    if (match s.req r with | some q => decide (q.issued = 0) | none => false) then s
    else if wait then s.modCx i c (fun x => { x with wait := .reply r })
    else wakeCx s i c
  | _, _ => s

/-- Mismatch: both cores return to the last checkpoint; a second one in a row snuffs (R332). Replies that came meanwhile for requests
issued before it, or by bundles that are not repeated, reach their contexts again. -/
def pairMismatch (s : State) (i : Nat) : State :=
  let p := (s.core i).pair
  let stays := fun (r : Nat) => decide (r < p.ckReq) || p.kept.contains r
  let s0 := [i, i + 1].foldl (fun (s : State) (j : Nat) => (s.core j).ctxs.foldl (fun s c =>
    let s1 := (cancelHeld j c.1 s.jobs.list (s.dropMarks j c.1)).1
    s1.cancel (fun e => match e with | .txCommitMessage a b _ => a = j && b = c.1 | _ => false)) s) s
  let late := s0.reqs.filter (fun e => !((match e.2.who with | .cx a _ => a = i || a = i + 1 | _ => false)
    && (e.2.op.isTx || !stays e.1)))
  let s2 := { s0 with reqs := late, coh := { s0.coh with vstore := s0.coh.vstore.filter (fun e => !p.vgrans.contains e.1) } }
  let s3 := [i, i + 1].foldl (fun (s : State) (c : Nat) => s.modCore c (fun (k : Core) =>
    let k' := Core.checkpoint { k with
      ctxs := k.pair.ckCtx.map (fun (x : Nat × Ctx) =>
        let y := (sfind k.ctxs x.1).getD x.2
        (x.1, { x.2 with readyAt := s.time + 1, lost := x.2.lost || y.lost, refused := x.2.refused || y.refused }))
      v := k.pair.ckV
      ls := k.pair.undo.foldl (fun m e => sput 0 m e.1 e.2) k.ls
      tile := k.tile.filter (fun e => !e.gran)
      pair := { k.pair with mism := (if k.pair.mism = 255 then 255 else k.pair.mism + 1), rb := true } } k.pair.ckReq
    { k' with pair := { k'.pair with
        ckCtx := k.pair.ckCtx, kept := k.pair.kept, came := k.pair.came, stores := k.pair.stores.filter (fun x => stays x.req) } })) s2
  let s4 := (List.range 16).foldl (fun s c => releaseSent s i c) s3
  let s5 := p.came.foldl (fun s e => match e.2.who with
    | .cx a c => cxReply (cxReply s a c e.1 e.2) (a ^^^ 1) c e.1 e.2
    | _ => s) s4
  let s6 := ((List.range 16).foldl (fun s c => recheck (recheck s i c) (i + 1) c) s5).pokeCxs i
  if p.rb then s6.snuffCore i else s6

/-- The control threads of a pair that wait in `pair.off`. -/
def State.pairLeavers (s : State) (i : Nat) : List (Nat × XReg) :=
  [i, i + 1].filterMap (fun c => match (s.core c).ct.wait with | .pair rd => some (c, rd) | _ => none)

/-- PAIR_CHECKPOINT: the exchange of fingerprints ends: a checkpoint, the start of a commit that waits for it (R289), or a
rollback; it also ends `pair.off` (R333). Stores on their way to be held come first. -/
def execPairCheckpoint (s : State) : Out :=
  match s.cur.ev with
  | .pairCheckpoint i =>
    if !(s.core i).pair.on then ok s else
    if s.reqs.any (fun e => e.2.hold && e.2.ok && e.2.st ≠ .done && e.2.who.core = i) then ok (s.after 1 (.pairCheckpoint i)) else
    let same := (s.core i).pair.f = (s.core (i + 1)).pair.f
    let commits := (s.core i).ctxs.filter (fun c => c.2.wait = .commit && (match c.2.txn with
      | some t => t.claims = 0 && t.msgs = 0 && !t.committing | none => false))
    let leave := fun (s : State) (v : Word) => (s.pairLeavers i).foldl (fun s e => ctFinish s e.1 e.2 v) s
    if !same then ok (leave (pairMismatch s i) 1)
    else if commits ≠ [] then ok (commits.foldl (fun s c => startCommit s i c.1) s)
    else if s.pairInTxn i then ok s
    else
      let (s1, w) := (s.core i).pair.stores.foldl (fun (a : State × Nat) x =>
        let (s1, n) := a.1.heldWait i x
        (s1, max a.2 n)) (s, 0)
      if w > 0 then ok (s1.after w (.pairCheckpoint i)) else
      let s2 := pairAgree s i
      if s.pairLeavers i = [] then ok s2
      else ok (leave ([i, i + 1].foldl (fun s c => s.modCore c (fun k => { k with pair := Pair.init })) s2) 0)
  | _ => notEnabled "PAIR_CHECKPOINT"

/-- An abort of one twin's transaction alone aborts the other's, in the same slot for the same cause (R289). -/
def pairAbort (s : State) (i c : Nat) : State :=
  let e := i / 2 * 2
  let x := s.cx e c
  let y := s.cx (e + 1) c
  let follow := fun (k : Nat) (t : Ctx) =>
    let w := t.txstat.toNat
    if bitsOf w 4 0 = 0 then s else abortTxn s k c (bitsOf w 4 0) (bitsOf w 63 56) (bitOf w 51) (bitsOf w 47 8)
  match x.txn, y.txn with
  | none, some _ => if y.wait = .commit then s else follow (e + 1) x
  | some t, none => if t.committing || x.wait = .commit then s else follow e y
  | _, _ => s

/-- A fault raised in one twin alone puts the other in FAULTED with DESYNC (R333). -/
def pairDesync (s : State) (i c : Nat) : State :=
  if !(s.core i).pair.on then s else
  let e := i / 2 * 2
  let f := fun (k : Nat) => (s.cx k c).st = .faulted
  let rep := fun (k : Nat) => takeCtxFault s k c { cause := cDESYNC, pc := (s.cx k c).pc, detail := 0, bundle := 0 } true
  if f e && !f (e + 1) then rep (e + 1) else if f (e + 1) && !f e then rep e else pairAbort s i c
/-- A pair whose control thread waits in `pair.off` takes its checkpoint once no transaction is open (R289, R333). -/
def pairLeave (s : State) (i : Nat) : State :=
  if (s.core i).pair.on && s.pairLeavers (i / 2 * 2) ≠ [] then callCheckpoint s i else s

end Sys2Proof.Machine
end

