-- ==== Sys2Proof/Machine/Launch.lean ====
section
/-!
DEFINITION. Launches (R26–R28, R51, R52, R137, R257, R267, R292–R297, R338, R340): submission, the start of a queue's head with
its preparation, pre-emption, restoration and the end; `core.start`.
-/
namespace Sys2Proof.Machine

/-! ### Reads and writes of the launch unit -/

/-- Clusters of a launch. -/
def Launch.clusters (l : Launch) : List Nat := (List.range 256).filter l.hasCluster
/-- PRI. -/
def Launch.pri (l : Launch) : Nat := bitsOf (l.word 0) 17 16
/-- Whether two launches name a common cluster. -/
def Launch.meets (l m : Launch) : Bool := l.clusters.any m.hasCluster
/-- Whether a launch holds its clusters. -/
def LSt.holds : LSt → Bool
  | .running | .preempting | .restoring => true
  | _ => false

/-- Bytes at a physical address, of device memory or of the host window; all else reads zero. -/
def State.physRead (s : State) (pa n : Nat) : List Byte :=
  match regionOf pa with
  | .dram => s.pread pa n
  | .host => cells s.hostMem (s.hostBus pa) n
  | _ => List.replicate n 0

/-- A write by an agent outside the cores: transactions that mark its granules abort (R280). -/
def agentWrite (s : State) (pa : Nat) (bs : List Byte) : State :=
  match regionOf pa with
  | .dram =>
    (s.isolate pa bs.length).homeWrite pa bs none
  | .host => { s with hostMem := putCells s.hostMem (s.hostBus pa) bs }
  | _ => s

/-- Reads `n` bytes at a virtual address of a space, page by page; none: the read faults. `fuel` bounds the pages. -/
def spaceRead : Nat → State → Nat → Nat → Nat → Option (List Byte)
  | 0, _, _, _, n => if n = 0 then some [] else none
  | f + 1, s, asid, va, n =>
    if n = 0 then some [] else
    let k := min n (65536 - va % 65536)
    if va ≥ 2 ^ 48 then none else
    match s.spaceLeaf asid va with
    | none => none
    | some l =>
      if !pteR l.pte || (match regionOf (l.pa va) with | .dram | .host => false | _ => true) then none else
      (spaceRead f s asid (va + k) (n - k)).map (fun t => s.physRead (l.pa va) k ++ t)
/-- Reads an image of a launch. -/
def State.image (s : State) (asid va n : Nat) : Option (List Byte) := spaceRead (n / 65536 + 2) s asid va n

/-- STATUS (Table 21.2). -/
def statusWord (state reason lid : Nat) : Nat := state * 2 ^ 60 + reason * 2 ^ 52 + lid
/-- Writes STATUS in the descriptor at `pa`. -/
def putStatus (s : State) (pa state reason lid : Nat) : State := agentWrite s (pa + 144) (leBytes 8 (statusWord state reason lid))
/-- Sets a launch. -/
def State.setLaunch (s : State) (k : Nat) (l : Launch) : State := { s with lau := { s.lau with launches := sins k l s.lau.launches } }

/-- Puts a step in the agenda unless it is there. -/
def State.atOnce (s : State) (d : Nat) (e : Ev) : State := if s.agenda.contains (d, e) then s else s.at d e
/-- Every queue looks at its head. -/
def kickLaunches (s : State) : State := (List.range 4).foldl (fun s q => s.atOnce s.time (.launchStart q)) s

/-! ### Submission (R293, R338, R340) -/

/-- Whether a descriptor keeps Table 21.1 (R292, R293); a cluster of a failed C-die is refused as well (R357). -/
def descOk (s : State) (q : Nat) (l : Launch) : Bool :=
  let w := l.word
  let bound := bitsOf (w 3) 16 7
  decide (bitsOf (w 0) 63 21 = 0) && decide (bitsOf (w 0) 15 12 = 0) && decide (l.pri = q) && decide (l.asid ≠ 0)
  && decide (w 2 < 2 ^ 17) && decide (w 2 % 4 = 0) && decide (w 2 < bound * 128)
  && decide (w 3 < 2 ^ 17) && decide (w 3 % 128 = 0) && decide (1 ≤ bound) && decide (bound ≤ 768)
  && decide (1 ≤ w 5) && decide (w 5 ≤ bound * 128)
  && decide (w 7 < 2 ^ 34) && decide (bitsOf (w 7) 16 0 % 8 = 0) && decide (bitsOf (w 7) 16 0 + bitsOf (w 7) 33 17 ≤ lsEnd)
  && decide (w 19 % 65536 = 0) && decide (w 19 < 2 ^ 48)
  && (List.range 12).all (fun k => w (20 + k) = 0)
  && l.clusters.all (fun c => !bitOf s.host.failed.toNat (c / 32))

/-- A launch as submitted. -/
def Launch.new (pa : Nat) (ws : List Word) : Launch :=
  { lid := 0, pa := pa, words := ws, st := .queued, groups := [], routines := [], kernels := [], logLen := 0, logPages := 0, log := []
    reason := 0, freed := [], meas := 0, saveCores := [], saveJobs := [], saveWin := [], saveEvs := [], stoppedAt := 0, until' := 0 }

/-- A doorbell write: ignored and counted, or the descriptor is read once and accepted or rejected (LAUNCH_ACCEPT). -/
def submit (s : State) (q pa : Nat) : State :=
  let bad := match regionOf pa with | .reserved | .peer _ => true | _ => false
  if pa % 256 ≠ 0 || bad then { s with host := { s.host with ignored := s.host.ignored + 1 } } else
  let l := Launch.new pa ((chunks 8 32 (s.physRead pa 256)).map (fun b => BitVec.ofNat 64 (leVal b)))
  let queue := sget [] s.lau.queues q
  if queue.length ≥ 64 then putStatus s pa 5 1 0
  else if !descOk s q l then putStatus s pa 5 2 0
  else
    let k := s.lau.nextId
    let s1 := s.setLaunch k l
    let s2 := { s1 with lau := { s1.lau with queues := sput [] s1.lau.queues q (queue ++ [k]), nextId := k + 1 } }
    kickLaunches (putStatus s2 pa 1 0 0)

/-- LQDB_WRITE: the host's doorbells work from stage A on (Table 25.4). -/
def execLqdbWrite (s : State) : Out :=
  match s.cur.ev with
  | .lqdbWrite q pa => ok (if bitOf s.host.stages.toNat 0 && s.host.err = 0 then submit s q pa else s)
  | _ => notEnabled "LQDB_WRITE"

/-- LAUNCH_DOORBELL: a device store to the launch-control page. -/
def execLaunchDoorbell (s : State) : Out :=
  match s.cur.ev with
  | .launchDoorbell q pa _ => ok (submit s q pa)
  | _ => notEnabled "LAUNCH_DOORBELL"

/-! ### Group image (R51, R52) -/

/-- Entry `g` of a group image. -/
def groupEntry (img : List Byte) (g : Nat) : Nat × Group :=
  let e := (img.drop (320 * g)).take 264
  let w := leVal (e.take 8)
  let map := leVal (e.drop 8)
  (bitsOf w 27 16, { valid := bitOf w 63, root := bitsOf w 10 0, members := onesBelow 2048 map })

/-- The group table of an image; none: BADGROUP. -/
def groupTable (l : Launch) (img : List Byte) : Option (List (Nat × Group)) :=
  let es := ((List.range 256).map (fun g => (g, groupEntry img g))).filter (fun e => e.2.2.valid)
  if es.all (fun e => decide (e.2.1 = e.2.2.members.length) && e.2.2.members.contains e.2.2.root && e.2.2.members.all l.has)
      && l.cores.all (fun c => decide ((es.filter (fun e => e.2.2.members.contains c)).length ≤ 4))
  then some (es.map (fun e => (e.1, e.2.2))) else none

/-! ### Near-data image (R82, R257, R292) -/

/-- Whether a routine passes the install checks. -/
def routineOk (code : List (BitVec 32)) : Bool :=
  let is := code.map decodeNear
  let ends := fun (o : Option Instr) => match o with | some (.nret ..) | some (.nfault _) => true | _ => false
  is.all (fun o => match o with | some i => nearInRoutine i | none => false)
  && (match is.getLast? with | some o => ends o | none => false) && !(is.dropLast.any ends)

/-- Whether a kernel passes the install checks. -/
def kernelOk (code : List (BitVec 32)) : Bool :=
  let is := code.map decodeNear
  is.all (fun o => match o with | some i => nearInKernel i | none => false)
  && (match is.getLast? with | some (some .nstop) | some (some (.nfault _)) => true | _ => false)
  && (List.range is.length).all (fun k => match is.getD k none with
    | some (.nloop _ d) => decide (d.toNat ≤ k)
    | some (.nbr _ d) => decide (k + d.toNat < is.length)
    | _ => true)

/-- What reading a near-data image gives. -/
inductive NearImage where
  | ok (routines kernels : List (Nat × List (BitVec 32))) (bytes : List Byte)
  | bad
  | fault
deriving DecidableEq, Repr

/-- Reads a near-data image entry by entry until its zero header; `fuel` bounds the 261 headers a good image can hold. -/
def readNear : Nat → State → Nat → Nat → List (Nat × List (BitVec 32)) → List (Nat × List (BitVec 32)) → List Byte → NearImage
  | 0, _, _, _, _, _, _ => .bad
  | f + 1, s, asid, va, rs, ks, acc =>
    match s.image asid va 8 with
    | none => .fault
    | some hb =>
      let h := leVal hb
      if h = 0 then .ok rs ks (acc ++ hb) else
      let kind := bitsOf h 63 56
      let id := bitsOf h 15 8
      let n := bitsOf h 7 0
      if (kind ≠ 1 && kind ≠ 2) || bitsOf h 55 16 ≠ 0 then .bad
      else if kind = 1 && (n = 0 || n > 24 || (sfind rs id).isSome) then .bad
      else if kind = 2 && (id > 3 || n = 0 || n > 64 || (sfind ks id).isSome) then .bad
      else
        let len := (n + 1) / 2 * 8
        match s.image asid (va + 8) len with
        | none => .fault
        | some body =>
          let code := (chunks 4 n body).map (fun b => BitVec.ofNat 32 (leVal b))
          if kind = 1 then
            if routineOk code then readNear f s asid (va + 8 + len) (sins id code rs) ks (acc ++ hb ++ body) else .bad
          else
            if kernelOk code then readNear f s asid (va + 8 + len) rs (sins id code ks) (acc ++ hb ++ body) else .bad

/-! ### Preparation (R26, R28, R267, R352) -/

/-- What preparation yields before any core is touched. -/
inductive Prep where
  | ok (l : Launch) (code lsd : List Byte)
  | reject (reason : Nat)
deriving DecidableEq, Repr

/-- The checks of a preparation, in the order NOASID, group image, near-data image, code and data images (DEDUCED, log 20);
with the measurement of R352. -/
def prepare (s : State) (l : Launch) : Prep :=
  let a := l.asid
  if (s.space a).isNone then .reject 5 else
  let w := l.word
  match (if w 8 = 0 then some [] else s.image a (w 8) 81920) with
  | none => .reject 6
  | some gimg =>
    match groupTable l gimg with
    | none => .reject 3
    | some groups =>
      match (if w 9 = 0 then NearImage.ok [] [] [] else readNear 262 s a (w 9) [] [] []) with
      | .bad => .reject 4
      | .fault => .reject 6
      | .ok rs ks nimg =>
        match s.image a (w 4) (w 5), (if w 6 = 0 then some [] else s.image a (w 6) (bitsOf (w 7) 33 17)) with
        | some code, some lsd =>
          let head := (List.range 18).flatMap (fun k => leBytes 8 (if k = 11 || k = 12 || k = 13 then 0 else w k))
          let m := sha384 (head ++ code ++ lsd ++ gimg ++ nimg)
          .ok { l with groups := groups, routines := rs, kernels := ks, meas := BitVec.ofNat 384 (beVal m) } code lsd
        | _, _ => .reject 6

/-- Maps one page of a launch's sealed log, with a frame of the tier or of any: SEAL = 1, R = 1, CLS = 2, NL = 0 (R267). -/
def mapLogPage (s : State) (tier asid va : Nat) : Option State :=
  if (s.spaceLeaf asid va).isSome then none else
  match (match takeFrame s tier with | some x => some x | none => anyFrame s) with
  | none => none
  | some (s1, f) => mapPage (s1.zeroRange f 65536) asid va (leafWord f 0 true false false 2 + 2 ^ 49)

/-- A core prepared for a launch: Table 3.1, but for its control thread's start. -/
def prepCore (l : Launch) (code lsd : List Byte) : Core :=
  { Core.init with
    lid := l.lid
    xbound := BitVec.ofNat 10 (bitsOf (l.word 3) 16 7)
    sevpol := BitVec.ofNat 64 (bitsOf (l.word 10) 9 0)
    ls := putCells (putCells [] 0 code) (bitsOf (l.word 7) 16 0) lsd
    gat := { Gather.init with kernels := l.kernels } }

/-- A control thread begins at `entry` with x10 the core id and x11 the argument (Table 3.1). -/
def Ct.begin' (core : Nat) (entry arg : Word) : Ct :=
  { Ct.init with
    x := sput 0 (sput 0 [] 10 (BitVec.ofNat 64 core)) 11 arg
    pc := entry
    started := true }

/-- The launch begins: its root table is installed, its log mapped, its cores are prepared and, unless deferred, started in
ascending core id; STATUS is RUNNING with a fresh LID. -/
def beginLaunch (s : State) (k : Nat) (l0 : Launch) (code lsd : List Byte) : State :=
  let lid := s.lau.nextLid
  let l := { l0 with lid := lid, st := .running }
  let s1 := { s with lau := { s.lau with nextLid := lid % (2 ^ 32 - 1) + 1 } }
  let root := match s.space l.asid with | some x => x.root | none => 0
  let s2 : State := { s1 with coh := { s1.coh with roots := sins l.asid root s1.coh.roots } }
  let (s3, pages) := if l.word 19 = 0 then (s2, 0) else
    match mapLogPage s2 0 l.asid (l.word 19) with
    | some t => (t, 1)
    | none => (s2, 0)
  let l' := { l with logPages := pages }
  let low := l.cores.headD 0
  let s4 := l.cores.foldl (fun s c =>
    let p := prepCore l' code lsd
    let t := if !l.defers || c = low then Ct.begin' c (BitVec.ofNat 64 (l.word 2)) (BitVec.ofNat 64 (l.word 1)) else Ct.init
    s.setCore c { p with ct := t }) (s3.setLaunch k l')
  (putStatus s4 l.pa 2 0 lid).checkEnd lid

/-! ### Pre-emption (R296) -/

/-- Cores a step in the agenda concerns. -/
def evCores (s : State) (e : Ev) : List Nat :=
  let job := fun (j : Nat) => match s.job j with | some x => [x.core] | none => []
  match e with
  | .sendArrival j | .gangArbiterEntry j | .gangMemberReport j _ | .jobTerminal j | .jobRecordUpdate j | .jobRun j => job j
  | .relaxedLateFault c _ _ | .bcastDelivery c _ _ _ | .heldRequestApply c _ | .lightHandlerEntry c _ _ | .evictSave c _
  | .admitLoad c _ | .barrierRelease c _ | .groupArrival _ _ c | .groupRelease _ _ c | .queueDelivery c _ _ _ | .taskPushRetry c _
  | .stealPassRetry c | .timerMatch c | .gatherReadIssue c _ | .gatherTrigger c _ | .gatherRun c | .gatherFetchFault c _ _ _
  | .gatherDrain c _ | .txAbortArrival c _ _ _ _ _ | .txCommitMessage c _ _ => [c]
  | .pairCheckpoint c => [c, c ^^^ 1]
  | .mbxAccept a b _ _ | .mbxResend a b _ _ => [a, b]
  | .taskRetire _ agent _ _ => [agent / 32]
  | .stealTry a b | .stealReply a b _ => [a, b]
  | _ => []
/-- Whether a step concerns a core of a launch. -/
def evMine (s : State) (l : Launch) (e : Ev) : Bool := (evCores s e).any l.has

/-- Whether accesses of a launch's cores are still to be performed. -/
def State.accessing (s : State) (l : Launch) : Bool := s.reqs.any (fun e => l.has e.2.who.core && !e.2.atDv)
/-- Whether an MMP still serves a page fault of a launch's cores. -/
def State.serving (s : State) (l : Launch) : Bool := s.lau.mmps.any (fun m => m.2.queue.any (fun p => p.who.any (fun w => l.has w.1)))

/-- A load of a context under way is given up: it stays saved. A save under way goes on as one of the pre-emption's own evictions, so
that the context comes back to its slot (R296; DEDUCED, log 16). -/
def abandonSave (s : State) (c : Nat) (h : Word) : State :=
  let s1 := s.cancel (fun e => match e with | .admitLoad a _ => a = c || a = c ^^^ 1 && (s.core c).pair.on | _ => false)
  (s.twins c).foldl (fun s j => s.modCore j (fun k => { k with tcc := k.tcc.map (fun e => match e.slot with
    | some n => if e.handle = h then { e with handle := BitVec.ofNat 64 n, inCache := false } else e
    | none => e) })) s1
/-- Stops the control threads of a victim: a waiting instruction is abandoned with pc left at it. -/
def stopThreads (s : State) (l : Launch) : State :=
  l.cores.foldl (fun s c =>
    let k := s.core c
    match k.ct.wait with
    | .save _ h => (abandonSave s c h).modCt c (fun t => { t with wait := .none })
    | .held .. =>
      s.setCore c { k with
        ct := { k.ct with wait := .none }
        ctxs := k.ctxs.map (fun (x : Nat × Ctx) => (x.1, { x.2 with held := none })) }
    | _ => s.setCore c { k with ct := { k.ct with wait := .none } }) s

/-- Pre-emption of a running launch begins. -/
def beginPreempt (s : State) (k : Nat) (l : Launch) : State :=
  stopThreads (putStatus (s.setLaunch k { l with st := .preempting, stoppedAt := s.time, until' := 0 }) l.pa 3 0 l.lid) l

/-- Stops every gather stream of a core. -/
def stopStreams (s : State) (c : Nat) : State := (List.range 8).foldl (fun s q => stopStream s c q) s
/-- Whether a job of the launch has started and not ended. -/
def jobBusy (l : Launch) (x : Job) : Bool :=
  x.lid = l.lid && (x.st = .running || x.st = .paused || (x.st = .ready && x.startAt ≠ 0))
/-- Whether a job of the launch has not started. -/
def jobIdle (l : Launch) (x : Job) : Bool := x.lid = l.lid && !x.st.terminal && !jobBusy l x

/-- Writes bytes at a virtual address of a space, page by page, where it translates to device memory. `fuel` bounds the pages. -/
def spaceFill : Nat → State → Nat → Nat → Nat → State
  | 0, s, _, _, _ => s
  | f + 1, s, asid, va, n =>
    if n = 0 then s else
    let k := min n (65536 - va % 65536)
    let s1 := match s.spaceLeaf asid (va % 2 ^ 48) with
      | none => s
      | some l =>
        let (s1, bs) := s.drawBytes k
        if regionOf (l.pa (va % 2 ^ 48)) = .dram then agentWrite s1 (l.pa (va % 2 ^ 48)) bs else s1
    spaceFill f s1 asid (va + k) (n - k)

/-- The whole state of a victim's cores is kept, its unstarted jobs and window entries taken out, and its save area written: the layout
is the device's own (log 47), one line a cycle for each core's 262,144 bytes. Window stores still on their way go on under the numbers
of the pre-empted launch (R155). -/
def saveLaunch (s0 : State) (k : Nat) (l : Launch) : State :=
  let ended := s0.time + 4096 * l.cores.length + 1
  let s := (spaceFill (4 * l.cores.length + 1) s0 l.asid (l.word 11) (262144 * l.cores.length)).renameWho (fun w => match w with
    | .cx c n => if l.has c then some (.cx c (n + 256 * l.lid)) else none
    | .ct c => if l.has c then some (.cx c (200 + 256 * l.lid)) else none
    | .gu _ => none)
  let evs := (s.agenda.filter (fun e => evMine s l e.2 && (match e.2 with | .timerMatch _ => false | _ => true))).map
    (fun e => (e.1 - s.time, e.2))
  let l' := { l with
    saveCores := l.cores.map (fun c => (c, s.core c))
    saveJobs := s.jobs.list.filter (fun e => jobIdle l e.2)
    saveWin := (s.jobs.clusters.filter (fun (e : Nat × Cluster) => l.hasCluster e.1)).map (fun (e : Nat × Cluster) => (e.1, e.2.win))
    saveEvs := evs
    until' := ended }
  let s1 : State := { s with
    agenda := s.agenda.filter (fun e => !evMine s l e.2)
    jobs := { s.jobs with
      list := s.jobs.list.filter (fun (e : Nat × Job) => !jobIdle l e.2)
      clusters := s.jobs.clusters.map (fun (e : Nat × Cluster) => if l.hasCluster e.1 then (e.1, { e.2 with win := [] }) else e) } }
  (s1.setLaunch k l').atOnce ended (.launchStart l.pri)

/-- One step of a pre-emption under way. -/
def preemptStep (s : State) (k : Nat) (l : Launch) : State :=
  if l.until' ≠ 0 then
    if s.time < l.until' then s else
    let s1 := l.cores.foldl (fun s c => s.setCore c Core.init) s
    let s2 := s1.setLaunch k { l with st := .preempted, until' := 0 }
    kickLaunches { s2 with lau := { s2.lau with restore := s2.lau.restore ++ [l.lid] } }
  else
    let s0 := stopThreads s l
    match l.cores.find? (fun c => (s0.core c).ctxs.any (fun x => x.2.st ≠ .empty)) with
    | some c =>
      ((s0.core c).ctxs.filter (fun x => x.2.st ≠ .empty && x.2.st ≠ .evicted && x.2.held.isNone)).foldl (fun s x =>
        if x.2.holds then s.modCx c x.1 (fun y => { y with held := some .evict }) else evictForLaunch s c x.1) s0
    | none =>
      let s1 := l.cores.foldl stopStreams s0
      if s1.accessing l || s1.serving l || s1.jobs.list.any (fun e => jobBusy l e.2) then s1 else saveLaunch s1 k l

/-! ### Start (R294) -/

/-- The head of a queue: a launch to restore before a new one. -/
def State.headOf (s : State) (q : Nat) : Option (Nat × Launch) :=
  match s.lau.launches.find? (fun e => e.2.st = .preempted && e.2.pri = q && s.lau.restore.head? = some e.2.lid) with
  | some e => some e
  | none =>
    match s.lau.launches.find? (fun e => e.2.st = .preempted && e.2.pri = q && s.lau.restore.contains e.2.lid) with
    | some e => some e
    | none => (sget [] s.lau.queues q).head?.bind (fun k => (sfind s.lau.launches k).map (fun l => (k, l)))

/-- Takes a launch out of what its queue waits for. -/
def dequeue (s : State) (k : Nat) (l : Launch) : State :=
  { s with lau := { s.lau with
    queues := s.lau.queues.map (fun e => (e.1, e.2.filter (fun x => x ≠ k)))
    restore := s.lau.restore.filter (fun x => x ≠ l.lid || l.lid = 0) } }

/-- The head of queue `q` starts, is restored, is rejected by its preparation, pre-empts, or waits. -/
def startHead (s : State) (q : Nat) : State :=
  match s.headOf q with
  | none => s
  | some (k, l) =>
    let behind := (List.range q).any (fun p => match s.headOf p with | some (_, m) => l.meets m | none => false)
    let up := l.clusters.all (fun c => bitOf s.host.announced.toNat (c / 32) && !s.lau.deadClusters.contains c)
    if behind || !up then s else
    let holders := s.lau.launches.filter (fun e => e.2.st.holds && e.2.meets l)
    if holders = [] then
      let s1 := dequeue s k l
      let s2 :=
        if l.st = .preempted then
          let t := s.time + 4096 * l.cores.length + 1
          (s1.setLaunch k { l with st := .restoring, until' := t }).at t (.launchRestore l.lid)
        else match prepare s1 l with
          | .reject r => putStatus (s1.setLaunch k { l with st := .failed, reason := r }) l.pa 5 r 0
          | .ok l' code lsd => beginLaunch s1 k l' code lsd
      kickLaunches s2
    else if holders.all (fun e => e.2.st = .preempting || (e.2.st = .running && decide (e.2.pri > q) && e.2.word 11 ≠ 0)) then
      holders.foldl (fun s e => if e.2.st = .running then beginPreempt s e.1 e.2 else s) s
    else s

/-- LAUNCH_START: pre-emptions under way go on, and the head of queue `q` starts when it can. -/
def execLaunchStart (s : State) : Out :=
  match s.cur.ev with
  | .launchStart q =>
    let s1 := s.lau.launches.foldl (fun s e => if e.2.st = .preempting then preemptStep s e.1 e.2 else s) s
    let s2 := startHead s1 q
    ok (if s2.lau.launches.any (fun e => e.2.st = .preempting && e.2.until' = 0)
        then s2.atOnce (s2.time + 1) (.launchStart q) else s2)
  | _ => notEnabled "LAUNCH_START"

/-! ### Restoration (R297) -/

/-- A saved core comes back: the contexts evicted for the pre-emption in their slots, GO = 0, TIMER set when it was passed. -/
def restoreCore (s : State) (since c : Nat) (k : Core) : State :=
  let back := k.tcc.filter (fun e => e.handle.toNat < 16)
  let n := 256 / modeN k.mode
  let v := back.foldl (fun v e => (List.range n).foldl (fun m j => sput 0 m (e.handle.toNat * n + j) (sget 0 e.v j)) v) k.v
  let ctxs := back.foldl (fun m e => sins e.handle.toNat (e.enter (s.time + 1)) m) k.ctxs
  let k1 := { k with
    vBad := back.flatMap (fun e => e.bad.map (· + e.handle.toNat * n * 8)) ++ k.vBad
    v := v, ctxs := ctxs, tcc := k.tcc.filter (fun e => !(e.handle.toNat < 16))
    qs := k.qs.map (fun (e : Nat × QReg) => (e.1, { e.2 with go := false })) }
  let k2 := back.foldl (fun k e => if e.ctx.st = .faulted then k.queueFault e.handle.toNat e.ctx.cause s.time else k) k1
  let s1 := (s.setCore c k2).renameWho (fun w => match w with
    | .cx i n => if i = c && n / 256 = k.lid && k.lid ≠ 0 then
        some (let m := n % 256; if m = 200 then .ct c else if 128 ≤ m then .cx c (m - 128) else .cx c m) else none
    | _ => none)
  let t := k.timecmp.toNat
  if t > s.time then s1.at t (.timerMatch c)
  else if since < t then s1.event c evTimer
  else s1

/-- LAUNCH_RESTORE. -/
def execLaunchRestore (s : State) : Out :=
  match s.cur.ev with
  | .launchRestore lid =>
    match s.lau.launches.find? (fun e => e.2.lid = lid && e.2.st = .restoring) with
    | none => ok s
    | some (k, l) =>
      let s1 := l.saveCores.foldl (fun s e => restoreCore s l.stoppedAt e.1 e.2) s
      let jobs := (l.saveJobs.filter (fun e => e.2.accepted)).foldl
        (fun (acc : List (Nat × Job)) e => (acc.takeWhile (fun x => x.2.order < e.2.order)) ++ [e] ++ acc.dropWhile (fun x => x.2.order < e.2.order)) []
      let rest := l.saveJobs.filter (fun e => !e.2.accepted)
      let s2 := jobs.foldl (fun s e =>
        State.setJob { s with jobs := { s.jobs with order := s.jobs.order + 1 } } e.1 { e.2 with order := s.jobs.order }) s1
      let s3 := rest.foldl (fun s e => s.setJob e.1 e.2) s2
      let s4 := l.saveWin.foldl (fun s e => s.modCluster e.1 (fun c => { c with win := e.2 })) s3
      let s5 := l.saveEvs.foldl (fun s e => s.after e.1 e.2) s4
      let s6 := s5.setLaunch k { l with
        st := .running, until' := 0, stoppedAt := 0, saveCores := [], saveJobs := [], saveWin := [], saveEvs := [] }
      -- a more urgent head that has come meanwhile may pre-empt it again (R294)
      ok (kickLaunches ((kickJobs (putStatus s6 l.pa 2 0 l.lid)).checkEnd lid))
  | _ => notEnabled "LAUNCH_RESTORE"

/-! ### End (R295) -/

/-- A core of an ended launch: its contexts, registers and local store stay as the kills leave them; what the launch held goes. -/
def Core.released (k : Core) : Core :=
  { k with
    lid := 0, gat := Gather.init
    qs := k.qs.map (fun (e : Nat × QReg) => (e.1, { e.2 with bind := 0, elems := [], reserved := 0, go := false }))
    deques := [], spills := [], refill := [], spillGot := none, steal := none, tcc := [], recs := [], pair := Pair.init
    bars := [], roots := [], mbx := [], flying := 0, faultq := [], tile := [], trace := none
    ct := { k.ct with started := false, wait := .none, task := none, resv := none } }

/-- Asks every context of a core to end, as `mt.kill` does (R115); a core of a dead cluster has none. -/
def killAll (s : State) (c : Nat) : State :=
  let s0 := s.modCt c (fun t => { t with finished := true, wait := .none })
  (s0.core c).ctxs.foldl (fun s x =>
    if x.2.st = .empty || x.2.held = some .kill then s
    else if x.2.st = .evicted then s.modCx c x.1 (fun y => { y with st := .empty })
    else if x.2.holds then s.modCx c x.1 (fun y => { y with held := some .kill })
    else killCx s c x.1) s0

/-- Everything of the launch is gone: the cores are free, routines, kernels and root are removed, STATUS says how it ended. -/
def releaseLaunch (s : State) (k : Nat) (l : Launch) : State :=
  let s0 : State := { s with agenda := s.agenda.filter (fun e => !evMine s l e.2) }
  let s1 := if l.st.holds then l.cores.foldl (fun s c => (s.dropHeldGrans c).modCore c Core.released) s0 else s0
  let s2 : State := { s1 with jobs := { s1.jobs with
    list := s1.jobs.list.filter (fun (e : Nat × Job) => e.2.lid ≠ l.lid)
    clusters := if l.st.holds then s1.jobs.clusters.map (fun (e : Nat × Cluster) => if l.hasCluster e.1 then (e.1, { e.2 with win := [] }) else e)
      else s1.jobs.clusters } }
  let others := s2.lau.launches.filter (fun (e : Nat × Launch) => e.1 ≠ k && e.2.asid = l.asid && (e.2.st.holds || e.2.st = .preempted))
  -- a routine stays only where a launch of the space that goes on has installed it too
  let stays := fun (x : RSlot) => x.asid ≠ l.asid || others.any (fun e => sfind e.2.routines x.rid = some x.code)
  let s2' : State := { s2 with near := { s2.near with slots := s2.near.slots.map (fun (e : Nat × List RSlot) => (e.1, e.2.filter stays)) } }
  let s3 : State := if others ≠ [] then s2' else
    { s2' with coh := { s2'.coh with roots := sdel l.asid s2'.coh.roots, tlb := s2'.coh.tlb.filter (fun e => e.asid ≠ l.asid) } }
  let s4 := s3.setLaunch k { l with
    st := if l.reason = 0 then .done else .failed
    saveCores := [], saveJobs := [], saveWin := [], saveEvs := [], until' := 0 }
  kickLaunches (putStatus (dequeue s4 k l) l.pa (if l.reason = 0 then 4 else 6) l.reason l.lid)

/-- LAUNCH_END: contexts are killed, streams stopped, queues unbound, remaining jobs of a failed launch cancelled; once every
access is performed the cores are released. -/
def execLaunchEnd (s : State) : Out :=
  match s.cur.ev with
  | .launchEnd lid =>
    match s.lau.launches.find? (fun e => e.2.lid = lid && (e.2.st.holds || e.2.st = .preempted)) with
    | none => ok s
    | some (k, l) =>
      if l.reason = 0 && !(l.st = .running && s.launchOver l) then ok s
      else if l.st = .preempted || l.st = .restoring || (l.st = .preempting && l.until' ≠ 0) then ok (releaseLaunch s k l)
      else
        let s1 := l.cores.foldl (fun s c => (List.range 8).foldl (fun s q =>
          if ((s.core c).q q).bind = 0 then s else qUnbind s c q) (killAll s c)) s
        let s2 := (s1.jobs.list.filter (fun e => e.2.lid = lid && !e.2.st.terminal)).foldl
          (fun s e => s.terminate e.1 .cancelled 0) s1
        if s2.accessing l || l.cores.any (fun c => (s2.core c).ctxs.any (fun x => x.2.st ≠ .empty))
        then ok (s2.atOnce (s2.time + 1) (.launchEnd lid)) else ok (releaseLaunch s2 k l)
  | _ => notEnabled "LAUNCH_END"

/-! ### `core.start` (R137) -/

/-- `core.start rd, rs1, rs2`. -/
def execCoreStart (rd rs1 rs2 : XReg) (s : State) : Out :=
  privileged s (
    let i := s.cur.core
    let t := (s.xr rs1).toNat
    let a := (s.xr rs2).toNat
    if !s.sameLaunch i t || a % 16 ≠ 0 || a ≥ lsEnd then ok (ctDone s rd 2)
    else if (s.core t).ct.started then ok (ctDone s rd 1)
    else if s.reqs.any (fun e => e.2.who.core = i && e.2.remote = some t && e.2.op.writes && !e.2.atDv) then ok (ctRetry s)
    else ctReads s a 16 (fun s =>
      let w := fun (k : Nat) => BitVec.ofNat 64 (s.lsVal i (a + 8 * k) 8)
      ok (ctDone (s.modCt t (fun _ => Ct.begin' t (w 0) (w 1))) rd 0)))

end Sys2Proof.Machine
end

