-- ==== Sys2Proof/Machine/Contain.lean ====
section
/-!
DEFINITION. Containment (R288, R324–R327): the schedule of a snuff; soft errors as they strike (R317–R319, R330).
-/
namespace Sys2Proof.Machine

/-! ### Rectangles (Table 23.5) -/

/-- Whether a rectangle word names cluster `k` of its die. -/
def rectHas (w k : Nat) : Bool :=
  bitOf w 63 && decide (bitsOf w 9 7 ≤ k / 4) && decide (k / 4 ≤ bitsOf w 6 4) && decide (bitsOf w 3 2 ≤ k % 4) && decide (k % 4 ≤ bitsOf w 1 0)
/-- Rectangle `n` of a die. -/
def State.rect (s : State) (die n : Nat) : Nat := (sget 0 s.lau.rects (die * 8 + n)).toNat
/-- Clusters a snuff number names: 0–7 a rectangle, 8–39 a cluster, 40 what no rectangle of the die holds (R325). -/
def State.snuffClusters (s : State) (die n : Nat) : List Nat :=
  let pick := (List.range 32).filter (fun k =>
    if n < 8 then rectHas (s.rect die n) k
    else if n < 40 then k = n - 8
    else !((List.range 8).any (fun r => rectHas (s.rect die r) k)))
  pick.map (die * 32 + ·)

/-! ### The effects of cycle 16 (Table 23.6, R288, R326) -/

/-- A context as the snuff leaves it: EMPTY with nothing pending. -/
def Ctx.snuffed (x : Ctx) : Ctx :=
  { x with
    st := .empty, wait := .none, task := none, handler := none, pendHandler := none, held := none, heldFaults := [], age := none
    txn := none, reissue := false, alone := false, xfer := none, quash := true, inBlock := false, bufOk := false, bcastEnd := none
    copy := false, joined := [], noTrig := false, stopReq := false }

/-- A core as the snuff leaves it in cycle 16: stopped, everything bound to it cleared; its local store is zeroed from now on. -/
def Core.snuffed (k : Core) (now : Nat) : Core :=
  { k with
    wipe := some now
    ct := { k.ct with halted := true, wait := .none, task := none, resv := none }
    ctxs := k.ctxs.map (fun (e : Nat × Ctx) => (e.1, e.2.snuffed))
    lsBad := [], lsLatent := [], tcc := [], pair := Pair.init, qs := [], qBad := [], bars := [], roots := [], mbx := []
    deques := [], spills := [], refill := [], spillGot := none, recs := [], faultq := [], steal := none, trace := none
    gat := { Gather.init with kernels := k.gat.kernels } }

/-- Ends the transactions of a core's contexts: markers and versioned granules go, also those of a commit whose message is still on
its way, and held jobs are cancelled (R288). -/
def snuffTxns (s : State) (i : Nat) : State :=
  (s.core i).ctxs.foldl (fun s x => (cancelHeld i x.1 s.jobs.list (s.dropMarks i x.1)).1) (s.dropHeldGrans i)

/-- Everything inside stops: what a slice had accepted is performed without a reply, what is still on its way is dropped. -/
def snuffEffects (s : State) (cs : List Nat) : State :=
  let inside := fun (c : Nat) => decide (c < Config.nCores) && cs.contains (clusterOf c)
  let cores := (s.cores.map (·.1)).filter inside
  let s1 := cores.foldl snuffTxns s
  let s2 : State := { s1 with
    reqs := (s1.reqs.filter (fun e => !(inside e.2.who.core && e.2.st = .sent))).map (fun (e : Nat × Req) =>
      if inside e.2.who.core then (e.1, { e.2 with live := false, quiet := true }) else e)
    agenda := s1.agenda.filter (fun e => !(match evCores s1 e.2 with | c :: _ => inside c | [] => false)) }
  let s3 := cores.foldl (fun s c => s.modCore c (fun k => k.snuffed s.time)) s2
  let s4 : State := { s3 with
    lau := { s3.lau with deadClusters := s3.lau.deadClusters ++ cs.filter (fun c => !s3.lau.deadClusters.contains c) }
    jobs := { s3.jobs with clusters := s3.jobs.clusters.map (fun (e : Nat × Cluster) =>
      if cs.contains e.1 then (e.1, { e.2 with win := [] }) else e) } }
  let mine := s4.jobs.list.filter (fun e => !e.2.st.terminal
    && (inside e.2.core || (engineOf e.2.op ≠ .cle && (cs.contains e.2.cluster || e.2.gang.any cs.contains))))
  mine.foldl (fun s e => s.terminate e.1 .cancelled 0) s4

/-- SNUFF_RUN: a request reaches the die's containment controller in cycle 0; the effects of the fence come 16 cycles later (the
step that 64 + number names), the notification in cycle 2,400. A request for a rectangle being snuffed joins that snuff. -/
def execSnuffRun (s : State) : Out :=
  match s.cur.ev with
  | .snuffRun die n =>
    if n ≥ 64 then
      (match s.lau.snuffs.find? (fun x => x.die = die && x.n = n - 64) with
      | some x => ok (snuffEffects s x.clusters)
      | none => ok s)
    else if s.lau.snuffs.any (fun x => x.die = die && x.n = n) then ok s
    else
      let cs := (s.snuffClusters die n).filter (fun c => !s.lau.snuffs.any (fun x => x.clusters.contains c))
      if cs = [] then ok s else
      let s1 : State := { s with lau := { s.lau with snuffs := s.lau.snuffs ++ [{ die := die, n := n, at0 := s.time, clusters := cs }] } }
      ok ((s1.after 16 (.snuffRun die (n + 64))).after 2400 (.snuffNotification die n))
  | _ => notEnabled "SNUFF_RUN"

/-- A core of a cluster that is free after a snuff: its local store is zero. -/
def Core.wiped (k : Core) : Core := { k.released with ls := [], wipe := none, ct := { k.released.ct with halted := true } }
/-- SNUFF_NOTIFICATION: the clusters are free, taken from every launch that holds them; these fail with SNUFFED (R326, R327). -/
def execSnuffNotification (s : State) : Out :=
  match s.cur.ev with
  | .snuffNotification die n =>
    match s.lau.snuffs.find? (fun x => x.die = die && x.n = n) with
    | none => ok s
    | some x =>
      let s1 : State := { s with lau := { s.lau with
        snuffs := s.lau.snuffs.filter (fun y => !(y.die = die && y.n = n))
        deadClusters := s.lau.deadClusters.filter (fun c => !x.clusters.contains c) } }
      let hit := s1.lau.launches.filter (fun e => e.2.st.holds && x.clusters.any e.2.hasCluster)
      let inside := (s1.cores.map (·.1)).filter (fun c => x.clusters.contains (clusterOf c))
      let s2 := hit.foldl (fun s e => (s.setLaunch e.1 { e.2 with freed := e.2.freed ++ x.clusters }).failLaunch e.2.lid 8) s1
      ok (kickLaunches (inside.foldl (fun s c => s.modCore c Core.wiped) s2))
  | _ => notEnabled "SNUFF_NOTIFICATION"

/-! ### Soft errors (R316–R319, R330) -/

/-- Bits of a list that the bits of another toggle. -/
def toggles (old new : List Nat) : List Nat := old.filter (fun b => !new.contains b) ++ new.filter (fun b => !old.contains b)
/-- A value with the listed bits inverted. -/
def flipBits (w x : Nat) (bits : List Nat) : Nat := bits.foldl (fun x b => if b < w then x ^^^ 2 ^ b else x) x
/-- Whether a word with these bits in error is uncorrectable: two errors are detected; of more the code promises nothing. -/
def uncorrectable (key : Nat) (bits : List Nat) : Bool := decide (bits.length = 2) || (decide (bits.length > 2) && Config.beyondCode key)

/-- Marks a word uncorrectable. -/
def badMark (w : Nat) (bits l : List Nat) : List Nat := if uncorrectable w bits && !l.contains w then l ++ [w] else l
/-- Errors in an s register; s0 has none. -/
def Ctx.flipS (x : Ctx) (r : Nat) (bits : List Nat) : Ctx :=
  if r = 0 then x else { x with s := sput 0 x.s r (BitVec.ofNat 64 (flipBits 64 (sget 0 x.s r).toNat bits)), sBad := badMark r bits x.sBad }
/-- Errors in a word of an m register; m0 has none. -/
def Ctx.flipM (x : Ctx) (r w : Nat) (bits : List Nat) : Ctx :=
  if r = 0 then x else
  { x with
    m := sput 0 x.m r (BitVec.ofNat 256 (flipBits 256 (sget 0 x.m r).toNat (bits.filterMap (fun b => if b < 64 then some (64 * w + b) else none))))
    mBad := badMark (4 * r + w) bits x.mBad }
/-- Errors in a bundle of the block buffer. -/
def Ctx.flipBuf (x : Ctx) (w : Nat) (bits : List Nat) : Ctx :=
  { x with buf := sput 0 x.buf w (BitVec.ofNat 64 (flipBits 64 (sget 0 x.buf w).toNat bits)), bufBad := badMark w bits x.bufBad }

/-- SOFT_ERROR: bits change where the error strikes. A line's error waits for the line's next check (R318); one bit of a
protected word is corrected when it is next read, two mark the word; the datapath latch has no code (R319, R330). -/
def execSoftError (s : State) : Out :=
  match s.cur.ev with
  | .softError site =>
    match site with
    | .line line bits =>
      let b := toggles ((sfind s.coh.latent line).getD []) bits
      ok { s with coh := { s.coh with latent := if b = [] then sdel line s.coh.latent else sins line b s.coh.latent } }
    | .localStore i a bits =>
      let w := a / 8 * 8
      let k := s.core i
      let b := toggles ((k.lsLatent.filter (fun e => e.1 = w)).map (·.2)) bits
      let rest := k.lsLatent.filter (fun e => e.1 ≠ w)
      if b.length ≤ 1 then ok (s.setCore i { k with lsLatent := rest ++ b.map (fun x => (w, x)) })
      else
        let v := flipBits 64 (s.lsVal i w 8) b
        ok (s.setCore i { k with
          ls := putCells k.ls w (leBytes 8 v), lsLatent := rest
          lsBad := if uncorrectable w b && !k.lsBad.contains w then k.lsBad ++ [w] else k.lsBad })
    | .latchBits i p bits =>
      ok (s.modCore i (fun k => { k with v := sput 0 k.v p (BitVec.ofNat 512 (flipBits 512 (sget 0 k.v p).toNat bits)) }))
    | .regFile i p w bits =>
      if bits.length ≤ 1 then ok s else
      ok (s.modCore i (fun k => { k with
        v := sput 0 k.v p (BitVec.ofNat 512 (flipBits 512 (sget 0 k.v p).toNat (bits.filterMap (fun b => if b < 64 then some (64 * w + b) else none))))
        vBad := if uncorrectable (p * 8 + w) bits && !k.vBad.contains (p * 8 + w) then k.vBad ++ [p * 8 + w] else k.vBad }))
    | .accumulator c w bits =>
      if bits.length ≤ 1 then ok s else
      ok (s.modCluster c (fun k =>
        let put := fun (m : List (Nat × BitVec 32)) (j : Nat) => sput 0 m (2 * w + j)
          (BitVec.ofNat 32 (flipBits 32 (sget 0 m (2 * w + j)).toNat (bits.filterMap (fun b => if b / 32 = j then some (b % 32) else none))))
        { k with
          acc := put (put k.acc 0) 1
          accBad := if uncorrectable w bits then dedup (k.accBad ++ [2 * w, 2 * w + 1]) else k.accBad }))
    | .blockBuffer i c w bits =>
      if bits.length ≤ 1 then ok s else
      ok (s.modCx i c (fun x => x.flipBuf w bits))
    | .queueElem i q n bits =>
      if bits.length ≤ 1 then ok s else
      let x := (s.core i).q q
      match x.elems[n]? with
      | none => ok s
      | some e =>
        let es := x.elems.map (fun y => if y.ord = e.ord then { y with v := BitVec.ofNat 64 (flipBits 64 y.v.toNat bits) } else y)
        ok ((s.setQ i q { x with elems := es }).modCore i (fun k =>
          { k with qBad := if uncorrectable e.ord bits && !k.qBad.contains e.ord then k.qBad ++ [e.ord] else k.qBad }))
    | .sReg i c r bits =>
      if bits.length ≤ 1 then ok s else ok (s.modCx i c (fun x => x.flipS r bits))
    | .mReg i c r w bits =>
      if bits.length ≤ 1 then ok s else ok (s.modCx i c (fun x => x.flipM r w bits))
    | .xReg i r bits =>
      if bits.length ≤ 1 || r = 0 then ok s else
      ok (s.modCt i (fun t => { t with
        x := sput 0 t.x r (BitVec.ofNat 64 (flipBits 64 (sget 0 t.x r).toNat bits)), xBad := badMark r bits t.xBad }))
    | .specLine i c line bits =>
      ok (match (s.cx i c).txn with
        | some t =>
          if !t.wset.any (fun e => e.1 = line / 4) then s else
          let b := toggles ((sfind t.latent line).getD []) bits
          s.modTxn i c (fun t => { t with latent := if b = [] then sdel line t.latent else sins line b t.latent })
        | none => s)
    | .contextCache i h w bits =>
      if bits.length ≤ 1 then ok s else
      let n := 256 / modeN (s.core i).mode * 8
      ok (s.modCore i (fun k => { k with tcc := k.tcc.map (fun (e : Saved) =>
        if e.handle = h then
          if w ≥ n then
            { e with ctx :=
              if w < n + 16 then e.ctx.flipS (w - n) bits
              else if w < n + 32 then e.ctx.flipM ((w - n - 16) / 4) ((w - n) % 4) bits
              else e.ctx.flipBuf ((w - n - 32) % 16) bits }
          else
          { e with
            v := sput 0 e.v (w / 8) (BitVec.ofNat 512 (flipBits 512 (sget 0 e.v (w / 8)).toNat
              (bits.filterMap (fun b => if b < 64 then some (64 * (w % 8) + b) else none))))
            bad := if uncorrectable w bits && !e.bad.contains w then e.bad ++ [w] else e.bad }
        else e) }))
  | _ => notEnabled "SOFT_ERROR"

end Sys2Proof.Machine
end

