-- ==== Sys2Proof/Machine/Engine.lean ====
section
/-!
DEFINITION. What the engines share (R221, R223, R228–R231, R244, R245, R322, R323): the start of a job, its operands element by
element, the accesses behind them, and the ways it pauses and ends. A job makes its accesses in the step in which it starts or
resumes, and ends after the time its rule gives (log 5, log 11).
-/
namespace Sys2Proof.Machine

/-- What stops an engine: a page fault, a migration, a line it must wait for, or an end code of Table 15.3. -/
inductive Halt where
  | page (va : Nat) | mig (va : Nat) | wait (cycles : Nat) | code (c : Nat)
deriving DecidableEq, Repr

/-- A running engine: the machine, its job, what stopped it; the greatest cost of a line beyond a hit, the greatest `4h` of a
serving slice, the line requests made, the lines touched last by its reads and writes; `dry`: writes are only checked. -/
structure Eng where
  s : State
  j : Nat
  x : Job
  halt : Option Halt
  late : Nat
  far : Nat
  lines : Nat
  rd : Option Nat
  wr : Option Nat
  dry : Bool
deriving DecidableEq, Repr

/-- Stops the engine, unless it has stopped. -/
def Eng.stop (e : Eng) (h : Halt) : Eng := if e.halt.isSome then e else { e with halt := some h }
/-- Stops it with an end code. -/
def Eng.fail (e : Eng) (c : Nat) : Eng := e.stop (.code c)
/-- The C-die whose slices serve the engine. -/
def Eng.die (e : Eng) : Nat := e.x.place / 32
/-- Address space of the job. -/
def Eng.asid (e : Eng) : Nat := e.s.asidOf e.x.core
/-- Adds flags to the job's status (bits of Table 5.7; 32 BADINDEX, 64 MALFORMED). -/
def Eng.flag (e : Eng) (fl : Nat) : Eng := { e with x := { e.x with flags := e.x.flags ||| fl } }
/-- Adds to NBAD. -/
def Eng.bad (e : Eng) (n : Nat) : Eng := { e with x := { e.x with nbad := e.x.nbad + n } }

/-! ### Accesses -/

/-- Whether the engine may reach a region (Table 13.2): device memory, and the host window for a copy engine. -/
def Eng.reaches (e : Eng) (g : Region) : Bool :=
  match g with
  | .dram => true
  | .host => engineOf e.x.op = .cpe
  | _ => false

/-- Translates an address at the serving slice of the engine's die (R221): physical address and layout. -/
def Eng.xlate (e : Eng) (va : Nat) (w : Bool) : Eng × Nat × Nat :=
  if e.halt.isSome then (e, 0, 0)
  else if va ≥ 2 ^ 48 then (e.fail 4, 0, 0)
  else
    let (s1, c, r) := e.s.translate e.die (sliceIdx va) e.asid va { r := !w, w := w, hv := false }
    let e1 := { e with s := s1 }
    match r with
    | .page => (e1.stop (.page va), 0, 0)
    | .mig => (e1.stop (.mig va), 0, 0)
    | .prot => (e1.fail 4, 0, 0)
    | .ok l =>
      let (s2, k, _) := if regionOf (l.pa va) = .dram then s1.classify e.die e.asid va none else (s1, 0, false)
      ({ e1 with
          s := s2
          late := max e.late (c + k)
          far := max e.far (4 * hops e.x.place (e.die * 32 + sliceIdx va)) }, l.pa va, pteNl l.pte)

/-- Counts a line request; `c` is the line's cost beyond a hit. -/
def Eng.request (e : Eng) (line c : Nat) (w : Bool) : Eng :=
  if w then { e with late := max e.late c, lines := if e.wr = some line then e.lines else e.lines + 1, wr := some line }
  else { e with late := max e.late c, lines := if e.rd = some line then e.lines else e.lines + 1, rd := some line }

/-- Reads bytes of one line: the bytes, and the most severe action of what they consume when `eat`. -/
def Eng.readLine (e : Eng) (va n : Nat) (eat : Bool) : Eng × List Byte × Nat :=
  let (e1, pa, nl) := e.xlate va false
  if e1.halt.isSome then (e1, List.replicate n 0, 0) else
  let g := regionOf pa
  if !e1.reaches g then (e1.fail 4, List.replicate n 0, 0) else
  match g with
  | .host =>
    let k := 2 ^ 40 + e1.j
    let s2 := if e1.s.host.hostReads.contains k then e1.s
      else (e1.s.hostAsked k).after Config.hostReadBound (.hostReadTimeout k)
    (({ e1 with s := s2 }).request (pa / 64) (Config.hostDelay k) false, cells s2.hostMem (s2.hostBus pa) n, 0)
  | _ =>
    let (s2, c) := e1.s.touch e1.die (pa / 64)
    let s3 := s2.scrub (pa / 64) nl
    let data := s3.pread pa n
    let act := if eat then (s3.consume (s3.sevpol e1.x.core) pa data).action else 0
    (({ e1 with s := s3 }).request (pa / 64) c false, data, act)

/-- Reads `n` bytes of global memory, line by line. -/
def globalRead : Nat → Eng → Nat → Nat → Bool → Eng × List Byte × Nat
  | 0, e, _, _, _ => (e, [], 0)
  | f + 1, e, va, n, eat =>
    if n = 0 then (e, [], 0) else
    let k := min n (64 - va % 64)
    let (e1, bs, a) := e.readLine va k eat
    let (e2, bs', a') := globalRead f e1 (va + k) (n - k) eat
    (e2, bs ++ bs', max a a')

/-- Reads bytes of the issuing core's local store; an uncorrectable word has class S4 (R319). -/
def Eng.readLocal (e : Eng) (a n : Nat) (eat : Bool) : Eng × List Byte × Nat :=
  if a + n > lsEnd then (e.fail 1, List.replicate n 0, 0) else
  let bad := (e.s.core e.x.core).lsBad.any (fun w => overlap w 8 a n)
  (e, e.s.lsGet e.x.core a n, if eat && bad then polAction (e.s.sevpol e.x.core) 4 else 0)

/-- Reads bytes of an operand: the bytes, and whether they are poisoned. A trap ends the job with SEVERITY, a snuff is
requested and the bytes are used meanwhile (R243, R323). -/
def Eng.read (e : Eng) (loc : Bool) (a : Int) (n : Nat) (eat : Bool) : Eng × List Byte × Bool :=
  if e.halt.isSome then (e, List.replicate n 0, false)
  else if a < 0 then (e.fail (if loc then 1 else 4), List.replicate n 0, false)
  else
    let (e1, bs, act) := if loc then e.readLocal a.toNat n eat else globalRead (n / 64 + 2) e a.toNat n eat
    if act = 3 then ({ e1 with s := e1.s.snuffCore e1.x.core }, bs, false)
    else if act = 2 then (e1.fail 5, bs, false)
    else (e1, bs, act = 1)

/-- A write of device memory first aborts the transactions that track its granules and waits for their acknowledgement (R280); it
comes after the operation that holds a line, a routine's run or a commit's (R23, R258, R282). -/
def Eng.clear (e : Eng) (pa n : Nat) : Eng :=
  if e.halt.isSome || regionOf pa ≠ .dram then e
  else if e.s.lineBusy 0 pa n then e.stop (.wait 1)
  else match e.s.markers pa n false with
    | [] => e
    | hs =>
      let (s1, w) := e.s.abortHolders (homeOf pa) (sliceIdx pa) hs 10 (pa / 256)
      ({ e with s := s1 }).stop (.wait w)
/-- Checks that a write of `n` bytes would meet no fault and nothing to wait for. -/
def globalProbe : Nat → Eng → Nat → Nat → Eng
  | 0, e, _, _ => e
  | f + 1, e, va, n =>
    if n = 0 then e else
    let k := min n (64 - va % 64)
    let (e1, pa, _) := e.xlate va true
    let e2 := if e1.halt.isNone && !e1.reaches (regionOf pa) then e1.fail 4 else e1
    globalProbe f (e2.clear pa k) (va + k) (n - k)

/-- Writes bytes of one line indivisibly (R211). -/
def Eng.writeLine (e : Eng) (va : Nat) (bs : List Byte) : Eng :=
  let (e1, pa, nl) := e.xlate va true
  if e1.halt.isSome then e1 else
  match regionOf pa with
  | .host => ({ e1 with s := { e1.s with hostMem := putCells e1.s.hostMem (e1.s.hostBus pa) bs } }).request (pa / 64) 0 true
  | .dram =>
    let line := pa / 64
    let c := (if homeOf pa = e1.die then 0 else 88) + (if bs.length = 64 then 0 else e1.s.fillCost line)
    let s1 := (e1.s.scrub line nl).install line
    ({ e1 with s := s1.homeWrite pa bs none }).request line c true
  | _ => e1.fail 4

/-- Writes bytes of global memory, line by line. -/
def globalWrite : Nat → Eng → Nat → List Byte → Eng
  | 0, e, _, _ => e
  | f + 1, e, va, bs =>
    if bs = [] then e else
    let k := 64 - va % 64
    globalWrite f (e.writeLine va (bs.take k)) (va + k) (bs.drop k)

/-- Writes bytes of an operand: nothing is written where one of them meets a fault. -/
def Eng.write (e : Eng) (loc : Bool) (a : Int) (bs : List Byte) : Eng :=
  if e.halt.isSome then e
  else if a < 0 then e.fail (if loc then 1 else 4)
  else if loc then
    (if a.toNat + bs.length > lsEnd then e.fail 1 else if e.dry then e else { e with s := e.s.lsPut e.x.core a.toNat bs })
  else
    let f := bs.length / 64 + 2
    let e1 := globalProbe f e a.toNat bs.length
    if e1.halt.isSome || e1.dry then e1 else globalWrite f e1 a.toNat bs

/-- The byte at an operand address as it stands, for a write of one nibble (R91). -/
def Eng.present (e : Eng) (loc : Bool) (a : Int) : Eng × Nat :=
  if e.halt.isSome || a < 0 then (e, 0)
  else if loc then (e, e.s.lsVal e.x.core a.toNat 1)
  else
    let (e1, pa, _) := e.xlate a.toNat true
    (e1, if e1.halt.isSome then 0 else match regionOf pa with
      | .dram => leVal (e1.s.pread pa 1)
      | .host => leVal (cells e1.s.hostMem (e1.s.hostBus pa) 1)
      | _ => 0)

/-- The class of the error an element carries, as it is copied or latched (R237, R322): the highest of the marks that overlap it, or S4 of
an uncorrectable local-store word. -/
def Eng.markOf (e : Eng) (loc : Bool) (a : Int) (n : Nat) : Option Nat :=
  if loc then (if (e.s.core e.x.core).lsBad.any (fun w => overlap w 8 a.toNat n) then some 4 else none)
  else match e.s.findLeaf e.asid a.toNat with
    | none => none
    | some l =>
      match (e.s.coh.marks.filter (fun m => overlap m.1 m.2.w (l.pa a.toNat) n)).map (fun m => m.2.cls) with
      | [] => none
      | c :: cs => some (cs.foldl max c)
/-- Consumes a value with an error of a class: whether it is poisoned (R243, R323). -/
def Eng.consumes (e : Eng) (cls : Option Nat) : Eng × Bool :=
  match cls with
  | none => (e, false)
  | some c =>
    if e.halt.isSome then (e, false) else
    match polAction (e.s.sevpol e.x.core) c with
    | 0 => (e, false)
    | 1 => (e, true)
    | 2 => (e.fail 5, false)
    | _ => ({ e with s := e.s.snuffCore e.x.core }, false)

/-! ### Elements (R80, R91, R92, R244, R245) -/

/-- Indices of element number `p` in traversal order, dimension 0 first. -/
def coords : List (Nat × Int) → Nat → List Nat
  | [], _ => []
  | (x, _) :: t, p => p % x :: coords t (p / x)
/-- Number of elements. -/
def Desc.count (d : Desc) : Nat := d.dims.foldl (fun a x => a * x.1) 1
/-- Row number of an element: all indices but that of dimension 0 (R92). -/
def Desc.rowOf (d : Desc) (p : Nat) : Nat := p / d.ext 0
/-- A byte offset within row `r` under swizzle code `k` (R245). -/
def swizzle (k r o : Nat) : Nat := match k with | 0 => o | 1 => o ^^^ (r % 8 * 32) | _ => o ^^^ (r % 8 * 16)
/-- Address of an element's byte, and which nibble of it. -/
def Desc.at (d : Desc) (swz p : Nat) : Int × Nat :=
  let c := coords d.dims p
  let i0 := c.headD 0
  let far := (List.range d.ndim).foldl (fun (a : Int) k => a + (c.getD k 0 : Int) * d.stride k) (d.base : Int)
  (far + (swizzle swz (c.getD 1 0) (i0 * d.fmt.width / 8) : Nat), i0 * d.fmt.width % 8 / 4)
/-- Address of an element's scale byte. -/
def Desc.scaleAt (d : Desc) (p : Nat) : Int := (d.sbase : Int) + (d.rowOf p : Int) * d.sstride + ((p % d.ext 0) / 32 : Nat)
/-- Whether the rows of a swizzled operand have the length its code asks for. -/
def Desc.swizzles (d : Desc) (k : Nat) : Bool := decide (d.ext 0 * d.fmt.width % (if k = 1 then 2048 else 1024) = 0)
/-- Whether an operand in local store keeps within it (R228); a bitmap's streams lie as its nodes say, and are checked where they are
reached (R93). -/
def Desc.inside (d : Desc) : Bool :=
  !d.loc || d.bm ||
  (let lo := (List.range d.ndim).foldl (fun a i => a + (if d.stride i < 0 then d.stride i * ((d.ext i : Int) - 1) else 0)) (d.base : Int)
   let hi := (List.range d.ndim).foldl (fun a i => a + (if d.stride i > 0 then d.stride i * ((d.ext i : Int) - 1) else 0)) (d.base : Int)
   let rows : Int := (d.count / d.ext 0 : Nat) - 1
   let last := (d.sbase : Int) + rows * d.sstride
   decide (0 ≤ lo) && decide (hi + d.bytesOf (d.ext 0) ≤ lsEnd)
   && (!d.mx || (decide (0 ≤ min (d.sbase : Int) last) && decide (max (d.sbase : Int) last + (d.ext 0 / 32 : Nat) ≤ lsEnd))))

/-- Reads an element: its code, and whether it is poisoned. -/
def Eng.el (e : Eng) (d : Desc) (swz p : Nat) (eat : Bool) : Eng × Nat × Bool :=
  let (a, nib) := d.at swz p
  let (e1, bs, pz) := e.read d.loc a ((d.fmt.width + 7) / 8) eat
  (e1, (leVal bs >>> (4 * nib)) % 2 ^ d.fmt.width, pz)
/-- Reads an element's scale. -/
def Eng.scale (e : Eng) (d : Desc) (p : Nat) : Eng × Nat :=
  if !d.mx then (e, 0x7F) else
  let (e1, bs, pz) := e.read d.loc (d.scaleAt p) 1 true
  (e1, if pz then 0xFF else leVal bs)
/-- Writes an element. -/
def Eng.putEl (e : Eng) (d : Desc) (swz p code : Nat) : Eng :=
  let (a, nib) := d.at swz p
  if d.fmt.width = 4 then
    let (e1, old) := e.present d.loc a
    let v := if nib = 0 then old / 16 * 16 + code % 16 else code % 16 * 16 + old % 16
    e1.write d.loc a [BitVec.ofNat 8 v]
  else e.write d.loc a (leBytes (d.fmt.width / 8) code)
/-- Value of an element under its scale (R92). -/
def Desc.val (d : Desc) (code scale : Nat) (pz : Bool) : Fv :=
  if pz then .nan false
  else if !d.mx then codeVal d.fmt code
  else if scale = 0xFF then .nan false
  else match decodeF d.fmt code with
    | .fin n m x => .fin n m (x + ((scale : Int) - 127))
    | v => v

/-! ### The course of a job -/

/-- The descriptor in place `k` (0 for D0) of a job, when it keeps R80, R92, R93 and R228. -/
def Eng.desc (e : Eng) (k : Nat) (field : BitVec 10) : Option Desc :=
  if field.toNat * 128 + 128 > lsEnd then none else
  (parseDesc (e.x.descs.getD k [])).bind (fun d =>
    if (!d.mx || d.ext 0 % 32 = 0) && (!d.bm || (d.ndim = 2 && d.stride 1 = 0)) && d.inside then some d else none)

/-- Throttling of a die (R359): L idle cycles after every 8 of work. -/
def State.stretch (s : State) (die t : Nat) : Nat := t + t / 8 * sget 0 s.obs.levels die
/-- The die whose throttle level an engine keeps. -/
def Job.powerDie (x : Job) : Nat := if engineOf x.op = .cle then 8 + x.cluster else x.place / 32

/-- The job ends in cycle `t`. -/
def Eng.finishAt (e : Eng) (t : Nat) : State := (e.s.setJob e.j e.x).at t (.jobTerminal e.j)
/-- The job has done all its work, `t` cycles of it; or it stops: PAUSED for a page fault or a migration, FAILED for the rest. -/
def Eng.close (e : Eng) (progress t : Nat) : State :=
  let x := { e.x with progress := progress }
  match e.halt with
  -- nothing is left to read: the operands' range has ended (R192)
  | none => ({ e with x := { x with ranges := [] } }).finishAt (e.s.time + e.s.stretch x.powerDie t)
  | some (.code c) => ({ e with x := { x with code := c } }).finishAt e.s.time
  | some (.wait n) => (e.s.setJob e.j x).after n (.jobRun e.j)
  | some (.page va) =>
    ((e.s.hostOver (2 ^ 40 + e.j)).setJob e.j { x with st := .paused, waitVa := va }).reportPage e.die e.asid (va / 65536) [] [e.j] []
  | some (.mig va) => (e.s.hostOver (2 ^ 40 + e.j)).setJob e.j { x with st := .paused, waitVa := va }
/-- Ends the job at its start with a code. -/
def Eng.reject (e : Eng) (c : Nat) : State := (e.fail c).close e.x.progress 0

/-- Time of a copy engine's requests: one a cycle, the last answered at its time of R25 (log 5). -/
def Eng.cpeTime (e : Eng) : Nat := e.lines + 26 + e.far + e.late

/-- An engine at the start of a job's step. -/
def Eng.start (s : State) (j : Nat) (x : Job) : Eng :=
  { s := s, j := j, x := x, halt := none, late := 0, far := 0, lines := 0, rd := none, wr := none, dry := false }
/-- The descriptors as they are read: an uncorrectable word that the command uses has class S4, and poison acts as trap (R319, R323). -/
def Eng.readDescs (e : Eng) (c : TileCmd) : Eng :=
  let k := e.s.core e.x.core
  if !(descRanges e.x.op c).any (fun r => k.lsBad.any (fun w => overlap w 8 r.1 r.2)) then e else
  match polAction (e.s.sevpol e.x.core) 4 with
  | 0 => e
  | 3 => { e with s := e.s.snuffCore e.x.core }
  | _ => e.fail 5

/-- The engine starts or resumes the job of this step: a first start reads the descriptors, which end their part of the
local-store read range (R192, R221), and its queue entry is free. -/
def tileRun (m : String) (c : TileCmd) (s : State) (f : Eng → State) : Out :=
  let j := s.cur.job
  match s.job j with
  | none => notEnabled m
  | some x0 =>
    if x0.st.terminal then ok s else
    let first := x0.descs = []
    let x := { x0 with
      cmd := c, st := .running
      ranges := if first then s.operandPart x0.core x0.op c else x0.ranges
      descs := if first then [c.d0, c.d1, c.d2].map (fun d => s.descWords x0.core (d.toNat * 128)) else x0.descs }
    let e := Eng.start (kickJobs (s.setJob j x)) j x
    let e1 := if first then e.readDescs c else e
    ok (if e1.halt.isSome then e1.close x.progress 0 else f e1)

/-- Runs `f` as one unit: its reads and the checks of its writes come first, and a unit that stops has written nothing (R211, R231,
R244). -/
def Eng.unit (e : Eng) (f : Eng → Eng) : Eng :=
  if e.dry then f e else
  let d := f { e with dry := true }
  if d.halt.isSome then { d with dry := false } else f e

/-- Runs `f` on element numbers `p` to `p + n - 1` until the engine stops: the engine, and the number that stopped it or the end. -/
def eachEl (f : Eng → Nat → Eng) : Nat → Nat → Eng → Eng × Nat
  | 0, p, e => (e, p)
  | n + 1, p, e =>
    if e.halt.isSome then (e, p) else
    let e1 := e.unit (fun e => f e p)
    if e1.halt.isSome then (e1, p) else eachEl f n (p + 1) e1

/-- The word at a local-store address. -/
def Eng.lsWord (e : Eng) (a n : Nat) : Nat := e.s.lsVal e.x.core a n

/-! ### Bitmap tensors (R93) -/

/-- What a walk of a bitmap has found: the engine, the next node word, present leaves (row, column), broken. -/
structure BmWalk where
  e : Eng
  node : Nat
  leaves : List (Nat × Nat)
  broken : Bool
deriving DecidableEq, Repr

/-- Walks a node with `l` levels of nodes below and with it; `l` = 0: a leaf. -/
def bmNode (d : Desc) : Nat → Nat → Nat → BmWalk → BmWalk
  | 0, r, c, w => { w with leaves := w.leaves ++ [(r, c)] }
  | l + 1, r, c, w =>
    let (e1, bs, pz) := w.e.read d.loc ((d.sbase : Int) + (8 * w.node : Nat)) 8 true
    let e2 := if pz then e1.fail 5 else e1
    let bits := leVal bs
    let side := 16 * 8 ^ l
    (List.range 64).foldl (fun w b =>
      if !bitOf bits b || w.e.halt.isSome then w else
      let r' := r + b / 8 * side
      let c' := c + b % 8 * side
      if r' ≥ d.ext 1 || c' ≥ d.ext 0 then { w with broken := true } else bmNode d l r' c' w)
      { w with e := e2, node := w.node + 1 }

/-- Bytes of `n` present leaves. -/
def Desc.leafBytes (d : Desc) (n : Nat) : Nat := n * 32 * d.fmt.width
/-- The present leaves of a bitmap tensor in storage order; a leaf stream that leaves the local store breaks R228. -/
def Eng.leaves (e : Eng) (d : Desc) : BmWalk :=
  let side := 16 * 8 ^ d.levels
  let w := (List.range ((d.ext 1 + side - 1) / side)).foldl (fun w rr =>
    (List.range ((d.ext 0 + side - 1) / side)).foldl (fun w cc => bmNode d d.levels (rr * side) (cc * side) w) w)
    { e := e, node := 0, leaves := [], broken := false }
  { w with broken := w.broken || (d.loc && decide (d.base + d.leafBytes w.leaves.length > lsEnd)) }

/-- Address and nibble of element (r, c) of present leaf `t`. -/
def Desc.leafEl (d : Desc) (t r c : Nat) : Int × Nat :=
  let k := 256 * t + 16 * r + c
  ((d.base : Int) + (k * d.fmt.width / 8 : Nat), k * d.fmt.width % 8 / 4)
/-- Reads an element of a present leaf. -/
def Eng.leafGet (e : Eng) (d : Desc) (t r c : Nat) (eat : Bool) : Eng × Nat × Bool :=
  let (a, nib) := d.leafEl t r c
  let (e1, bs, pz) := e.read d.loc a ((d.fmt.width + 7) / 8) eat
  (e1, (leVal bs >>> (4 * nib)) % 2 ^ d.fmt.width, pz)

end Sys2Proof.Machine
end

