-- ==== Sys2Proof/Machine/Matrix.lean ====
section
/-!
DEFINITION. Matrix engines: gangs (R238, R239), the matrix products (R104, R105, R233–R237, R240, R243), accumulator commands
(R241) and block selection (R242).
-/
namespace Sys2Proof.Machine

/-! ### Gangs (R238, R239) -/

/-- The clusters that hold members of a group, in ascending id. -/
def State.gangOf (s : State) (x : Job) : List Nat :=
  match (s.launchOf x.core).bind (fun l => sfind l.groups x.cmd.gid.toNat) with
  | some g => (List.range 256).filter (fun k => g.members.any (fun c => clusterOf c = k))
  | none => []

/-- GANG_ARBITER_ENTRY: the arbiter of a die enters one gang command into every member's queue and window before the next; it
waits while a member has no room. A gang that breaks R238 ends its job with BADGANG. -/
def execGangArbiterEntry (s : State) : Out :=
  match s.cur.ev with
  | .gangArbiterEntry j =>
    match s.job j with
    | none => ok s
    | some x =>
      let line := if s.jobs.gangs.contains j then s.jobs.gangs else s.jobs.gangs ++ [j]
      let s1 : State := { s with jobs := { s.jobs with gangs := line } }
      let leave := fun (s : State) => ({ s with jobs := { s.jobs with gangs := s.jobs.gangs.filter (fun g => g ≠ j) } } : State)
      if x.st.terminal || x.gang ≠ [] then ok (leave s1) else
      let g := s.gangOf x
      let die := x.cluster / 32
      if g.any (fun k => k / 32 ≠ die) || decide (g.length > 16) || !g.contains x.cluster then ok ((leave s1).terminate j .failed 8)
      else
        let first := line.find? (fun k => match s.job k with | some y => y.cluster / 32 = die && !y.st.terminal && y.unentered | none => false)
        let n := (cmdEntries j x.cmd).length
        let room := g.all (fun k => (k = x.cluster || decide (s.queueLen (.mxe, k) < 16)) && decide ((s.cluster k).win.length + n ≤ 64))
        if first ≠ some j || !room then ok (s1.after 1 (.gangArbiterEntry j))
        else
          let s2 := (leave s1).setJob j { x with gang := g, order := s1.jobs.order }
          let s3 : State := { s2 with jobs := { s2.jobs with order := s2.jobs.order + 1 } }
          ok (kickJobs (g.foldl (fun s k => s.modCluster k (fun c => { c with win := c.win ++ cmdEntries j x.cmd })) s3))
  | _ => notEnabled "GANG_ARBITER_ENTRY"

/-- GANG_MEMBER_REPORT: a member's end reaches the leader; with the last the job is terminal. -/
def execGangMemberReport (s : State) : Out :=
  match s.cur.ev with
  | .gangMemberReport j _ =>
    match s.job j with
    | none => ok s
    | some x =>
      let s1 := s.setJob j { x with reports := x.reports + 1 }
      ok (if x.reports + 1 ≥ x.gang.length then s1.terminate j (if x.code = 0 then .done else .failed) x.code else s1)
  | _ => notEnabled "GANG_MEMBER_REPORT"

/-- The clusters of a job's ranks. -/
def Job.ranks (x : Job) : List Nat := if x.gang = [] then [x.cluster] else x.gang
/-- The end of a matrix-engine job: on a gang, rank `q` works the `q`-th time from `2h` after the leader's start, and reports over
`2h` (R239). -/
def Eng.matrixClose (e : Eng) (progress : Nat) (times : List Nat) : State :=
  if e.halt.isSome || e.x.gang = [] then e.close progress (times.headD 0)
  else
    let s1 := e.s.setJob e.j { e.x with progress := progress, reports := 0, ranges := [] }
    (List.range e.x.gang.length).foldl (fun s q =>
      let h := hops e.x.cluster (e.x.gang.getD q 0)
      s.after (s.stretch e.x.powerDie (times.getD q 0) + 4 * h) (.gangMemberReport e.j q)) s1

/-! ### Accumulators (R234, R319) -/

/-- Place of accumulator (row, column) in a cluster's list. -/
def accKey (row col : Nat) : Nat := row * 1024 + col
/-- The accumulator word of a cluster. -/
def State.accAt (s : State) (k row col : Nat) : Nat := (sget 0 (s.cluster k).acc (accKey row col)).toNat
/-- Writes accumulator words of one row from column `col` on; a fresh word has fresh check bits. -/
def State.putAcc (s : State) (k row col : Nat) (ws : List Nat) : State :=
  s.modCluster k (fun c => { c with
    acc := (List.range ws.length).foldl (fun m j => sput 0 m (accKey row (col + j)) (BitVec.ofNat 32 (ws.getD j 0))) c.acc
    accBad := c.accBad.filter (fun a => !(decide (accKey row col ≤ a) && decide (a < accKey row col + ws.length))) })
/-- Consumes an accumulator word: an uncorrectable one has class S4; poison makes an FP word NaN and traps an integer (R243). -/
def Eng.acc (e : Eng) (fp : Bool) (k row col : Nat) : Eng × Nat :=
  let v := e.s.accAt k row col
  let (e1, pz) := e.consumes (if (e.s.cluster k).accBad.contains (accKey row col) then some 4 else none)
  if !pz then (e1, v) else if fp then (e1, canonNaN .f32) else (e1.fail 5, v)

/-- First column and number of columns of a command (R234). -/
def colsOf (c : TileCmd) : Nat × Nat := (c.acb.toNat * 128, 128 * (c.acn.toNat + 1))

/-! ### One block of a product (R104, R105) -/

/-- What a block's exact sum has met. -/
structure BSum where
  nan : Bool
  nv : Bool
  pinf : Bool
  ninf : Bool
  sum : Dy
  /-- every product so far is −0 -/
  negz : Bool
deriving DecidableEq, Repr

/-- Adds one exact product. -/
def BSum.add (a : BSum) (x y : Fv) : BSum :=
  match x, y with
  | .nan _, _ | _, .nan _ => { a with nan := true }
  | .inf _, .fin _ 0 _ | .fin _ 0 _, .inf _ => { a with nan := true, nv := true }
  | .fin n m e, .fin n' m' e' =>
    { a with sum := a.sum.add ((dyOf n m e).mul (dyOf n' m' e')), negz := a.negz && (m = 0 || m' = 0) && (n != n') }
  | _, _ => if x.neg = y.neg then { a with pinf := true } else { a with ninf := true }

/-- The update of an FP32 accumulator by one block under scale codes `sa`, `sb` (R104): the new word, and OF and NV. -/
def fpBlock (old : Nat) (ps : List (Fv × Fv)) (sa sb : Nat) : Res :=
  if ps = [] then ⟨old, 0⟩
  else if sa = 0xFF || sb = 0xFF then ⟨canonNaN .f32, 0⟩
  else
    let b := ps.foldl (fun (a : BSum) p => a.add p.1 p.2)
      { nan := false, nv := false, pinf := false, ninf := false, sum := Dy.zero, negz := true }
    let clash := b.pinf && b.ninf
    if b.nan || clash then ⟨canonNaN .f32, if b.nv || clash then fNV else 0⟩
    else
      let c : Res := if b.pinf || b.ninf then ⟨infCode .f32 b.ninf, 0⟩
        else roundDy .f32 .rne false 0 b.negz { b.sum with e := b.sum.e + ((sa + sb : Nat) : Int) - 254 }
      if (decodeF .f32 old).isNaN then ⟨canonNaN .f32, c.fl &&& fOF⟩
      else
        let r := fadd .f32 .rne false 0 (decodeF .f32 old) (decodeF .f32 c.code)
        ⟨r.code, (r.fl &&& (fOF + fNV)) ||| (c.fl &&& fOF)⟩

/-- The update of an INT32 accumulator by one block: exact, clamped with OF (R105). -/
def intBlock (old : Nat) (ps : List (Fv × Fv)) : Res :=
  let v := ps.foldl (fun (a : Int) p => match p.1, p.2 with
    | .fin n m _, .fin n' m' _ => a + (dyOf n m 0).m * (dyOf n' m' 0).m
    | _, _ => a) (toSigned 32 old)
  if v < intLo .i32 then ⟨intCode .i32 (intLo .i32), fOF⟩
  else if v > intHi .i32 then ⟨intCode .i32 (intHi .i32), fOF⟩
  else ⟨intCode .i32 v, 0⟩

/-! ### Products (R233–R237, R240) -/

/-- Operand families (Table 15.7): cycles per two steps of k. -/
def mmFamily (f : Fmt) : Option Nat :=
  match f with
  | .e4m3 | .e5m2 => some 2
  | .e2m1 => some 1
  | .bf16 => some 4
  | .i8 | .n8 => some 3
  | _ => none
/-- Cycles for `k` steps of a family. -/
def mmCycles (fam k : Nat) : Nat := match fam with | 1 => k / 2 | 4 => 2 * k | _ => k

/-- What a product needs: both descriptors, the kind (OP), row indices of A and operand latch (MMA.GA), and present leaves (MMA.BM). -/
structure Mm where
  op : Nat
  a : Desc
  b : Desc
  fam : Nat
  idx : List Nat
  latch : List Word
  leaves : List (Nat × Nat)
deriving DecidableEq, Repr

/-- Row of A, as stored, that serves result row `i`; none: a bad index (R237). -/
def Mm.row (m : Mm) (i : Nat) : Option Nat :=
  if m.op = 4 then (let k := m.idx.getD i 0; if k < m.a.ext 1 then some k else none) else some i

/-- Reads the elements `k0` to `k1 − 1` of a row of a dense operand with their scale; an integer poison traps (R243). -/
def Eng.blockOf (e : Eng) (d : Desc) (row k0 k1 : Nat) : Eng × List (Option Fv) × Nat :=
  let (e1, sc) := e.scale d (row * d.ext 0 + k0)
  let (e2, l) := (List.range (k1 - k0)).foldl (fun (p : Eng × List (Option Fv)) k =>
    let (e', c, pz) := p.1.el d 0 (row * d.ext 0 + k0 + k) true
    (if pz && d.fmt.isInt then e'.fail 5 else e', p.2 ++ [some (if pz then .nan false else codeVal d.fmt c)])) (e1, [])
  (e2, l, sc)

/-- Reads a block of a row of a bitmap operand: absent elements are none (R93, R105, R236). -/
def Eng.bmBlock (e : Eng) (m : Mm) (row k0 k1 : Nat) : Eng × List (Option Fv) × Nat :=
  let d := m.a
  let (e1, l) := (List.range (k1 - k0)).foldl (fun (p : Eng × List (Option Fv)) k =>
    let c := k0 + k
    match m.leaves.findIdx? (fun x => x = (row / 16 * 16, c / 16 * 16)) with
    | none => (p.1, p.2 ++ [none])
    | some t =>
      let (e', code, pz) := p.1.leafGet d t (row % 16) (c % 16) true
      (if pz && d.fmt.isInt then e'.fail 5 else e', p.2 ++ [some (if pz then .nan false else codeVal d.fmt code)])) (e, [])
  (e1, l, 0x7F)

/-- Words a gathered row takes in the operand latch (R237): its elements, then its scales. -/
def rowLen (d : Desc) : Nat := d.ext 0 + (if d.mx then d.ext 0 / 32 else 0)
/-- A word of the latch: a code, and above it one more than the class of its error, 0 for none. -/
def latchWord (code : Nat) (cls : Option Nat) : Word := BitVec.ofNat 64 (code + 2 ^ 32 * (match cls with | some c => c + 1 | none => 0))
/-- Consumes a word of the latch: the code, and whether it is poisoned. -/
def Eng.latched (e : Eng) (m : Mm) (n : Nat) : Eng × Nat × Bool :=
  let w := (m.latch.getD n 0).toNat
  let (e1, pz) := e.consumes (if w / 2 ^ 32 = 0 then none else some (w / 2 ^ 32 - 1))
  (e1, w % 2 ^ 32, pz)
/-- Takes a block of result row `i` from the operand latch. -/
def Eng.latchBlock (e : Eng) (m : Mm) (i k0 k1 : Nat) : Eng × List (Option Fv) × Nat :=
  let n := i * rowLen m.a
  let (e1, sc, bad) := if m.a.mx then e.latched m (n + m.a.ext 0 + k0 / 32) else (e, 0x7F, false)
  let (e2, l) := (List.range (k1 - k0)).foldl (fun (p : Eng × List (Option Fv)) k =>
    let (e', c, pz) := p.1.latched m (n + k0 + k)
    (if pz && m.a.fmt.isInt then e'.fail 5 else e', p.2 ++ [some (if pz then .nan false else codeVal m.a.fmt c)])) (e1, [])
  (e2, l, if bad then 0xFF else sc)

/-- Pairs of elements both present. -/
def bothPresent (a b : List (Option Fv)) : List (Fv × Fv) :=
  (List.zip a b).filterMap (fun p => match p with | (some x, some y) => some (x, y) | _ => none)

/-- Reads a rank's rows of a block: result row within the rank, elements, scale; and the rank's lateness. -/
def Eng.rankRows (e : Eng) (m : Mm) (rows q k0 k1 : Nat) : Eng × List (Nat × List (Option Fv) × Nat) :=
  (List.range (min 128 (rows - 128 * q))).foldl (fun (p : Eng × List (Nat × List (Option Fv) × Nat)) i =>
    match m.row (128 * q + i) with
    | none => p
    | some r =>
      let (e', l, sc) := match m.op with
        | 3 => p.1.bmBlock m r k0 k1
        | 4 => p.1.latchBlock m (128 * q + i) k0 k1
        | _ => p.1.blockOf m.a r k0 k1
      (e', p.2 ++ [(i, l, sc)])) (e, [])

/-- One K-block of one column tile on every rank: all is read before an accumulator changes, so that a block that stops adds
nothing (R231, R239, R243). `lates` are the ranks' latenesses. -/
def mmBlock (m : Mm) (rows c0 t b : Nat) (p : Eng × List Nat) : Eng × List Nat :=
  let k0 := 32 * b
  let k1 := min (m.a.ext 0) (k0 + 32)
  let cols := (List.range 128).filter (fun j => 128 * t + j < m.b.ext 1)
  let (eb, bs) := cols.foldl (fun (p : Eng × List (List (Option Fv) × Nat)) j =>
    let (e', l, sc) := p.1.blockOf m.b (128 * t + j) k0 k1
    (e', p.2 ++ [(l, sc)])) ({ p.1 with late := 0 }, [])
  let lb := eb.late
  let ks := p.1.x.ranks
  let (e1, as, lates) := (List.range ks.length).foldl
    (fun (st : Eng × List (List (Nat × List (Option Fv) × Nat)) × List Nat) q =>
      let (e', l) := ({ st.1 with late := 0 } : Eng).rankRows m rows q k0 k1
      (e', st.2.1 ++ [l], st.2.2 ++ [max (max lb e'.late) (p.2.getD q 0)])) (eb, [], [])
  let fp := m.fam ≠ 3
  let col := fun (j : Nat) => c0 + 128 * t + j
  -- accumulators are consumed too
  let e2 := (List.range ks.length).foldl (fun e q => (as.getD q []).foldl (fun e r =>
    (List.range cols.length).foldl (fun e j => (e.acc fp (ks.getD q 0) r.1 (col j)).1) e) e) e1
  if e2.halt.isSome then (e2, lates) else
  ((List.range ks.length).foldl (fun (e : Eng) q =>
    let k := ks.getD q 0
    (as.getD q []).foldl (fun (e : Eng) r =>
      let rs : List Res := (List.range cols.length).map (fun j =>
        let old := (e.acc fp k r.1 (col j)).2
        let (bl, sb) := bs.getD j ([], 0)
        let ps := bothPresent r.2.1 bl
        if fp then fpBlock old ps r.2.2 sb else intBlock old ps)
      let fl := rs.foldl (fun a r => a ||| r.fl) 0
      ({ e with s := e.s.putAcc k r.1 (col 0) (rs.map (fun (r : Res) => r.code)) }).flag fl) e) e2, lates)

/-- Runs blocks from number `p` on (over column tiles in ascending order) until one stops; `n` are left. -/
def mmBlocks (m : Mm) (rows c0 nb : Nat) : Nat → Nat → Eng × List Nat → (Eng × List Nat) × Nat
  | 0, p, st => (st, p)
  | n + 1, p, st =>
    let st1 := mmBlock m rows c0 (p / nb) (p % nb) st
    if st1.1.halt.isSome then (st1, p) else mmBlocks m rows c0 nb n (p + 1) st1

/-- Number of 16-wide ranges of k in which a leaf of a rank's rows is present. -/
def Mm.ranges (m : Mm) (q : Nat) : Nat :=
  (dedup ((m.leaves.filter (fun x => x.1 / 128 = q)).map (·.2))).length

/-- The index list of a gather: an error in it traps. -/
def Eng.indices (e : Eng) (d : Desc) (n : Nat) : Eng × List Nat :=
  (List.range n).foldl (fun (p : Eng × List Nat) i =>
    let (e', c, pz) := p.1.el d 0 i true
    (if pz then e'.fail 5 else e', p.2 ++ [c])) (e, [])

/-- MMA.GA reads the gathered rows into the operand latch before it computes (R237); their errors go with them, to be met when a block
is summed (R243). -/
def Eng.gatherRows (e : Eng) (m : Mm) (rows : Nat) : Eng × List Word :=
  let k := m.a.ext 0
  (List.range rows).foldl (fun (p : Eng × List Word) i =>
    match m.row i with
    | none => (p.1, p.2 ++ List.replicate (rowLen m.a) 0)
    | some r =>
      let (e1, ws) := (List.range k).foldl (fun (q : Eng × List Word) j =>
        let n := r * k + j
        let (e', c, _) := q.1.el m.a 0 n false
        (e', q.2 ++ [latchWord c (e'.markOf m.a.loc (m.a.at 0 n).1 ((m.a.fmt.width + 7) / 8))])) (p.1, [])
      let (e2, ss) := (List.range (if m.a.mx then k / 32 else 0)).foldl (fun (q : Eng × List Word) b =>
        let a := m.a.scaleAt (r * k + 32 * b)
        let (e', bs, _) := q.1.read m.a.loc a 1 false
        (e', q.2 ++ [latchWord (leVal bs) (e'.markOf m.a.loc a 1)])) (e1, [])
      (e2, p.2 ++ ws ++ ss)) (e, [])

/-- Zeroes the columns of a command in every row of every rank, but in rows that `skip` names (rank, row). -/
def zeroCols (e : Eng) (c : TileCmd) (skip : Nat → Nat → Bool) : Eng :=
  let (c0, n) := (colsOf c)
  (List.range e.x.ranks.length).foldl (fun e q => (List.range 128).foldl (fun (e : Eng) i =>
    if skip q i then e else { e with s := e.s.putAcc (e.x.ranks.getD q 0) i c0 (List.replicate n 0) }) e) e

/-- The course of `MMA`, `MMA.MX`, `MMA.BM` and `MMA.GA` (`op` 1 to 4). -/
def mmRun (op : Nat) (c : TileCmd) (e : Eng) : State :=
  match e.desc 0 c.d0, e.desc 1 c.d1, (if op = 4 then e.desc 2 c.d2 else e.desc 0 c.d0) with
  | some a, some b, some x =>
    let rows := if op = 4 then x.ext 0 else a.ext 1
    let shape := a.ndim = 2 && b.ndim = 2 && !b.bm && (a.bm = (op = 3))
      && (match op with | 2 => a.mx && b.mx | 4 => a.mx = b.mx | _ => !a.mx && !b.mx)
      && decide (b.ext 1 ≤ (colsOf c).2) && decide (rows ≤ 128 * e.x.ranks.length)
      && (op ≠ 4 || (x.fmt = .n32 && x.loc && x.ndim = 1 && !x.bm))
    match mmFamily a.fmt, mmFamily b.fmt with
    | some fam, some fam' =>
      if !shape || fam ≠ fam' then e.reject 1
      else if c.cf.toNat > 1 then e.reject 7
      else if a.ext 0 ≠ b.ext 0 then e.reject 2
      else
        -- a first start gathers, counts bad indices and zeroes; a resumed one finds the index list and the latch in Job.tmp
        let first := e.x.tmp = []
        let (e1, idx) := if op ≠ 4 then (e, []) else if first then e.indices x rows
          else (e, ((e.x.tmp.drop 1).take rows).map (·.toNat))
        let w := if op = 3 then e1.leaves a else { e := e1, node := 0, leaves := [], broken := false }
        let m0 : Mm := { op := op, a := a, b := b, fam := fam, idx := idx, latch := e.x.tmp.drop (1 + rows), leaves := w.leaves }
        let e2 := if w.broken then w.e.fail 1 else w.e
        if e2.halt.isSome then e2.close e.x.progress 0 else
        let (e3, latch) := if op = 4 && first then e2.gatherRows m0 rows else (e2, m0.latch)
        if e3.halt.isSome then e3.close e.x.progress 0 else
        let m := { m0 with latch := latch }
        let wait := if op = 4 && first then e3.cpeTime + 2 else 0
        let bads := ((List.range rows).filter (fun i => (m.row i).isNone)).length
        let e4 := if !first then e3 else
          let z := if c.cf = 1 then zeroCols e3 c (fun q i => decide (128 * q + i < rows) && (m.row (128 * q + i)).isNone) else e3
          let f := if bads = 0 then z else (z.flag 32).bad bads
          -- the table and the list have been read: only B's part of the range is left (R192)
          { f with x := { f.x with
              tmp := 1 :: (idx.map (fun i => BitVec.ofNat 64 i) ++ latch)
              ranges := if op = 4 then operandRanges b else f.x.ranges } }
        let k := a.ext 0
        let nb := (k + 31) / 32
        let nt := (b.ext 1 + 127) / 128
        let p0 := e4.x.progress
        let ((e5, lates), p) := mmBlocks m rows (colsOf c).1 nb (nt * nb - p0) p0 (e4, e4.x.ranks.map (fun _ => 0))
        let times := (List.range e5.x.ranks.length).map (fun q =>
          wait + lates.getD q 0 + (if op = 3 then (nt - p0 / nb) * (mmCycles fam (16 * m.ranges q) + 24)
            else mmCycles fam (32 * (nt * nb - p0)) + 24 * (nt - p0 / nb)))
        e5.matrixClose p times
    | _, _ => e.reject 1
  | _, _, _ => e.reject 1

/-- `MMA`. -/
def execMma (c : TileCmd) (s : State) : Out := tileRun "MMA" c s (mmRun 1 c)
/-- `MMA.MX`. -/
def execMmaMx (c : TileCmd) (s : State) : Out := tileRun "MMA_MX" c s (mmRun 2 c)
/-- `MMA.BM`. -/
def execMmaBm (c : TileCmd) (s : State) : Out := tileRun "MMA_BM" c s (mmRun 3 c)
/-- `MMA.GA`. -/
def execMmaGa (c : TileCmd) (s : State) : Out := tileRun "MMA_GA" c s (mmRun 4 c)

/-! ### Accumulator commands (R241) -/

/-- `ACC.ZERO`. -/
def execAccZero (c : TileCmd) (s : State) : Out :=
  tileRun "ACC_ZERO" c s (fun e =>
    (zeroCols e c (fun _ _ => false)).matrixClose e.x.progress (e.x.ranks.map (fun _ => 2 + (c.acn.toNat + 1))))

/-- Times of a row-moving accumulator command: `24 + ⌈4 × M′ × N / 256⌉` for the rows of each rank from row `p0` on. -/
def accTimes (e : Eng) (m n p0 : Nat) : List Nat :=
  (List.range e.x.ranks.length).map (fun q =>
    let rows := (min m (128 * (q + 1))) - max p0 (128 * q)
    24 + (4 * rows * n + 255) / 256 + e.late)

/-- Whether a descriptor has the shape of an accumulator operand. -/
def accShape (e : Eng) (c : TileCmd) (d : Desc) : Bool :=
  d.ndim = 2 && !d.bm && decide (d.ext 0 ≤ (colsOf c).2) && decide (d.ext 1 ≤ 128 * e.x.ranks.length)

/-- One row of `ACC.LOAD`: the words, with OF and NV. -/
def Eng.loadRow (e : Eng) (d : Desc) (row : Nat) : Eng × List Nat :=
  let bits := d.fmt = .f32 || d.fmt = .i32 || d.fmt = .n32
  (List.range (d.ext 0)).foldl (fun (p : Eng × List Nat) j =>
    let n := row * d.ext 0 + j
    let (e1, sc) := p.1.scale d n
    let (e2, code, pz) := e1.el d 0 n true
    if pz then (if d.fmt.isInt then e2.fail 5 else e2, p.2 ++ [canonNaN .f32])
    else if bits then (e2, p.2 ++ [code])
    else
      let r := if d.mx then mxVal d.fmt code sc else convert d.fmt .f32 .rne false 0 code
      (e2.flag (r.fl &&& (fOF + fNV)), p.2 ++ [r.code])) (e, [])

/-- `ACC.LOAD`. -/
def execAccLoad (c : TileCmd) (s : State) : Out :=
  tileRun "ACC_LOAD" c s (fun e =>
    match e.desc 0 c.d0 with
    | none => e.reject 1
    | some d =>
      let fmtOk := d.fmt.isFloat || d.fmt = .i32 || d.fmt = .n32
      if !accShape e c d || !fmtOk then e.reject 1 else
      let p0 := e.x.progress
      let (e1, p) := eachEl (fun e i =>
        let (e1, ws) := e.loadRow d i
        if e1.halt.isSome then { e1 with x := { e1.x with flags := e.x.flags } } else
        { e1 with s := e1.s.putAcc (e.x.ranks.getD (i / 128) 0) (i % 128) (colsOf c).1 ws }) (d.ext 1 - p0) p0 e
      e1.matrixClose p (accTimes e1 (d.ext 1) (d.ext 0) p0))

/-- A rounding code of CF [2:0] (R230). -/
def cfRound (cf : BitVec 4) : Option Rnd :=
  match cf.toNat % 8 with
  | 0 => some .rne | 1 => some .rtz | 2 => some .rdn | 3 => some .rup | _ => none

/-- Quantises a run of values to MX codes and their scale (R176, R241). -/
def mxRun (f : Fmt) (rnd : Rnd) (sat : Bool) (vs : List Fv) : List Nat × Nat × Nat :=
  let (a, sc) := mxBlock f rnd sat (vs.map (fun v => (v, true))) { out := [], fl := 0, seed := 0 }
  (a.out.reverse, sc, a.fl)

/-- Writes one run of MX elements of `d` from element `p` on, with its scale byte. -/
def Eng.putRun (e : Eng) (d : Desc) (swz p : Nat) (codes : List Nat) (scale : Nat) : Eng :=
  let e1 := (List.range codes.length).foldl (fun e k => e.putEl d swz (p + k) (codes.getD k 0)) e
  e1.write d.loc (d.scaleAt p) [BitVec.ofNat 8 scale]

/-- One word of an accumulator as an element of `f` (R241). -/
def accTo (f : Fmt) (rnd : Rnd) (sat : Bool) (w : Nat) : Res :=
  match f with
  | .f32 | .i32 | .n32 => ⟨w, 0⟩
  | f => if f.isInt then convert .i32 f rnd sat 0 w else convert .f32 f rnd sat 0 w

/-- One row of `ACC.STORE`. -/
def Eng.storeRow (e : Eng) (c : TileCmd) (d : Desc) (rnd : Rnd) (row : Nat) : Eng :=
  let sat := bitOf c.cf.toNat 3
  let k := e.x.ranks.getD (row / 128) 0
  let (e1, ws) := (List.range (d.ext 0)).foldl (fun (p : Eng × List Nat) j =>
    let (e', w) := p.1.acc (!d.fmt.isInt) k (row % 128) ((colsOf c).1 + j)
    (e', p.2 ++ [w])) (e, [])
  if e1.halt.isSome then e1 else
  if d.mx then
    (List.range (d.ext 0 / 32)).foldl (fun (e : Eng) b =>
      if e.halt.isSome then e else
      let (cs, sc, fl) := mxRun d.fmt rnd sat (((ws.drop (32 * b)).take 32).map (decodeF .f32))
      (e.putRun d c.swz.toNat (row * d.ext 0 + 32 * b) cs sc).flag fl) e1
  else
    (List.range (d.ext 0)).foldl (fun (e : Eng) j =>
      if e.halt.isSome then e else
      let r := accTo d.fmt rnd sat (ws.getD j 0)
      (e.putEl d c.swz.toNat (row * d.ext 0 + j) r.code).flag r.fl) e1

/-- `ACC.STORE`. -/
def execAccStore (c : TileCmd) (s : State) : Out :=
  tileRun "ACC_STORE" c s (fun e =>
    match e.desc 0 c.d0, cfRound c.cf with
    | none, _ => e.reject 1
    | some d, rnd =>
      if !accShape e c d || (c.swz ≠ 0 && (!d.loc || !d.swizzles c.swz.toNat)) then e.reject 1 else
      match rnd with
      | none => e.reject 7
      | some rnd =>
        let p0 := e.x.progress
        let (e1, p) := eachEl (fun e i => e.storeRow c d rnd i) (d.ext 1 - p0) p0 e
        e1.matrixClose p (accTimes e1 (d.ext 1) (d.ext 0) p0))

/-! ### `TOPK.BLK` (R242) -/

/-- Order of a word: INT32, or FP32 with −0 below +0 and every NaN below −∞. -/
def topKey (int : Bool) (w : Nat) : Int :=
  if int then toSigned 32 w
  else if (decodeF .f32 w).isNaN then -(2 ^ 40)
  else if w ≥ 2 ^ 31 then -((w - 2 ^ 31 : Nat) : Int) - 1 else (w : Int)
/-- Inserts a (column, word) after the entries that come before it in descending order. -/
def topInsert (int : Bool) (x : Nat × Nat) : List (Nat × Nat) → List (Nat × Nat)
  | [] => [x]
  | y :: t => if topKey int x.2 > topKey int y.2 then x :: y :: t else y :: topInsert int x t
/-- The `k` largest of a block in descending order, equal words in ascending column. -/
def topOf (int : Bool) (k : Nat) (l : List (Nat × Nat)) : List (Nat × Nat) :=
  (l.foldl (fun acc x => topInsert int x acc) []).take k

/-- One row of `TOPK.BLK`. -/
def Eng.topRow (e : Eng) (c : TileCmd) (dv di : Desc) (k w row : Nat) : Eng :=
  let int := c.cf = 1
  let q := e.x.ranks.getD (row / 128) 0
  let (c0, n) := (colsOf c)
  let (e1, ws) := (List.range n).foldl (fun (p : Eng × List (Nat × Nat)) j =>
    let (e', v) := p.1.acc (!int) q (row % 128) (c0 + j)
    (e', p.2 ++ [(j, v)])) (e, [])
  if e1.halt.isSome then e1 else
  (List.range (n / w)).foldl (fun (e : Eng) b =>
    let sel := topOf int k ((ws.drop (b * w)).take w)
    (List.range k).foldl (fun (e : Eng) t =>
      if e.halt.isSome then e else
      let x := sel.getD t (0, 0)
      let p := row * dv.ext 0 + b * k + t
      (e.putEl dv 0 p x.2).putEl di 0 p x.1) e) e1

/-- `TOPK.BLK`. -/
def execTopkBlk (c : TileCmd) (s : State) : Out :=
  tileRun "TOPK_BLK" c s (fun e =>
    let arg := c.arg.toNat
    let k := arg % 16 + 1
    let w := 32 * 2 ^ bitsOf arg 6 4
    let n := (colsOf c).2
    match e.desc 0 c.d0, e.desc 1 c.d1 with
    | some dv, some di =>
      let argOk := arg < 128 && n % w = 0 && decide (k ≤ w) && decide (c.cf.toNat ≤ 1)
      let shape := dv.ndim = 2 && di.ndim = 2 && !dv.mx && !dv.bm && !di.mx && !di.bm
        && (!argOk || (dv.ext 0 = k * (n / w) && di.ext 0 = k * (n / w))) && dv.ext 1 = di.ext 1
        && decide (dv.ext 1 ≤ 128 * e.x.ranks.length)
        && dv.fmt = (if c.cf = 1 then .i32 else .f32) && di.fmt = .n32
      if !shape then e.reject 1
      else if !argOk then e.reject 7
      else
        let p0 := e.x.progress
        let (e1, p) := eachEl (fun e i => e.topRow c dv di k w i) (dv.ext 1 - p0) p0 e
        e1.matrixClose p (e1.x.ranks.map (fun _ => 24 + n / 8 + k + e1.late))
    | _, _ => e.reject 1)

end Sys2Proof.Machine
end

