-- ==== Sys2Proof/Machine/Copy.lean ====
section
/-!
DEFINITION. Copy engines (R244–R252, R266, R267): copies with conversion, streams, rows, peers, bitmaps, fills, signals, hashes.
-/
namespace Sys2Proof.Machine

/-! ### Common -/

/-- The operand a swizzle applies to: 0 none, 1 the destination, 2 the source; none: SWZ names neither (R245). -/
def swizzleOn (swz : BitVec 4) (src dst : Desc) : Option Nat :=
  if swz = 0 then some 0
  else if dst.loc then (if dst.swizzles swz.toNat then some 1 else none)
  else if src.loc then (if src.swizzles swz.toNat then some 2 else none)
  else none

/-- Marks of an element that is moved unconverted go with it (R322): the elements of memory that overlap it, or the
uncorrectable local-store words. -/
def Eng.carry (e : Eng) (src : Bool) (a : Int) (dst : Bool) (b : Int) (n : Nat) : Eng :=
  if e.halt.isSome || e.dry then e else
  match e.markOf src a n with
  | none => e
  | some c =>
    if dst then
      let w := b.toNat / 8 * 8
      { e with s := e.s.modCore e.x.core (fun k => { k with lsBad := if k.lsBad.contains w then k.lsBad else k.lsBad ++ [w] }) }
    else match e.s.findLeaf e.asid b.toNat with
      | none => e
      | some l =>
        if regionOf (l.pa b.toNat) ≠ .dram then e else
        { e with s := { e.s with coh := { e.s.coh with marks := sins (l.pa b.toNat) { w := n, cls := c, nl := pteNl l.pte } e.s.coh.marks } } }

/-- Moves one element unconverted. -/
def Eng.moveEl (e : Eng) (src : Desc) (ss p : Nat) (dst : Desc) (ds q : Nat) : Eng :=
  let (e1, code, _) := e.el src ss p false
  if e1.halt.isSome then e1 else
  (e1.putEl dst ds q code).carry src.loc (src.at ss p).1 dst.loc (dst.at ds q).1 ((src.fmt.width + 7) / 8)

/-- Value of a source element; poison is a NaN (R323). -/
def Eng.valOf (e : Eng) (d : Desc) (swz p : Nat) : Eng × Nat × Fv × Bool :=
  let (e1, sc) := e.scale d p
  let (e2, code, pz) := e1.el d swz p true
  (e2, code, d.val code sc pz, pz)

/-- Converts one element to a destination without scales (R103, R246): equal codes copy the bits; poison gives a float
destination's canonical NaN and traps for any other (Table 23.4). -/
def Eng.convEl (e : Eng) (src : Desc) (ss p : Nat) (dst : Fmt) (rnd : Rnd) (sat : Bool) : Eng × Nat :=
  let (e1, code, v, pz) := e.valOf src ss p
  if e1.halt.isSome then (e1, 0)
  else if pz then (if dst.isFloat then (e1, canonNaN dst) else (e1.fail 5, 0))
  else
    let r := if src.mx then valTo dst rnd sat 0 v else convert src.fmt dst rnd sat 0 code
    (e1.flag r.fl, r.code)

/-- Converts a run of 32 elements to MX codes and their scale. -/
def Eng.convRun (e : Eng) (src : Desc) (ss p : Nat) (dst : Fmt) (rnd : Rnd) (sat : Bool) : Eng × List Nat × Nat :=
  let (e1, vs) := (List.range 32).foldl (fun (a : Eng × List Fv) k =>
    let (e', _, v, _) := a.1.valOf src ss (p + k)
    (e', a.2 ++ [v])) (e, [])
  if e1.halt.isSome then (e1, [], 0) else
  let (cs, sc, fl) := mxRun dst rnd sat vs
  (e1.flag fl, cs, sc)

/-! ### `COPY` (R246) -/

/-- The queue of a core bound to a copy-engine stream (R132). -/
def Core.streamQueue (k : Core) (n : Nat) : Option Nat :=
  (List.range 8).find? (fun q => let x := k.q q; x.src = 6 && !x.out && x.stream = n)

/-- Whether a descriptor's rows follow one another without gaps. -/
def Desc.packed (d : Desc) : Bool :=
  (List.range d.ndim).all (fun i => i = 0 || (d.stride i * 8 = (((d.dims.take i).foldl (fun a x => a * x.1) 1) * d.fmt.width : Nat)))

/-- `COPY` to memory or local store, from element `p0` on: element by element, or run by run for an MX destination. -/
def copyPlain (c : TileCmd) (src dst : Desc) (rnd : Rnd) (ss ds : Nat) (e : Eng) : State :=
  let sat := bitOf c.cf.toNat 3
  let p0 := e.x.progress
  let n := src.count - p0
  if dst.mx then
    let (e1, b) := eachEl (fun e b =>
      let p := 32 * b
      let (e1, cs, sc) := e.convRun src ss p dst.fmt rnd sat
      if e1.halt.isSome then e1 else e1.putRun dst ds p cs sc) (n / 32) (p0 / 32) e
    e1.close (32 * b) e1.cpeTime
  else if !src.mx && src.fmt = dst.fmt then
    let (e1, p) := eachEl (fun e p => e.moveEl src ss p dst ds p) n p0 e
    e1.close p e1.cpeTime
  else
    let (e1, p) := eachEl (fun e p =>
      let (e1, code) := e.convEl src ss p dst.fmt rnd sat
      if e1.halt.isSome then e1 else e1.putEl dst ds p code) n p0 e
    e1.close p e1.cpeTime

/-- Codes of the elements `p` to `p + n − 1` of a stream, in the destination format; an MX run writes its scale. -/
def streamCodes (src dst : Desc) (ss p n : Nat) (rnd : Rnd) (sat : Bool) (e : Eng) : Eng × List Nat :=
  if dst.mx then
    let r := p / 32 * 32
    let (e1, cs, sc) := e.convRun src ss r dst.fmt rnd sat
    ((e1.write dst.loc (dst.scaleAt r) [BitVec.ofNat 8 sc]), (cs.drop (p - r)).take n)
  else
    (List.range n).foldl (fun (a : Eng × List Nat) k =>
      let (e', x) := if !src.mx && src.fmt = dst.fmt then
          (let (e', x, _) := a.1.el src ss (p + k) false; (e', x))
        else a.1.convEl src ss (p + k) dst.fmt rnd sat
      (e', a.2 ++ [x])) (e, [])

/-- One step of a stream copy: the next 8 bytes are converted and pushed; a full queue holds the engine (R246). -/
def copyStream (c : TileCmd) (src dst : Desc) (rnd : Rnd) (ss : Nat) (e : Eng) : State :=
  let i := e.x.core
  match (e.s.core i).streamQueue (c.arg.toNat % 16) with
  | none => e.reject 11
  | some q =>
    let x := (e.s.core i).q q
    let p := e.x.progress
    let n := min (64 / dst.fmt.width) (src.count - p)
    let (e1, cs) := streamCodes src dst ss p n rnd (bitOf c.cf.toNat 3) e
    if e1.halt.isSome then e1.close p 0
    else if e.x.tmp = [] then (e1.s.setJob e1.j { e1.x with tmp := [1] }).after e1.cpeTime (.jobRun e1.j)
    else if x.room = 0 then (e1.s.setJob e1.j e1.x).after 1 (.jobRun e1.j)
    else
      -- the upper nibble of the last byte of an odd number of 4-bit elements is left open: a free value (log 9)
      let odd := n * dst.fmt.width % 8 ≠ 0
      let v := BitVec.ofNat 64 (ofElems dst.fmt.width (if odd then cs ++ [e1.s.free.toNat % 16] else cs))
      let s1 := if odd then e1.s.freshen else e1.s
      let e2 := { e1 with s := (qAppend s1 i q v false).pokeCxs i }
      if p + n ≥ src.count then e2.close (p + n) 0
      else (e2.s.setJob e2.j { e2.x with progress := p + n }).after 1 (.jobRun e2.j)

/-- `COPY`. -/
def execCopy (c : TileCmd) (s : State) : Out :=
  tileRun "COPY" c s (fun e =>
    match e.desc 0 c.d0, e.desc 1 c.d1 with
    | some src, some dst =>
      let strm := bitOf c.arg.toNat 4
      match swizzleOn c.swz src dst with
      | none => e.reject 1
      | some on =>
        if src.dims.map (·.1) ≠ dst.dims.map (·.1) || src.bm || dst.bm || (strm && (dst.loc || !dst.packed)) then e.reject 1 else
        match cfRound c.cf with
        | none => e.reject 7
        | some rnd =>
          if c.arg.toNat ≥ 32 || (!strm && c.arg.toNat % 16 ≠ 0) then e.reject 7 else
          let ss := if on = 2 then c.swz.toNat else 0
          if strm then copyStream c src dst rnd ss e
          else copyPlain c src dst rnd ss (if on = 1 then c.swz.toNat else 0) e
    | _, _ => e.reject 1)

/-! ### Rows (R247) -/

/-- A job with a counter adds to it once its writes are performed, as its last effect (R247). -/
def rowsClose (c : TileCmd) (n p : Nat) (e : Eng) : State :=
  if e.halt.isSome || !bitOf c.arg.toNat 8 then e.close p e.cpeTime
  else
    (e.s.setJob e.j { e.x with progress := n, tmp := [1], ranges := [] }).after (e.s.stretch e.x.powerDie e.cpeTime) (.jobRun e.j)
/-- The counter's addition. -/
def rowsCount (c : TileCmd) (n : Nat) (e : Eng) : State :=
  let a := bitsOf c.arg.toNat 32 16
  let e1 := e.write true a (leBytes 8 ((e.s.lsVal e.x.core a 8 + n) % 2 ^ 64))
  e1.close n 0

/-- ARG of the row commands: n, CNT and CADDR; none: out of range. -/
def rowsArg (c : TileCmd) : Option Nat :=
  let a := c.arg.toNat
  let cad := bitsOf a 32 16
  if a &&& 0x1FFFF0107 ≠ a || cad % 8 ≠ 0 || (bitOf a 8 && decide (cad + 8 > lsEnd)) then none else some (a % 8 + 1)

/-- Moves row `i` of `src` to row `k` of `dst`, its scale row with it. -/
def Eng.moveRow (e : Eng) (src : Desc) (ss i : Nat) (dst : Desc) (ds k : Nat) : Eng :=
  let n := src.ext 0
  let e1 := (eachEl (fun e j => e.moveEl src ss (i * n + j) dst ds (k * n + j)) n 0 e).1
  if !src.mx then e1 else
  (eachEl (fun e b =>
    let (e1, bs, _) := e.read src.loc (src.scaleAt (i * n + 32 * b)) 1 false
    let e2 := e1.write dst.loc (dst.scaleAt (k * n + 32 * b)) bs
    e2.carry src.loc (src.scaleAt (i * n + 32 * b)) dst.loc (dst.scaleAt (k * n + 32 * b)) 1) (n / 32) 0 e1).1
/-- Writes a row, and its scale row, as zero bytes. -/
def Eng.zeroRow (e : Eng) (dst : Desc) (ds k : Nat) : Eng :=
  let n := dst.ext 0
  let e1 := (eachEl (fun e j => e.putEl dst ds (k * n + j) 0) n 0 e).1
  if !dst.mx then e1 else
  (eachEl (fun e b => e.write dst.loc (dst.scaleAt (k * n + 32 * b)) [0]) (n / 32) 0 e1).1

/-- Reads entry `i` of an index list; an error in it traps. -/
def Eng.index (e : Eng) (d : Desc) (i : Nat) : Eng × Nat :=
  let (e1, v, pz) := e.el d 0 i true
  (if pz then e1.fail 5 else e1, v)

/-- Row-pointer segments of `COPY.ROWS` with RP: start, length (negative: malformed) and whether it is usable at output `out`. -/
def segOut (ptr : List Int) (pool room : Nat) : Nat → Nat
  | 0 => 0
  | i + 1 =>
    let out := segOut ptr pool room i
    let a := ptr.getD i 0
    let b := ptr.getD (i + 1) 0
    if a ≤ b && 0 ≤ a && b ≤ (pool : Int) && (out : Int) + (b - a) ≤ (room : Int) then out + (b - a).toNat else out

/-- `COPY.ROWS` with row pointers. -/
def copySegs (c : TileCmd) (n : Nat) (src dst x : Desc) (e : Eng) : State :=
  let ok' := x.fmt = .i32 && x.loc && x.ndim = 1 && !x.bm && decide (x.ext 0 ≥ n + 1) && src.ndim = 1 && dst.ndim = 1
    && src.fmt = dst.fmt && !src.mx && !dst.mx && !src.bm && !dst.bm
  match swizzleOn c.swz src dst with
  | none => e.reject 1
  | some on =>
    if !ok' then e.reject 1
    else if e.x.tmp ≠ [] then rowsCount c n e
    else
      let ss := if on = 2 then c.swz.toNat else 0
      let ds := if on = 1 then c.swz.toNat else 0
      let (e0, ptr) := (List.range (n + 1)).foldl (fun (a : Eng × List Int) i =>
        let (e', v) := a.1.index x i
        (e', a.2 ++ [toSigned 32 v])) (e, [])
      if e0.halt.isSome then e0.close e.x.progress 0 else
      let (e1, p) := eachEl (fun e i =>
        let a := ptr.getD i 0
        let b := ptr.getD (i + 1) 0
        let out := segOut ptr (src.ext 0) (dst.ext 0) i
        if b < a then (e.flag 64).bad 1
        else if a < 0 || b > (src.ext 0 : Int) || (out : Int) + (b - a) > (dst.ext 0 : Int) then (e.flag 32).bad 1
        else (eachEl (fun e k => e.moveEl src ss (a.toNat + k) dst ds (out + k)) (b - a).toNat 0 e).1) (n - e.x.progress) e.x.progress e0
      rowsClose c n p e1

/-- The row commands with an index list: `scat` scatters. -/
def rowsRun (scat : Bool) (c : TileCmd) (e : Eng) : State :=
  match rowsArg c, e.desc 0 c.d0, e.desc 1 c.d1, e.desc 2 c.d2 with
  | n?, some src, some dst, some x =>
    if !scat && c.cf = 1 then (match n? with | none => e.reject 7 | some n => copySegs c n src dst x e) else
    let n := c.arg.toNat % 8 + 1
    let table := if scat then dst else src
    let rows := if scat then src else dst
    let ok' := x.fmt = .n32 && x.loc && x.ndim = 1 && !x.bm && decide (x.ext 0 ≥ n) && src.ndim = 2 && dst.ndim = 2
      && src.fmt = dst.fmt && src.ext 0 = dst.ext 0 && decide (rows.ext 1 ≥ n) && !src.bm && !dst.bm && src.mx = dst.mx
    (match swizzleOn c.swz src dst with
    | none => e.reject 1
    | some on =>
      if !ok' then e.reject 1
      else if n?.isNone || decide (c.cf.toNat > 1) then e.reject 7
      else if e.x.tmp ≠ [] then rowsCount c n e
      else
        let ss := if on = 2 then c.swz.toNat else 0
        let ds := if on = 1 then c.swz.toNat else 0
        let (e1, p) := eachEl (fun e i =>
          let (e1, k) := e.index x i
          if e1.halt.isSome then e1
          else if k < table.ext 1 then (if scat then e1.moveRow src ss i dst ds k else e1.moveRow src ss k dst ds i)
          else
            let e2 := if scat then e1 else e1.zeroRow dst ds i
            if e2.halt.isSome then e2 else (e2.flag 32).bad 1) (n - e.x.progress) e.x.progress e
        rowsClose c n p e1)
  | _, _, _, _ => e.reject 1

/-- `COPY.ROWS`. -/
def execCopyRows (c : TileCmd) (s : State) : Out := tileRun "COPY_ROWS" c s (rowsRun false c)
/-- `SCAT.ROWS`. -/
def execScatRows (c : TileCmd) (s : State) : Out := tileRun "SCAT_ROWS" c s (rowsRun true c)

/-! ### `COPY.PEER` (R248, R334) -/

/-- Fabric agent number of an engine: 65,536 + cluster, or 65,792 + H-die. -/
def Job.agent (x : Job) : Nat := if engineOf x.op = .cle then 65792 + x.cluster else 65536 + x.cluster

/-- A packet of a peer copy as a word of Job.tmp: [63] acknowledged, [62] to be sent again, [61] a scale byte, [60:33] elements,
[31:0] sequence number. -/
def peerWord (scale : Bool) (n seq : Nat) : Word := BitVec.ofNat 64 (b2n scale * 2 ^ 61 + n * 2 ^ 33 + seq)
/-- Elements of a packet. -/
def peerCount (w : Word) : Nat := bitsOf w.toNat 60 33
/-- Whether a packet is still on its way. -/
def peerOpen (w : Word) : Bool := !bitOf w.toNat 63 && !bitOf w.toNat 62

/-- Elements from number `p` that one packet carries: a run along dimension 0 within one 64-byte unit of the destination. -/
def peerRunLen (d : Desc) (p : Nat) : Nat :=
  let left := d.ext 0 - p % d.ext 0
  max 1 (min left ((64 - ((d.at 0 p).1 % 64).toNat) * 8 / d.fmt.width))

/-- The peer window an operand address translates into: peer and offset. -/
def Eng.peerAt (e : Eng) (loc : Bool) (a : Int) (w : Bool) : Eng × Option (Nat × Nat) :=
  if loc || e.halt.isSome then (e, none)
  else if a < 0 then (e.fail 4, none)
  else
    let (e1, pa, _) := e.xlate a.toNat w
    (e1, if e1.halt.isSome then none else match regionOf pa with | .peer p => some (p, (pa - 2 ^ 42) % 2 ^ 36) | _ => none)

/-- A packet to a peer leaves, or the job ends: PROT for an unbound peer, LINKDOWN for a link declared down (R365). -/
def Eng.sendPeer (e : Eng) (p : Nat) (op : FabOp) (scale : Bool) (n : Nat) : Eng :=
  if e.halt.isSome then e
  else if (e.s.peerUp p).isNone then e.fail 4
  else if e.s.peerDown p then e.fail 9
  else
    let seq := ((sfind e.s.fab.flows (flowKey e.x.agent p)).getD { seq := 0, pkts := [] }).seq
    { e with s := e.s.fabSend e.x.agent p op none (some e.j), x := { e.x with tmp := e.x.tmp ++ [peerWord scale n seq] } }

/-- One packet of a peer copy: `n` elements from number `p`, or the scale byte of element `p` (`n` = 0). Exactly one operand
lies in a peer window, or the job ends with PROT. The elements carry their errors with them, which the peer takes as poison (R322). -/
def peerPacket (src dst : Desc) (p n : Nat) (e : Eng) : Eng :=
  let scale := n = 0
  let len := if scale then 1 else (n * src.fmt.width + 7) / 8
  let a := if scale then src.scaleAt p else (src.at 0 p).1
  let b := if scale then dst.scaleAt p else (dst.at 0 p).1
  let (e1, from') := e.peerAt src.loc a false
  let (e2, dest) := e1.peerAt dst.loc b true
  if e2.halt.isSome then e2 else
  match from', dest with
  | some (q, off), none =>
    -- the destination is checked before the load leaves
    let e3 := if dst.loc then e2 else globalProbe (len / 64 + 2) e2 b.toNat len
    e3.sendPeer q (.load off len) scale n
  | none, some (q, off) =>
    if scale then
      let (e3, bs, _) := e2.read src.loc a 1 false
      let op := if (e3.markOf src.loc a 1).isSome then FabOp.elems off bs false [(0, 1)] else .store off bs
      e3.sendPeer q op true 0
    else
      let w := (src.fmt.width + 7) / 8
      let (e3, cs, bad) := (List.range n).foldl (fun (r : Eng × List Nat × List (Nat × Nat)) k =>
        let (e', c, _) := r.1.el src 0 (p + k) false
        let m := e'.markOf src.loc (src.at 0 (p + k)).1 w
        (e', r.2.1 ++ [if m.isSome && src.fmt.isFloat then canonNaN src.fmt else c],
          if m.isSome then r.2.2 ++ [(k * src.fmt.width / 8, w)] else r.2.2)) (e2, [], [])
      let half := n * src.fmt.width % 8 ≠ 0
      let bs := leBytes len (ofElems src.fmt.width cs)
      let bad' := if src.fmt.isFloat then [] else bad
      e3.sendPeer q (if half || bad' ≠ [] then .elems off bs half bad' else .store off bs) false n
  | _, _ => e2.fail 4

/-- Sends packets from element `p` on until one stops; `fuel` bounds their number. -/
def peerSends (src dst : Desc) : Nat → Nat → Eng → Eng
  | 0, _, e => e
  | f + 1, p, e =>
    if e.halt.isSome || p ≥ src.count then e else
    let n := peerRunLen (if dst.loc then src else dst) p
    let e1 := if src.mx && p % 32 = 0 then peerPacket src dst p 0 e else e
    if e1.halt.isSome then e1 else
    let e2 := peerPacket src dst p n e1
    if e2.halt.isSome then e2 else peerSends src dst f (p + n) e2

/-- `COPY.PEER`: what is not yet sent leaves; a stop takes effect once every packet before it is acknowledged. -/
def execCopyPeer (c : TileCmd) (s : State) : Out :=
  tileRun "COPY_PEER" c s (fun e =>
    match e.desc 0 c.d0, e.desc 1 c.d1 with
    | some src, some dst =>
      if src.dims.map (·.1) ≠ dst.dims.map (·.1) || src.fmt ≠ dst.fmt || src.mx ≠ dst.mx || src.bm || dst.bm then e.reject 1 else
      let p := e.x.progress + (e.x.tmp.map peerCount).foldl (· + ·) 0
      let e1 := peerSends src dst (src.count - p) p e
      if e1.x.tmp ≠ [] then e1.s.setJob e1.j e1.x else e1.close e1.x.progress 0
    | _, _ => e.reject 1)

/-- Takes the acknowledged prefix out of a peer copy's packets: elements acknowledged, and the rest. -/
def peerPrefix : List Word → Nat → Nat × List Word
  | [], n => (n, [])
  | w :: t, n => if bitOf w.toNat 63 then peerPrefix t (n + peerCount w) else (n, w :: t)

/-- A packet of a peer copy is answered end to end: data of a load are written, an error ends the job with PROT (R248, R345). -/
def peerAck (s : State) (j seq : Nat) (err : Bool) (data : List Byte) : State :=
  match s.job j with
  | none => s
  | some x =>
    if x.st ≠ .running then s
    else if err then s.terminate j .failed 4
    else
      match x.tmp.findIdx? (fun w => peerOpen w && decide (w.toNat % 2 ^ 32 = seq)) with
      | none => s
      | some k =>
        let w := x.tmp.getD k 0
        let p := x.progress + ((x.tmp.take k).map peerCount).foldl (· + ·) 0
        let e := Eng.start s j x
        let e1 := match (if data = [] then none else e.desc 1 x.cmd.d1) with
          | none => e
          | some d => e.unit (fun e =>
            if bitOf w.toNat 61 then e.write d.loc (d.scaleAt p) (data.take 1)
            else (eachEl (fun e i => e.putEl d 0 (p + i) (elem d.fmt.width (leVal data) i)) (peerCount w) 0 e).1)
        let w' := if e1.halt.isSome then w ||| BitVec.ofNat 64 (2 ^ 62) else w ||| BitVec.ofNat 64 (2 ^ 63)
        let (n, rest) := peerPrefix (x.tmp.set k w') 0
        let tmp := if rest.any peerOpen then rest else []
        let s1 := e1.s.setJob j { x with progress := x.progress + n, tmp := tmp }
        if tmp = [] then s1.at s1.time (.jobRun j) else s1

/-! ### Bitmaps (R249) -/

/-- Whether an element counts as zero: ±0 or integer 0. -/
def zeroEl (f : Fmt) (code : Nat) : Bool :=
  if f = .e8m0 then false else if f.isFloat then code % 2 ^ (f.width - 1) = 0 else code = 0

/-- Whether any element of the leaf at (r, c) within the extents is non-zero. -/
def Eng.leafFull (e : Eng) (d : Desc) (r c : Nat) : Eng × Bool :=
  (List.range 256).foldl (fun (a : Eng × Bool) k =>
    let i := r + k / 16
    let j := c + k % 16
    if i ≥ d.ext 1 || j ≥ d.ext 0 then a else
    let (e', code, pz) := a.1.el d 0 (i * d.ext 0 + j) true
    if pz && !d.fmt.isFloat then (e'.fail 5, a.2) else (e', a.2 || pz || !zeroEl d.fmt code)) (e, false)

/-- Node words and present leaves in storage order below a node with `l` levels of nodes. -/
def bmItems (have' : List (Nat × Nat)) : Nat → Nat → Nat → List (Nat ⊕ (Nat × Nat))
  | 0, r, c => [.inr (r, c)]
  | l + 1, r, c =>
    let side := 16 * 8 ^ l
    let at' := fun (b : Nat) => (r + b / 8 * side, c + b % 8 * side)
    let on := (List.range 64).filter (fun b => have'.any (fun x =>
      decide ((at' b).1 ≤ x.1) && decide (x.1 < (at' b).1 + side) && decide ((at' b).2 ≤ x.2) && decide (x.2 < (at' b).2 + side)))
    .inl (maskOf on) :: on.flatMap (fun b => bmItems have' l (at' b).1 (at' b).2)

/-- What `BM.PACK` has written: node words and leaves. -/
structure Packed where
  e : Eng
  nodes : Nat
  leaves : Nat
deriving DecidableEq, Repr

/-- Writes one item: a node word, or a present leaf word by word; output beyond its room ends with CAPACITY. -/
def packItem (c : TileCmd) (d0 d1 : Desc) (skip : Nat) (w : Packed) (it : Nat ⊕ (Nat × Nat)) : Packed :=
  if w.e.halt.isSome then w else
  let arg := c.arg.toNat
  match it with
  | .inl bits =>
    if w.nodes ≥ bitsOf arg 63 32 then { w with e := w.e.fail 10 }
    -- the nodes before a leaf that is written have been written
    else if w.leaves < skip then { w with nodes := w.nodes + 1 }
    else { w with e := w.e.write d1.loc ((d1.sbase : Int) + (8 * w.nodes : Nat)) (leBytes 8 bits), nodes := w.nodes + 1 }
  | .inr (r, cc) =>
    if w.leaves < skip then { w with leaves := w.leaves + 1 } else
    let per := 4 * d1.fmt.width
    let (e1, codes) := (List.range 256).foldl (fun (a : Eng × List Nat) k =>
      let i := r + k / 16
      let j := cc + k % 16
      if i ≥ d0.ext 1 || j ≥ d0.ext 0 then (a.1, a.2 ++ [0]) else
      let (e', x, pz) := a.1.el d0 0 (i * d0.ext 0 + j) true
      (e', a.2 ++ [if pz && d0.fmt.isFloat then canonNaN d0.fmt else x])) (w.e, [])
    let val := ofElems d1.fmt.width codes
    let e2 := e1.unit (fun e => (List.range per).foldl (fun (e : Eng) k =>
      if e.halt.isSome then e
      else if w.leaves * per + k ≥ bitsOf arg 31 0 then e.fail 10
      else e.write d1.loc ((d1.base : Int) + (8 * (w.leaves * per + k) : Nat)) (leBytes 8 (elem 64 val k))) e)
    if e2.halt.isSome then { w with e := e2 } else { w with e := e2, leaves := w.leaves + 1 }

/-- `BM.PACK`. -/
def execBmPack (c : TileCmd) (s : State) : Out :=
  tileRun "BM_PACK" c s (fun e =>
    match e.desc 0 c.d0, e.desc 1 c.d1 with
    | some a, some b =>
      if a.ndim ≠ 2 || a.bm || a.mx || !b.bm || a.fmt ≠ b.fmt || a.ext 0 ≠ b.ext 0 || a.ext 1 ≠ b.ext 1 then e.reject 1
      else if c.cf.toNat > 1 then e.reject 7
      else
        let cells := (List.range ((a.ext 1 + 15) / 16)).flatMap (fun i => (List.range ((a.ext 0 + 15) / 16)).map (fun j => (16 * i, 16 * j)))
        let (e1, have') := cells.foldl (fun (p : Eng × List (Nat × Nat)) x =>
          let (e', full) := p.1.leafFull a x.1 x.2
          (e', if full || c.cf = 1 then p.2 ++ [x] else p.2)) (e, [])
        if e1.halt.isSome then e1.close e.x.progress 0 else
        let side := 16 * 8 ^ b.levels
        let roots := (List.range ((a.ext 1 + side - 1) / side)).flatMap (fun i =>
          (List.range ((a.ext 0 + side - 1) / side)).map (fun j => (i * side, j * side)))
        let items := roots.flatMap (fun r => bmItems have' b.levels r.1 r.2)
        -- what fits ARG's room must lie in the local store (R228)
        let nodes := min (items.length - have'.length) (bitsOf c.arg.toNat 63 32)
        let words := min (b.leafBytes have'.length / 8) (bitsOf c.arg.toNat 31 0)
        if b.loc && (decide (b.sbase + 8 * nodes > lsEnd) || decide (b.base + 8 * words > lsEnd)) then e1.reject 1 else
        let w := items.foldl (packItem c a b e.x.progress) { e := e1, nodes := 0, leaves := 0 }
        w.e.close w.leaves w.e.cpeTime
    | _, _ => e.reject 1)

/-- `BM.UNPACK`. -/
def execBmUnpack (c : TileCmd) (s : State) : Out :=
  tileRun "BM_UNPACK" c s (fun e =>
    match e.desc 0 c.d0, e.desc 1 c.d1 with
    | some a, some b =>
      if b.ndim ≠ 2 || b.bm || b.mx || !a.bm || a.fmt ≠ b.fmt || a.ext 0 ≠ b.ext 0 || a.ext 1 ≠ b.ext 1 then e.reject 1
      else if c.arg.toNat ≥ 2 ^ b.fmt.width then e.reject 7
      else
        let w := e.leaves a
        let e1 := if w.broken then w.e.fail 1 else w.e
        if e1.halt.isSome then e1.close e.x.progress 0 else
        let p0 := e.x.progress
        let (e2, p) := eachEl (fun e p =>
          let i := p / b.ext 0
          let j := p % b.ext 0
          match w.leaves.findIdx? (fun x => x = (i / 16 * 16, j / 16 * 16)) with
          | none => e.putEl b 0 p c.arg.toNat
          | some t =>
            let (e', code, _) := e.leafGet a t (i % 16) (j % 16) false
            if e'.halt.isSome then e' else
            (e'.putEl b 0 p code).carry a.loc (a.leafEl t (i % 16) (j % 16)).1 b.loc (b.at 0 p).1 ((a.fmt.width + 7) / 8)) (b.count - p0) p0 e1
        e2.close p e2.cpeTime
    | _, _ => e.reject 1)

/-! ### `FILL`, `HASH`, `SIGNAL` (R250–R252, R266, R267) -/

/-- `FILL`. -/
def execFill (c : TileCmd) (s : State) : Out :=
  tileRun "FILL" c s (fun e =>
    match e.desc 0 c.d0 with
    | none => e.reject 1
    | some d =>
      if d.mx || d.bm || (c.swz ≠ 0 && (!d.loc || !d.swizzles c.swz.toNat)) then e.reject 1
      else if c.arg.toNat ≥ 2 ^ d.fmt.width then e.reject 7
      else
        let p0 := e.x.progress
        let (e1, p) := eachEl (fun e p => e.putEl d c.swz.toNat p c.arg.toNat) (d.count - p0) p0 e
        e1.close p e1.cpeTime)

/-- BASE and LOC of a descriptor of which only words 0 and 1 are read; none: it does not lie in local store, or word 1 breaks a rule of
R80 or R93 (R228). -/
def Eng.target (e : Eng) (k : Nat) (field : BitVec 10) : Option (Nat × Bool) :=
  let ws := e.x.descs.getD k []
  if field.toNat * 128 ≥ lsEnd || !word1Ok (ws.getD 1 0).toNat then none
  else some (bitsOf (ws.getD 0 0).toNat 47 0, bitOf (ws.getD 1 0).toNat 4)

/-- Bytes of a list of element codes of `w` bits, packed. -/
def packBytes (w : Nat) (codes : List Nat) : List Byte := leBytes ((codes.length * w + 7) / 8) (ofElems w codes)

/-- `HASH`. -/
def execHash (c : TileCmd) (s : State) : Out :=
  tileRun "HASH" c s (fun e =>
    match e.desc 0 c.d0, e.target 1 c.d1 with
    | some d, some (base, loc) =>
      if d.bm || base % 64 ≠ 0 || (loc && decide (base + 48 > lsEnd)) then e.reject 1 else
      let (e1, codes) := (List.range d.count).foldl (fun (a : Eng × List Nat) p =>
        let (e', x, pz) := a.1.el d 0 p true
        (if pz then e'.fail 5 else e', x :: a.2)) (e, [])
      let bytes := packBytes d.fmt.width codes.reverse
      let e2 := e1.write loc base (sha384 bytes)
      e2.close (if e2.halt.isNone then 1 else 0) (e2.cpeTime + 80 * ((bytes.length + 17 + 127) / 128))
    | _, _ => e.reject 1)

/-- Appends the record of a SIGNAL with DIG to the launch's sealed log (R267): none: the log has no room. -/
def appendLog (s : State) (k : Nat) (l : Launch) (rec' : List Byte) : Option State :=
  let n := l.log.length
  let put := fun (s : State) => s.setLaunch k { l with log := l.log ++ [rec'] }
  if n ≥ 2 ^ 24 then none
  else if l.word 19 = 0 then some (put s)
  else if n ≥ l.logPages * 1024 then none
  else
    match s.spaceLeaf l.asid (l.word 19 + 64 * n) with
    | some f => some (put (s.homeWrite (f.pa (l.word 19 + 64 * n)) rec' none))
    | none => some (put s)

/-- The end of a SIGNAL with DIG: the record in Job.tmp joins the log; a full log pauses the job while the MMP extends it. -/
def signalLog (e : Eng) (t : Nat) : State :=
  match e.s.lau.launches.find? (fun l => l.2.lid = e.x.lid && l.2.st.holds) with
  | none => e.close 1 t
  | some (k, l) =>
    match appendLog e.s k l (e.x.tmp.flatMap (fun w => leBytes 8 w.toNat)) with
    | some s1 => { e with s := s1 }.close 1 t
    | none => (e.s.setJob e.j { e.x with st := .paused }).queueReport e.die
        { asid := e.asid, page := 0, who := [], jobs := [], reqs := [], tag := none, refused := false, ext := some e.j }

/-- `SIGNAL`. -/
def execSignal (c : TileCmd) (s : State) : Out :=
  tileRun "SIGNAL" c s (fun e =>
    if e.x.tmp ≠ [] then signalLog e 0 else
    let dig := c.cf = 1
    match e.target 0 c.d0 with
    | none => e.reject 1
    | some (base, loc) =>
      if base % (if dig then 64 else 8) ≠ 0 || (loc && decide (base + (if dig then 64 else 8) > lsEnd)) then e.reject 1
      else if c.cf.toNat > 1 then e.reject 7
      else if !dig then
        let e1 := e.write loc base (leBytes 8 c.arg.toNat)
        e1.close (if e1.halt.isNone then 1 else 0) e1.cpeTime
      else
        let i := e.x.core
        let k := e.s.core i
        let running := match k.gat.run with | some r => r.digs | none => 0
        let pairs := k.dig.take (k.dig.length - running)
        let d := sha384 (pairs.flatMap (fun p => leBytes 8 p.1.toNat ++ leBytes 8 p.2.toNat))
        let e1 := e.write loc base (leBytes 8 c.arg.toNat ++ d ++ leBytes 8 0)
        if e1.halt.isSome then e1.close 0 0 else
        let rec' := leBytes 8 c.arg.toNat ++ d ++ leBytes 4 pairs.length ++ leBytes 4 (i + (k.digNo + 1) * 2048)
        let s1 := e1.s.modCore i (fun k => { k with dig := k.dig.drop pairs.length, digNo := k.digNo + 1 })
        let tmp := (chunks 8 8 rec').map (fun b => BitVec.ofNat 64 (leVal b))
        signalLog { e1 with s := s1, x := { e1.x with tmp := tmp } } (e1.cpeTime + 80))

/-- LOG_EXTEND: the MMP ends its service of a job's report: it maps the log's next page and the job resumes in the next cycle; where it
cannot, the job ends with PAGE. -/
def execLogExtend (s : State) : Out :=
  match s.cur.ev with
  | .logExtend j =>
    match s.lau.mmps.find? (fun m => (m.2.queue.head?.map (·.ext)) = some (some j)) with
    | none => ok s
    | some (die, _) =>
      let s0 := s.reportDone die
      match s0.job j with
      | none => ok s0
      | some x =>
        match (if x.st = .paused then s0.lau.launches.find? (fun l => l.2.lid = x.lid && l.2.st.holds) else none) with
        | none => ok s0
        | some (k, l) =>
          if l.log.length < l.logPages * 1024 then ok (s0.after 1 (.jobRun j))
          else if l.word 19 = 0 || l.logPages ≥ 16384 then ok (s0.terminate j .failed 3)
          else match mapLogPage s0 die l.asid (l.word 19 + 65536 * l.logPages) with
            | some s1 => ok ((s1.setLaunch k { l with logPages := l.logPages + 1 }).after 1 (.jobRun j))
            | none => ok (s0.terminate j .failed 3)
  | _ => notEnabled "LOG_EXTEND"

end Sys2Proof.Machine
end

