-- ==== Sys2Proof/Machine/Fabric.lean ====
section
/-!
DEFINITION. The fabric (R334, R343–R347, R358, R365) and the collectives (R253, R254, R348–R350).
-/
namespace Sys2Proof.Machine

/-! ### Collectives (R253, R254, R348–R350) -/

/-- The three collective commands. -/
inductive Coll where
  | scale | rs | ag
deriving DecidableEq, Repr

/-- A ring record (R253), and the blocks of a shard. -/
structure RingArg where
  nel : Nat
  p : Nat
  rank : Nat
  ring : Nat
  nb : Nat
deriving DecidableEq, Repr

/-- The ring record of ARG; none: it breaks R253, or does not agree with the ring's configuration (R348). -/
def ringArg (s : State) (c : TileCmd) : Option RingArg :=
  let a := c.arg.toNat
  let r : RingArg := { nel := bitsOf a 31 0, p := bitsOf a 39 32, rank := bitsOf a 47 40, ring := bitsOf a 55 48
                       nb := bitsOf a 31 0 / 32 / bitsOf a 39 32 }
  if a / 2 ^ 56 ≠ 0 || r.p < 2 || r.p > 64 || r.rank ≥ r.p || r.nel % (32 * r.p) ≠ 0 then none else
  match sfind s.fab.rings r.ring with
  | some g => if g.p = r.p && g.rank = r.rank then some r else none
  | none => none

/-- Words a block takes in a step's data: one for a maximum, four for 32 codes (log 15). -/
def Coll.per : Coll → Nat
  | .scale => 1
  | _ => 4
/-- Steps of a collective. -/
def Coll.steps (k : Coll) (p : Nat) : Nat := match k with | .scale => 2 * (p - 1) | _ => p - 1
/-- The shard a rank sends in step `t`, counted from 1 (R348–R350; for maxima and their results, log 15). -/
def Coll.sends (k : Coll) (r : RingArg) (t : Nat) : Nat :=
  let back := match k with
    | .rs => t
    | .ag => t - 1
    | .scale => if t < r.p then t else t - r.p
  (r.rank + r.p - back % r.p) % r.p
/-- The shard it receives: what the rank before it sends. -/
def Coll.takes (k : Coll) (r : RingArg) (t : Nat) : Nat := k.sends { r with rank := (r.rank + r.p - 1) % r.p } t

/-- A value times 2^(127 − code), or times 2^(code − 127): code 0xFF is a NaN (R92). -/
def scaleBy (down : Bool) (code : Nat) (v : Fv) : Fv :=
  if code = 0xFF then .nan false else
  match v with
  | .fin n m e => .fin n m (if down then e - ((code : Int) - 127) else e + ((code : Int) - 127))
  | v => v
/-- Enc of R350: the code and its flags; a NaN raises none. -/
def ringEnc (scale : Nat) (v : Fv) : Res :=
  match scaleBy true scale v with
  | .nan _ => ⟨canonNaN .e4m3, 0⟩
  | w => valTo .e4m3 .rne true 0 w
/-- Dec of R350, exact. -/
def ringDec (scale code : Nat) : Fv := scaleBy false scale (decodeF .e4m3 code)
/-- Round(Dec(code) + x, f32, RNE): a NaN yields the canonical NaN without a flag. -/
def ringAdd (scale code x : Nat) : Res :=
  match ringDec scale code, decodeF .f32 x with
  | .nan _, _ | _, .nan _ => ⟨canonNaN .f32, 0⟩
  | a, b => fadd .f32 .rne false 0 a b
/-- The scale code of a block from the greatest magnitude over the devices, an f32 code, 0 for none (R349). -/
def ringScale (p m : Nat) : Nat :=
  match decodeF .f32 m with
  | .fin _ mm e =>
    if mm = 0 then 0 else
    let q := (8 * p * mm + 6) / 7
    let k : Int := (if q ≤ 1 then 0 else Nat.log2 (q - 1) + 1 : Nat)
    (max 0 (min (k - 9 + e + 127) 254)).toNat
  | _ => 0

/-- Adds an encode's flags, and 1 to NBAD where it saturated (R350). -/
def Eng.encoded (e : Eng) (r : Res) : Eng := let e1 := e.flag r.fl; if r.fl &&& fSAT ≠ 0 then e1.bad 1 else e1
/-- The f32 code of element `p`; poison is the canonical NaN (Table 23.4). -/
def Eng.f32At (e : Eng) (d : Desc) (p : Nat) : Eng × Nat :=
  let (e1, code, pz) := e.el d 0 p true
  (e1, if pz then canonNaN .f32 else code)
/-- The scale code of block `b`; poison traps. -/
def Eng.scaleOf (e : Eng) (d : Desc) (b : Nat) : Eng × Nat :=
  let (e1, code, pz) := e.el d 0 b true
  (if pz then e1.fail 5 else e1, code)
/-- Runs `f` over `0 … n − 1`, gathering results. -/
def Eng.gatherN (e : Eng) (n : Nat) (f : Eng → Nat → Eng × Nat) : Eng × List Nat :=
  let (e1, r) := (List.range n).foldl (fun (a : Eng × List Nat) k =>
    if a.1.halt.isSome then a else
    let (e', x) := f a.1 k
    (e', x :: a.2)) (e, [])
  (e1, r.reverse)
/-- Codes as words, eight to a word. -/
def codeWords (l : List Nat) : List Word := (chunks 8 (l.length / 8 + 1) l).map (fun x => BitVec.ofNat 64 (ofElems 8 x))
/-- Code `i` of a list of words. -/
def codeAt (ws : List Word) (i : Nat) : Nat := elem 8 (ws.getD (i / 8) 0).toNat (i % 8)

/-- What a rank holds before its first step: its maxima, the codes of the first shard it sends, or its own shard's codes. -/
def collBegin (k : Coll) (r : RingArg) (d0 d2 : Desc) (e : Eng) : Eng × List Word :=
  let enc := fun (p0 b0 : Nat) =>
    let (e1, cs) := e.gatherN (32 * r.nb) (fun e i =>
      let (e1, sc) := e.scaleOf d2 (b0 + i / 32)
      let (e2, x) := e1.f32At d0 (p0 + i)
      let c := ringEnc sc (decodeF .f32 x)
      (e2.encoded c, c.code))
    (e1, codeWords cs)
  match k with
  | .scale =>
    let (e1, ms) := e.gatherN (r.nb * r.p) (fun e b =>
      let (e1, xs) := e.gatherN 32 (fun e i => e.f32At d0 (32 * b + i))
      (e1, (xs.map (· % 2 ^ 31)).foldl (fun m x => if x < 0x7F800000 then max m x else m) 0))
    (e1, ms.map (fun m => BitVec.ofNat 64 m))
  | .rs => let q := k.sends r 1; enc (32 * r.nb * q) (r.nb * q)
  | .ag =>
    let (e1, ws) := enc 0 (r.nb * r.rank)
    (e1, List.replicate (4 * r.nb * r.rank) 0 ++ ws ++ List.replicate (4 * r.nb * (r.p - 1 - r.rank)) 0)

/-- What a rank holds after step `t` brings the data of a shard. -/
def collTake (k : Coll) (r : RingArg) (d0 d2 : Desc) (t : Nat) (inw : List Word) (e : Eng) : Eng × List Word :=
  let q := k.takes r t
  let n := k.per * r.nb
  let put := fun (l : List Word) => e.x.tmp.take (n * q) ++ l ++ e.x.tmp.drop (n * (q + 1))
  match k with
  | .scale => (e, put (if t < r.p then inw.zipWith (fun a b => BitVec.ofNat 64 (max (a.toNat % 2 ^ 32) b.toNat)) ((e.x.tmp.drop (n * q)).take n) else inw))
  | .ag => (e, put inw)
  | .rs =>
    if t + 1 = r.p then (e, inw) else
    let (e1, cs) := e.gatherN (32 * r.nb) (fun e i =>
      let (e1, sc) := e.scaleOf d2 (r.nb * q + i / 32)
      let (e2, x) := e1.f32At d0 (32 * r.nb * q + i)
      let a := ringAdd sc (codeAt inw i) x
      let c := ringEnc sc (decodeF .f32 a.code)
      ((e2.flag a.fl).encoded c, c.code))
    (e1, codeWords cs)

/-- Finishes block `b`: its scale, its 32 sums, or its 32 decoded values. -/
def collBlock (k : Coll) (r : RingArg) (d0 d1 d2 : Desc) (e : Eng) (b : Nat) : Eng :=
  let e' := match k with
    | .scale => e.putEl d2 0 b (ringScale r.p (e.x.tmp.getD b 0).toNat)
    | .rs =>
      let (e1, sc) := e.scaleOf d2 (r.nb * r.rank + b)
      let (e2, xs) := e1.gatherN 32 (fun e i =>
        let (e1, x) := e.f32At d0 (32 * r.nb * r.rank + 32 * b + i)
        let a := ringAdd sc (codeAt e.x.tmp (32 * b + i)) x
        (e1.flag a.fl, a.code))
      if e2.halt.isSome then e2 else e2.write d1.loc (d1.at 0 (32 * b)).1 (packBytes 32 xs)
    | .ag =>
      let (e1, sc) := e.scaleOf d2 b
      let rs : List Res := (List.range 32).map (fun i => match ringDec sc (codeAt e.x.tmp (32 * b + i)) with
        | .nan _ => (⟨canonNaN .f32, 0⟩ : Res)
        | v => valTo .f32 .rne false 0 v)
      if e1.halt.isSome then e1
      else (rs.foldl (fun (e : Eng) (x : Res) => e.flag x.fl) e1).write d1.loc (d1.at 0 (32 * b)).1 (packBytes 32 (rs.map (fun (x : Res) => x.code)))
  if e'.halt.isSome then { e' with x := e.x } else e'

/-- The packet received first that carries word `k` of block `b` of a step. -/
def ringFind (l : List (Nat × Nat × Nat × List Word)) (ring step per b k : Nat) : Option Nat :=
  l.findIdx? (fun x => x.1 = ring && x.2.1 = step && decide (x.2.2.1 ≤ b) && decide ((b - x.2.2.1) * per + k < x.2.2.2.length))
/-- The data of a step for blocks `lo` to `lo + nb − 1`, and the packets left; none: some has not arrived. -/
def ringTake (l : List (Nat × Nat × Nat × List Word)) (ring step per lo nb : Nat) : Option (List Word × List (Nat × Nat × Nat × List Word)) :=
  let at' := (List.range (nb * per)).map (fun i => (lo + i / per, i % per))
  let idx := at'.map (fun x => ringFind l ring step per x.1 x.2)
  if idx.any (fun i => i.isNone) then none else
  let ws := (at'.zip idx).map (fun x =>
    let pk := l.getD (x.2.getD 0) (0, 0, 0, [])
    pk.2.2.2.getD ((x.1.1 - pk.2.2.1) * per + x.1.2) 0)
  some (ws, ((List.range l.length).filter (fun i => !idx.contains (some i))).map (fun i => l.getD i (0, 0, 0, [])))

/-- Sends the data of step `t` to the next rank. -/
def Eng.ringSend (e : Eng) (k : Coll) (r : RingArg) (t : Nat) : Eng :=
  let q := k.sends r t
  let n := k.per * r.nb
  let ws := match k with | .rs => e.x.tmp | _ => (e.x.tmp.drop (n * q)).take n
  let next := match sfind e.s.fab.rings r.ring with | some g => g.nextPort | none => 0
  { e with s := e.s.fabSend e.x.agent (64 + next) (.ring r.ring r.rank t (r.nb * q) ws) none (some e.j) }

/-- The steps whose data have come, then the writes, in ascending order of blocks; Job.reports counts steps done. -/
def collSteps (k : Coll) (r : RingArg) (d0 d1 d2 : Desc) : Nat → Eng → State
  | 0, e => e.s.setJob e.j e.x
  | f + 1, e =>
    let t := e.x.reports + 1
    if t > k.steps r.p then
      let n := if k = .rs then r.nb else r.nb * r.p
      let (e1, b) := eachEl (collBlock k r d0 d1 d2) (n - e.x.progress) e.x.progress e
      e1.close b e1.cpeTime
    else
      match ringTake e.s.fab.ringIn r.ring t k.per (r.nb * k.takes r t) r.nb with
      | none => e.s.setJob e.j e.x
      | some (ws, rest) =>
        let (e1, tmp) := collTake k r d0 d2 t ws e
        if e1.halt.isSome then { e1 with x := e.x }.close e.x.progress 0 else
        let s1 : State := { e1.s with fab := { e1.s.fab with ringIn := rest } }
        let e2 := { e1 with s := s1, x := { e1.x with tmp := tmp, reports := t } }
        collSteps k r d0 d1 d2 f (if t < k.steps r.p then e2.ringSend k r (t + 1) else e2)

/-- A collective: with GRP = 1, and pushed by the ROOT of its group (R253). -/
def collRun (k : Coll) (c : TileCmd) (e : Eng) : State :=
  let f32 := fun (d : Desc) => d.fmt = .f32 && d.ndim = 1 && !d.loc && !d.bm && !d.mx
  match e.desc 0 c.d0, (if k = .scale then e.desc 0 c.d0 else e.desc 1 c.d1), e.desc 2 c.d2 with
  | some d0, some d1, some d2 =>
    if !f32 d0 || !f32 d1 || d2.fmt ≠ .e8m0 || d2.mx || d2.bm then e.reject 1 else
    match (if c.grp then (e.s.launchOf e.x.core).bind (fun l => sfind l.groups c.gid.toNat) else none), ringArg e.s c with
    | some g, some r =>
      if g.root ≠ e.x.core then e.reject 7 else
      let n0 := if k = .ag then r.nel / r.p else r.nel
      let n1 := if k = .rs then r.nel / r.p else if k = .ag then r.nel else n0
      if d0.ext 0 ≠ n0 || d1.ext 0 ≠ n1 || d2.count ≠ r.nel / 32 then e.reject 1 else
      let link := match sfind e.s.fab.rings r.ring with
        | some g => e.s.peerDown (64 + g.nextPort) || e.s.peerDown (64 + g.prevPort)
        | none => false
      if link then e.reject 9
      else if e.x.tmp ≠ [] || e.x.reports ≠ 0 then collSteps k r d0 d1 d2 (2 * r.p) e
      else
        let (e1, tmp) := collBegin k r d0 d2 e
        if e1.halt.isSome then { e1 with x := e.x }.close 0 0
        else collSteps k r d0 d1 d2 (2 * r.p) (({ e1 with x := { e1.x with tmp := tmp } } : Eng).ringSend k r 1)
    | _, _ => e.reject 7
  | _, _, _ => e.reject 1

/-- `COLL.SCALE`. -/
def execCollScale (c : TileCmd) (s : State) : Out := tileRun "COLL_SCALE" c s (collRun .scale c)
/-- `COLL.RS`. -/
def execCollRs (c : TileCmd) (s : State) : Out := tileRun "COLL_RS" c s (collRun .rs c)
/-- `COLL.AG`. -/
def execCollAg (c : TileCmd) (s : State) : Out := tileRun "COLL_AG" c s (collRun .ag c)

/-- Running collectives of a ring. -/
def State.collsOn (s : State) (ring : Nat) : List Nat :=
  (s.jobs.list.filter (fun e => e.2.op ≥ 0x40 && e.2.st = .running && bitsOf e.2.cmd.arg.toNat 55 48 = ring)).map (·.1)

/-- RING_STEP: a step's packet arrives from the rank before; one of a ring that is not configured is discarded. -/
def execRingStep (s : State) : Out :=
  match s.cur.ev with
  | .ringStep ring step block data =>
    if (sfind s.fab.rings ring).isNone then ok s else
    let s1 : State := { s with fab := { s.fab with ringIn := s.fab.ringIn ++ [(ring, step, block, data)] } }
    ok ((s.collsOn ring).foldl (fun s j => s.at s.time (.jobRun j)) s1)
  | _ => notEnabled "RING_STEP"

/-! ### Packets that fail -/

/-- The source of a flow that is a context or a control thread. -/
def whoOf (agent : Nat) : Option Who :=
  if agent ≥ 65536 then none
  else if agent % 32 < 16 then some (.cx (agent / 32) (agent % 32))
  else if agent % 32 = 16 then some (.ct (agent / 32))
  else some (.gu (agent / 32))
/-- A posted store of an agent is over at its destination: the request, kept for `fence.sy`, goes. -/
def storeOver (s : State) (r : Nat) : State :=
  match s.req r with
  | none => s
  | some q =>
    let s1 := if q.atDv then { s with reqs := sdel r s.reqs } else s.setReq r { q with atSy := true }
    recheckWho s1 q.who

/-- A packet has failed for good: lost with its link, or refused by the peer (R334, R345, R365). -/
def pktFailed (s : State) (k : Nat) (p : Pkt) (lost : Bool) : State :=
  let store := match p.op with | .store .. | .elems .. => true | _ => false
  let s1 := if lost || store then logPkt s k p (if lost then 0 else 1) else s
  match p.job, p.req with
  | some j, _ => if lost then s1.terminate j .failed 9 else peerAck s1 j p.seq true []
  | none, some r =>
    if store then
      storeOver (match s1.req r with | some q => s1.recordLost q.who lost | none => s1) r
    else s1.failReq r 44 cPROT 0
  | none, none => match whoOf (k / 128) with | some w => s1.recordLost w lost | none => s1

/-! ### Packets sent (R334) -/

/-- FABRIC_ACK: the answer of a peer. An operation is over, its data come back, or an error completion refuses it. -/
def execFabricAck (s : State) : Out :=
  match s.cur.ev with
  | .fabricAck k _ seq err data =>
    match sfind s.fab.flows k with
    | none => ok s
    | some f =>
      match f.pkts.find? (fun p => p.seq = seq && p.sentAt.isSome) with
      | none => ok s
      | some p =>
        let s1 : State := { s with fab := { s.fab with
          flows := sins k { f with pkts := f.pkts.filter (fun x => x.seq ≠ seq) } s.fab.flows } }
        let s2 := if err then pktFailed s1 k p false else
          match p.job, p.req with
          | some j, _ => (match p.op with | .ring .. => s1 | _ => peerAck s1 j seq false data)
          | none, some r =>
            (match p.op with
            | .store .. => storeOver s1 r
            | _ => s1.answer r 44 (fun q => { q with data := data }))
          | none, none => s1
        ok (s2.pump k)
  | _ => notEnabled "FABRIC_ACK"

/-- FABRIC_RETRANSMIT: a packet still unacknowledged 24,000 cycles after it was sent is sent again. -/
def execFabricRetransmit (s : State) : Out :=
  match s.cur.ev with
  | .fabricRetransmit k _ seq =>
    match sfind s.fab.flows k with
    | none => ok s
    | some f =>
      match f.pkts.find? (fun p => p.seq = seq && p.sentAt.isSome) with
      | none => ok s
      | some _ =>
        let s1 : State := { s with fab := { s.fab with
          flows := sins k { f with pkts := f.pkts.map (fun x => if x.seq = seq then { x with due := true } else x) } s.fab.flows } }
        ok (s1.pump k)
  | _ => notEnabled "FABRIC_RETRANSMIT"

/-- Every flow toward a port may send. -/
def pumpPort (s : State) (q : Nat) : State :=
  s.fab.flows.foldl (fun s e => if (s.portsTo (e.1 % 128)).contains q then s.pump e.1 else s) s
/-- ALLOWANCE_GRANT (R343). -/
def execAllowanceGrant (s : State) : Out :=
  match s.cur.ev with
  | .allowanceGrant q n => if q ≥ 18 then notEnabled "ALLOWANCE_GRANT" else ok (pumpPort (s.modPort q (fun t => { t with allow := t.allow + n })) q)
  | _ => notEnabled "ALLOWANCE_GRANT"

/-! ### Sessions and links (R344, R346, R358) -/

/-- The key of one direction: the first 32 bytes of the hash, read as one number, first byte highest. -/
def dirKey (z from' dest : BitVec 384) : BitVec 256 :=
  BitVec.ofNat 256 (beVal ((sha384 (beBytes 48 z.toNat ++ beBytes 48 from'.toNat ++ beBytes 48 dest.toNat ++ [1])).take 32))

/-- What an end signs of its session message: key, nonce and port number (layout: log 15). -/
def helloDigest (key : BitVec 768) (nonce : BitVec 384) (port : Nat) : BitVec 384 :=
  BitVec.ofNat 384 (beVal (sha384 (beBytes 96 key.toNat ++ beBytes 48 nonce.toNat ++ beBytes 4 port)))

/-- FABRIC_SESSION: the device behind a port is the peer bound to it, its chain verifies, its hash matches and its message is signed with
its identity key: the keys are derived and the port comes up. Any other device leaves the port as it was. -/
def execFabricSession (s : State) : Out :=
  match s.cur.ev with
  | .fabricSession q peerPort peerCert chainOk peerNonce peerKey peerIdentity peerSig =>
    if q ≥ 18 then notEnabled "FABRIC_SESSION" else
    let bound := s.fab.peers.any (fun p => bitOf p.2.mask q && p.2.hash = peerCert)
    if !(chainOk && bound && bitOf s.host.stages.toNat 2 && decide (peerPort < 18)
        && ecdsaVerify peerIdentity (helloDigest peerKey peerNonce peerPort) peerSig) then ok s else
    let n := s.fab.sessions
    let d := scalar (Config.sessionKey n)
    match ecdh d peerKey with
    | none => ok s
    | some z =>
      let mine := Config.sessionNonce n
      let sig := ecdsaSign (scalar Config.identityKey) (scalar (Config.signNonce s.host.signs)) (helloDigest (pubOf d) mine q)
      let s1 := s.modPort q (fun t => { t with
        up := true, peerPort := peerPort, peerCert := peerCert, txKey := dirKey z mine peerNonce, rxKey := dirKey z peerNonce mine
        txCtr := 0, rxCtr := 0, retrain := none, declaredDown := false, given := Config.grant n
        hello := some (pubOf d, mine, sig) })
      ok (pumpPort { s1 with fab := { s1.fab with sessions := n + 1 }, host := { s1.host with signs := s1.host.signs + 1 } } q)
  | _ => notEnabled "FABRIC_SESSION"

/-- LINK_RETRAIN: a port goes down until its new session; after 2 ms it is declared down (R334, R346). -/
def execLinkRetrain (s : State) : Out :=
  match s.cur.ev with
  | .linkRetrain q =>
    if (s.port q).up then
      ok ((s.modPort q (fun t => { t with up := false, allow := 0, retrain := some s.time })).after Config.retrainBound (.linkDown q))
    else notEnabled "LINK_RETRAIN"
  | _ => notEnabled "LINK_RETRAIN"

/-- Every packet of the flows whose link is declared down is lost, and every collective over such a link ends. -/
def dropLinks (s : State) : State :=
  let s1 := s.fab.flows.foldl (fun (s : State) e =>
    if !s.peerDown (e.1 % 128) then s else
    let s0 : State := { s with fab := { s.fab with flows := sins e.1 { e.2 with pkts := [] } s.fab.flows } }
    e.2.pkts.foldl (fun s p => pktFailed s e.1 p true) s0) s
  s1.fab.rings.foldl (fun (s : State) g =>
    if s.peerDown (64 + g.2.nextPort) || s.peerDown (64 + g.2.prevPort) then
      (s.collsOn g.1).foldl (fun s j => s.terminate j .failed 9) s
    else s) s1

/-- LINK_DOWN: 2 ms after a port began to retrain, or after stage C, it is declared down unless it has come up. -/
def execLinkDown (s : State) : Out :=
  match s.cur.ev with
  | .linkDown q =>
    let t := s.port q
    let late := match t.retrain with | some t0 => decide (t0 + Config.retrainBound ≤ s.time) | none => false
    ok (dropLinks (if late && !t.up then s.modPort q (fun t => { t with declaredDown := true, retrain := none }) else s))
  | _ => notEnabled "LINK_DOWN"

/-! ### Packets received (R334, R345) -/

/-- Translates an address of a space for an agent outside the cores, at the slice of C-die 0 that the slice index selects: by its
translation cache or a walk (R336, R345; log 15). `good` is the agent's further demand on the leaf. none: refused. -/
def outsideXlate (s : State) (asid va : Nat) (r w : Bool) (good : Nat → Bool) : Option (State × Nat × Nat) :=
  if va ≥ 2 ^ 48 then none else
  match s.space asid with
  | none => none
  | some x =>
    let s0 : State := { s with coh := { s.coh with roots := sins asid x.root s.coh.roots } }
    match s0.translate 0 (sliceIdx va) asid va { r := r, w := w, hv := false } with
    | (s1, _, .ok l) =>
      if !good l.pte || regionOf (l.pa va) ≠ .dram then none
      else some ({ s1 with coh := { s1.coh with roots := s.coh.roots } }, l.pa va, pteNl l.pte)
    | _ => none
/-- Whether a page is being migrated: the access waits (R203). -/
def State.migrating (s : State) (asid va : Nat) : Bool := match s.spaceLeaf asid va with | some l => pteMig l.pte | none => false

/-- Translates every page of a range. -/
def outsideRange : Nat → State → Nat → Nat → Nat → Bool → Bool → (Nat → Bool) → Option (State × List (Nat × Nat × Nat))
  | 0, s, _, _, n, _, _, _ => if n = 0 then some (s, []) else none
  | f + 1, s, asid, va, n, r, w, good =>
    if n = 0 then some (s, []) else
    let k := min n (64 - va % 64)
    match outsideXlate s asid va r w good with
    | none => none
    | some (s1, pa, nl) => (outsideRange f s1 asid (va + k) (n - k) r w good).map (fun x => (x.1, (pa, k, nl) :: x.2))
/-- Reads translated pieces: the bytes, and whether an error is among them. -/
def outsideRead (s : State) (ps : List (Nat × Nat × Nat)) : State × List Byte × Bool :=
  ps.foldl (fun (a : State × List Byte × Bool) p =>
    let s1 := (((a.1.homeRead (p.1 / 64)).install (p.1 / 64)).scrub (p.1 / 64) p.2.2)
    (s1, a.2.1 ++ s1.pread p.1 p.2.1, a.2.2 || (s1.marksOn p.1 p.2.1).any (fun m => overlap m.1 m.2.w p.1 p.2.1))) (s, [], false)
/-- Writes translated pieces. -/
def outsideWrite (s : State) (ps : List (Nat × Nat × Nat)) (bs : List Byte) : State :=
  (ps.foldl (fun (a : State × List Byte) p =>
    (agentWrite (a.1.scrub (p.1 / 64) p.2.2) p.1 (a.2.take p.2.1), a.2.drop p.2.1)) (s, bs)).1

/-- What a write from outside waits for at its lines: the operation that holds one of them, or the acknowledgements of the transactions
it aborts (R23, R258, R280, R282). The state, and the cycles; 0: nothing. -/
def outsideClear (s : State) (ps : List (Nat × Nat × Nat)) : State × Nat :=
  if ps.any (fun p => s.lineBusy 0 p.1 p.2.1) then (s, 1) else
  ps.foldl (fun (a : State × Nat) p =>
    let (s1, w) := a.1.abortHolders (homeOf p.1) (sliceIdx p.1) (a.1.markers p.1 p.2.1 false) 10 (p.1 / 256)
    (s1, max a.2 w)) (s, 0)
/-- Where a peer's operation reaches the exported region: address space, address, bytes, whether it reads, whether it writes. -/
def exportSpan (s : State) (op : FabOp) : Option (Nat × Nat × Nat × Bool × Bool) :=
  match s.fab.exportRgn with
  | none => none
  | some (asid, va, len) =>
    let span := fun (o n : Nat) (r w : Bool) => if o + n > len then none else some (asid, va + o, n, r, w)
    match op with
    | .store o bs | .elems o bs _ _ => span o bs.length false true
    | .load o n => span o n true false
    | .atomic o n _ _ _ => span o n true true
    | .ring .. => none
/-- The leaves a peer's operation may use (R345). -/
def exportLeaf (p : Nat) : Bool := pteCls p = 2 && !pteSeal p
/-- The cycles a peer's operation waits first: for a migration (R203), or at its lines when it writes. -/
def exportWait (s : State) (op : FabOp) : State × Nat :=
  match exportSpan s op with
  | none => (s, 0)
  | some (asid, va, n, r, w) =>
    if s.migrating asid va then (s, 1)
    else if !w then (s, 0)
    else match outsideRange (n / 64 + 2) s asid va n r w exportLeaf with
      | none => (s, 0)
      | some (s1, ps) => outsideClear s1 ps
/-- Elements that came with an error are marked where they land, as metadata errors are (R320; log 46). -/
def markPieces (ps : List (Nat × Nat × Nat)) (bad : List (Nat × Nat)) (s : State) : State :=
  bad.foldl (fun s b =>
    let r := ps.foldl (fun (a : Nat × Option (Nat × Nat)) p =>
      (a.1 + p.2.1, if a.1 ≤ b.1 && b.1 < a.1 + p.2.1 then some (p.1 + (b.1 - a.1), p.2.2) else a.2)) (0, none)
    match r.2 with
    | some (pa, nl) => { s with coh := { s.coh with marks := sins pa { w := b.2, cls := 4, nl := nl } s.coh.marks } }
    | none => s) s

/-- Performs a peer's operation on the exported region (R345): error completion and data. -/
def exportAccess (s : State) (op : FabOp) : State × Bool × List Byte :=
  match op with
  | .ring .. => (s, false, [])
  | _ =>
    match (exportSpan s op).bind (fun x => outsideRange (x.2.2.1 / 64 + 2) s x.1 x.2.1 x.2.2.1 x.2.2.2.1 x.2.2.2.2 exportLeaf) with
    | none => (s, true, [])
    | some (s1, ps) =>
      let read := outsideRead s1 ps
      match op with
      | .store _ bs => (outsideWrite s1 ps bs, false, [])
      | .elems _ bs half bad =>
        -- the byte of which only the low nibble comes keeps the other (R91)
        let last := bs.length - 1
        let bs' := if !half then bs
          else bs.take last ++ [BitVec.ofNat 8 ((read.2.1.getD last 0).toNat / 16 * 16 + (bs.getD last 0).toNat % 16)]
        (markPieces ps bad (outsideWrite (if half then read.1 else s1) ps bs'), false, [])
      | .load _ _ => if read.2.2 then (read.1, true, []) else (read.1, false, read.2.1)
      | .atomic off size fn b e =>
        if off % size ≠ 0 then (s, true, [])
        else if read.2.2 then (read.1, true, []) else
        match atomicNew (8 * size) fn (leVal read.2.1) (b % 2 ^ (8 * size)) (e % 2 ^ (8 * size)) with
        | some x => (outsideWrite read.1 ps (leBytes size x), false, read.2.1)
        | none => (read.1, false, read.2.1)
      | .ring .. => (s, false, [])

/-- A receiving flow once number `seq` has come: the window follows the highest number (R334). -/
def RFlow.took (f : RFlow) (seq : Nat) : RFlow :=
  let back := (f.high + 2 ^ 32 - seq) % 2 ^ 32
  let high := if back = 0 || decide (2 ^ 31 ≤ back) then seq else f.high
  let inside := fun (n : Nat) => decide ((high + 2 ^ 32 - n) % 2 ^ 32 < 4096)
  { high := high, got := (f.got ++ [seq]).filter inside, replies := f.replies.filter (fun r => inside r.1) }
/-- Whether a packet is a duplicate, or older than the window. -/
def RFlow.stale (f : RFlow) (seq : Nat) : Bool :=
  let back := (f.high + 2 ^ 32 - seq) % 2 ^ 32
  f.got.contains seq || (decide (4096 ≤ back) && decide (back < 2 ^ 31))

/-- A packet opened at a port is applied, unless it waits at its lines; a duplicate is acknowledged again, with its stored reply. Its
flits are granted again then (R343). -/
def applyPacket (s : State) (port flow peer seq : Nat) (op : FabOp) : Out :=
  let k := flowKey flow peer
  let f := (sfind s.fab.rflows k).getD { high := seq, got := [], replies := [] }
  let regrant := fun (s : State) => s.modPort port (fun t => { t with given := t.given + fabFlits op })
  let ackd := fun (s : State) (err : Bool) (d : List Byte) =>
    ({ s with fab := { s.fab with acked := some { flow := flow, peer := peer, seq := seq, err := err, data := d } } } : State)
  if f.stale seq then
    (match f.replies.find? (fun r => r.1 = seq) with
    | some r => ok (ackd (regrant s) r.2.1 r.2.2)
    | none => ok (ackd (regrant s) false []))
  else
    let (s0, n) := exportWait s op
    if n ≠ 0 then ok (s0.after n (.fabricPacketOpened port flow peer seq op)) else
    let (s1, err, d) := exportAccess s0 op
    let s2 := match op with
      | .ring ring _ step block data => s1.at s1.time (.ringStep ring step block data)
      | _ => s1
    let f1 := f.took seq
    let f2 := { f1 with replies := if err || d ≠ [] then f1.replies ++ [(seq, err, d)] else f1.replies }
    ok (ackd (regrant { s2 with fab := { s2.fab with rflows := sins k f2 s2.fab.rflows } }) err d)

/-- FABRIC_PACKET_RECEIVE: on a port that is up, of a sender within its allowance. A packet that fails its tag is dropped, any other is
applied once. -/
def execFabricPacketReceive (s : State) : Out :=
  match s.cur.ev with
  | .fabricPacketReceive port flow peer seq tag op =>
    let t := s.port port
    if port ≥ 18 || !t.up || decide (t.given < fabFlits op) then notEnabled "FABRIC_PACKET_RECEIVE" else
    let good := tag = BitVec.ofNat 128 (blockVal (sealPacket t.rxKey t.peerPort t.rxCtr flow seq op).2)
    let s1 := s.modPort port (fun t => { t with rxCtr := t.rxCtr + 1, given := if good then t.given - fabFlits op else t.given })
    if good then applyPacket s1 port flow peer seq op else ok s1
  | .fabricPacketOpened port flow peer seq op => applyPacket s port flow peer seq op
  | _ => notEnabled "FABRIC_PACKET_RECEIVE"

end Sys2Proof.Machine
end

