-- ==== Sys2Proof/Machine/Manage.lean ====
section
/-!
DEFINITION. The host link, the management commands and the security engine (R335–R342, R344, R345, R348, R351–R355, R359–R363).
-/
namespace Sys2Proof.Machine

/-! ### BAR2 (R336, R213) -/

/-- Whether an address space is sealed against the outside: it has an owner key and DEBUG has not succeeded for it (R354). -/
def State.closed (s : State) (asid : Nat) : Bool :=
  match s.space asid with | some x => x.ownerKey.isSome && !x.debug | none => false
/-- What the host demands of a leaf: HV = 1 and not sealed (R335). -/
def hostLeaf (p : Nat) : Bool := pteHv p && !pteSeal p
/-- The address space and address an offset reaches; none: refused. -/
def State.window (s : State) (off n : Nat) : Option (Nat × Nat) :=
  match s.host.mapwin with
  | some (asid, va, len) => if off + n ≤ len && !s.closed asid then some (asid, va + off) else none
  | none => none
/-- A completion returned to the host; none: Unsupported Request. -/
def State.complete (s : State) (d : Option (List Byte)) (ep : Bool) : State :=
  { s with host := { s.host with answer := d, answerEp := ep } }

/-- An access through BAR2 waits, in PCIe order behind those that wait already (R213); the first of them tries again after `n` cycles. -/
def bar2Wait (s : State) (n : Nat) : State :=
  let e := s.cur.ev
  let first := s.host.bar2.head? = some e
  let s1 : State := if first then s else { s with host := { s.host with bar2 := s.host.bar2 ++ [e] } }
  if first || s.host.bar2 = [] then s1.after n e else s1
/-- Whether it must wait: an earlier one does, or its page is being migrated (R203). -/
def State.bar2Held (s : State) (asid va : Nat) : Bool :=
  (s.host.bar2 ≠ [] && s.host.bar2.head? ≠ some s.cur.ev) || s.migrating asid va
/-- An access through BAR2 is over: the next that waits follows. -/
def bar2Next (s : State) : State :=
  if s.host.bar2.head? ≠ some s.cur.ev then s else
  let s1 : State := { s with host := { s.host with bar2 := s.host.bar2.tail } }
  match s1.host.bar2 with
  | e :: _ => s1.at s.time e
  | [] => s1

/-- HOST_BAR2_READ: a consumed error sets EP (Table 23.4). -/
def execHostBar2Read (s : State) : Out :=
  match s.cur.ev with
  | .hostBar2Read off n =>
    match s.window off n with
    | none => ok (bar2Next (s.complete none false))
    | some (asid, va) =>
      if s.bar2Held asid va then ok (bar2Wait s 1) else
      match outsideRange (n / 64 + 2) s asid va n true false hostLeaf with
      | none => ok (bar2Next (s.complete none false))
      | some (s1, ps) =>
        let (s2, d, bad) := outsideRead s1 ps
        ok (bar2Next (s2.complete (some d) bad))
  | _ => notEnabled "HOST_BAR2_READ"

/-- A refused posted write is reported as an Unsupported Request error (R336). -/
def State.refusePosted (s : State) : State := { s with host := { s.host with urPosted := true } }
/-- HOST_BAR2_WRITE: a refused posted write is discarded and reported. -/
def execHostBar2Write (s : State) : Out :=
  match s.cur.ev with
  | .hostBar2Write off bs =>
    match s.window off bs.length with
    | none => ok (bar2Next s.refusePosted)
    | some (asid, va) =>
      if s.bar2Held asid va then ok (bar2Wait s 1) else
      match outsideRange (bs.length / 64 + 2) s asid va bs.length false true hostLeaf with
      | none => ok (bar2Next s.refusePosted)
      | some (s1, ps) =>
        let (s2, n) := outsideClear s1 ps
        ok (if n = 0 then bar2Next (outsideWrite s2 ps bs) else bar2Wait s2 n)
  | _ => notEnabled "HOST_BAR2_WRITE"

/-- HOST_READ_TIMEOUT: a host-window read has had no completion for 50 ms, or one with an error: PROT after issue, or the job FAILED
(R337). -/
def execHostReadTimeout (s : State) : Out :=
  match s.cur.ev with
  | .hostReadTimeout r =>
    if !s.host.hostReads.contains r then ok s else
    let s1 : State := { s with host := { s.host with hostReads := s.host.hostReads.filter (fun x => x ≠ r) } }
    if r ≥ 2 ^ 40 then ok (s1.terminate (r - 2 ^ 40) .failed 4)
    else ok (s1.failReq r 44 cPROT 0)
  | _ => notEnabled "HOST_READ_TIMEOUT"

/-! ### Reads that change a register (Table 25.1) -/

/-- HBREQ_READ: the oldest request, which goes, or 0. -/
def execHbreqRead (s : State) : Out :=
  match s.cur.ev with
  | .hbreqRead =>
    let s1 : State := { s with host := { s.host with hbq := s.host.hbq.tail } }
    ok (s1.complete (some (leBytes 8 (s.host.hbq.headD 0).toNat)) false)
  | _ => notEnabled "HBREQ_READ"
/-- IGNCNT_READ. -/
def execIgncntRead (s : State) : Out :=
  match s.cur.ev with
  | .igncntRead =>
    let s1 : State := { s with host := { s.host with ignored := 0 } }
    ok (s1.complete (some (leBytes 8 s.host.ignored)) false)
  | _ => notEnabled "IGNCNT_READ"
/-- CECNT_READ. -/
def execCecntRead (s : State) : Out :=
  match s.cur.ev with
  | .cecntRead d =>
    let s1 : State := { s with host := { s.host with ce := sput 0 s.host.ce d 0 } }
    ok (s1.complete (some (leBytes 8 (sget 0 s.host.ce d))) false)
  | _ => notEnabled "CECNT_READ"
/-- UECNT_READ. -/
def execUecntRead (s : State) : Out :=
  match s.cur.ev with
  | .uecntRead d =>
    let s1 : State := { s with host := { s.host with ue := sput 0 s.host.ue d 0 } }
    ok (s1.complete (some (leBytes 8 (sget 0 s.host.ue d))) false)
  | _ => notEnabled "UECNT_READ"

/-- Registers of Table 25.1 that a read does not change. -/
def bar0Read (s : State) (off : Nat) : Nat :=
  let h := s.host
  match off with
  | 0x0000 => 0x20480002
  | 0x0008 => h.stages.toNat + h.announced.toNat * 2 ^ 8 + h.failed.toNat * 2 ^ 16 + h.err.toNat * 2 ^ 24
  | 0x0030 => h.hwbase.toNat
  | 0x0038 => b2n h.busy * 2 ^ 63 + h.mcmd.toNat
  | 0x0040 | 0x0048 | 0x0050 | 0x0058 => (sget 0 h.marg ((off - 0x40) / 8)).toNat
  | 0x0060 => h.mres.toNat
  | 0x0100 => (List.range 10).foldl (fun a d => a + sget 0 s.obs.levels d * 16 ^ d) 0
  | 0x0108 => s.fab.log.length
  | 0x0110 => s.obs.glimWritten % 2 ^ 32 + s.obs.glimDropped % 2 ^ 32 * 2 ^ 32
  | _ => 0

/-! ### Running a command (R339) -/

/-- The command of a code; code 0x0E has two. none: no such command. -/
def mgmtEv (s : State) (code : Nat) : Option Ev :=
  match code with
  | 0x01 => some .asnew | 0x02 => some .asfree | 0x03 => some .map | 0x04 => some .load | 0x05 => some .sealRange
  | 0x06 => some .mapwin | 0x07 => some .exportRegion | 0x08 => some .peer | 0x09 => some .ring | 0x0A => some .rect
  | 0x0B => some .snuff | 0x0C => some .attest | 0x0D => some .admitDebug
  | 0x0E => if sget 0 s.host.marg 0 = 0 then some .freeze else if sget 0 s.host.marg 0 = 1 then some .thaw else none
  | 0x0F => some .dump | 0x10 => some .trig | 0x11 => some .powcap | 0x12 => some .logread | 0x13 => some .glim
  | 0x14 => some .traceSet | 0x15 => some .lcmap | 0x16 => some .hbfill
  | _ => none
/-- The running command waits for the acknowledgements of the invalidations it has broadcast (R202) and looks again after `n` cycles. -/
def State.acksFrom (s : State) (n : Nat) (e : Ev) : State := State.after { s with host := { s.host with acking := true } } n e
/-- The command ends: MRES holds the result and BUSY reads 0. -/
def State.mgmtDone (s : State) (res val : Nat) : State :=
  { s with host := { s.host with busy := false, acking := false, mres := BitVec.ofNat 64 (res + val * 256) } }
/-- Runs the body of command `m` with its arguments, if it is the one running. -/
def mgmt (m : String) (e : Ev) (s : State) (f : State → Nat → Nat → Nat → Nat → State) : Out :=
  if s.cur.ev = e && s.host.busy && mgmtEv s s.host.mcmd.toNat = some e then
    let a := fun (k : Nat) => (sget 0 s.host.marg k).toNat
    ok (f s (a 0) (a 1) (a 2) (a 3))
  else notEnabled m
/-- REFUSED, BADARG, AUTH, NOSPACE. -/
def State.refused' (s : State) : State := s.mgmtDone 1 0
/-- BADARG. -/
def State.badarg (s : State) : State := s.mgmtDone 2 0
/-- OK. -/
def State.granted (s : State) : State := s.mgmtDone 0 0
/-- Bytes at a host bus address. -/
def State.hostGet (s : State) (a n : Nat) : List Byte := cells s.hostMem a n
/-- Writes bytes at a host bus address. -/
def State.hostPut (s : State) (a : Nat) (bs : List Byte) : State := { s with hostMem := putCells s.hostMem a bs }

/-- MGMT_REG_WRITE: a host write to BAR0. A write to MCMD or MARGn while BUSY is ignored and counted; a write of MCMD starts a
command, which runs in the next cycle (log 5). In stage A with a refused image ATTEST alone works (R357). -/
def execMgmtRegWrite (s : State) : Out :=
  match s.cur.ev with
  | .mgmtRegWrite off v =>
    let h := s.host
    let up := bitOf h.stages.toNat 0 || h.err = 1
    if !up then ok s
    else if 0x10 ≤ off && off ≤ 0x28 && off % 8 = 0 then ok (s.at s.time (.lqdbWrite ((off - 0x10) / 8) v.toNat))
    else if off = 0x30 then ok { s with host := { h with hwbase := v &&& ~~~0xFFFF } }
    else if off ≠ 0x38 && !(0x40 ≤ off && off ≤ 0x58 && off % 8 = 0) then ok s
    else if h.busy then ok { s with host := { h with ignored := h.ignored + 1 } }
    else if off ≠ 0x38 then ok { s with host := { h with marg := sput 0 h.marg ((off - 0x40) / 8) v } }
    else
      let code := v.toNat % 256
      if h.err = 1 && code ≠ 0x0C then ok s else
      let s1 : State := { s with host := { h with mcmd := v.setWidth 8, busy := true } }
      ok (match mgmtEv s1 code with
        | some e => s1.after 1 e
        | none => s1.badarg)
  | _ => notEnabled "MGMT_REG_WRITE"

/-! ### Address spaces (Table 25.2, R340, R342, R355) -/

/-- Whether an ASID names an address space. -/
def State.hasSpace (s : State) (asid : Nat) : Bool := decide (1 ≤ asid) && decide (asid ≤ 4095) && (s.space asid).isSome
/-- The pages of a range. -/
def pagesIn (va len : Nat) : List Nat := (List.range (len / 65536)).map (fun i => va / 65536 + i)
/-- Whether a range is a whole number of 64 KiB pages of the address space. -/
def pageRange (va len : Nat) : Bool := va % 65536 = 0 && len % 65536 = 0 && len ≠ 0 && decide (va + len ≤ 2 ^ 48)

/-- ASNEW. -/
def execAsnew (s : State) : Out :=
  mgmt "ASNEW" .asnew s (fun s asid key _ _ =>
    if asid = 0 || asid > 4095 then s.badarg
    else if (s.space asid).isSome then s.refused'
    else match anyFrame s with
      | none => s.mgmtDone 4 0
      | some (s1, f) =>
        let x : Space := { root := f, ownerKey := (if key = 0 then none else some (s.hostGet key 96)), debug := false, hb := [], pages := [], tables := [] }
        let s2 := s1.zeroRange f 65536
        State.granted { s2 with lau := { s2.lau with spaces := sins asid x s2.lau.spaces } })

/-- ASFREE: the whole address space is invalidated, and once every slice has acknowledged its frames are zeroed and free (R202). -/
def execAsfree (s : State) : Out :=
  mgmt "ASFREE" .asfree s (fun s asid _ _ _ =>
    if !s.hasSpace asid then s.badarg
    else if s.lau.launches.any (fun l => l.2.asid = asid && (l.2.st.holds || l.2.st = .queued || l.2.st = .preempted)) then s.refused'
    else match s.space asid with
      | none => s.badarg
      | some x =>
        if !s.host.acking then (broadcastInval s asid 0 0).acksFrom 44 .asfree
        else if s.invalPending asid 0 then s.acksFrom 1 .asfree
        else
        let frames := x.pages.filterMap (fun p => match s.spaceLeaf asid (p * 65536) with
          | some l => if regionOf (l.pa (p * 65536)) = .dram then some (l.pa (p * 65536)) else none
          | none => none)
        let s1 := (frames ++ x.tables ++ [x.root]).foldl State.freeFrame s
        State.granted { s1 with
          lau := { s1.lau with spaces := sdel asid s1.lau.spaces }
          coh := { s1.coh with roots := sdel asid s1.coh.roots } })

/-- MAP. -/
def execMap (s : State) : Out :=
  mgmt "MAP" .map s (fun s asid va len fl =>
    let nl := fl % 16
    let hv := bitOf fl 6
    let hb := bitOf fl 7
    if !s.hasSpace asid || !pageRange va len || (hb && hv) || fl ≥ 256 then s.badarg
    else if (pagesIn va len).any (fun p => (s.spaceLeaf asid (p * 65536)).isSome) then s.refused'
    else if hb then (s.modSpace asid (fun x => { x with hb := x.hb ++ [{ lo := va, len := len, attr := fl % 64 }] })).granted
    else
      let go := (pagesIn va len).foldl (fun (o : Option State) p => o.bind (fun s1 => (anyFrame s1).bind (fun x =>
        mapPage (x.1.zeroRange x.2 65536) asid (p * 65536) (leafWord x.2 nl (bitOf fl 4) (bitOf fl 5) hv (if hv then 2 else 0))))) (some s)
      match go with
      | some s1 => s1.granted
      | none => s.mgmtDone 4 0)

/-- LOAD. -/
def execLoad (s : State) : Out :=
  mgmt "LOAD" .load s (fun s asid va buf len =>
    let ps := (List.range (if len = 0 then 0 else ((va + len + 65535) / 65536) - va / 65536)).map (fun i => va / 65536 + i)
    let leaves := ps.map (fun p => s.spaceLeaf asid (p * 65536))
    if !s.hasSpace asid || va + len > 2 ^ 48 || leaves.any (fun l => l.isNone) then s.badarg
    else if leaves.any (fun (l : Option Leaf) => match l with | some x => pteSeal x.pte | none => false) then s.refused'
    else
      let lines := (List.range (len / 64 + 2)).filterMap (fun i =>
        let a := if i = 0 then va else (va / 64 + i) * 64
        let z := min (va + len) ((va / 64 + i + 1) * 64)
        if a < z then some (a, z - a) else none)
      (lines.foldl (fun (s : State) x =>
        match s.spaceLeaf asid x.1 with
        | some l => agentWrite s (l.pa x.1) (s.hostGet (buf + (x.1 - va)) x.2)
        | none => s) s).granted)

/-- The leaf of a page sealed: SEAL = 1, W = 0, and HV = 0, which a sealed leaf must have (R199, R355; DESIGN CHOICE, log 15). A page
under a large leaf is split off. none: no frame for a table. -/
def sealPage (s : State) (asid p : Nat) : Option State :=
  (leafEntry s asid (p * 65536)).map (fun x =>
    let w := x.1.pword x.2
    x.1.putPte x.2 (w - (if pteW w then 8 else 0) - (if pteHv w then 2 ^ 48 + pteCls w * 2 ^ 51 else 0) + (if pteSeal w then 0 else 2 ^ 49)
      + (if pteHv w then 2 * 2 ^ 51 else 0)))

/-- SEAL: the leaves get SEAL = 1 and W = 0, their translations are invalidated, and once every slice has acknowledged the host gets
the hash (R202). It waits for a page under migration. -/
def execSealRange (s : State) : Out :=
  mgmt "SEAL" .sealRange s (fun s asid va len buf =>
    let ps := pagesIn va len
    if !s.hasSpace asid || !pageRange va len || ps.any (fun p => (s.spaceLeaf asid (p * 65536)).isNone) then s.badarg
    else if !s.host.acking then
      if ps.any (fun p => s.migrating asid (p * 65536)) then s.after 1 .sealRange else
      match ps.foldl (fun (o : Option State) p => o.bind (fun s => sealPage s asid p)) (some s) with
      | none => s.mgmtDone 4 0
      | some s1 => (broadcastInval s1 asid va len).acksFrom 44 .sealRange
    else if ps.any (fun p => s.invalPending asid p) then s.acksFrom 1 .sealRange
    else
      let bytes := ps.flatMap (fun p => match s.spaceLeaf asid (p * 65536) with
        | some l => s.pread (l.pa (p * 65536)) 65536
        | none => [])
      (s.hostPut buf (sha384 bytes)).granted)

/-- MAPWIN. -/
def execMapwin (s : State) : Out :=
  mgmt "MAPWIN" .mapwin s (fun s asid va len _ =>
    if len = 0 then State.granted { s with host := { s.host with mapwin := none } }
    else if !s.hasSpace asid || va + len > 2 ^ 48 || len > 2 ^ 36 then s.badarg
    else State.granted { s with host := { s.host with mapwin := some (asid, va, len) } })

/-- EXPORT. -/
def execExportRegion (s : State) : Out :=
  mgmt "EXPORT" .exportRegion s (fun s asid va len _ =>
    if !s.hasSpace asid || va + len > 2 ^ 48 || len > 2 ^ 36 then s.badarg
    else State.granted { s with fab := { s.fab with exportRgn := some (asid, va, len) } })

/-- LCMAP (R340). -/
def execLcmap (s : State) : Out :=
  mgmt "LCMAP" .lcmap s (fun s asid va _ _ =>
    if !s.hasSpace asid || va % 65536 ≠ 0 || va ≥ 2 ^ 48 then s.badarg
    else if (s.spaceLeaf asid va).isSome then s.refused'
    else match mapPage s asid va (leafWord (2 ^ 38) 0 true true false 2) with
      | some s1 => s1.granted
      | none => s.mgmtDone 4 0)

/-- The MMP whose service waits for the answer to a request, with its report. -/
def State.hbWaiting (s : State) (tag : Nat) : Option (Nat × Mmp × PfReport) :=
  s.lau.mmps.findSome? (fun m => match m.2.queue with
    | p :: _ => if p.tag = some tag && !p.refused then some (m.1, m.2, p) else none
    | [] => none)
/-- A request is answered with a refusal. -/
def hbRefuse (s : State) (die : Nat) (m : Mmp) (p : PfReport) : State :=
  State.at { s with lau := { s.lau with mmps := sins die { m with queue := { p with refused := true } :: m.queue.tail } s.lau.mmps } } s.time
    (.pageFaultService die)
/-- HBFILL (R342): the service ends at the last acknowledgement of the invalidation. A page mapped meanwhile needs no frame; where no
frame is left, the MMP makes room in its ready queue, or the command answers NOSPACE. -/
def execHbfill (s : State) : Out :=
  mgmt "HBFILL" .hbfill s (fun s tag buf act _ =>
    match s.hbWaiting tag with
    | none => s.badarg
    | some (die, m, p) =>
      if act > 1 then s.badarg else
      let s0 := s.cancel (fun e => e = .hbreqTimeout tag)
      if (s.spaceLeaf p.asid (p.page * 65536)).isSome then (s0.at s.time (.pageFaultService die)).granted else
      if act = 1 then (hbRefuse s0 die m p).granted else
      let attr := match s.hbRange p.asid p.page with | some r => r.attr | none => 0
      let frame := match takeFrame s0 die with | some x => some x | none => anyFrame s0
      match frame.bind (fun x =>
        let s1 := x.1.zeroRange x.2 65536
        let s2 := if buf = 0 then s1 else agentWrite s1 x.2 (s.hostGet buf 65536)
        mapPage s2 p.asid (p.page * 65536) (leafWord x.2 (attr % 16) (bitOf attr 4) (bitOf attr 5) false 0)) with
      | none => if ((sfind s.lau.mmps die).getD Mmp.init).ready = [] then s.mgmtDone 4 0 else State.after (makeRoom s die) 1 .hbfill
      | some s1 => (State.after (broadcastInval s1 p.asid (p.page * 65536) 65536) 44 (.pageFaultService die)).granted)
/-- HBREQ_TIMEOUT: a request unanswered for 1 s is refused, and the service goes on. -/
def execHbreqTimeout (s : State) : Out :=
  match s.cur.ev with
  | .hbreqTimeout tag =>
    match s.hbWaiting tag with
    | some (die, m, p) =>
      if (s.spaceLeaf p.asid (p.page * 65536)).isSome then ok (s.at s.time (.pageFaultService die)) else ok (hbRefuse s die m p)
    | none => ok s
  | _ => notEnabled "HBREQ_TIMEOUT"

/-! ### Fabric and containment set-up -/

/-- PEER: a port whose session was with another device retrains. -/
def execPeer (s : State) : Out :=
  mgmt "PEER" .peer s (fun s p buf mask _ =>
    if p > 63 || mask ≥ 2 ^ 18 then s.badarg else
    let hash := BitVec.ofNat 384 (beVal (s.hostGet buf 48))
    let x : Peer := { hash := hash, mask := mask }
    let s1 : State := { s with fab := { s.fab with peers := sins p x s.fab.peers } }
    ((onesBelow 18 x.mask).foldl (fun (s : State) i =>
      if (s.port i).up && (s.port i).peerCert ≠ hash then s.at s.time (.linkRetrain i) else s) s1).granted)

/-- RING: packets of an earlier configuration go. -/
def execRing (s : State) : Out :=
  mgmt "RING" .ring s (fun s r pr nx pv =>
    let p := bitsOf pr 15 8
    let rank := bitsOf pr 7 0
    if r > 255 || p < 2 || p > 64 || rank ≥ p || pr ≥ 65536 || nx ≥ 18 || pv ≥ 18 then s.badarg
    else State.granted { s with fab := { s.fab with
      rings := sins r { p := p, rank := rank, nextPort := nx, prevPort := pv } s.fab.rings
      ringIn := s.fab.ringIn.filter (fun x => x.1 ≠ r) } })

/-- Whether a rectangle word may be written (R324). -/
def rectOk (s : State) (die n w : Nat) : Bool :=
  let old := s.rect die n
  let held := fun (k : Nat) => s.lau.launches.any (fun l => l.2.st.holds && l.2.hasCluster (die * 32 + k))
  decide (bitsOf w 9 7 ≤ bitsOf w 6 4) && decide (bitsOf w 3 2 ≤ bitsOf w 1 0)
  && !((List.range 8).any (fun m => m ≠ n && (List.range 32).any (fun k => rectHas w k && rectHas (s.rect die m) k)))
  && !((List.range 32).any (fun k => (rectHas w k || rectHas old k) && held k))
/-- RECT. -/
def execRect (s : State) : Out :=
  mgmt "RECT" .rect s (fun s die n v _ =>
    if die > 7 || n > 7 then s.badarg else
    let w := v % 2 ^ 10 + v / 2 ^ 63 * 2 ^ 63
    if !rectOk s die n w then s.refused'
    else State.granted { s with lau := { s.lau with rects := sput 0 s.lau.rects (die * 8 + n) (BitVec.ofNat 64 w) } })

/-- SNUFF: held while the device is frozen (R361). -/
def execSnuff (s : State) : Out :=
  mgmt "SNUFF" .snuff s (fun s die n _ _ =>
    if die > 7 || n > 7 then s.badarg
    else if s.obs.frozen then State.granted { s with obs := { s.obs with heldSnuffs := s.obs.heldSnuffs ++ [(die, n)] } }
    else (s.at s.time (.snuffRun die n)).granted)

/-! ### The security engine (R352–R354) -/

/-- Bytes 0–415 of a report (Tables 25.3 and 25.6); none: no launch of this LID holds its clusters or waits for them. -/
def reportBody (s : State) (lid : Nat) (nonce : List Byte) : Option (List Byte) :=
  let head := leBytes 4 1 ++ leBytes 4 0x20480002 ++ beBytes 48 Config.certHash.toNat
    ++ (List.range 4).flatMap (fun k => beBytes 48 (sget 0 s.host.mr k).toNat)
  let tail := leBytes 8 s.time ++ nonce
  if lid = 0 then some (head ++ List.replicate 112 0 ++ tail) else
  match s.lau.launches.find? (fun l => l.2.lid = lid && (l.2.st.holds || l.2.st = .preempted)) with
  | none => none
  | some (_, l) => some (head ++ leBytes 8 lid ++ beBytes 48 l.meas.toNat ++ sha384 l.log.flatten ++ leBytes 8 l.log.length ++ tail)
/-- ATTEST. -/
def execAttest (s : State) : Out :=
  mgmt "ATTEST" .attest s (fun s nbuf rbuf lid _ =>
    match reportBody s lid (s.hostGet nbuf 48) with
    | none => s.badarg
    | some b =>
      let sig := ecdsaSign (scalar Config.identityKey) (scalar (Config.signNonce s.host.signs)) (BitVec.ofNat 384 (beVal (sha384 b)))
      let s1 := s.hostPut rbuf (b ++ beBytes 96 sig.toNat)
      State.granted { s1 with host := { s1.host with signs := s1.host.signs + 1 } })

/-- DEBUG: the authorisation is the expiry and the owner key's signature over the SHA-384 of ASID, certificate hash and expiry
(layout: log 15). -/
def execAdmitDebug (s : State) : Out :=
  mgmt "DEBUG" .admitDebug s (fun s asid buf _ _ =>
    if !s.hasSpace asid then s.badarg else
    match (s.space asid).bind (fun x => x.ownerKey) with
    | none => s.granted
    | some key =>
      let expiry := s.hostGet buf 8
      let digest := sha384 (leBytes 8 asid ++ beBytes 48 Config.certHash.toNat ++ expiry)
      let sig := s.hostGet (buf + 8) 96
      if ecdsaVerify (BitVec.ofNat 768 (beVal key)) (BitVec.ofNat 384 (beVal digest)) (BitVec.ofNat 768 (beVal sig)) && decide (s.time ≤ leVal expiry) then
        (s.modSpace asid (fun x => { x with debug := true })).granted
      else s.mgmtDone 3 0)

/-! ### Freezing and looking (R341, R360–R363) -/

/-- FREEZE: every agent stops within 64 cycles. -/
def execFreeze (s : State) : Out :=
  mgmt "FREEZE" .freeze s (fun s _ _ _ _ =>
    if s.obs.frozen || s.obs.freezeAt.isSome then s.granted
    else (State.after { s with obs := { s.obs with freezeAt := some (s.time + 64) } } 64 .deviceFreeze).granted)
/-- Steps that a frozen device still takes (R361): the host's, the management core's, those of TIME, power and links. -/
def evWhileFrozen : Ev → Bool
  | .hostBar2Read .. | .hostBar2Write .. | .hbreqRead | .igncntRead | .cecntRead _ | .uecntRead _ | .mgmtRegWrite .. | .lqdbWrite .. => true
  | .asnew | .asfree | .map | .load | .sealRange | .mapwin | .exportRegion | .peer | .ring | .rect | .snuff | .attest | .admitDebug
  | .freeze | .thaw | .dump | .trig | .powcap | .logread | .glim | .traceSet | .lcmap | .hbfill => true
  | .deviceFreeze | .glimPulse | .powerWindowEnd _ | .powerGood | .cDieAnnounce .. | .stageCComplete | .stageAComplete | .softError _
  | .powerRemoved => true
  | _ => false
/-- THAW: what the freeze held goes on as many cycles later as it lasted; TIMECMP values passed meanwhile set TIMER at once. -/
def execThaw (s : State) : Out :=
  mgmt "THAW" .thaw s (fun s _ _ _ _ =>
    let s1 := s.cancel (fun e => e = .deviceFreeze)
    let s2 : State := { s1 with obs := { s1.obs with frozen := false, freezeAt := none, heldSnuffs := [] } }
    let d := if s.obs.frozen then s.time - s.obs.frozenAt else 0
    let s3 := s2.agenda.foldl (fun (s : State) e =>
      let stays := evWhileFrozen e.2 || (match e.2 with | .timerMatch _ => true | _ => false)
      s.at (if stays then e.1 else e.1 + d) e.2) ({ s2 with agenda := [] } : State)
    (s.obs.heldSnuffs.foldl (fun s x => s.at s.time (.snuffRun x.1 x.2)) s3).granted)

/-- `n` zero bytes. -/
def zeros (n : Nat) : List Byte := List.replicate n 0
/-- A context record (Table 25.9). -/
def dumpCtx (s : State) (i c : Nat) : List Byte :=
  if c ≥ modeN (s.core i).mode then zeros 384 else
  let x := s.cx i c
  leBytes 8 (2 ^ 63 + x.st.code) ++ leBytes 8 x.pc.toNat ++ leBytes 8 x.flags.toNat ++ leBytes 8 x.rmode.toNat ++ leBytes 8 x.seed.toNat
    ++ leBytes 8 x.txstat.toNat ++ leBytes 8 (i * 16 + c) ++ leBytes 8 x.latch.toNat
    ++ (List.range 16).flatMap (fun r => leBytes 8 (x.rs (BitVec.ofNat 4 r)).toNat)
    ++ (List.range 4).flatMap (fun r => leBytes 32 (x.rm (BitVec.ofNat 2 r)).toNat) ++ zeros 64
/-- A queue register (Table 25.8). -/
def dumpQueue (x : QReg) : List Byte :=
  leBytes 8 x.bind.toNat ++ leBytes 1 x.elems.length
    ++ leBytes 1 (maskOf ((List.range x.elems.length).filter (fun i => match x.elems[i]? with | some e => e.tag | none => false))) ++ zeros 6
    ++ (x.elems.flatMap (fun e => leBytes 8 e.v.toNat)) ++ zeros (112 - 8 * x.elems.length)
/-- A barrier. -/
def dumpBar (b : Bar) : List Byte :=
  leBytes 1 b.expect ++ leBytes 1 b.arrived ++ leBytes 4 b.phase.toNat ++ leBytes 1 (b2n b.group.isSome) ++ leBytes 1 (b.group.getD 0) ++ zeros 8
/-- Local store of a core: what a snuff that is zeroing it has reached reads zero (R326). -/
def State.lsNow (s : State) (i : Nat) : List Byte :=
  match (s.core i).wipe with
  | none => s.lsGet i 0 98304
  | some t => let n := min lsEnd (64 * (s.time + 1 - t)); zeros n ++ s.lsGet i n (98304 - n)
/-- The 123,136 bytes of DUMP (Table 25.8). -/
def dumpBytes (s0 : State) (i : Nat) : List Byte :=
  let s : State := { s0 with cur := { s0.cur with core := i } }
  let k := s.core i
  leBytes 8 s.obs.frozenAt ++ leBytes 2 i ++ leBytes 1 k.mode.toNat ++ leBytes 1 (b2n (k.lid ≠ 0)) ++ leBytes 4 123136 ++ zeros 48
    ++ (List.range 32).flatMap (fun r => leBytes 8 (k.ct.rx (BitVec.ofNat 5 r)).toNat) ++ leBytes 8 k.ct.pc.toNat
    ++ [0x7C0, 0x7C1, 0x7C2, 0x7C3, 0x7C4, 0x7C5, 0x800, 0x802, 0x803, 0x804, 0x805, 0x300, 0x341, 0x342, 0x343, 0x305].flatMap (fun n =>
      leBytes 8 (csrRead s n).toNat) ++ zeros 56
    ++ (List.range 16).flatMap (dumpCtx s i)
    ++ (List.range 256).flatMap (fun r => leBytes 64 (sget 0 k.v r).toNat)
    ++ s.lsNow i
    ++ (List.range 8).flatMap (fun q => dumpQueue (k.q q))
    ++ (List.range 48).flatMap (fun b => dumpBar ((sfind k.bars b).getD Bar.init))
/-- Whether a core belongs to a launch sealed against debug. -/
def State.coreClosed (s : State) (i : Nat) : Bool := (s.core i).lid ≠ 0 && s.closed (s.asidOf i)
/-- DUMP. -/
def execDump (s : State) : Out :=
  mgmt "DUMP" .dump s (fun s i buf _ _ =>
    if i ≥ Config.nCores then s.badarg
    else if s.coreClosed i then s.mgmtDone 3 0
    else if !s.obs.frozen then s.refused'
    else (s.hostPut buf (dumpBytes s i)).mgmtDone 0 123136)
/-- TRIG. -/
def execTrig (s : State) : Out :=
  mgmt "TRIG" .trig s (fun s i v _ _ =>
    if i ≥ Config.nCores then s.badarg
    else if s.coreClosed i then s.mgmtDone 3 0
    else
      let s1 := trigWrite { s with cur := { s.cur with core := i } } (BitVec.ofNat 64 v)
      State.granted { s1 with cur := s.cur })

/-- Default cap of a die in watts (R359). -/
def defaultCap (die : Nat) : Nat := if die < 8 then 181 else 76
/-- POWCAP. -/
def execPowcap (s : State) : Out :=
  mgmt "POWCAP" .powcap s (fun s die w _ _ =>
    if die > 9 || w > defaultCap die then s.badarg
    else State.granted { s with obs := { s.obs with caps := sins die w s.obs.caps } })

/-- LOGREAD. -/
def execLogread (s : State) : Out :=
  mgmt "LOGREAD" .logread s (fun s kind lid n buf =>
    let recs := if kind = 0 then some s.fab.log
      else if kind = 1 then (s.lau.launches.find? (fun l => l.2.lid = lid && lid ≠ 0)).map (fun l => l.2.log) else none
    match recs.bind (fun l => l[n]?) with
    | some r => (s.hostPut buf r).granted
    | none => s.badarg)

/-- Whether a physical buffer lies in device memory. -/
def physBuffer (a n : Nat) : Bool := n = 0 || (regionOf a = .dram && regionOf (a + n - 1) = .dram)
/-- GLIM: the next pulse is in the next cycle that is a multiple of 2^k. -/
def execGlim (s : State) : Out :=
  mgmt "GLIM" .glim s (fun s k base size _ =>
    let s0 := s.cancel (fun e => e = .glimPulse)
    if k = 0 then State.granted { s0 with obs := { s0.obs with glimK := 0 } }
    else if k < 10 || k > 24 || size % 65536 ≠ 0 || !physBuffer base size then s.badarg
    else
      let s1 : State := { s0 with obs := { s0.obs with glimK := k, glimBase := base, glimSize := size, glimNext := 0 } }
      (s1.at ((s.time / 2 ^ k + 1) * 2 ^ k) .glimPulse).granted)
/-- TRACE. -/
def execTraceSet (s : State) : Out :=
  mgmt "TRACE" .traceSet s (fun s base size _ _ =>
    if !physBuffer base size then s.badarg
    else State.granted { s with obs := { s.obs with traceBase := base, traceSize := size, traceNext := 0 } })

end Sys2Proof.Machine
end

