-- ==== Sys2Proof/Machine/Near.lean ====
section
/-!
DEFINITION. Near-data operations (R255–R256, R258, R264–R266). The step acts in the routine run or the gather run that
State.cur names; each operation of Table 17.1 is one computation over that run's registers.
-/
namespace Sys2Proof.Machine

/-- The gather run of this step. -/
def State.grun (s : State) : Option GRun := s.myCore.gat.run
/-- The routine run of this step. -/
def State.rrun (s : State) : Option RRun := sfind s.near.runs s.cur.run
/-- Whether a run acts in this step. -/
def State.nearOk (s : State) : Bool := if s.cur.inRoutine then s.rrun.isSome else s.grun.isSome
/-- n register of the run. -/
def State.nr (s : State) (r : NReg) : Word :=
  if s.cur.inRoutine then (match s.rrun with | some x => sget 0 x.n r.toNat | none => 0)
  else (match s.grun with | some x => sget 0 x.n r.toNat | none => 0)
/-- Changes the routine run. -/
def State.modR (s : State) (f : RRun → RRun) : State :=
  match s.rrun with
  | some x => { s with near := { s.near with runs := sins s.cur.run (f x) s.near.runs } }
  | none => s
/-- Changes the gather run. -/
def State.modG (s : State) (f : GRun → GRun) : State :=
  s.modGat s.cur.core (fun g => { g with run := g.run.map f })
/-- Writes an n register. -/
def State.setN (s : State) (r : NReg) (v : Word) : State :=
  if s.cur.inRoutine then s.modR (fun x => { x with n := sput 0 x.n r.toNat v })
  else s.modG (fun x => { x with n := sput 0 x.n r.toNat v })

/-- The routine ends; its line is released at the end of the hold (R258, R260). -/
def endRun (s : State) (f : RRun → RRun) : State := s.modR (fun x => { (f x) with ended := true })

/-- A gather run faults (R265). -/
def faultRun (s : State) (cause info va : Nat) : State :=
  match s.grun with
  | none => s
  | some x =>
    let slot := x.trig.slot
    gatherEnd (gatherFault (s.modGat s.cur.core (fun g => { g with run := none })) s.cur.core slot cause info va) s.cur.core slot

/-- Ends an operation: the next instruction is `d` ahead; the 1,024th instruction of a gather run without an end faults with
LONG (R263). -/
def nearNext (s : State) (d : Int) : State :=
  if s.cur.inRoutine then s.modR (fun x => { x with pc := ((x.pc : Int) + d).toNat })
  else
    let s1 := s.modG (fun x => { x with pc := ((x.pc : Int) + d).toNat, count := x.count + 1 })
    match s1.grun with
    | some x => if x.count ≥ 1024 then faultRun s1 6 0 0 else s1
    | none => s1

/-- A computation writes nd. -/
def nearOp (m : String) (s : State) (d : NReg) (v : Word) : Out :=
  if s.nearOk then ok (nearNext (s.setN d v) 1) else notEnabled m

/-- Low word as an FP32 value. -/
def lo32 (w : Word) : Nat := w.toNat % 2 ^ 32

/-- `nadd`. -/
def execNadd (d a b : NReg) (s : State) : Out := nearOp "NADD" s d (s.nr a + s.nr b)
/-- `nsub`. -/
def execNsub (d a b : NReg) (s : State) : Out := nearOp "NSUB" s d (s.nr a - s.nr b)
/-- `nand`: bitwise AND. -/
def execNand (d a b : NReg) (s : State) : Out := nearOp "NAND" s d (s.nr a &&& s.nr b)
/-- `nor`: bitwise OR. -/
def execNor (d a b : NReg) (s : State) : Out := nearOp "NOR" s d (s.nr a ||| s.nr b)
/-- `nxor`. -/
def execNxor (d a b : NReg) (s : State) : Out := nearOp "NXOR" s d (s.nr a ^^^ s.nr b)
/-- `nsll`. -/
def execNsll (d a b : NReg) (s : State) : Out := nearOp "NSLL" s d (s.nr a <<< ((s.nr b).toNat % 64))
/-- `nsrl`. -/
def execNsrl (d a b : NReg) (s : State) : Out := nearOp "NSRL" s d (s.nr a >>> ((s.nr b).toNat % 64))
/-- `nsra`. -/
def execNsra (d a b : NReg) (s : State) : Out := nearOp "NSRA" s d ((s.nr a).sshiftRight ((s.nr b).toNat % 64))
/-- `naddi`. -/
def execNaddi (d a : NReg) (imm : BitVec 14) (s : State) : Out := nearOp "NADDI" s d (s.nr a + sx imm)
/-- `nmin`: signed. -/
def execNmin (d a b : NReg) (s : State) : Out := nearOp "NMIN" s d (rvAlu .min (s.nr a) (s.nr b))
/-- `nmax`: signed. -/
def execNmax (d a b : NReg) (s : State) : Out := nearOp "NMAX" s d (rvAlu .max (s.nr a) (s.nr b))
/-- `nminu`. -/
def execNminu (d a b : NReg) (s : State) : Out := nearOp "NMINU" s d (rvAlu .minu (s.nr a) (s.nr b))
/-- `nmaxu`. -/
def execNmaxu (d a b : NReg) (s : State) : Out := nearOp "NMAXU" s d (rvAlu .maxu (s.nr a) (s.nr b))
/-- `nfadd`: FP32 sum, RNE, no flags. -/
def execNfadd (d a b : NReg) (s : State) : Out :=
  nearOp "NFADD" s d (BitVec.ofNat 64 (fadd .f32 .rne false 0 (decodeF .f32 (lo32 (s.nr a))) (decodeF .f32 (lo32 (s.nr b)))).code)
/-- `nfmin`: R101. -/
def execNfmin (d a b : NReg) (s : State) : Out :=
  nearOp "NFMIN" s d (BitVec.ofNat 64 (fminmax .f32 false (lo32 (s.nr a)) (lo32 (s.nr b))).code)
/-- `nfmax`: R101. -/
def execNfmax (d a b : NReg) (s : State) : Out :=
  nearOp "NFMAX" s d (BitVec.ofNat 64 (fminmax .f32 true (lo32 (s.nr a)) (lo32 (s.nr b))).code)

/-- Conditions of `ncmp` (Table 17.1). -/
def nCond (c : NCond) (a b : Word) : Bool :=
  match c with
  | .eq => a = b
  | .ne => a ≠ b
  | .lt => a.toInt < b.toInt
  | .ge => a.toInt ≥ b.toInt
  | .ltu => a.toNat < b.toNat
  | .geu => a.toNat ≥ b.toNat
  | .flt => (fcmp .lt (decodeF .f32 (lo32 a)) (decodeF .f32 (lo32 b))).1
  | .fge => (fcmp .ge (decodeF .f32 (lo32 a)) (decodeF .f32 (lo32 b))).1

/-- `ncmp`. -/
def execNcmp (c : NCond) (d a b : NReg) (s : State) : Out :=
  nearOp "NCMP" s d (if nCond c (s.nr a) (s.nr b) then 1 else 0)
/-- `nsel`. -/
def execNsel (d a b : NReg) (s : State) : Out := nearOp "NSEL" s d (if s.nr d ≠ 0 then s.nr a else s.nr b)

/-- The calling or gathering core, for policy and snuff (R322). -/
def State.nearCore (s : State) : Nat :=
  if s.cur.inRoutine then
    match s.rrun with
    | some x => (match s.req x.req with | some q => q.who.core | none => 0)
    | none => 0
  else s.cur.core

/-- `nrdw`: reads a word of the line; an erroneous word acts under SEVPOL (R260, R265). -/
def execNrdw (d : NReg) (k : BitVec 4) (s : State) : Out :=
  if !s.nearOk then notEnabled "NRDW" else
  let core := s.nearCore
  if s.cur.inRoutine then
    match s.rrun with
    | none => notEnabled "NRDW"
    | some x =>
      let v := BitVec.ofNat 64 (elem 32 x.w.toNat k.toNat)
      let s1 := nearNext (s.setN d v) 1
      match (if bitOf x.wrote.toNat k.toNat then none else x.bad.find? (fun b => b.1 = k.toNat)) with
      | none => ok s1
      | some b =>
        let sev := max x.sev (b.2 + 1)
        match polAction (s.sevpol core) b.2 with
        | 0 => ok (s1.modR (fun x => { x with sev := sev }))
        | 3 => ok ((s1.modR (fun x => { x with sev := sev })).snuffCore core)
        | _ => ok (endRun s (fun x => { x with sev := sev, rfault := some (rfaultWord sev 2 0) }))
  else
    match s.grun with
    | none => notEnabled "NRDW"
    | some x =>
      let v := BitVec.ofNat 64 (elem 32 x.w.toNat k.toNat)
      let s1 := nearNext (s.setN d v) 1
      match x.trig.bad.find? (fun b => b.1 = k.toNat) with
      | none => ok s1
      | some b =>
        match polAction (s.sevpol core) b.2 with
        | 0 => ok s1
        | 3 => ok (s1.snuffCore core)
        | _ => ok (faultRun s 4 b.2 (x.trig.va / 64 * 64))

/-- `nwrw`: writes a word of the line. -/
def execNwrw (k : BitVec 4) (a : NReg) (s : State) : Out :=
  if !s.nearOk then notEnabled "NWRW" else
  let put := fun (w : Line) => patchLine w (4 * k.toNat) (leBytes 4 (s.nr a).toNat)
  if s.cur.inRoutine then
    ok (nearNext (s.modR (fun x => { x with w := put x.w, wrote := x.wrote ||| BitVec.ofNat 16 (2 ^ k.toNat) })) 1)
  else
    ok (nearNext (s.modG (fun x => { x with
      w := put x.w, trig := { x.trig with bad := x.trig.bad.filter (fun b => b.1 ≠ k.toNat) } })) 1)

/-- `nrdk`: a request word; beyond those sent, 0. -/
def execNrdk (d : NReg) (k : BitVec 2) (s : State) : Out :=
  match (if s.cur.inRoutine then s.rrun else none) with
  | some x => ok (nearNext (s.setN d (x.k.getD k.toNat 0)) 1)
  | none => notEnabled "NRDK"

/-- `nret`: the routine succeeds; reply word i, for i below RN, is the i-th register named when i < count, else 0 (R258). -/
def execNret (a b : NReg) (c : BitVec 2) (s : State) : Out :=
  match (if s.cur.inRoutine then s.rrun else none) with
  | some x =>
    let rn := match s.req x.req with | some q => ((q.words.getD 0 0).toNat) | none => 0
    let regs := [s.nr a, s.nr b]
    let ws := (List.range rn).map (fun i => if i < c.toNat then regs.getD i 0 else 0)
    ok (endRun s (fun x => { x with k := ws }))
  | none => notEnabled "NRET"

/-- Requests a line as a relaxed load: `rt` makes the reply a trigger; the limit of 32 fetches holds the run (R264). -/
def nearFetch (m : String) (s : State) (a : NReg) (rt : Bool) : Out :=
  match (if s.cur.inRoutine then none else s.grun) with
  | none => notEnabled m
  | some x =>
    let va := s.nr a
    if va.toNat ≥ 2 ^ 48 then ok (faultRun s 2 0 va.toNat)
    else if va.toNat % 64 ≠ 0 then ok (faultRun s 3 0 va.toNat)
    else if rt && x.usedRt then ok (faultRun s 8 0 0)
    else if (s.gatOut s.cur.core).length ≥ 32 then ok s
    else
      let (s1, _) := issueReq s { Req.new (.gu s.cur.core) (.load 64) va.toNat 64 (.fetch x.trig.slot rt (s.nr 15)) with relaxed := true }
      ok (nearNext (s1.modG (fun x => { x with usedRt := x.usedRt || rt })) 1)

/-- `nfetch`. -/
def execNfetch (a : NReg) (s : State) : Out := nearFetch "NFETCH" s a false
/-- `nfetch.rt`. -/
def execNfetchRt (a : NReg) (s : State) : Out := nearFetch "NFETCH_RT" s a true

/-- `npush`: waits while the queue is full; an unbound queue faults with NOQUEUE (R264). -/
def execNpush (tag : Bool) (q : BitVec 3) (a : NReg) (s : State) : Out :=
  match (if s.cur.inRoutine then none else s.grun) with
  | none => notEnabled "NPUSH"
  | some _ =>
    let x := s.myCore.q q.toNat
    if x.src ≠ 5 then ok (faultRun s 5 0 0)
    else if x.room = 0 then ok s
    else ok (nearNext (qAppend s s.cur.core q.toNat (s.nr a) tag) 1)

/-- The pairs still in a core's hash buffer at a cycle. -/
def Core.digIn (k : Core) (now : Nat) : List Nat := k.digBuf.filter (fun t => decide (now < t))
/-- `ndig`: appends 16 bytes to the core's digest stream; into a full buffer of 64 pairs it waits (R266). The hash unit folds the
pairs in order, at a pace the spec leaves open (log 30). -/
def execNdig (a b : NReg) (s : State) : Out :=
  match (if s.cur.inRoutine then none else s.grun) with
  | none => notEnabled "NDIG"
  | some _ =>
    let i := s.cur.core
    let buf := s.myCore.digIn s.time
    if buf.length ≥ 64 then ok s else
    let s1 := s.modCore i (fun k => { k with
      dig := k.dig ++ [(s.nr a, s.nr b)], digBuf := buf ++ [max s.time (buf.getLastD 0) + Config.foldTime i s.time] })
    ok (nearNext (s1.modG (fun x => { x with digs := x.digs + 1 })) 1)

/-- `nloop`: counts down and goes back while not zero. -/
def execNloop (d : NReg) (dist : BitVec 14) (s : State) : Out :=
  match (if s.cur.inRoutine then none else s.grun) with
  | none => notEnabled "NLOOP"
  | some _ =>
    let v := s.nr d - 1
    ok (nearNext (s.setN d v) (if v ≠ 0 then -(dist.toNat : Int) else 1))

/-- `nbr`: goes ahead when not zero. -/
def execNbr (a : NReg) (dist : BitVec 14) (s : State) : Out :=
  match (if s.cur.inRoutine then none else s.grun) with
  | none => notEnabled "NBR"
  | some _ => ok (nearNext s (if s.nr a ≠ 0 then (dist.toNat : Int) else 1))

/-- `nstop`: ends the run. -/
def execNstop (s : State) : Out :=
  match (if s.cur.inRoutine then none else s.grun) with
  | none => notEnabled "NSTOP"
  | some x => ok (gatherEnd s s.cur.core x.trig.slot)

/-- `nfault code`: RFAULT of kind EXPLICIT in a routine, NFAULT in a kernel. -/
def execNfault (code : BitVec 8) (s : State) : Out :=
  if !s.nearOk then notEnabled "NFAULT"
  else if s.cur.inRoutine then
    ok (endRun s (fun x => { x with rfault := some (rfaultWord x.sev 0 code.toNat) }))
  else ok (faultRun s 7 code.toNat 0)

end Sys2Proof.Machine
end

