-- ==== Sys2Proof/Machine/Observe.lean ====
section
/-!
DEFINITION. Power-good and start-up (R11, R351, R352, R357, R358), power (R359), freezing and the glim (R361, R363).
-/
namespace Sys2Proof.Machine

/-! ### Start-up -/

/-- A measurement register extended with a digest (R352). -/
def extendMr (mr h : BitVec 384) : BitVec 384 := BitVec.ofNat 384 (beVal (sha384 (beBytes 48 mr.toNat ++ beBytes 48 h.toNat)))

/-- POWER_GOOD: TIME is 0, the security engine draws the keys of LPDDR-6 (R356) and stage A begins; the stages complete at their bounds
(log 1). A refused image holds the device in
stage A with ERR = 1 (R357). -/
def execPowerGood (s : State) : Out :=
  if s.cur.ev ≠ .powerGood || s.time ≠ 0 || s.host.stages ≠ 0 then notEnabled "POWER_GOOD" else
  let mrs := if Config.configImageOk then [0, 1, 2, 3] else [0]
  let s1 : State := { State.dark with
    powered := true, hostMem := s.hostMem, agenda := s.agenda, cur := s.cur
    fresh := s.fresh + 2
    fab := { Fab.init with sessions := s.fab.sessions }
    host := { HostIf.init with
              signs := s.host.signs
              mr := mrs.map (fun k => (k, extendMr 0 (Config.imageDigest k)))
              dataKey := Config.dataKey s.fresh, tweakKey := Config.dataKey (s.fresh + 1) } }
  if !Config.configImageOk then ok { s1 with host := { s1.host with err := 1 } } else
  let s2 := (List.range 8).foldl (fun (s : State) d => s.at Config.stageBCycle (.cDieAnnounce d true))
    ((s1.at Config.stageACycle .stageAComplete).at Config.stageCCycle .stageCComplete)
  ok ((List.range 10).foldl (fun (s : State) d => s.at 65536 (.powerWindowEnd d)) s2)

/-- What a line of LPDDR-6 holds: one data unit of AES-256-XTS under the two keys, its tweak the physical address bits [42:6] (R356).
State.mem is the clear content, which the agents of the device see (log 15). -/
def State.lpddr (s : State) (line : Nat) : List Byte :=
  xts s.host.dataKey s.host.tweakKey (line % 2 ^ 37) (s.pread (line * 64) 64)

/-- STAGE_A_COMPLETE. -/
def execStageAComplete (s : State) : Out :=
  if s.cur.ev = .stageAComplete && s.host.err = 0 then ok { s with host := { s.host with stages := s.host.stages ||| 1 } }
  else notEnabled "STAGE_A_COMPLETE"

/-- C_DIE_ANNOUNCE: the die is announced, or marked failed, and a queued launch that names one of its clusters is rejected;
stage B is complete with the last die. -/
def execCDieAnnounce (s : State) : Out :=
  match s.cur.ev with
  | .cDieAnnounce d good =>
    if d > 7 || s.host.err ≠ 0 then notEnabled "C_DIE_ANNOUNCE" else
    let bit := BitVec.ofNat 8 (2 ^ d)
    let h := if good then { s.host with announced := s.host.announced ||| bit } else { s.host with failed := s.host.failed ||| bit }
    let s1 : State := { s with host := { h with stages := if h.announced ||| h.failed = 0xFF then h.stages ||| 2 else h.stages } }
    let dead := if good then [] else s1.lau.launches.filter (fun l => l.2.st = .queued && l.2.clusters.any (fun c => c / 32 = d))
    let s2 := dead.foldl (fun (s : State) l =>
      let s1 := putStatus s l.2.pa 5 2 0
      { s1 with lau := { s1.lau with
        launches := sdel l.1 s1.lau.launches
        queues := s1.lau.queues.map (fun (q : Nat × List Nat) => (q.1, q.2.filter (fun k => k ≠ l.1))) } }) s1
    -- the MMP of an announced die sets its watermark, and its sweeper runs (R204)
    let m := (sfind s2.lau.mmps d).getD Mmp.init
    let s3 : State := if good then
        State.after { s2 with lau := { s2.lau with mmps := sins d { m with watermark := Config.watermark d } s2.lau.mmps } }
          (Config.sweepPace d + 1) (.clockSweep d)
      else s2
    ok (kickLaunches s3)
  | _ => notEnabled "C_DIE_ANNOUNCE"

/-- STAGE_C_COMPLETE: LPDDR-6 and the ports are there; the ports not up wait as retraining ones for 2 ms (R358). -/
def execStageCComplete (s : State) : Out :=
  if s.cur.ev ≠ .stageCComplete || s.host.err ≠ 0 then notEnabled "STAGE_C_COMPLETE" else
  let s1 : State := { s with host := { s.host with stages := s.host.stages ||| 4 } }
  let s2 := (List.range 18).foldl (fun (s : State) q =>
    if (s.port q).up then s else
    (s.modPort q (fun t => { t with retrain := some s.time })).after Config.retrainBound (.linkDown q)) s1
  ok (kickLaunches s2)

/-- POWER_REMOVED: TIME stops and all device state ends. -/
def execPowerRemoved (s : State) : Out :=
  if s.cur.ev = .powerRemoved then
    ok { State.dark with
         hostMem := s.hostMem
         agenda := if s.agenda.any (fun e => e.2 = .powerGood) then [(0, .powerGood)] else []
         fresh := s.fresh
         fab := { Fab.init with sessions := s.fab.sessions }
         host := { HostIf.init with signs := s.host.signs } }
  else notEnabled "POWER_REMOVED"

/-! ### Power (R359) -/

/-- POWER_WINDOW_END: above the cap the level rises by 1, up to 7; below 90 % of it the level falls by 1. -/
def execPowerWindowEnd (s : State) : Out :=
  match s.cur.ev with
  | .powerWindowEnd d =>
    let cap := (sfind s.obs.caps d).getD (defaultCap d)
    let w := Config.dieWatts d (s.time / 65536)
    let l := sget 0 s.obs.levels d
    let l' := if w > cap then min 7 (l + 1) else if 10 * w < 9 * cap then l - 1 else l
    let s1 : State := { s with obs := { s.obs with levels := sput 0 s.obs.levels d l' } }
    ok (s1.after 65536 (.powerWindowEnd d))
  | _ => notEnabled "POWER_WINDOW_END"

/-! ### Observation -/

/-- DEVICE_FREEZE: every agent stops in the state it is in. -/
def execDeviceFreeze (s : State) : Out :=
  if s.cur.ev ≠ .deviceFreeze then notEnabled "DEVICE_FREEZE"
  else if s.obs.frozen then ok s
  else ok { s with obs := { s.obs with frozen := true, frozenAt := s.time, freezeAt := none } }

/-- Run state of a context in a glim record (Table 3.3, R363). -/
def CSt.glim : CSt → Nat
  | .waitMem => 1 | .waitQ => 2 | .waitBar => 3 | .stopped | .faulted => 4 | _ => 0
/-- A core's entry in a glim record. -/
def glimEntry (s : State) (i : Nat) : List Byte :=
  let k := s.core i
  if !bitOf k.glimctl.toNat 0 then leBytes 2 0 else
  let live := (List.range (modeN k.mode)).filter (fun c => (s.cx i c).st ≠ .empty && (s.cx i c).st ≠ .evicted)
  let shut := s.coreClosed i
  leBytes 2 (maskOf live) ++ live.flatMap (fun c =>
    let x := s.cx i c
    leBytes 3 (x.st.glim + (if shut then 0 else x.pc.toNat / 8 % 2 ^ 14 * 8)))
/-- A die's record: header (layout: log 14) and its 256 entries. -/
def glimRecord (s : State) (die : Nat) : List Byte :=
  let body := (List.range 256).flatMap (fun c => glimEntry s (die * 256 + c))
  leBytes 6 s.time ++ leBytes 1 die ++ leBytes 1 s.obs.glimK ++ leBytes 4 (16 + body.length) ++ leBytes 4 (s.time / 2 ^ s.obs.glimK) ++ body
/-- GLIM_PULSE: each announced C-die writes its record, or drops it where the buffer cannot take it whole. -/
def execGlimPulse (s : State) : Out :=
  if s.cur.ev ≠ .glimPulse then notEnabled "GLIM_PULSE" else if s.obs.glimK = 0 then ok s else
  let s1 := if s.obs.frozen then s else
    (onesBelow 8 s.host.announced.toNat).foldl (fun (s : State) d =>
      let r := glimRecord s d
      if s.obs.glimNext + r.length > s.obs.glimSize then { s with obs := { s.obs with glimDropped := s.obs.glimDropped + 1 } } else
      let s1 := agentWrite s (s.obs.glimBase + s.obs.glimNext) r
      { s1 with obs := { s1.obs with glimNext := s1.obs.glimNext + r.length, glimWritten := s1.obs.glimWritten + 1 } }) s
  ok (s1.after (2 ^ s.obs.glimK) .glimPulse)

end Sys2Proof.Machine
end

