-- ==== Sys2Proof/Machine/Dispatch.lean ====
section
/-!
DEFINITION. What each instruction does: one arm per constructor of Instr.
-/
namespace Sys2Proof.Machine

/-- The meaning of an instruction in a state. -/
def exec (i : Instr) (s : State) : Host.Outcome State Fault Refusal :=
  match i with
  -- control-thread custom instructions (Table 5.9)
  | .mtBcast a0 a1 a2 a3 => Sys2Proof.Machine.execMtBcast a0 a1 a2 a3 s
  | .mtStart a0 a1 a2 => Sys2Proof.Machine.execMtStart a0 a1 a2 s
  | .mtWait a0 a1 => Sys2Proof.Machine.execMtWait a0 a1 s
  | .mtPoll a0 a1 => Sys2Proof.Machine.execMtPoll a0 a1 s
  | .mtKill a0 a1 => Sys2Proof.Machine.execMtKill a0 a1 s
  | .mtMode a0 a1 => Sys2Proof.Machine.execMtMode a0 a1 s
  | .mtRdreg a0 a1 => Sys2Proof.Machine.execMtRdreg a0 a1 s
  | .mtWrreg a0 a1 a2 => Sys2Proof.Machine.execMtWrreg a0 a1 a2 s
  | .mtResume a0 a1 => Sys2Proof.Machine.execMtResume a0 a1 s
  | .mtRedirect a0 a1 a2 => Sys2Proof.Machine.execMtRedirect a0 a1 a2 s
  | .mtEvict a0 a1 => Sys2Proof.Machine.execMtEvict a0 a1 s
  | .mtAdmit a0 a1 a2 => Sys2Proof.Machine.execMtAdmit a0 a1 a2 s
  | .tcPush a0 a1 => Sys2Proof.Machine.execTcPush a0 a1 s
  | .tcTrypush a0 a1 => Sys2Proof.Machine.execTcTrypush a0 a1 s
  | .tcSend a0 a1 a2 => Sys2Proof.Machine.execTcSend a0 a1 a2 s
  | .jobWait a0 a1 => Sys2Proof.Machine.execJobWait a0 a1 s
  | .jobPoll a0 a1 => Sys2Proof.Machine.execJobPoll a0 a1 s
  | .tcMint a0 a1 => Sys2Proof.Machine.execTcMint a0 a1 s
  | .taskPush a0 a1 => Sys2Proof.Machine.execTaskPush a0 a1 s
  | .taskPop a0 a1 => Sys2Proof.Machine.execTaskPop a0 a1 s
  | .taskTrypop a0 a1 => Sys2Proof.Machine.execTaskTrypop a0 a1 s
  | .taskDone a0 => Sys2Proof.Machine.execTaskDone a0 s
  | .mbxSend a0 a1 a2 => Sys2Proof.Machine.execMbxSend a0 a1 a2 s
  | .mbxRecv a0 => Sys2Proof.Machine.execMbxRecv a0 s
  | .mbxTryrecv a0 a1 => Sys2Proof.Machine.execMbxTryrecv a0 a1 s
  | .barInit a0 a1 a2 => Sys2Proof.Machine.execBarInit a0 a1 a2 s
  | .barBind a0 a1 a2 => Sys2Proof.Machine.execBarBind a0 a1 a2 s
  | .barArrive a0 a1 => Sys2Proof.Machine.execBarArrive a0 a1 s
  | .barWait a0 a1 => Sys2Proof.Machine.execBarWait a0 a1 s
  | .barTest a0 a1 => Sys2Proof.Machine.execBarTest a0 a1 s
  | .qBind a0 a1 a2 => Sys2Proof.Machine.execQBind a0 a1 a2 s
  | .ctSleep a0 a1 => Sys2Proof.Machine.execCtSleep a0 a1 s
  | .fenceCl a0 => Sys2Proof.Machine.execFenceCl a0 s
  | .fenceDv a0 => Sys2Proof.Machine.execFenceDv a0 s
  | .fenceSy a0 => Sys2Proof.Machine.execFenceSy a0 s
  | .pairOn a0 => Sys2Proof.Machine.execPairOn a0 s
  | .pairOff a0 => Sys2Proof.Machine.execPairOff a0 s
  | .coreStart a0 a1 a2 => Sys2Proof.Machine.execCoreStart a0 a1 a2 s
  -- the base set on the control thread (R107) and the device CSRs (R62–R63)
  | .rvIntegerOp a0 => Sys2Proof.Machine.execRvIntegerOp a0 s
  | .rvLoad a0 a1 a2 a3 => Sys2Proof.Machine.execRvLoad a0 a1 a2 a3 s
  | .rvStore a0 a1 a2 a3 => Sys2Proof.Machine.execRvStore a0 a1 a2 a3 s
  | .rvAmo a0 a1 a2 a3 a4 a5 a6 => Sys2Proof.Machine.execRvAmo a0 a1 a2 a3 a4 a5 a6 s
  | .rvLr a0 a1 a2 a3 a4 => Sys2Proof.Machine.execRvLr a0 a1 a2 a3 a4 s
  | .rvSc a0 a1 a2 a3 a4 a5 => Sys2Proof.Machine.execRvSc a0 a1 a2 a3 a4 a5 s
  | .rvCsrAccess a0 a1 a2 a3 a4 => Sys2Proof.Machine.execRvCsrAccess a0 a1 a2 a3 a4 s
  | .csrWrite a0 a1 => Sys2Proof.Machine.execCsrWrite a0 a1 s
  | .ctxmodeWrite a0 => Sys2Proof.Machine.execCtxmodeWrite a0 s
  | .timecmpWrite a0 => Sys2Proof.Machine.execTimecmpWrite a0 s
  | .evpendWrite a0 => Sys2Proof.Machine.execEvpendWrite a0 s
  | .mtfaultRead a0 => Sys2Proof.Machine.execMtfaultRead a0 s
  | .qcfgGo a0 a1 => Sys2Proof.Machine.execQcfgGo a0 a1 s
  | .qcfgStop a0 a1 => Sys2Proof.Machine.execQcfgStop a0 a1 s
  | .trigctlWrite a0 => Sys2Proof.Machine.execTrigctlWrite a0 s
  -- A-slot (Tables 5.11 and 5.12)
  | .add a0 a1 a2 => Sys2Proof.Machine.execAdd a0 a1 a2 s
  | .sub a0 a1 a2 => Sys2Proof.Machine.execSub a0 a1 a2 s
  | .and a0 a1 a2 => Sys2Proof.Machine.execAnd a0 a1 a2 s
  | .or a0 a1 a2 => Sys2Proof.Machine.execOr a0 a1 a2 s
  | .xor a0 a1 a2 => Sys2Proof.Machine.execXor a0 a1 a2 s
  | .sll a0 a1 a2 => Sys2Proof.Machine.execSll a0 a1 a2 s
  | .srl a0 a1 a2 => Sys2Proof.Machine.execSrl a0 a1 a2 s
  | .sra a0 a1 a2 => Sys2Proof.Machine.execSra a0 a1 a2 s
  | .mul a0 a1 a2 => Sys2Proof.Machine.execMul a0 a1 a2 s
  | .mulh a0 a1 a2 => Sys2Proof.Machine.execMulh a0 a1 a2 s
  | .mulhu a0 a1 a2 => Sys2Proof.Machine.execMulhu a0 a1 a2 s
  | .min a0 a1 a2 => Sys2Proof.Machine.execMin a0 a1 a2 s
  | .max a0 a1 a2 => Sys2Proof.Machine.execMax a0 a1 a2 s
  | .minu a0 a1 a2 => Sys2Proof.Machine.execMinu a0 a1 a2 s
  | .maxu a0 a1 a2 => Sys2Proof.Machine.execMaxu a0 a1 a2 s
  | .slt a0 a1 a2 => Sys2Proof.Machine.execSlt a0 a1 a2 s
  | .sltu a0 a1 a2 => Sys2Proof.Machine.execSltu a0 a1 a2 s
  | .addi a0 a1 a2 => Sys2Proof.Machine.execAddi a0 a1 a2 s
  | .andi a0 a1 a2 => Sys2Proof.Machine.execAndi a0 a1 a2 s
  | .ori a0 a1 a2 => Sys2Proof.Machine.execOri a0 a1 a2 s
  | .xori a0 a1 a2 => Sys2Proof.Machine.execXori a0 a1 a2 s
  | .slti a0 a1 a2 => Sys2Proof.Machine.execSlti a0 a1 a2 s
  | .sltiu a0 a1 a2 => Sys2Proof.Machine.execSltiu a0 a1 a2 s
  | .slli a0 a1 a2 => Sys2Proof.Machine.execSlli a0 a1 a2 s
  | .srli a0 a1 a2 => Sys2Proof.Machine.execSrli a0 a1 a2 s
  | .srai a0 a1 a2 => Sys2Proof.Machine.execSrai a0 a1 a2 s
  | .lui a0 a1 => Sys2Proof.Machine.execLui a0 a1 s
  | .beq a0 a1 a2 => Sys2Proof.Machine.execBeq a0 a1 a2 s
  | .bne a0 a1 a2 => Sys2Proof.Machine.execBne a0 a1 a2 s
  | .blt a0 a1 a2 => Sys2Proof.Machine.execBlt a0 a1 a2 s
  | .bge a0 a1 a2 => Sys2Proof.Machine.execBge a0 a1 a2 s
  | .bltu a0 a1 a2 => Sys2Proof.Machine.execBltu a0 a1 a2 s
  | .bgeu a0 a1 a2 => Sys2Proof.Machine.execBgeu a0 a1 a2 s
  | .bany a0 a1 a2 => Sys2Proof.Machine.execBany a0 a1 a2 s
  | .ball a0 a1 a2 => Sys2Proof.Machine.execBall a0 a1 a2 s
  | .bnone a0 a1 a2 => Sys2Proof.Machine.execBnone a0 a1 a2 s
  | .bnall a0 a1 a2 => Sys2Proof.Machine.execBnall a0 a1 a2 s
  | .jmp a0 => Sys2Proof.Machine.execJmp a0 s
  | .jmpReg a0 => Sys2Proof.Machine.execJmpReg a0 s
  | .bfetch a0 => Sys2Proof.Machine.execBfetch a0 s
  | .bfetchReg a0 => Sys2Proof.Machine.execBfetchReg a0 s
  | .ld a0 a1 a2 a3 => Sys2Proof.Machine.execLd a0 a1 a2 a3 s
  | .st a0 a1 a2 a3 => Sys2Proof.Machine.execSt a0 a1 a2 a3 s
  | .vld a0 a1 a2 => Sys2Proof.Machine.execVld a0 a1 a2 s
  | .vst a0 a1 a2 => Sys2Proof.Machine.execVst a0 a1 a2 s
  | .vldx a0 a1 a2 a3 a4 => Sys2Proof.Machine.execVldx a0 a1 a2 a3 a4 s
  | .vstx a0 a1 a2 a3 a4 => Sys2Proof.Machine.execVstx a0 a1 a2 a3 a4 s
  | .gld a0 a1 a2 a3 a4 a5 => Sys2Proof.Machine.execGld a0 a1 a2 a3 a4 a5 s
  | .gst a0 a1 a2 a3 a4 a5 => Sys2Proof.Machine.execGst a0 a1 a2 a3 a4 a5 s
  | .gstNt a0 a1 a2 a3 a4 => Sys2Proof.Machine.execGstNt a0 a1 a2 a3 a4 s
  | .gvld a0 a1 a2 a3 a4 => Sys2Proof.Machine.execGvld a0 a1 a2 a3 a4 s
  | .gvst a0 a1 a2 a3 a4 => Sys2Proof.Machine.execGvst a0 a1 a2 a3 a4 s
  | .gvstNt a0 a1 a2 a3 => Sys2Proof.Machine.execGvstNt a0 a1 a2 a3 s
  | .gaAdd a0 a1 a2 a3 a4 => Sys2Proof.Machine.execGaAdd a0 a1 a2 a3 a4 s
  | .gaMin a0 a1 a2 a3 a4 => Sys2Proof.Machine.execGaMin a0 a1 a2 a3 a4 s
  | .gaMax a0 a1 a2 a3 a4 => Sys2Proof.Machine.execGaMax a0 a1 a2 a3 a4 s
  | .gaMinu a0 a1 a2 a3 a4 => Sys2Proof.Machine.execGaMinu a0 a1 a2 a3 a4 s
  | .gaMaxu a0 a1 a2 a3 a4 => Sys2Proof.Machine.execGaMaxu a0 a1 a2 a3 a4 s
  | .gaAnd a0 a1 a2 a3 a4 => Sys2Proof.Machine.execGaAnd a0 a1 a2 a3 a4 s
  | .gaOr a0 a1 a2 a3 a4 => Sys2Proof.Machine.execGaOr a0 a1 a2 a3 a4 s
  | .gaXor a0 a1 a2 a3 a4 => Sys2Proof.Machine.execGaXor a0 a1 a2 a3 a4 s
  | .gaSwap a0 a1 a2 a3 a4 => Sys2Proof.Machine.execGaSwap a0 a1 a2 a3 a4 s
  | .gaCas a0 a1 a2 a3 a4 => Sys2Proof.Machine.execGaCas a0 a1 a2 a3 a4 s
  | .lcall a0 a1 a2 a3 a4 a5 => Sys2Proof.Machine.execLcall a0 a1 a2 a3 a4 a5 s
  | .xbegin a0 => Sys2Proof.Machine.execXbegin a0 s
  | .xabort a0 => Sys2Proof.Machine.execXabort a0 s
  | .xtest a0 => Sys2Proof.Machine.execXtest a0 s
  | .xredAdd a0 a1 a2 => Sys2Proof.Machine.execXredAdd a0 a1 a2 s
  | .xredMin a0 a1 a2 => Sys2Proof.Machine.execXredMin a0 a1 a2 s
  | .xredMax a0 a1 a2 => Sys2Proof.Machine.execXredMax a0 a1 a2 s
  | .xredOr a0 a1 a2 => Sys2Proof.Machine.execXredOr a0 a1 a2 s
  | .qpop a0 a1 => Sys2Proof.Machine.execQpop a0 a1 s
  | .qtrypop a0 a1 a2 => Sys2Proof.Machine.execQtrypop a0 a1 a2 s
  | .qpeek a0 a1 a2 => Sys2Proof.Machine.execQpeek a0 a1 a2 s
  | .qpush a0 a1 => Sys2Proof.Machine.execQpush a0 a1 s
  | .qtrypush a0 a1 a2 => Sys2Proof.Machine.execQtrypush a0 a1 a2 s
  | .barArriveA a0 => Sys2Proof.Machine.execBarArriveA a0 s
  | .barWaitA a0 => Sys2Proof.Machine.execBarWaitA a0 s
  | .taskTrypopA a0 => Sys2Proof.Machine.execTaskTrypopA a0 s
  | .taskPushA a0 => Sys2Proof.Machine.execTaskPushA a0 s
  | .vext a0 a1 a2 a3 => Sys2Proof.Machine.execVext a0 a1 a2 a3 s
  | .fenceSyA a0 => Sys2Proof.Machine.execFenceSyA a0 s
  | .rdtime a0 => Sys2Proof.Machine.execRdtime a0 s
  | .rdcsr a0 a1 => Sys2Proof.Machine.execRdcsr a0 a1 s
  | .wrcsr a0 a1 => Sys2Proof.Machine.execWrcsr a0 a1 s
  | .trap a0 => Sys2Proof.Machine.execTrap a0 s
  -- V-slot (Table 5.13)
  | .vaddF a0 a1 a2 => Sys2Proof.Machine.execVaddF a0 a1 a2 s
  | .vsubF a0 a1 a2 => Sys2Proof.Machine.execVsubF a0 a1 a2 s
  | .vmulF a0 a1 a2 => Sys2Proof.Machine.execVmulF a0 a1 a2 s
  | .vminF a0 a1 => Sys2Proof.Machine.execVminF a0 a1 s
  | .vmaxF a0 a1 => Sys2Proof.Machine.execVmaxF a0 a1 s
  | .vabsF a0 a1 => Sys2Proof.Machine.execVabsF a0 a1 s
  | .vnegF a0 a1 => Sys2Proof.Machine.execVnegF a0 a1 s
  | .vfma a0 a1 a2 => Sys2Proof.Machine.execVfma a0 a1 a2 s
  | .vfms a0 a1 a2 => Sys2Proof.Machine.execVfms a0 a1 a2 s
  | .vfnma a0 a1 a2 => Sys2Proof.Machine.execVfnma a0 a1 a2 s
  | .vfnms a0 a1 a2 => Sys2Proof.Machine.execVfnms a0 a1 a2 s
  | .vrecip a0 a1 a2 => Sys2Proof.Machine.execVrecip a0 a1 a2 s
  | .vrsqrt a0 a1 a2 => Sys2Proof.Machine.execVrsqrt a0 a1 a2 s
  | .vsqrt a0 a1 a2 => Sys2Proof.Machine.execVsqrt a0 a1 a2 s
  | .vexp2 a0 a1 a2 => Sys2Proof.Machine.execVexp2 a0 a1 a2 s
  | .vlog2 a0 a1 a2 => Sys2Proof.Machine.execVlog2 a0 a1 a2 s
  | .vcmpF a0 a1 a2 a3 a4 a5 => Sys2Proof.Machine.execVcmpF a0 a1 a2 a3 a4 a5 s
  | .vaddI a0 a1 a2 => Sys2Proof.Machine.execVaddI a0 a1 a2 s
  | .vsubI a0 a1 a2 => Sys2Proof.Machine.execVsubI a0 a1 a2 s
  | .vmulI a0 a1 => Sys2Proof.Machine.execVmulI a0 a1 s
  | .vmulh a0 a1 => Sys2Proof.Machine.execVmulh a0 a1 s
  | .vminI a0 a1 => Sys2Proof.Machine.execVminI a0 a1 s
  | .vmaxI a0 a1 => Sys2Proof.Machine.execVmaxI a0 a1 s
  | .vabsI a0 a1 => Sys2Proof.Machine.execVabsI a0 a1 s
  | .vnegI a0 a1 => Sys2Proof.Machine.execVnegI a0 a1 s
  | .vand a0 a1 => Sys2Proof.Machine.execVand a0 a1 s
  | .vor a0 a1 => Sys2Proof.Machine.execVor a0 a1 s
  | .vxor a0 a1 => Sys2Proof.Machine.execVxor a0 a1 s
  | .vandn a0 a1 => Sys2Proof.Machine.execVandn a0 a1 s
  | .vsll a0 a1 a2 => Sys2Proof.Machine.execVsll a0 a1 a2 s
  | .vsrl a0 a1 a2 => Sys2Proof.Machine.execVsrl a0 a1 a2 s
  | .vsra a0 a1 a2 => Sys2Proof.Machine.execVsra a0 a1 a2 s
  | .vcmpI a0 a1 a2 a3 a4 a5 => Sys2Proof.Machine.execVcmpI a0 a1 a2 a3 a4 a5 s
  | .vmand a0 a1 a2 => Sys2Proof.Machine.execVmand a0 a1 a2 s
  | .vmor a0 a1 a2 => Sys2Proof.Machine.execVmor a0 a1 a2 s
  | .vmxor a0 a1 a2 => Sys2Proof.Machine.execVmxor a0 a1 a2 s
  | .vmandn a0 a1 a2 => Sys2Proof.Machine.execVmandn a0 a1 a2 s
  | .vmnot a0 a1 => Sys2Proof.Machine.execVmnot a0 a1 s
  | .vmmov a0 a1 => Sys2Proof.Machine.execVmmov a0 a1 s
  | .vcvt a0 a1 a2 a3 => Sys2Proof.Machine.execVcvt a0 a1 a2 a3 s
  | .vmxq a0 a1 a2 => Sys2Proof.Machine.execVmxq a0 a1 a2 s
  | .vmxdq a0 a1 => Sys2Proof.Machine.execVmxdq a0 a1 s
  | .vperm a0 a1 => Sys2Proof.Machine.execVperm a0 a1 s
  | .vslideUp a0 a1 a2 => Sys2Proof.Machine.execVslideUp a0 a1 a2 s
  | .vslideDn a0 a1 a2 => Sys2Proof.Machine.execVslideDn a0 a1 a2 s
  | .vsel a0 a1 => Sys2Proof.Machine.execVsel a0 a1 s
  | .vbcast a0 a1 a2 a3 => Sys2Proof.Machine.execVbcast a0 a1 a2 a3 s
  | .vmov a0 a1 => Sys2Proof.Machine.execVmov a0 a1 s
  | .vget a0 a1 a2 => Sys2Proof.Machine.execVget a0 a1 a2 s
  | .vredsumF a0 a1 a2 => Sys2Proof.Machine.execVredsumF a0 a1 a2 s
  | .vredmaxF a0 a1 a2 => Sys2Proof.Machine.execVredmaxF a0 a1 a2 s
  | .vredminF a0 a1 a2 => Sys2Proof.Machine.execVredminF a0 a1 a2 s
  | .vredsumI a0 a1 => Sys2Proof.Machine.execVredsumI a0 a1 s
  | .vredmaxI a0 a1 => Sys2Proof.Machine.execVredmaxI a0 a1 s
  | .vredminI a0 a1 => Sys2Proof.Machine.execVredminI a0 a1 s
  | .vmrg a0 => Sys2Proof.Machine.execVmrg a0 s
  -- near-data (Table 5.19)
  | .nadd a0 a1 a2 => Sys2Proof.Machine.execNadd a0 a1 a2 s
  | .nsub a0 a1 a2 => Sys2Proof.Machine.execNsub a0 a1 a2 s
  | .nand a0 a1 a2 => Sys2Proof.Machine.execNand a0 a1 a2 s
  | .nor a0 a1 a2 => Sys2Proof.Machine.execNor a0 a1 a2 s
  | .nxor a0 a1 a2 => Sys2Proof.Machine.execNxor a0 a1 a2 s
  | .nsll a0 a1 a2 => Sys2Proof.Machine.execNsll a0 a1 a2 s
  | .nsrl a0 a1 a2 => Sys2Proof.Machine.execNsrl a0 a1 a2 s
  | .nsra a0 a1 a2 => Sys2Proof.Machine.execNsra a0 a1 a2 s
  | .naddi a0 a1 a2 => Sys2Proof.Machine.execNaddi a0 a1 a2 s
  | .nmin a0 a1 a2 => Sys2Proof.Machine.execNmin a0 a1 a2 s
  | .nmax a0 a1 a2 => Sys2Proof.Machine.execNmax a0 a1 a2 s
  | .nminu a0 a1 a2 => Sys2Proof.Machine.execNminu a0 a1 a2 s
  | .nmaxu a0 a1 a2 => Sys2Proof.Machine.execNmaxu a0 a1 a2 s
  | .nfadd a0 a1 a2 => Sys2Proof.Machine.execNfadd a0 a1 a2 s
  | .nfmin a0 a1 a2 => Sys2Proof.Machine.execNfmin a0 a1 a2 s
  | .nfmax a0 a1 a2 => Sys2Proof.Machine.execNfmax a0 a1 a2 s
  | .ncmp a0 a1 a2 a3 => Sys2Proof.Machine.execNcmp a0 a1 a2 a3 s
  | .nsel a0 a1 a2 => Sys2Proof.Machine.execNsel a0 a1 a2 s
  | .nrdw a0 a1 => Sys2Proof.Machine.execNrdw a0 a1 s
  | .nwrw a0 a1 => Sys2Proof.Machine.execNwrw a0 a1 s
  | .nrdk a0 a1 => Sys2Proof.Machine.execNrdk a0 a1 s
  | .nret a0 a1 a2 => Sys2Proof.Machine.execNret a0 a1 a2 s
  | .nfetch a0 => Sys2Proof.Machine.execNfetch a0 s
  | .nfetchRt a0 => Sys2Proof.Machine.execNfetchRt a0 s
  | .npush a0 a1 a2 => Sys2Proof.Machine.execNpush a0 a1 a2 s
  | .ndig a0 a1 => Sys2Proof.Machine.execNdig a0 a1 s
  | .nloop a0 a1 => Sys2Proof.Machine.execNloop a0 a1 s
  | .nbr a0 a1 => Sys2Proof.Machine.execNbr a0 a1 s
  | .nfault a0 => Sys2Proof.Machine.execNfault a0 s
  -- tile commands (Table 5.16), run by the engine for the job of State.cur
  | .mma a0 => Sys2Proof.Machine.execMma a0 s
  | .mmaMx a0 => Sys2Proof.Machine.execMmaMx a0 s
  | .mmaBm a0 => Sys2Proof.Machine.execMmaBm a0 s
  | .mmaGa a0 => Sys2Proof.Machine.execMmaGa a0 s
  | .accZero a0 => Sys2Proof.Machine.execAccZero a0 s
  | .accLoad a0 => Sys2Proof.Machine.execAccLoad a0 s
  | .accStore a0 => Sys2Proof.Machine.execAccStore a0 s
  | .topkBlk a0 => Sys2Proof.Machine.execTopkBlk a0 s
  | .copy a0 => Sys2Proof.Machine.execCopy a0 s
  | .copyRows a0 => Sys2Proof.Machine.execCopyRows a0 s
  | .scatRows a0 => Sys2Proof.Machine.execScatRows a0 s
  | .copyPeer a0 => Sys2Proof.Machine.execCopyPeer a0 s
  | .bmPack a0 => Sys2Proof.Machine.execBmPack a0 s
  | .bmUnpack a0 => Sys2Proof.Machine.execBmUnpack a0 s
  | .fill a0 => Sys2Proof.Machine.execFill a0 s
  | .signal a0 => Sys2Proof.Machine.execSignal a0 s
  | .hash a0 => Sys2Proof.Machine.execHash a0 s
  | .collScale a0 => Sys2Proof.Machine.execCollScale a0 s
  | .collRs a0 => Sys2Proof.Machine.execCollRs a0 s
  | .collAg a0 => Sys2Proof.Machine.execCollAg a0 s
  -- rows whose encoding has no operand the device reads
  | .rvFence => Sys2Proof.Machine.execRvFence s
  | .rvFenceI => Sys2Proof.Machine.execRvFenceI s
  | .rvWfi => Sys2Proof.Machine.execRvWfi s
  | .rvMret => Sys2Proof.Machine.execRvMret s
  | .nop => Sys2Proof.Machine.execNop s
  | .xend => Sys2Proof.Machine.execXend s
  | .taskPopA => Sys2Proof.Machine.execTaskPopA s
  | .taskDoneA => Sys2Proof.Machine.execTaskDoneA s
  | .fenceClA => Sys2Proof.Machine.execFenceClA s
  | .fenceDvA => Sys2Proof.Machine.execFenceDvA s
  | .vnop => Sys2Proof.Machine.execVnop s
  | .nstop => Sys2Proof.Machine.execNstop s
  -- steps of jobs
  | .sendArrival => Sys2Proof.Machine.execSendArrival s
  | .gangArbiterEntry => Sys2Proof.Machine.execGangArbiterEntry s
  | .gangMemberReport => Sys2Proof.Machine.execGangMemberReport s
  | .jobTerminal => Sys2Proof.Machine.execJobTerminal s
  | .jobRecordUpdate => Sys2Proof.Machine.execJobRecordUpdate s
  | .logExtend => Sys2Proof.Machine.execLogExtend s
  -- steps of slices, RDCs and the MMP
  | .sliceAccess => Sys2Proof.Machine.execSliceAccess s
  | .dramFill => Sys2Proof.Machine.execDramFill s
  | .globalReply => Sys2Proof.Machine.execGlobalReply s
  | .relaxedLateFault => Sys2Proof.Machine.execRelaxedLateFault s
  | .remoteLsAccess => Sys2Proof.Machine.execRemoteLsAccess s
  | .translationChange => Sys2Proof.Machine.execTranslationChange s
  | .invalidateBroadcast => Sys2Proof.Machine.execInvalidateBroadcast s
  | .migratePage => Sys2Proof.Machine.execMigratePage s
  | .clockSweep => Sys2Proof.Machine.execClockSweep s
  | .pageFaultService => Sys2Proof.Machine.execPageFaultService s
  | .routineSlotLoad => Sys2Proof.Machine.execRoutineSlotLoad s
  | .routineRun => Sys2Proof.Machine.execRoutineRun s
  | .gets => Sys2Proof.Machine.execGets s
  | .getm => Sys2Proof.Machine.execGetm s
  | .wback => Sys2Proof.Machine.execWback s
  | .rdcEvictClean => Sys2Proof.Machine.execRdcEvictClean s
  | .recallRequest => Sys2Proof.Machine.execRecallRequest s
  | .invalidationRequest => Sys2Proof.Machine.execInvalidationRequest s
  | .mirrorUpdate => Sys2Proof.Machine.execMirrorUpdate s
  | .ownerUnresponsive => Sys2Proof.Machine.execOwnerUnresponsive s
  -- transactions
  | .txRequest => Sys2Proof.Machine.execTxRequest s
  | .txAbortArrival => Sys2Proof.Machine.execTxAbortArrival s
  | .txCommitMessage => Sys2Proof.Machine.execTxCommitMessage s
  -- contexts
  | .blockCopy => Sys2Proof.Machine.execBlockCopy s
  | .bcastDelivery => Sys2Proof.Machine.execBcastDelivery s
  | .heldRequestApply => Sys2Proof.Machine.execHeldRequestApply s
  | .lightHandlerEntry => Sys2Proof.Machine.execLightHandlerEntry s
  | .evictSave => Sys2Proof.Machine.execEvictSave s
  | .admitLoad => Sys2Proof.Machine.execAdmitLoad s
  -- barriers, queues, mailbox, tasks
  | .barrierRelease => Sys2Proof.Machine.execBarrierRelease s
  | .groupArrival => Sys2Proof.Machine.execGroupArrival s
  | .groupRelease => Sys2Proof.Machine.execGroupRelease s
  | .queueDelivery => Sys2Proof.Machine.execQueueDelivery s
  | .mbxAccept => Sys2Proof.Machine.execMbxAccept s
  | .mbxResend => Sys2Proof.Machine.execMbxResend s
  | .taskRetire => Sys2Proof.Machine.execTaskRetire s
  | .taskPushRetry => Sys2Proof.Machine.execTaskPushRetry s
  | .stealTry => Sys2Proof.Machine.execStealTry s
  | .stealReply => Sys2Proof.Machine.execStealReply s
  | .stealPassRetry => Sys2Proof.Machine.execStealPassRetry s
  | .timerMatch => Sys2Proof.Machine.execTimerMatch s
  -- gather units
  | .gatherReadIssue => Sys2Proof.Machine.execGatherReadIssue s
  | .gatherTrigger => Sys2Proof.Machine.execGatherTrigger s
  | .gatherRun => Sys2Proof.Machine.execGatherRun s
  | .gatherFetchFault => Sys2Proof.Machine.execGatherFetchFault s
  | .gatherDrain => Sys2Proof.Machine.execGatherDrain s
  -- launches
  | .lqdbWrite => Sys2Proof.Machine.execLqdbWrite s
  | .launchDoorbell => Sys2Proof.Machine.execLaunchDoorbell s
  | .launchStart => Sys2Proof.Machine.execLaunchStart s
  | .launchRestore => Sys2Proof.Machine.execLaunchRestore s
  | .launchEnd => Sys2Proof.Machine.execLaunchEnd s
  -- containment and twinned cores
  | .snuffRun => Sys2Proof.Machine.execSnuffRun s
  | .snuffNotification => Sys2Proof.Machine.execSnuffNotification s
  | .pairCheckpoint => Sys2Proof.Machine.execPairCheckpoint s
  -- fabric and collectives
  | .fabricSession => Sys2Proof.Machine.execFabricSession s
  | .linkRetrain => Sys2Proof.Machine.execLinkRetrain s
  | .fabricPacketReceive => Sys2Proof.Machine.execFabricPacketReceive s
  | .fabricAck => Sys2Proof.Machine.execFabricAck s
  | .fabricRetransmit => Sys2Proof.Machine.execFabricRetransmit s
  | .linkDown => Sys2Proof.Machine.execLinkDown s
  | .allowanceGrant => Sys2Proof.Machine.execAllowanceGrant s
  | .ringStep => Sys2Proof.Machine.execRingStep s
  -- host and management
  | .hostBar2Read => Sys2Proof.Machine.execHostBar2Read s
  | .hostBar2Write => Sys2Proof.Machine.execHostBar2Write s
  | .hostReadTimeout => Sys2Proof.Machine.execHostReadTimeout s
  | .hbreqRead => Sys2Proof.Machine.execHbreqRead s
  | .hbreqTimeout => Sys2Proof.Machine.execHbreqTimeout s
  | .igncntRead => Sys2Proof.Machine.execIgncntRead s
  | .cecntRead => Sys2Proof.Machine.execCecntRead s
  | .uecntRead => Sys2Proof.Machine.execUecntRead s
  | .asnew => Sys2Proof.Machine.execAsnew s
  | .asfree => Sys2Proof.Machine.execAsfree s
  | .map => Sys2Proof.Machine.execMap s
  | .load => Sys2Proof.Machine.execLoad s
  | .sealRange => Sys2Proof.Machine.execSealRange s
  | .mapwin => Sys2Proof.Machine.execMapwin s
  | .exportRegion => Sys2Proof.Machine.execExportRegion s
  | .peer => Sys2Proof.Machine.execPeer s
  | .ring => Sys2Proof.Machine.execRing s
  | .rect => Sys2Proof.Machine.execRect s
  | .snuff => Sys2Proof.Machine.execSnuff s
  | .attest => Sys2Proof.Machine.execAttest s
  | .admitDebug => Sys2Proof.Machine.execAdmitDebug s
  | .freeze => Sys2Proof.Machine.execFreeze s
  | .thaw => Sys2Proof.Machine.execThaw s
  | .dump => Sys2Proof.Machine.execDump s
  | .trig => Sys2Proof.Machine.execTrig s
  | .powcap => Sys2Proof.Machine.execPowcap s
  | .logread => Sys2Proof.Machine.execLogread s
  | .glim => Sys2Proof.Machine.execGlim s
  | .traceSet => Sys2Proof.Machine.execTraceSet s
  | .lcmap => Sys2Proof.Machine.execLcmap s
  | .hbfill => Sys2Proof.Machine.execHbfill s
  | .mgmtRegWrite => Sys2Proof.Machine.execMgmtRegWrite s
  -- observation, power, start-up
  | .deviceFreeze => Sys2Proof.Machine.execDeviceFreeze s
  | .glimPulse => Sys2Proof.Machine.execGlimPulse s
  | .powerWindowEnd => Sys2Proof.Machine.execPowerWindowEnd s
  | .powerGood => Sys2Proof.Machine.execPowerGood s
  | .cDieAnnounce => Sys2Proof.Machine.execCDieAnnounce s
  | .stageCComplete => Sys2Proof.Machine.execStageCComplete s
  | .stageAComplete => Sys2Proof.Machine.execStageAComplete s
  | .softError => Sys2Proof.Machine.execSoftError s
  | .powerRemoved => Sys2Proof.Machine.execPowerRemoved s

end Sys2Proof.Machine
end

