-- ==== Sys2Proof/Machine/Run.lean ====
section
/-!
DEFINITION. How the machine runs (log 4): in each cycle of TIME the agents act in ascending core — control thread, contexts,
gather unit — and then the routine runs; after them the steps of the agenda that are due. `Step` calls `runStep`.
-/
namespace Sys2Proof.Machine

/-! ### Steps of the agenda -/

/-- The row of a step of the agenda; a job's is that of its command. -/
def evRow (s : State) : Ev → Option Instr
  | .jobRun j => (s.job j).bind (fun x => tileOfOp x.cmd x.op)
  | .sendArrival .. => some .sendArrival
  | .gangArbiterEntry .. => some .gangArbiterEntry
  | .gangMemberReport .. => some .gangMemberReport
  | .jobTerminal .. => some .jobTerminal
  | .jobRecordUpdate .. => some .jobRecordUpdate
  | .logExtend .. => some .logExtend
  | .sliceAccess .. => some .sliceAccess
  | .dramFill .. => some .dramFill
  | .globalReply .. => some .globalReply
  | .relaxedLateFault .. => some .relaxedLateFault
  | .remoteLsAccess .. => some .remoteLsAccess
  | .translationChange .. => some .translationChange
  | .invalidateBroadcast .. => some .invalidateBroadcast
  | .migratePage .. => some .migratePage
  | .clockSweep .. => some .clockSweep
  | .pageFaultService .. => some .pageFaultService
  | .routineSlotLoad .. => some .routineSlotLoad
  | .routineRun .. => some .routineRun
  | .gets .. => some .gets
  | .getm .. => some .getm
  | .wback .. => some .wback
  | .rdcEvictClean .. => some .rdcEvictClean
  | .recallRequest .. => some .recallRequest
  | .invalidationRequest .. => some .invalidationRequest
  | .mirrorUpdate .. => some .mirrorUpdate
  | .ownerUnresponsive .. => some .ownerUnresponsive
  | .txRequest .. => some .txRequest
  | .txAbortArrival .. => some .txAbortArrival
  | .txCommitMessage .. => some .txCommitMessage
  | .blockCopy => some .blockCopy
  | .bcastDelivery .. => some .bcastDelivery
  | .heldRequestApply .. => some .heldRequestApply
  | .lightHandlerEntry .. => some .lightHandlerEntry
  | .evictSave .. => some .evictSave
  | .admitLoad .. => some .admitLoad
  | .barrierRelease .. => some .barrierRelease
  | .groupArrival .. => some .groupArrival
  | .groupRelease .. => some .groupRelease
  | .queueDelivery .. => some .queueDelivery
  | .mbxAccept .. => some .mbxAccept
  | .mbxResend .. => some .mbxResend
  | .taskRetire .. => some .taskRetire
  | .taskPushRetry .. => some .taskPushRetry
  | .stealTry .. => some .stealTry
  | .stealReply .. => some .stealReply
  | .stealPassRetry .. => some .stealPassRetry
  | .timerMatch .. => some .timerMatch
  | .gatherReadIssue .. => some .gatherReadIssue
  | .gatherTrigger .. => some .gatherTrigger
  | .gatherRun .. => some .gatherRun
  | .gatherFetchFault .. => some .gatherFetchFault
  | .gatherDrain .. => some .gatherDrain
  | .lqdbWrite .. => some .lqdbWrite
  | .launchDoorbell .. => some .launchDoorbell
  | .launchStart .. => some .launchStart
  | .launchRestore .. => some .launchRestore
  | .launchEnd .. => some .launchEnd
  | .snuffRun .. => some .snuffRun
  | .snuffNotification .. => some .snuffNotification
  | .pairCheckpoint .. => some .pairCheckpoint
  | .fabricSession .. => some .fabricSession
  | .linkRetrain .. => some .linkRetrain
  | .fabricPacketReceive .. | .fabricPacketOpened .. => some .fabricPacketReceive
  | .fabricAck .. => some .fabricAck
  | .fabricRetransmit .. => some .fabricRetransmit
  | .linkDown .. => some .linkDown
  | .allowanceGrant .. => some .allowanceGrant
  | .ringStep .. => some .ringStep
  | .hostBar2Read .. => some .hostBar2Read
  | .hostBar2Write .. => some .hostBar2Write
  | .hostReadTimeout .. => some .hostReadTimeout
  | .hbreqRead => some .hbreqRead
  | .hbreqTimeout .. => some .hbreqTimeout
  | .igncntRead => some .igncntRead
  | .cecntRead .. => some .cecntRead
  | .uecntRead .. => some .uecntRead
  | .asnew => some .asnew
  | .asfree => some .asfree
  | .map => some .map
  | .load => some .load
  | .sealRange => some .sealRange
  | .mapwin => some .mapwin
  | .exportRegion => some .exportRegion
  | .peer => some .peer
  | .ring => some .ring
  | .rect => some .rect
  | .snuff => some .snuff
  | .attest => some .attest
  | .admitDebug => some .admitDebug
  | .freeze => some .freeze
  | .thaw => some .thaw
  | .dump => some .dump
  | .trig => some .trig
  | .powcap => some .powcap
  | .logread => some .logread
  | .glim => some .glim
  | .traceSet => some .traceSet
  | .lcmap => some .lcmap
  | .hbfill => some .hbfill
  | .mgmtRegWrite .. => some .mgmtRegWrite
  | .deviceFreeze => some .deviceFreeze
  | .glimPulse => some .glimPulse
  | .powerWindowEnd .. => some .powerWindowEnd
  | .powerGood => some .powerGood
  | .cDieAnnounce .. => some .cDieAnnounce
  | .stageCComplete => some .stageCComplete
  | .stageAComplete => some .stageAComplete
  | .softError .. => some .softError
  | .powerRemoved => some .powerRemoved

/-- Whose step a step of the agenda is. -/
def evCur (e : Ev) : Cur :=
  { Cur.none with ev := e, job := match e with | .jobRun j => j | _ => 0 }

/-- Waits of a bundle that has issued. -/
def CWait.issued : CWait → Bool
  | .reply _ | .fence .. | .release .. | .xbegin _ | .commit => true
  | _ => false

/-- Whether a bundle calls for a checkpoint of its pair directly after it (R289, R331). -/
def endsInterval (ir : Word) : Bool :=
  match decodeBundle ir with
  | some (.xend, _) => true
  | some (a, _) => noUndo a
  | none => false

/-- Bundles of a context of a coupled core that a step has ended retire (R330). -/
def settleCx (before after : State) (i c : Nat) : State :=
  let x := before.cx i c
  let y := after.cx i c
  let woke := x.st = .waitMem && x.wait.issued && (y.st = .run || y.st = .stopped) && y.wait = .none && !y.quash
  if !woke then after else
  let s1 := pairRetire after i c
  if (s1.core i).pair.odd && endsInterval x.ir && y.txn.isNone then callCheckpoint s1 i else s1
/-- Coupled cores after a step of the agenda: retirements, and faults of one twin alone (R333). -/
def settlePairs (before after : State) : State :=
  (after.cores.filter (fun (e : Nat × Core) => e.2.pair.on)).foldl (fun (s : State) (e : Nat × Core) =>
    (List.range (modeN e.2.mode)).foldl (fun (s : State) (c : Nat) =>
      pairDesync (settleCx before s e.1 c) e.1 c) (pairLeave s e.1)) after

/-- Takes a step of the agenda. -/
def runEv (e : Ev) (s : State) : Out :=
  let s0 : State := { s with cur := evCur e }
  match evRow s e with
  | none => ok s0
  | some i =>
    match exec i s0 with
    | .next s1 => ok (match e with | .pairCheckpoint _ => s1 | _ => settlePairs s0 s1)
    | r => r

/-- The first step of the agenda that is due and that a frozen device takes, if it is frozen (R361). -/
def State.due (s : State) : Option (Nat × Ev) :=
  (s.agenda.takeWhile (fun e => decide (e.1 ≤ s.time))).find? (fun e => !s.obs.frozen || evWhileFrozen e.2)

/-! ### The control thread (R29, R30, R107) -/

/-- Executes the word the thread holds. -/
def ctExec (s : State) : Out :=
  let s1 := s.modMyCt (fun t => { t with wait := .none })
  match decodeCt s1.myCore.ct.ir with
  | some i => ctUses s1 ((ctSources s1.myCore.ct.ir).any s1.myCore.ct.xBad.contains) (exec i)
  | none => illegal s1

/-- Fetches at pc: at or above XBOUND cause 1, so too where an uncorrectable word would trap (log 8); a pc that is no multiple
of 4 cause 0. -/
def ctFetch (s : State) : Out :=
  let k := s.myCore
  let a := k.ct.pc.toNat
  if a % 4 ≠ 0 then trap s 0 k.ct.pc
  else if a ≥ k.bound || s.lsTraps s.cur.core a 4 then trap s 1 k.ct.pc
  else
    let s1 := if s.lsSnuffs s.cur.core a 4 then s.snuffCore s.cur.core else s
    ctExec (s1.modMyCt (fun t => { t with ir := BitVec.ofNat 32 (s1.lsVal s1.cur.core a 4) }))

/-- One cycle of a control thread. -/
def runCt (i : Nat) (s : State) : Out :=
  let s0 : State := { s with cur := { Cur.none with core := i } }
  let t := s0.myCore.ct
  if !t.started || t.finished || t.halted then ok s0 else
  match t.wait with
  | .none => ctFetch s0
  | .retry | .push _ => ctExec s0
  | .until d rd v => ok (if s0.time < d then s0 else ctFinish s0 i rd v)
  | _ => ok s0

/-! ### Triggers and the trace (R303, R360–R362) -/

/-- Global address of an A-slot access. -/
def globalVa (s : State) : Instr → Option (Word × Nat)
  | .gld k _ _ _ a imm => some (gAddr s a imm k.size, k.size)
  | .gst k _ _ _ a imm | .gstNt k _ _ a imm => some (gAddr s a imm k.size, k.size)
  | .gvld _ _ _ a imm | .gvst _ _ _ a imm | .gvstNt _ _ a imm => some (gAddr s a imm 64, s.groupBytes)
  | .gaAdd w _ _ a _ | .gaMin w _ _ a _ | .gaMax w _ _ a _ | .gaMinu w _ _ a _ | .gaMaxu w _ _ a _ | .gaAnd w _ _ a _
  | .gaOr w _ _ a _ | .gaXor w _ _ a _ | .gaSwap w _ _ a _ | .gaCas w _ _ a _ => some (s.aS a, if w then 8 else 4)
  | .lcall _ a _ _ _ _ => some (s.aS a, 64)
  | .xredAdd t a _ | .xredMin t a _ | .xredMax t a _ | .xredOr t a _ => some (s.aS a, XTy.bytes t)
  | _ => none

/-- Numbers of the triggers that match this bundle with an action; `va` none asks the instruction triggers, else the data
triggers. The trigger that latched a resumed bundle does not match it again. -/
def trigHits (s : State) (va : Option Nat) (act : Nat) : List Nat :=
  let x := s.me
  (List.range 16).filter (fun n =>
    let w := (s.myCore.trig n).toNat
    bitsOf w 59 57 = act && bitOf (bitsOf w 55 40) s.cur.ctx
      && (match va with
          | none => !bitOf w 56 && bitsOf w 39 0 = x.irPc.toNat / 8
          | some a => bitOf w 56 && bitsOf w 39 0 = a / 256 % 2 ^ 40)
      && !(x.noTrig && n = x.cause.detail.toNat % 16))
/-- Triggers of either kind. -/
def trigAll (s : State) (va : Option Nat) (act : Nat) : List Nat :=
  trigHits s none act ++ (match va with | some a => trigHits s (some a) act | none => [])

/-- A break: BREAK or WATCH at issue, with the granule concerned; inside a transaction it aborts and the context is STOPPED at the
abort target. -/
def breakAt (s : State) (cause n gran : Nat) : State :=
  let s1 := aFaultAt s cause (BitVec.ofNat 40 n) gran
  if s.me.txn.isSome then s1.stopCx s.cur.core s.cur.ctx else s1

/-- The trace record of the bundle just issued (R362): where it has neither an A-slot result nor a global address the last six
bytes are free (log 9). -/
def traceRecord (s : State) (va : Option Nat) : State × List Byte :=
  let x := s.me
  let head := leBytes 6 s.time ++ leBytes 2 (s.cur.core % 2048 + s.cur.ctx * 2048) ++ leBytes 2 (x.irPc.toNat / 8)
  match va, x.aRes with
  | some a, _ => (s, head ++ leBytes 6 a)
  | none, some v => (s, head ++ leBytes 6 v.toNat)
  | none, none => (s.freshen, head ++ leBytes 6 s.free.toNat)
/-- Appends a record to the TRACE buffer; a full buffer drops it. -/
def putTrace (s : State) (va : Option Nat) : State :=
  let (s1, r) := traceRecord s va
  if s1.obs.traceNext + 16 > s1.obs.traceSize then s1 else
  let s2 := agentWrite s1 (s1.obs.traceBase + s1.obs.traceNext) r
  { s2 with obs := { s2.obs with traceNext := s2.obs.traceNext + 16 } }

/-- The trace channel sees the bundle just issued; `starts` and `stop` are its matches. -/
def traceBundle (s : State) (va : Option Nat) (starts : List Nat) (stop : Bool) : State :=
  let set := fun (s : State) (t : Option (BitVec 16)) => s.modCore s.cur.core (fun k => { k with trace := t })
  match s.myCore.trace with
  | none =>
    (match starts with
    | [] => s
    | n :: _ =>
      let s1 := putTrace s va
      if stop then s1 else set s1 (some (BitVec.ofNat 16 (bitsOf (s.myCore.trig n).toNat 55 40))))
  | some m =>
    let s1 := if bitOf m.toNat s.cur.ctx then putTrace s va else s
    if stop then set s1 none else s1

/-- Every other action of the triggers that match the bundle just issued. -/
def trigActs (s : State) (va : Option Nat) : State :=
  let s1 := if trigAll s va 2 = [] then s else s.modMe (fun x => { x with stopReq := true })
  let s2 := if trigAll s va 3 = [] || s1.obs.frozen || s1.obs.freezeAt.isSome then s1 else
    State.after { s1 with obs := { s1.obs with freezeAt := some (s1.time + 64) } } 64 .deviceFreeze
  (traceBundle s2 va (trigAll s va 4) (trigAll s va 5 ≠ [])).modMe (fun x => { x with noTrig := false })

/-! ### Issue (R35, R38, R43, R138) -/

/-- The context as it issues bundle `w` from `pc`, with the vector file `v` and group size `g`. A bundle taken up again after a
wait keeps the operands of its issue (R35) and what it waited for. -/
def Ctx.issue (x : Ctx) (w : Word) (pc : BitVec 17) (v : List (Nat × Line)) (g now : Nat) : Ctx :=
  { x with
    st := .run
    wait := if x.waiting then x.wait else .none
    ir := w, irPc := pc
    pc := if x.reissue || x.copy then x.pc else pc + 8
    snap := if x.waiting then x.snap else { s := x.s, m := x.m, v := v, flags := x.flags, rmode := x.rmode, seed := x.seed }
    shownAt := if x.waiting then max x.shownAt (now + 1) else now + g
    quash := false, vStill := false, xfer := none, seedSet := false, aRes := none, vRes := [], stRes := []
    inBlock := x.inBlock || !x.alone
    readyAt := now + 1 }

/-- Whether an instruction is a relaxed access outside a transaction (R147, R148, R149). DEDUCED (log 46): an acquire load with X = 1,
which waits as a plain load does, is none, and the limit of four does not count it. -/
def relaxedOp : Instr → Bool
  | .gld _ rx acq _ _ _ => rx && acq.isNone
  | .gvld rx acq _ _ _ => rx && acq.isNone
  | .gst _ rx _ _ _ _ => rx
  | .gvst rx _ _ _ _ => rx
  | .gstNt .. | .gvstNt .. => true
  | _ => false

/-- The wait that keeps a bundle from issuing: pending destinations, or four relaxed accesses outstanding (R147). -/
def issueWait (s : State) (a : Instr) : Option CWait :=
  let i := s.cur.core
  let c := s.cur.ctx
  if s.namesPending i c s.me.ir then some (.pending none)
  else if relaxedOp a && s.me.txn.isNone then
    (match s.relaxedOut (s.whoOf i c) with
    | o :: rest => if rest.length ≥ 3 then some (.pending (some o.1)) else none
    | [] => none)
  else none

/-- Physical registers an instruction reads as vector operands: a destination is read by the fused operations, and where its mask leaves
elements of it as they are (R319; log 17). -/
def vReads (s : State) (i : Instr) : List Nat :=
  let own := match i with
    | .vget _ _ _ => []
    | _ => if readsDest i || (mReads i).any (fun r => s.aM (BitVec.ofNat 2 r) ≠ BitVec.allOnes 256) then vNames i
           else (vNames i).filter (fun r => !(vWrites i).contains r || (vSources i).contains r)
  own.map (physBase s.myCore.mode s.cur.ctx)
    ++ (match i with | .vget _ a c => [physBase s.myCore.mode c.toNat a.toNat] | _ => [])
/-- Whether the word of this step's bundle holds an uncorrectable error (R319). -/
def badWord (s : State) : Bool :=
  let x := s.me
  !x.reissue && x.bufBad.contains (x.irPc.toNat / 8 % 16)
/-- Whether a register that a slot's operation reads holds an uncorrectable error (R319). -/
def operandBad (s : State) (i : Instr) : Bool :=
  (sReads i).any s.me.sBad.contains || (mReads i).any (fun r => s.me.mBad.any (fun w => w / 4 = r)) ||
  (vReads s i).any (fun p => s.myCore.vBad.any (fun w => decide (p * 8 ≤ w) && decide (w < (p + modeG s.myCore.mode) * 8)))

/-- Whether a coupled core's context stands as its last checkpoint has it: its operands are in it (R331). -/
def Core.asChecked (k : Core) (c : Nat) (x : Ctx) : Bool :=
  match sfind k.pair.ckCtx c with
  | some y => y.pc = x.pc && y.ir = x.ir && y.irPc = x.irPc && y.s = x.s && y.m = x.m
  | none => false
/-- Whether a bundle waits for a checkpoint before it; `x` is its context before issue. -/
def needsCheckpoint (s : State) (x : Ctx) (a : Instr) : Bool :=
  s.myCore.pair.on && noUndo a && x.txn.isNone && s.myCore.sinceCheckpoint && !s.myCore.asChecked s.cur.ctx x

/-- An odd twin takes over the outcome of an operation whose resource only the even core has (R329, R331). -/
def mirrorOp (s : State) : State :=
  let i := s.cur.core
  let c := s.cur.ctx
  let e := s.cx (i ^^^ 1) c
  if e.st = .waitQ || e.st = .waitBar then (holdBundle s e.st e.wait).modMe (fun x => { x with readyAt := e.readyAt })
  else if e.st = .faulted then aFault s e.cause.cause e.cause.detail
  else if s.me.txn.isSome && e.txn.isNone then (abortTxn s i c 0 0 false 0).modMe (fun x => { x with txstat := e.txstat })
  else
    ((List.range 16).foldl (fun (s : State) r => if bitOf e.sWrote.toNat r then s.setS (BitVec.ofNat 4 r) (e.rs (BitVec.ofNat 4 r)) else s) s).modMe
      (fun x => { x with task := e.task, joined := e.joined, pendHandler := e.pendHandler, wait := .none })

/-- The A-slot operation of this step's bundle. -/
def runA (a : Instr) (s : State) : Out :=
  if mirrored a && s.myCore.pair.on && s.myCore.pair.odd then ok (mirrorOp s) else exec a s

/-- The end of an issued bundle: the actions of triggers, its end unless it waits for a reply, and what its pair does. -/
def afterBundle (s : State) (a : Instr) (va : Option Nat) : State :=
  let i := s.cur.core
  let c := s.cur.ctx
  let s1 := trigActs s va
  let x := s1.me
  if x.st = .waitMem && x.wait.issued then s1 else
  let s2 := finishBundle (s1.modMe (fun x => { x with wait := .none })) i c
  if !(s2.core i).pair.on then s2 else
  let s3 := pairRetire s2 i c
  if (s3.core i).pair.odd && ((noUndo a && x.txn.isNone) || (s3.core i).intervalOver) then callCheckpoint s3 i else s3

/-- The V-slot has acted beside an A-slot operation that has ended the bundle by an abort, or by a fault that counts as one after
issue (R138, R273). -/
def afterEnded (s : State) (va : Option Nat) : State :=
  let s1 := (trigActs s va).modMe (fun x => { x with vStill := false })
  if (s1.core s.cur.core).pair.on then pairRetire s1 s.cur.core s.cur.ctx else s1

/-- Both slots act: nothing of the V-slot happens when the A-slot faulted at issue or did not issue (R138); a fault by a register
operand comes after every other one (R138, R319). -/
def runSlots (a v : Instr) (va : Option Nat) (s : State) : Out :=
  match runA a s with
  | .next s1 =>
    if s1.me.quash && !s1.me.vStill then ok s1 else
    let act := if operandBad s a then polAction (s.sevpol s.cur.core) 4 else 0
    if act = 1 || act = 2 then ok (aFault s cSEV (lsSevDetail s.me.irPc.toNat)) else
    let s1 := if act = 3 || (operandBad s v && polAction (s.sevpol s.cur.core) 4 = 3) then s1.snuffCore s.cur.core else s1
    (match exec v s1 with
    | .next s2 => ok (if s1.me.vStill then afterEnded s2 va else afterBundle s2 a va)
    | r => r)
  | r => r

/-- Issues a decoded bundle: breaks, ILL, uncorrectable words, then both slots. -/
def runBundle (a v : Instr) (s : State) : Out :=
  let i := s.cur.core
  let s0 := match a with
    | .bfetchReg _ => s
    | _ => s.modMe (fun x => { x with sWrote := 0 })
  match trigHits s none 1 with
  | n :: _ => ok (breakAt s 9 n 0)
  | [] =>
    if !modeOk s.myCore.mode a || !modeOk s.myCore.mode v || clash a v then ok (aFault s cILL 0) else
    let act := if badWord s then polAction (s.sevpol i) 4 else 0
    if act = 1 || act = 2 then ok (aFault s cSEV (lsSevDetail s.me.irPc.toNat)) else
    let s1 := if act = 3 then s0.snuffCore i else s0
    let va := match globalVa s a with
      | some (w, n) => (match gFault w n with | some _ => none | none => some w.toNat)
      | none => none
    match va with
    | none => runSlots a v none s1
    | some w =>
      (match trigHits s (some w) 1 with
      | n :: _ => ok (breakAt s 10 n (w / 256))
      | [] => runSlots a v va s1)

/-- Issues bundle `w` from `pc` for the context of this step. -/
def issueBundle (w : Word) (pc : BitVec 17) (s : State) : Out :=
  let x := s.me
  let s1 := s.modMe (fun x => x.issue w pc (s.myCore.vSeen s.cur.ctx s.time) (modeG s.myCore.mode) s.time)
  match decodeBundle w with
  | none =>
    (match trigHits s1 none 1 with
    | n :: _ => ok (breakAt s1 9 n 0)
    | [] => ok (aFault s1 cILL 0))
  | some (a, v) =>
    match issueWait s1 a with
    | some q => ok (holdBundle s1 .waitMem q)
    | none =>
      -- it waits for its slot again while another context's transaction keeps the pair from a checkpoint (R289)
      if needsCheckpoint s x a then ok (callCheckpoint s s.cur.core) else runBundle a v s1

/-- The bundle in the buffer at `pc`. -/
def Ctx.fetch (x : Ctx) : Word := sget 0 x.buf (x.pc.toNat / 8 % 16)

/-- Whether the present cycle is an own slot of context `c` of core `i` (R32). -/
def State.ownSlot (s : State) (i c : Nat) : Bool :=
  let m := (s.core i).mode
  decide (c < modeN m) && s.time % modeI m = c * modeG m

/-- Takes a step of the agenda kind for a context in its slot. -/
def slotStep (e : Ev) (r : Instr) (s : State) : Out := exec r { s with cur := { s.cur with ev := e } }

/-- A context in RUN uses its slot: a held fault report, the retry latch, a block copy, or a bundle (R38, R43, R147). DEDUCED
(log 46): the own slot in which a late fault report is taken is one that the context would use, so a report that reaches a
context in STOPPED or in a WAIT state is held until the context is in RUN again. -/
def useSlot (s : State) : Out :=
  let i := s.cur.core
  let c := s.cur.ctx
  let x := s.me
  if x.heldFaults ≠ [] && !x.reissue then slotStep (.relaxedLateFault i c 0) .relaxedLateFault s
  else if x.reissue then issueBundle x.latch x.cause.pc s
  else if x.copy then slotStep .blockCopy .blockCopy (s.modMe (fun x => { x with readyAt := s.time + 1 }))
  else if x.bufOk then issueBundle x.fetch x.pc s
  else
    -- a block reached by falling through is copied with the issue of its first bundle
    match slotStep .blockCopy .blockCopy s with
    | .next s1 =>
      let y := s1.me
      ok (if y.st = .run && y.pc = x.pc then { s1 with todo := .cx i c :: s1.todo }
        else if y.st = .run then s1.modMe (fun y => { y with readyAt := s.time + 1 }) else s1)
    | r => r

/-- Whether the contexts of a coupled core issue nothing (R331); a checkpoint the even twin calls in this cycle leaves the odd
twin its slot. -/
def State.pairHeld (s : State) (i : Nat) : Bool :=
  let p := (s.core i).pair
  p.on && s.agenda.any (fun e => e.2 = .pairCheckpoint (i / 2 * 2) && !(p.odd && e.1 = s.time + 8))

/-- One turn of a context. -/
def cxTurn (s : State) : Out :=
  let i := s.cur.core
  let c := s.cur.ctx
  let x := s.me
  let mine := s.ownSlot i c && decide (x.readyAt ≤ s.time)
  if s.pairHeld i then ok s
  else if x.waiting then issueBundle x.ir x.irPc s
  else match x.st, x.wait with
    | .run, _ => if mine then useSlot s else ok s
    | .waitMem, .range => if mine then issueBundle x.ir x.irPc s else ok s
    | .waitQ, .taskPush _ => if mine then slotStep (.taskPushRetry i c) .taskPushRetry s else ok s
    | _, _ => ok s

/-- A turn of context `c` of core `i`; after the odd twin's, faults of one twin alone show (R333). -/
def runCx (i c : Nat) (s : State) : Out :=
  match cxTurn { s with cur := { Cur.none with core := i, ctx := c } } with
  | .next s1 =>
    let s2 := pairKeep s1 i c
    ok (if (s2.core i).pair.on && (s2.core i).pair.odd then pairLeave (pairDesync s2 i c) i else s2)
  | r => r

/-! ### Near-data runs (R258, R263) -/

/-- One instruction of a gather run. -/
def runGu (i : Nat) (s : State) : Out :=
  let s0 : State := { s with cur := { Cur.none with core := i } }
  match s0.grun with
  | none => ok s0
  | some r =>
    match (((sfind s0.myCore.gat.kernels r.trig.slot).getD [])[r.pc]?).bind decodeNear with
    | some x => exec x s0
    | none => exec .nstop s0
/-- One instruction of a routine run. -/
def runRt (k : Nat) (s : State) : Out :=
  let s0 : State := { s with cur := { Cur.none with run := k, inRoutine := true } }
  match s0.rrun with
  | none => ok s0
  | some r =>
    if r.ended then ok s0 else
    match (r.code[r.pc]?).bind decodeNear with
    | some x => exec x s0
    | none => ok (endRun s0 (fun x => x))

/-! ### Cycles -/

/-- Whether the control thread of a core runs: its launch is RUNNING. -/
def State.ctRuns (s : State) (i : Nat) : Bool :=
  match s.launchOf i with | some l => l.st = .running | none => false
/-- Whether the contexts of a core run: they go on to the ends of their blocks while their launch is pre-empted (R296). -/
def State.cxRuns (s : State) (i : Nat) : Bool :=
  match s.launchOf i with | some l => l.st = .running || (l.st = .preempting && l.until' = 0) | none => false

/-- Whether a control thread has something to do in this cycle. -/
def Ct.acts (t : Ct) (now : Nat) : Bool :=
  t.started && !t.finished && !t.halted && (match t.wait with
    | .none | .retry | .push _ => true
    | .until d _ _ => decide (d ≤ now)
    | _ => false)

/-- Agents of a core that act in this cycle. -/
def coreAgents (s : State) (i : Nat) (k : Core) : List Agent :=
  (if k.ct.acts s.time && s.ctRuns i then [.ct i] else [])
  ++ (if !s.cxRuns i then [] else
      (k.ctxs.filter (fun (e : Nat × Ctx) => e.2.waiting || (s.ownSlot i e.1 && (e.2.st = .run || e.2.st = .waitMem || e.2.st = .waitQ || k.pair.on)))).map
        (fun (e : Nat × Ctx) => Agent.cx i e.1))
  ++ (match k.gat.run with | some r => if r.startAt ≤ s.time then [.gu i] else [] | none => [])

/-- Agents that act in this cycle. -/
def agentsOf (s : State) : List Agent :=
  if s.obs.frozen then [] else
  s.cores.flatMap (fun (e : Nat × Core) => coreAgents s e.1 e.2)
  ++ (s.near.runs.filter (fun (e : Nat × RRun) => !e.2.ended && decide (e.2.startAt + 3 + e.2.pc ≤ s.time))).map (fun (e : Nat × RRun) => Agent.rt e.1)

/-- TIME counts up, and the agents of the new cycle stand ready (R11). -/
def nextCycle (s : State) : State :=
  let s1 : State := { s with time := s.time + 1 }
  { s1 with todo := agentsOf s1 }

/-- Contexts of core `i` to which an `mt.*` instruction makes a request of the kinds of R44. -/
def reqTargets (s : State) (i : Nat) : Instr → List Nat
  | .mtKill _ m => s.masked i ((s.core i).ct.rx m)
  | .mtRdreg _ a | .mtWrreg _ a _ => [selCtx ((s.core i).ct.rx a)]
  | .mtRedirect _ a _ | .mtEvict _ a => [((s.core i).ct.rx a).toNat]
  | _ => []
/-- The instruction that the control thread of core `i` is about to fetch. -/
def State.ctNext (s : State) (i : Nat) : Option Instr :=
  let t := (s.core i).ct
  let a := t.pc.toNat
  if t.wait ≠ .none || !t.started || t.finished || t.halted || a % 4 ≠ 0 || a ≥ (s.core i).bound then none
  else decodeCt (BitVec.ofNat 32 (s.lsVal i a 4))
/-- A context in RUN that the coming request of the control thread names, and that stops or faults in its slot of this cycle: the
stop or fault takes effect first (R44). -/
def State.stopsFirst (s : State) (i : Nat) (rest : List Agent) : Option Agent :=
  match s.ctNext i with
  | none => none
  | some x => ((reqTargets s i x).find? (fun c => rest.contains (.cx i c) && (s.cx i c).st = .run &&
      (match runCx i c s with
      | .next t => (t.cx i c).st = .stopped || (t.cx i c).st = .faulted
      | _ => false))).map (.cx i ·)
/-- An abort that reaches a context, or its twin, in this cycle: from this cycle on it issues no bundle of the transaction (R278). -/
def State.abortDue (s : State) : Agent → Option (Nat × Ev)
  | .cx i c => (s.agenda.takeWhile (fun e => decide (e.1 ≤ s.time))).find? (fun e => match e.2 with
      | .txAbortArrival a b _ _ _ _ => b = c && (a = i || ((s.core i).pair.on && a = i ^^^ 1))
      | _ => false)
  | _ => none

/-- An agent's turn. -/
def runAgent : Agent → State → Out
  | .ct i, s => runCt i s
  | .cx i c, s => runCx i c s
  | .gu i, s => runGu i s
  | .rt k, s => runRt k s

/-- One step: an agent of this cycle, else a due step of the agenda, else the next cycle. Without power only power-good can
come (R11). -/
def runStep (s : State) : Out :=
  if !s.powered then
    (if s.agenda.any (fun e => e.2 = .powerGood) then runEv .powerGood { s with agenda := s.agenda.erase (0, .powerGood), time := 0 }
     else .fault .noPower)
  else match s.todo with
    | a :: rest =>
      (match s.abortDue a with
      | some e => runEv e.2 { s with agenda := s.agenda.erase e }
      | none =>
        match (match a with | .ct i => s.stopsFirst i rest | _ => none) with
        | some b => ok { s with todo := b :: a :: rest.erase b }
        | none => runAgent a { s with todo := rest })
    | [] =>
      match s.due with
      | some e => runEv e.2 { s with agenda := s.agenda.erase e }
      | none => ok (nextCycle s)

/-! ### Placing an instruction (log 2) -/

/-- A running launch on core 0. -/
def placeLaunch (s : State) (k : Core) : State :=
  let lid := s.lau.nextLid
  let l : Launch := { Launch.new 0 ((List.range 32).map (fun n => if n = 14 then 1 else 0)) with lid := lid, st := .running }
  let s1 : State := { s with
    powered := true, obs := { s.obs with frozen := false }
    lau := { s.lau with launches := sins s.lau.nextId l s.lau.launches, nextId := s.lau.nextId + 1 } }
  s1.setCore 0 { k with lid := lid, xbound := 1 }
/-- A control-thread word stands at address 0 of core 0's local store, which is its pc. -/
def placeCt (s : State) (w : Nat) : State :=
  { placeLaunch s { Core.init with ls := putCells [] 0 (leBytes 4 w), ct := Ct.begin' 0 0 0 } with todo := [.ct 0] }
/-- A bundle stands in the block buffer of context 0 of core 0, whose slot this cycle is. -/
def placeBundle (s : State) (w : Nat) : State :=
  let x : Ctx := { Ctx.init 0 0 with st := .run, buf := sput 0 [] 0 (BitVec.ofNat 64 w), bufOk := true }
  let s1 := placeLaunch s { Core.init with ctxs := sins 0 x [] }
  { s1 with time := s.time / 16 * 16, todo := [.cx 0 0] }
/-- A near-data word is the next of a kernel run of core 0, or of a routine run called by context 0 of core 0. -/
def placeNear (s : State) (i : Instr) (w : Nat) : State :=
  let code := [BitVec.ofNat 32 w]
  if nearInKernel i then
    let t : Trigger := { slot := 0, va := 0, line := 0, bad := [], n12 := 0, n13 := 0, n15 := 0 }
    let r : GRun := { trig := t, n := [], w := 0, pc := 0, count := 0, usedRt := false, digs := 0, startAt := s.time }
    { placeLaunch s { Core.init with gat := { Gather.init with kernels := [(0, code)], run := some r } } with todo := [.gu 0] }
  else
    let s1 := placeLaunch s Core.init
    let q := Req.new (.cx 0 0) (.lcall 0 1 [0]) 0 64 (.words 1 1)
    let r : RRun := { req := s.nextReq, slice := 0, rid := 0, code := code, n := [], w := 0, k := [0], pc := 0
                      startAt := s.time, wrote := 0, bad := [], sev := 0, ended := false, rfault := none }
    { s1 with
      reqs := sins s.nextReq q s.reqs, nextReq := s.nextReq + 1
      near := { s.near with runs := sins s.near.nextRun r s.near.runs, nextRun := s.near.nextRun + 1 }
      todo := [.rt s.near.nextRun] }
/-- A tile command is a job of core 0 that its engine is about to start. -/
def placeTile (s : State) (w : Nat) : State :=
  let v := BitVec.ofNat 256 w
  let j := s.jobs.next
  let s1 := placeLaunch s Core.init
  let x := { Job.new 0 0 1 s.lau.nextLid 0 (bitsOf w 255 248) (tileFields v) with st := .ready, accepted := true, startAt := s.time }
  { s1 with
    jobs := { s.jobs with list := sins j x s.jobs.list, next := j + 1 }
    agenda := (0, .jobRun j) :: s.agenda, todo := [] }
/-- The instruction of a word placed where the next step runs it. -/
def placeWord (s : State) (nbits w : Nat) : State :=
  if nbits ≤ 32 then
    match decodeCustom (BitVec.ofNat 32 w), decodeNear (BitVec.ofNat 32 w) with
    | none, some i => placeNear s i w
    | _, _ => placeCt s w
  else if nbits ≤ 64 then placeBundle s w
  else placeTile s w

end Sys2Proof.Machine
end

