-- ==== Sys2Proof/Machine/Step.lean ====
section
/-!
DEFINITION. One step of the machine, and where an instruction word is placed so that the next step runs it (log 2). Run.lean
holds what a step does.
-/
namespace Sys2Proof.Machine

/-- One step. -/
def step (s : State) : Host.Outcome State Fault Refusal := runStep s

/-- `s` with the instruction of an `nbits`-bit word as the next to run: at the pc of core 0's control thread, in its gather
unit or a routine run, in the block buffer of its context 0, or as a job about to start. -/
def State.withFetchWord (s : State) (nbits w : Nat) : State := placeWord s nbits w

end Sys2Proof.Machine
end

