-- ==== Sys2Proof/Safety.lean ====
section
/-!
DEFINITION. The terms that claims use: a safe step, the memory invariant, one byte of memory and of a local store, and what an
instruction that ends leaves as it was: `OnlyCt`, `OnlyCtx`, and the results `GivesX`, `GivesS`, `GivesV`, `GivesM` with their
frames.
-/
namespace Sys2Proof
open Machine

/-- A step that neither faults nor is refused. -/
def SafeStep (s : State) : Prop := ∃ t, step s = .next t

/-- Device memory and the host's memory, and every core's local store, a saved core's too, are in canonical form. -/
def MemInv (s : State) : Prop :=
  Memory.wf s.mem = true ∧ Memory.wf s.hostMem = true ∧ (∀ i, Memory.wf (s.core i).ls = true)
    ∧ ∀ l, l ∈ s.lau.launches → ∀ k, k ∈ l.2.saveCores → Memory.wf k.2.ls = true

/-! ### One byte -/

/-- The byte of device memory at a physical address. -/
def Machine.State.byteAt (s : State) (a : Nat) : Byte := sget 0 s.mem a
/-- The byte of core `i`'s local store at an address. -/
def Machine.State.lsByte (s : State) (i a : Nat) : Byte := sget 0 (s.core i).ls a
/-- Every byte of device memory, of the host's memory and of every local store reads as before. -/
def SameBytes (s t : State) : Prop :=
  (∀ a, t.byteAt a = s.byteAt a) ∧ (∀ a, sget 0 t.hostMem a = sget 0 s.hostMem a) ∧ ∀ i a, t.lsByte i a = s.lsByte i a
/-- A physical 512-bit register of core `i`'s vector file. -/
def Machine.State.phys (s : State) (i p : Nat) : Line := sget 0 (s.core i).v p

/-! ### Frames -/

/-- Nothing changes outside core `i`. -/
def OnlyCore (s t : State) (i : Nat) : Prop := t = { s with cores := t.cores } ∧ ∀ j, j ≠ i → t.core j = s.core j
/-- Nothing changes but the control thread of core `i`. -/
def OnlyCt (s t : State) (i : Nat) : Prop := OnlyCore s t i ∧ t.core i = { s.core i with ct := (t.core i).ct }
/-- Nothing changes but context `c` of core `i`. -/
def OnlyCtx (s t : State) (i c : Nat) : Prop :=
  OnlyCore s t i ∧ t.core i = { s.core i with ctxs := (t.core i).ctxs } ∧ ∀ d, d ≠ c → t.cx i d = s.cx i d
/-- Nothing changes but the vector file of core `i` and its context `c`. -/
def OnlyCtxV (s t : State) (i c : Nat) : Prop :=
  OnlyCore s t i ∧ t.core i = { s.core i with ctxs := (t.core i).ctxs, v := (t.core i).v, vBad := (t.core i).vBad }
    ∧ ∀ d, d ≠ c → t.cx i d = s.cx i d

/-! ### Results -/

/-- An instruction of this step's control thread has ended with `v` in rd (nothing written where rd is x0): the pc is past it,
one more instruction has retired, and nothing else has changed. -/
def CtEnded (s t : State) (rd : XReg) (v : Word) : Prop :=
  OnlyCt s t s.cur.core ∧ SameBytes s t
    ∧ (∀ r, t.xr r = if r ≠ 0 ∧ r = rd then v else s.xr r)
    ∧ t.myCore.ct = { s.myCore.ct with
        x := t.myCore.ct.x, xBad := (if rd = 0 then s.myCore.ct.xBad else s.myCore.ct.xBad.erase rd.toNat)
        pc := s.cpc + 4, minstret := s.myCore.ct.minstret + 1, wait := .none }
/-- `o` is a next state, in which the control thread's instruction has ended with `v` in rd. -/
def GivesX (s : State) (o : Out) (rd : XReg) (v : Word) : Prop := ∃ t, o = .next t ∧ CtEnded s t rd v

/-- The A-slot has written `v` to sd (nothing where sd is s0), and nothing else but what this step keeps of its bundle. -/
def SWritten (s t : State) (sd : SReg) (v : Word) : Prop :=
  OnlyCtx s t s.cur.core s.cur.ctx ∧ SameBytes s t
    ∧ (∀ r, t.me.rs r = if r ≠ 0 ∧ r = sd then v else s.me.rs r)
    ∧ t.me = { s.me with
        s := t.me.s, sBad := (if sd = 0 then s.me.sBad else s.me.sBad.erase sd.toNat), sWrote := t.me.sWrote, aRes := t.me.aRes }
/-- `o` is a next state, in which the A-slot has written `v` to sd. -/
def GivesS (s : State) (o : Out) (sd : SReg) (v : Word) : Prop := ∃ t, o = .next t ∧ SWritten s t sd v

/-- The V-slot has written the bits `x` to register group vd of this step's context, with FLAGS and SRSEED as given, and nothing
else but what this step keeps of its bundle. -/
def VWritten (s t : State) (vd : VReg) (x : Nat) (flags : Word) (seed : BitVec 32) : Prop :=
  OnlyCtxV s t s.cur.core s.cur.ctx ∧ SameBytes s t
    ∧ (∀ p, t.phys s.cur.core p =
        let b := physBase s.myCore.mode s.cur.ctx vd.toNat
        if b ≤ p ∧ p < b + modeG s.myCore.mode then BitVec.ofNat 512 (x >>> (512 * (p - b))) else s.phys s.cur.core p)
    ∧ t.me = { s.me with flags := flags, seed := seed, vRes := t.me.vRes }
/-- `o` is a next state, in which the V-slot has written `x` to vd. -/
def GivesV (s : State) (o : Out) (vd : VReg) (x : Nat) (flags : Word) (seed : BitVec 32) : Prop :=
  ∃ t, o = .next t ∧ VWritten s t vd x flags seed

/-- The V-slot has written `x` to mask register md (nothing where md is m0), with FLAGS and SRSEED as given. -/
def MWritten (s t : State) (md : MReg) (x : BitVec 256) (flags : Word) (seed : BitVec 32) : Prop :=
  OnlyCtx s t s.cur.core s.cur.ctx ∧ SameBytes s t
    ∧ (∀ r, t.me.rm r = if r ≠ 0 ∧ r = md then x else s.me.rm r)
    ∧ t.me = { s.me with
        m := t.me.m, mBad := (if md = 0 then s.me.mBad else s.me.mBad.filter (fun w => w / 4 ≠ md.toNat)), flags := flags, seed := seed, vRes := t.me.vRes }
/-- `o` is a next state, in which the V-slot has written `x` to md. -/
def GivesM (s : State) (o : Out) (md : MReg) (x : BitVec 256) (flags : Word) (seed : BitVec 32) : Prop :=
  ∃ t, o = .next t ∧ MWritten s t md x flags seed

/-! ### Faults and aborts of a context -/

/-- Nothing changes outside this step's core and context but the agenda and who still runs in this cycle. -/
def OnlyMine (s t : State) : Prop :=
  t = { s with cores := t.cores, agenda := t.agenda, todo := t.todo } ∧ (∀ j, j ≠ s.cur.core → t.core j = s.core j)
    ∧ ∀ d, d ≠ s.cur.ctx → t.cx s.cur.core d = s.cx s.cur.core d

/-- A list of MTFAULT has an entry of context `c` inserted among those of its cycle, which are its last `new`, in ascending context
(R305). -/
def EntryJoins (l : List Word) (new c : Nat) (w : Word) (l' : List Word) : Prop :=
  ∃ p q, l.drop (l.length - new) = p ++ q ∧ (∀ x, x ∈ p → entryCtx x ≤ c) ∧ (∀ x, q.head? = some x → c < entryCtx x)
    ∧ l' = l.take (l.length - new) ++ p ++ [w] ++ q

/-- The context has no transaction and is FAULTED with report `f`: the bundle of the report is in the retry latch, and an entry
joins MTFAULT unless one of the context is there (R303–R305). -/
def FaultedWith (s t : State) (f : FaultRep) (alone quash : Bool) : Prop :=
  OnlyMine s t
    ∧ t.me = { s.me with
        st := .faulted, latch := f.bundle, cause := f, alone := alone, quash := quash, wait := .none, reissue := false }
    ∧ t.myCore = { s.myCore with
        ctxs := t.myCore.ctxs, faultq := t.myCore.faultq, faultAt := t.myCore.faultAt, faultNew := t.myCore.faultNew }
    ∧ (if s.myCore.faultq.any (fun w => entryCtx w = s.cur.ctx) then t.myCore.faultq = s.myCore.faultq
        else EntryJoins s.myCore.faultq (if s.myCore.faultAt = s.time then s.myCore.faultNew else 0) s.cur.ctx (faultEntry s.cur.ctx f)
          t.myCore.faultq)

/-- The transaction `x` of the context has aborted with a cause, a code, RETRY and GRAN: the checkpointed registers are back,
the context continues at the abort target, and TXSTAT says why (R152, R284–R287). -/
def AbortedWith (s t : State) (x : Txn) (cause code : Nat) (retry : Bool) (gran : Nat) : Prop :=
  (∃ held, t.me.txstat = txstatWord cause code x.depth retry held gran)
    ∧ t.me.txn = none ∧ t.me.handler = none ∧ t.me.s = x.ckS ∧ t.me.m = x.ckM ∧ t.me.pc = x.target ∧ t.me.copy = true ∧ t.me.quash = true
    ∧ t.me.age = (if retry then s.me.age else none) ∧ t.me.wait = .none ∧ t.me.flags = s.me.flags ∧ t.me.latch = s.me.latch
    ∧ t.me.st = (if s.me.st = .stopped then .stopped else if s.me.st = .empty then .empty
        else if s.me.st = .faulted then .faulted else if s.me.st = .evicted then .evicted else .run)
    ∧ t.myCore.v = s.myCore.v ∧ t.myCore.faultq = s.myCore.faultq ∧ SameBytes s t

/-- `o` is a next state, in which the A-slot has aborted the transaction; the V-slot still acts (R273). -/
def AbortsHere (s : State) (o : Out) (x : Txn) (cause code gran : Nat) : Prop :=
  ∃ t, o = .next t ∧ AbortedWith s t x cause code false gran ∧ t.me.vStill = true

/-- `o` is a next state, in which the context has taken a fault found at issue that concerns the granule `gran` (0: none), which leaves
neither slot with an effect (R138, R284, R286). -/
def FaultsAt (s : State) (o : Out) (cause : Nat) (detail : BitVec 40) (gran : Nat) : Prop :=
  ∃ t, o = .next t ∧
    match s.me.txn with
    | none => FaultedWith s t { cause := cause, pc := s.me.irPc, detail := detail, bundle := s.me.ir, gran := gran } s.me.alone true
    | some x => AbortedWith s t x 6 cause false gran
/-- A fault found at issue that concerns no granule. -/
def FaultsAtIssue (s : State) (o : Out) (cause : Nat) (detail : BitVec 40) : Prop := FaultsAt s o cause detail 0

/-- `o` is a next state, in which the bundle has taken a transfer, of which the end of the block sees the target and whether
the copy is early. -/
def Transfers (s : State) (o : Out) (target : BitVec 17) (early : Bool) : Prop :=
  ∃ t, o = .next t ∧ OnlyCtx s t s.cur.core s.cur.ctx ∧ SameBytes s t
    ∧ t.me = { s.me with xfer := some { target := target, early := early }, sWrote := t.me.sWrote }

/-- `o` is a next state, in which the context has stored `bs` to its core's local store at `a`, and nothing else has changed but
what this step keeps of its bundle, the check bits of the words and the undo log of a coupled core. -/
def StoresLocal (s : State) (o : Out) (a : Nat) (bs : List Byte) : Prop :=
  ∃ t, o = .next t ∧ OnlyCore s t s.cur.core
    ∧ (∀ p, t.lsByte s.cur.core p = if a ≤ p ∧ p < a + bs.length then bs.getD (p - a) 0 else s.lsByte s.cur.core p)
    ∧ t.myCore = { s.myCore with
        ctxs := t.myCore.ctxs, ls := t.myCore.ls, lsBad := t.myCore.lsBad, lsLatent := t.myCore.lsLatent, pair := t.myCore.pair }
    ∧ (s.myCore.pair.on = false → t.myCore.pair = s.myCore.pair)
    ∧ (∀ d, d ≠ s.cur.ctx → t.cx s.cur.core d = s.cx s.cur.core d)
    ∧ t.me = { s.me with stRes := t.me.stRes }

/-- `o` is a next state, in which the context waits in state `st` for `w` and takes its bundle up again: nothing else has
changed but a request held for the end of the block, which is applied (R44). -/
def Holds (s : State) (o : Out) (st : CSt) (w : CWait) : Prop :=
  ∃ t, o = .next t ∧ t = { s with cores := t.cores, agenda := t.agenda } ∧ (∀ j, j ≠ s.cur.core → t.core j = s.core j)
    ∧ (∀ d, d ≠ s.cur.ctx → t.cx s.cur.core d = s.cx s.cur.core d)
    ∧ t.me = { s.me with
        st := st, wait := w, pc := if s.me.reissue = true ∨ s.me.copy = true then s.me.pc else s.me.irPc, quash := true, xfer := none }
    ∧ t.myCore = { s.myCore with ctxs := t.myCore.ctxs }

/-- The value of `n` bytes of core `i`'s local store from `a`, the lowest first (R4). -/
def lsNum (s : State) (i a : Nat) : Nat → Nat
  | 0 => 0
  | n + 1 => (s.lsByte i a).toNat + 256 * lsNum s i (a + 1) n

/-- A loaded value: sign- or zero-extended from its size by the load kind (R143). -/
def loadedValue (k : LdK) (x : Nat) : Word :=
  match k with
  | .i8 => (BitVec.ofNat 8 x).signExtend 64
  | .n8 => (BitVec.ofNat 8 x).zeroExtend 64
  | .i16 => (BitVec.ofNat 16 x).signExtend 64
  | .n16 => (BitVec.ofNat 16 x).zeroExtend 64
  | .i32 => (BitVec.ofNat 32 x).signExtend 64
  | .n32 => (BitVec.ofNat 32 x).zeroExtend 64
  | .d64 => BitVec.ofNat 64 x

/-- The element `vext` takes of a register group, sign- or zero-extended (R154). -/
def pickedValue (ty : VxTy) (x e : Nat) : Word :=
  match ty with
  | .i8 => (BitVec.ofNat 8 (elem 8 x e)).signExtend 64
  | .n8 => (BitVec.ofNat 8 (elem 8 x e)).zeroExtend 64
  | .i16 => (BitVec.ofNat 16 (elem 16 x e)).signExtend 64
  | .n16 => (BitVec.ofNat 16 (elem 16 x e)).zeroExtend 64
  | .i32 => (BitVec.ofNat 32 (elem 32 x e)).signExtend 64
  | .n32 => (BitVec.ofNat 32 (elem 32 x e)).zeroExtend 64
  | .d64 => BitVec.ofNat 64 (elem 64 x e)

/-- Whether element `e` of an indexed access is active (R144). -/
def idxActive (s : State) (w : EW) (m : MReg) (e : Nat) : Bool := decide (e < vlen s.myCore.mode w.bits) && bitOf (s.aM m).toNat e
/-- Address of element `e` of an indexed access (R144). -/
def idxAddr (s : State) (w : EW) (sa : SReg) (vi : VReg) (e : Nat) : Nat :=
  (s.aS sa + BitVec.ofNat 64 (elem w.bits (s.aV vi) e * (w.bits / 8))).toNat

/-! ### Global accesses -/

/-- The context has no transaction open and its core is not coupled. -/
def Alone (s : State) : Prop := s.me.txn = none ∧ s.myCore.pair.on = false

/-- `q` stands as request `r`, on its way to its serving slice, which it reaches after 13 + 2h cycles (R25). -/
def Sent (s t : State) (r : Nat) (q : Req) : Prop :=
  t.req r = some { q with issued := s.time } ∧ t.nextReq = r + 1 ∧ (∀ k, k ≠ r → t.req k = s.req k)
    ∧ (s.time + (13 + 2 * q.h), Ev.sliceAccess r) ∈ t.agenda ∧ (∀ e, e ∈ s.agenda → e ∈ t.agenda) ∧ SameBytes s t

/-- `o` is a next state, in which the access `q` of this step's context is on its way, with the bundle a fault would latch
(R138, R147); the context is in WAIT.MEM until the reply if `wait`, else goes on. Nothing else has changed but what this step
keeps of its bundle. -/
def IssuesGlobal (s : State) (o : Out) (q : Req) (wait : Bool) : Prop :=
  ∃ t, o = .next t
    ∧ Sent s t s.nextReq
        { q with bundle := (if wait then s.me.ir &&& 0xFFFFFFFF00000000 else (s.me.ir &&& 0x7FFFFFFF00000000) ||| 0x4000000000000000)
                 pc := s.me.irPc }
    ∧ (∀ j, j ≠ s.cur.core → t.core j = s.core j) ∧ (∀ d, d ≠ s.cur.ctx → t.cx s.cur.core d = s.cx s.cur.core d)
    ∧ t.myCore = { s.myCore with ctxs := t.myCore.ctxs }
    ∧ t.me = { s.me with
        stRes := t.me.stRes, sWrote := t.me.sWrote
        st := if wait then .waitMem else s.me.st
        wait := if wait then .reply s.nextReq else s.me.wait }

/-- The context of this step as the source of an access. -/
def me' (s : State) : Who := .cx s.cur.core s.cur.ctx

/-- Every earlier access of this step's context is performed at a scope (R149, R155). -/
def Performed (s : State) (sc : Scope) : Prop :=
  ∀ r q, (r, q) ∈ s.reqs → q.who = me' s → q.live = true → r < s.nextReq →
    match sc with
    | .cl => q.atDv = true ∨ (q.op.writes = true ∧ q.accepted = true)
    | .dv => q.atDv = true
    | .sy => q.atDv = true ∧ q.atSy = true

/-- A release at a scope may issue: its earlier accesses are performed, and at `sy` none was lost or refused (R149). -/
def Releases (s : State) (rel : Option Scope) : Prop :=
  match rel with
  | none => True
  | some sc => Performed s sc ∧ (sc = .sy → s.me.lost = false ∧ s.me.refused = false)

/-! ### Effects beside a register's -/

/-- The control thread's instruction has ended with `v` in rd: the pc is past it, one more instruction has retired, and its mode,
exception registers and reservation are as before. -/
def CtEnds (s t : State) (rd : XReg) (v : Word) : Prop :=
  (∀ r, t.xr r = if r ≠ 0 ∧ r = rd then v else s.xr r)
    ∧ t.myCore.ct = { s.myCore.ct with
        x := t.myCore.ct.x, xBad := (if rd = 0 then s.myCore.ct.xBad else s.myCore.ct.xBad.erase rd.toNat)
        pc := s.cpc + 4, minstret := s.myCore.ct.minstret + 1, wait := .none
        task := t.myCore.ct.task, joined := t.myCore.ct.joined }

/-- `o` is a next state, in which the control thread's instruction has ended with `v` in rd and `P` holds. -/
def EndsWith (s : State) (o : Out) (rd : XReg) (v : Word) (P : State → Prop) : Prop := ∃ t, o = .next t ∧ CtEnds s t rd v ∧ P t

/-- `o` is a next state, in which the control thread waits and takes its instruction up again; of memory nothing has changed. -/
def CtRetries (s : State) (o : Out) : Prop :=
  ∃ t, o = .next t ∧ t.myCore.ct.wait = .retry ∧ t.cpc = s.cpc ∧ (∀ r, t.xr r = s.xr r) ∧ SameBytes s t

/-- The A-slot's registers after it has written `v` to sd and then, where given, a status to se. -/
def wrote2 (s : State) (sd : SReg) (v : Word) (se : Option (SReg × Word)) (r : SReg) : Word :=
  match se with
  | some (e, w) => if r ≠ 0 ∧ r = e then w else if r ≠ 0 ∧ r = sd then v else s.me.rs r
  | none => if r ≠ 0 ∧ r = sd then v else s.me.rs r

/-- `o` is a next state, in which the s registers of this step's context read as `f` says, no byte and no other context has changed,
and `P` holds. -/
def SlotGives (s : State) (o : Out) (f : SReg → Word) (P : State → Prop) : Prop :=
  ∃ t, o = .next t ∧ (∀ r, t.me.rs r = f r) ∧ SameBytes s t
    ∧ (∀ j d, ¬ (j = s.cur.core ∧ d = s.cur.ctx) → t.cx j d = s.cx j d)
    ∧ t.me.m = s.me.m ∧ t.me.flags = s.me.flags ∧ t.me.pc = s.me.pc ∧ t.me.st = s.me.st ∧ t.myCore.v = s.myCore.v ∧ P t

/-! ### Element-wise results (R97, R159, R160) -/

/-- The stochastic-rounding state after `n` steps (R96). -/
def srAfter : Nat → BitVec 32 → BitVec 32
  | 0, x => x
  | n + 1, x => srStep (srAfter n x)
/-- Steps taken by the active elements below `n`: those that `steps` names (R97). -/
def stepsBelow (mask : Nat) (steps : Nat → Bool) (n : Nat) : Nat :=
  ((List.range n).filter (fun e => bitOf mask e && steps e)).length
/-- The state element `e` rounds with: that after its own step. -/
def seedOf (s : State) (m : MReg) (steps : Nat → Bool) (e : Nat) : Nat :=
  (srAfter (stepsBelow (s.aM m).toNat steps (e + 1)) s.seed0).toNat
/-- The flags that the active elements below `n` raise. -/
def flagsBelow (mask : Nat) (fl : Nat → Nat) (n : Nat) : Nat :=
  (List.range n).foldl (fun a e => if bitOf mask e then a ||| fl e else a) 0

/-- `o` is a next state, in which each active element of vd of width `w` is `f` of its number and rounding state, each other
element is the old one, FLAGS has the elements' flags ORed in, SRSEED is the state after the last step unless a `wrcsr` of the
bundle wrote it, and nothing else has changed but what this step keeps of its bundle. -/
def VEach (s : State) (o : Out) (w : Nat) (m : MReg) (vd : VReg) (steps : Nat → Bool) (f : Nat → Nat → Res) : Prop :=
  let n := vlen s.myCore.mode w
  let mask := (s.aM m).toNat
  let b := physBase s.myCore.mode s.cur.ctx vd.toNat
  ∃ t, o = .next t ∧ OnlyCtxV s t s.cur.core s.cur.ctx ∧ SameBytes s t
    ∧ (∀ e, e < n → elem w (t.liveV vd) e =
        if bitOf mask e then (f e (seedOf s m steps e)).code % 2 ^ w else elem w (s.aV vd) e)
    ∧ (∀ p, ¬ (b ≤ p ∧ p < b + modeG s.myCore.mode) → t.phys s.cur.core p = s.phys s.cur.core p)
    ∧ t.me = { s.me with
        flags := orFlags s.me.flags (flagsBelow mask (fun e => (f e (seedOf s m steps e)).fl) n)
        seed := if s.me.seedSet then s.me.seed else srAfter (stepsBelow mask steps n) s.seed0
        vRes := t.me.vRes }

/-- `o` is a next state, in which every element of vd of width `w` is as `g` says, `fl` has been ORed into FLAGS, SRSEED is `sd` unless
a `wrcsr` of the bundle wrote it, and nothing else has changed but what this step keeps of its bundle. -/
def VFull (s : State) (o : Out) (w : Nat) (vd : VReg) (g : Nat → Nat) (fl : Nat) (sd : BitVec 32) : Prop :=
  let b := physBase s.myCore.mode s.cur.ctx vd.toNat
  ∃ t, o = .next t ∧ OnlyCtxV s t s.cur.core s.cur.ctx ∧ SameBytes s t
    ∧ (∀ e, e < vlen s.myCore.mode w → elem w (t.liveV vd) e = g e)
    ∧ (∀ p, ¬ (b ≤ p ∧ p < b + modeG s.myCore.mode) → t.phys s.cur.core p = s.phys s.cur.core p)
    ∧ t.me = { s.me with
        flags := orFlags s.me.flags fl, seed := if s.me.seedSet then s.me.seed else sd, vRes := t.me.vRes }

/-- Each active element of vd is `g` of its number; no flag is raised and no rounding step taken. -/
def VPlain (s : State) (o : Out) (w : Nat) (m : MReg) (vd : VReg) (g : Nat → Nat) : Prop :=
  VEach s o w m vd (fun _ => false) (fun e _ => ⟨g e, 0⟩)

/-- `o` is a next state, in which bit `e` of md, for each active `e` below the vector length of width `w`, says whether `p` holds of it,
every other bit is as before, and the elements' flags have been ORed into FLAGS; m0 is not written (R61, R167). -/
def VCompares (s : State) (o : Out) (w : Nat) (m md : MReg) (p : Nat → Bool × Nat) : Prop :=
  let n := vlen s.myCore.mode w
  let mask := (s.aM m).toNat
  ∃ t, o = .next t ∧ OnlyCtx s t s.cur.core s.cur.ctx ∧ SameBytes s t
    ∧ (∀ r e, e < 256 → (t.me.rm r).getLsbD e =
        if r ≠ 0 ∧ r = md then (if e < n ∧ bitOf mask e = true then (p e).1 else (s.aM md).getLsbD e) else (s.me.rm r).getLsbD e)
    ∧ t.me = { s.me with
        m := t.me.m, mBad := (if md = 0 then s.me.mBad else s.me.mBad.filter (fun w => w / 4 ≠ md.toNat)), flags := orFlags s.me.flags (flagsBelow mask (fun e => (p e).2) n)
        seed := if s.me.seedSet then s.me.seed else s.seed0, vRes := t.me.vRes }

/-- Values of the active elements of va, in order (R184). -/
def activeOf (s : State) (w : Nat) (m : MReg) (va : VReg) : List Nat :=
  ((List.range (vlen s.myCore.mode w)).filter (fun e => bitOf (s.aM m).toNat e)).map (elem w (s.aV va))

/-! ### Near-data runs (R255, R263) -/

/-- `o` is a next state, in which the routine run of this step goes on `d` instructions ahead, its n registers read as `r` says, `f` says
what else of the run has changed, and nothing outside it has. -/
def RoutineGoes (s : State) (o : Out) (d : Int) (r : NReg → Word) (f : RRun → RRun) : Prop :=
  ∀ x, s.cur.inRoutine = true → s.rrun = some x →
    ∃ t y, o = .next t ∧ t.rrun = some y ∧ (∀ k, t.nr k = r k)
      ∧ y = { f x with n := y.n, pc := ((x.pc : Int) + d).toNat }
      ∧ t = { s with near := { s.near with runs := t.near.runs } }
      ∧ ∀ k, k ≠ s.cur.run → sfind t.near.runs k = sfind s.near.runs k

/-- `o` is a next state, in which the kernel run of this step, which is not at its 1,024th instruction, goes on `d` instructions ahead,
its n registers read as `r` says, `f` says what else of the run has changed, and nothing outside it has. -/
def KernelGoes (s : State) (o : Out) (d : Int) (r : NReg → Word) (f : GRun → GRun) : Prop :=
  ∀ x, s.cur.inRoutine = false → s.grun = some x → x.count + 1 < 1024 →
    ∃ t y, o = .next t ∧ t.grun = some y ∧ (∀ k, t.nr k = r k)
      ∧ y = { f x with n := y.n, pc := ((x.pc : Int) + d).toNat, count := x.count + 1 }
      ∧ OnlyCore s t s.cur.core ∧ t.myCore = { s.myCore with gat := { s.myCore.gat with run := some y } } ∧ SameBytes s t

/-- `o` is a next state, in which the kernel run of this step has ended in a fault: where a stream feeds its slot, that stream has
stopped and a tagged fault word is on its way into its queue; the streams of other slots go on (R265). -/
def KernelFaults (s : State) (o : Out) (cause info va : Nat) : Prop :=
  ∀ x, s.cur.inRoutine = false → s.grun = some x →
    ∃ t, o = .next t ∧ t.grun = none ∧ SameBytes s t ∧ (∀ j, j ≠ s.cur.core → t.core j = s.core j)
      ∧ ∀ u, s.myCore.gat.streams.find? (fun v => v.slot = x.trig.slot) = some u →
          (u.slot * 8 + u.q, BitVec.ofNat 64 (cause * 2 ^ 56 + info % 256 * 2 ^ 48 + va % 2 ^ 48)) ∈ t.myCore.gat.pend
            ∧ (s.time, Ev.gatherDrain s.cur.core u.slot) ∈ t.agenda
            ∧ t.myCore.gat.streams = s.myCore.gat.streams.filter (fun v => v.slot ≠ u.slot)

/-- A computation of either kind of run writes `v` to nd (R256, Table 17.1); the 1,024th instruction of a kernel run ends it with a
LONG fault (R263). -/
def NearGives (s : State) (o : Out) (d : NReg) (v : Word) : Prop :=
  RoutineGoes s o 1 (fun k => if k = d then v else s.nr k) id
    ∧ KernelGoes s o 1 (fun k => if k = d then v else s.nr k) id
    ∧ ((∀ x, s.grun = some x → 1023 ≤ x.count) → KernelFaults s o 6 0 0)

/-! ### Control-thread exceptions and accesses (R107, R309) -/

/-- The control thread of core `i` has taken an exception: mepc, mcause, mtval and the previous mode and interrupt enable are saved, the
thread is in machine mode at mtvec with interrupts off, and nothing else has changed, where its handler can be fetched; else it is
halted besides and its launch ends with a reason. -/
def TrapTaken (s t : State) (i cause : Nat) (tval : Word) : Prop :=
  let c := (s.core i).ct
  let e : Ct := { c with
    mepc := c.pc, mcause := BitVec.ofNat 64 cause, mtval := tval, mpp := c.priv, mpie := c.mie, mie := false, priv := .machine
    pc := c.mtvec, wait := .none }
  if c.mtvec.toNat < (s.core i).xbound.toNat * 128 ∧ c.mtvec.toNat % 4 = 0 then OnlyCt s t i ∧ SameBytes s t ∧ (t.core i).ct = e
  else OnlyCt { s with lau := t.lau, agenda := t.agenda } t i ∧ SameBytes s t ∧ (t.core i).ct = { e with halted := true }
/-- `o` is a next state, in which this step's control thread has taken an exception. -/
def CtTraps (s : State) (o : Out) (cause : Nat) (tval : Word) : Prop := ∃ t, o = .next t ∧ TrapTaken s t s.cur.core cause tval

/-- `o` is a next state, in which the control thread's access `q` is on its way and the thread waits for the reply (R29, R189). -/
def CtAwaits (s : State) (o : Out) (q : Req) : Prop :=
  ∃ t, o = .next t ∧ Sent s t s.nextReq q ∧ (∀ j, j ≠ s.cur.core → t.core j = s.core j)
    ∧ t.myCore = { s.myCore with ct := { s.myCore.ct with wait := .reply s.nextReq } }

/-- `o` is a next state, in which the control thread's access `q` to the local store of core `j` is on its way (R190). -/
def CtAwaitsRemote (s : State) (o : Out) (q : Req) (j : Nat) : Prop :=
  ∃ t, o = .next t ∧ t.req s.nextReq = some { q with issued := s.time, remote := some j } ∧ t.nextReq = s.nextReq + 1
    ∧ (s.time + (21 + travel (clusterOf s.cur.core) (clusterOf j)), Ev.remoteLsAccess s.nextReq) ∈ t.agenda ∧ SameBytes s t
    ∧ (∀ k, k ≠ s.cur.core → t.core k = s.core k)
    ∧ t.myCore = { s.myCore with ct := { s.myCore.ct with wait := .reply s.nextReq } }

/-- `o` is a next state, in which the control thread has gone on at `target` with `v` in rd, one more instruction retired and nothing else
changed. -/
def CtJumps (s : State) (o : Out) (rd : XReg) (v target : Word) : Prop :=
  ∃ t, o = .next t ∧ OnlyCt s t s.cur.core ∧ SameBytes s t ∧ (∀ r, t.xr r = if r ≠ 0 ∧ r = rd then v else s.xr r)
    ∧ t.myCore.ct = { s.myCore.ct with
        x := t.myCore.ct.x, xBad := (if rd = 0 then s.myCore.ct.xBad else s.myCore.ct.xBad.erase rd.toNat), pc := target, minstret := s.myCore.ct.minstret + 1, wait := .none }

/-- The value a RISC-V load gives (R107). -/
def rvLoaded (k : RvLd) (x : Nat) : Word :=
  match k with
  | .lb => (BitVec.ofNat 8 x).signExtend 64 | .lh => (BitVec.ofNat 16 x).signExtend 64 | .lw => (BitVec.ofNat 32 x).signExtend 64
  | .lbu => (BitVec.ofNat 8 x).zeroExtend 64 | .lhu => (BitVec.ofNat 16 x).zeroExtend 64 | .lwu => (BitVec.ofNat 32 x).zeroExtend 64
  | .ld => BitVec.ofNat 64 x

/-- `o` is a next state, in which core `i`'s record is as `f` says, and nothing else has changed. -/
def CoreBecomes (s : State) (o : Out) (i : Nat) (f : Core) : Prop := ∃ t, o = .next t ∧ OnlyCore s t i ∧ t.core i = f

/-- `o` is a next state of which `P` holds. -/
def Becomes (o : Out) (P : State → Prop) : Prop := ∃ t, o = .next t ∧ P t

/-- Step `e` stands in the agenda `n` cycles ahead of `s`. -/
def Coming (s t : State) (n : Nat) (e : Ev) : Prop := (s.time + n, e) ∈ t.agenda

/-- Job `j`, which was `x`, has ended: its state and code, its entries gone from every window, and the update of its record on the
way (R220, R223, R227). -/
def JobEnded (s t : State) (j : Nat) (x : Job) (st : JSt) (code : Nat) : Prop :=
  (∃ y, t.job j = some y ∧ y.st = st ∧ y.code = code ∧ y.core = x.core ∧ y.recNo = x.recNo)
    ∧ (∀ k w, w ∈ (t.cluster k).win → ¬ (w.isJob = true ∧ w.key = j))
    ∧ Coming s t (travel x.place (clusterOf x.core)) (.jobRecordUpdate j) ∧ SameBytes s t

/-- Job `j` is `x`, and every other job is as before. -/
def JobBecomes (s t : State) (j : Nat) (x : Job) : Prop := t.job j = some x ∧ ∀ k, k ≠ j → t.job k = s.job k

end Sys2Proof
end

