-- ==== Sys2Proof/Certificates/Slice0/Obligations.lean ====
section
/-!
DEFINITION. The statements for the provers: `def Obligations.<Name> : Prop`, in the terms of Safety.lean. Each docstring names the
rules of spec/ it formalises.
-/
open Sys2Proof Sys2Proof.Machine

/-- Opcode of an A-slot instruction's word (R69). -/
def Clause.opA (i : Instr) : Option Nat := (encodeA i).map (fun e => (e.2.extractLsb' 24 6).toNat)
/-- Opcode of a V-slot instruction's word (R73). -/
def Clause.opV (i : Instr) : Option Nat := (encodeV i).map (fun w => (w.extractLsb' 25 7).toNat)

/-! ### The A-slot -/

/-- Register integer operations write sd := f(sa, sb), on the operands as they stood before the bundle, and nothing else; a
write to s0 is discarded (R139, Table 9.5; R35, R61). -/
def Clause.ScalarRegister : Prop := ∀ (s : State) (d a b : SReg),
  let x := s.aS a
  let y := s.aS b
  GivesS s (exec (.add d a b) s) d (x + y) ∧ GivesS s (exec (.sub d a b) s) d (x - y)
  ∧ GivesS s (exec (.and d a b) s) d (x &&& y) ∧ GivesS s (exec (.or d a b) s) d (x ||| y)
  ∧ GivesS s (exec (.xor d a b) s) d (x ^^^ y)
  ∧ GivesS s (exec (.sll d a b) s) d (x <<< (y.toNat % 64)) ∧ GivesS s (exec (.srl d a b) s) d (x >>> (y.toNat % 64))
  ∧ GivesS s (exec (.sra d a b) s) d (x.sshiftRight (y.toNat % 64))
  ∧ GivesS s (exec (.mul d a b) s) d (x * y)
  ∧ GivesS s (exec (.mulh d a b) s) d ((x.signExtend 128 * y.signExtend 128).extractLsb' 64 64)
  ∧ GivesS s (exec (.mulhu d a b) s) d ((x.zeroExtend 128 * y.zeroExtend 128).extractLsb' 64 64)
  ∧ GivesS s (exec (.min d a b) s) d (if x.toInt < y.toInt then x else y)
  ∧ GivesS s (exec (.max d a b) s) d (if x.toInt < y.toInt then y else x)
  ∧ GivesS s (exec (.minu d a b) s) d (if x.toNat < y.toNat then x else y)
  ∧ GivesS s (exec (.maxu d a b) s) d (if x.toNat < y.toNat then y else x)
  ∧ GivesS s (exec (.slt d a b) s) d (if x.toInt < y.toInt then 1 else 0)
  ∧ GivesS s (exec (.sltu d a b) s) d (if x.toNat < y.toNat then 1 else 0)

/-- Immediate forms apply the operation of the register form to sa and SignExt(imm16, 64), shift sa by 0 to 63, or set
sd := SignExt(imm20 << 12, 64), and write nothing else; their opcodes are 0x02 to 0x09 (R140). -/
def Clause.ScalarImmediate : Prop := ∀ (s : State) (d a : SReg) (i : BitVec 16) (k : BitVec 6) (u : BitVec 20),
  let x := s.aS a
  let y := i.signExtend 64
  GivesS s (exec (.addi d a i) s) d (x + y) ∧ GivesS s (exec (.andi d a i) s) d (x &&& y)
  ∧ GivesS s (exec (.ori d a i) s) d (x ||| y) ∧ GivesS s (exec (.xori d a i) s) d (x ^^^ y)
  ∧ GivesS s (exec (.slti d a i) s) d (if x.toInt < y.toInt then 1 else 0)
  ∧ GivesS s (exec (.sltiu d a i) s) d (if x.toNat < y.toNat then 1 else 0)
  ∧ GivesS s (exec (.slli d a k) s) d (x <<< k.toNat) ∧ GivesS s (exec (.srli d a k) s) d (x >>> k.toNat)
  ∧ GivesS s (exec (.srai d a k) s) d (x.sshiftRight k.toNat)
  ∧ GivesS s (exec (.lui d u) s) d (BitVec.signExtend 64 (BitVec.zeroExtend 32 u <<< 12))
  ∧ Clause.opA (.addi d a i) = some 2 ∧ Clause.opA (.andi d a i) = some 3 ∧ Clause.opA (.ori d a i) = some 4 ∧ Clause.opA (.xori d a i) = some 5
  ∧ Clause.opA (.slti d a i) = some 6 ∧ Clause.opA (.sltiu d a i) = some 7 ∧ Clause.opA (.slli d a k) = some 8 ∧ Clause.opA (.srli d a k) = some 8
  ∧ Clause.opA (.srai d a k) = some 8 ∧ Clause.opA (.lui d u) = some 9

/-- Register and immediate integer operations of the A-slot (R139, R140). -/
def Obligations.ScalarComputes : Prop := Clause.ScalarRegister ∧ Clause.ScalarImmediate

/-- Branches transfer to BLK × 128 when the comparison of sa and sb, or the test of the first L bits of the mask, holds, and
have no effect when it does not (R141). -/
def Clause.Branches : Prop := ∀ (s : State) (a b : SReg) (w : EW) (m : MReg) (blk : BitVec 10),
  let x := s.aS a
  let y := s.aS b
  let l := vlen s.myCore.mode w.bits
  let on := fun e => (s.aM m).getLsbD e
  let goes := fun (i : Instr) (c : Prop) =>
    (c → Transfers s (exec i s) (BitVec.ofNat 17 (blk.toNat * 128)) false) ∧ (¬ c → exec i s = .next s)
  goes (.beq a b blk) (x = y) ∧ goes (.bne a b blk) (x ≠ y)
  ∧ goes (.blt a b blk) (x.toInt < y.toInt) ∧ goes (.bge a b blk) (x.toInt ≥ y.toInt)
  ∧ goes (.bltu a b blk) (x.toNat < y.toNat) ∧ goes (.bgeu a b blk) (x.toNat ≥ y.toNat)
  ∧ goes (.bany w m blk) (∃ e, e < l ∧ on e = true) ∧ goes (.ball w m blk) (∀ e, e < l → on e = true)
  ∧ goes (.bnone w m blk) (∀ e, e < l → on e = false) ∧ goes (.bnall w m blk) (∃ e, e < l ∧ on e = false)

/-- `jmp` and `bfetch` always transfer: to BLK × 128, or to the address in sa, which raises ALIGN unless its bits [6:0] are zero.
`jmp` copies late, `bfetch target` early, and `bfetch sa` early unless the bundle before wrote sa (R142). An address beyond the 17
bits of a PC goes to a target that no code space reaches (log 5). -/
def Clause.Jumps : Prop := ∀ (s : State) (a : SReg) (blk : BitVec 10),
  let x := (s.aS a).toNat
  let far := fun (p : BitVec 17) => (x < 2 ^ 17 → p.toNat = x) ∧ (2 ^ 17 ≤ x → 98304 ≤ p.toNat)
  Transfers s (exec (.jmp blk) s) (BitVec.ofNat 17 (blk.toNat * 128)) false
  ∧ Transfers s (exec (.bfetch blk) s) (BitVec.ofNat 17 (blk.toNat * 128)) true
  ∧ (x % 128 = 0 → ∃ p, far p ∧ Transfers s (exec (.jmpReg a) s) p false)
  ∧ (x % 128 = 0 → ∃ p, far p ∧ Transfers s (exec (.bfetchReg a) s) p (!s.me.sWrote.getLsbD a.toNat))
  ∧ (x % 128 ≠ 0 → FaultsAtIssue s (exec (.jmpReg a) s) 2 0 ∧ FaultsAtIssue s (exec (.bfetchReg a) s) 2 0)

/-- Branches, `jmp` and `bfetch` (R141, R142). -/
def Obligations.Transfers : Prop := Clause.Branches ∧ Clause.Jumps

/-- `ld` and `vld` read A = sa + SignExt(imm12, 64): a multiple of the size within 98,304 bytes gives sd the bytes, sign- or
zero-extended, and v the group; a misaligned A raises ALIGN, another beyond the store PROT (R143, R138). An uncorrectable word that
the core's policy traps raises SEVERITY; one that it snuffs is not this statement's (R319, R322). -/
def Obligations.LocalLoads : Prop := ∀ (s : State) (k : LdK) (d a : SReg) (vd : VReg) (imm : BitVec 12),
  let A := s.aS a + imm.signExtend 64
  let i := s.cur.core
  let n := k.size
  let g := 64 * modeG s.myCore.mode
  (A.toNat % n = 0 → A.toNat + n ≤ 98304 → s.lsTraps i A.toNat n = false → s.lsSnuffs i A.toNat n = false →
    GivesS s (exec (.ld k d a imm) s) d (loadedValue k (lsNum s i A.toNat n)))
  ∧ (A.toNat % g = 0 → A.toNat + g ≤ 98304 → s.lsTraps i A.toNat g = false → s.lsSnuffs i A.toNat g = false →
    GivesV s (exec (.vld vd a imm) s) vd (lsNum s i A.toNat g) s.me.flags s.me.seed)
  ∧ (A.toNat % n ≠ 0 → FaultsAtIssue s (exec (.ld k d a imm) s) 2 0)
  ∧ (A.toNat % n = 0 → A.toNat + n > 98304 → FaultsAtIssue s (exec (.ld k d a imm) s) 3 0)
  ∧ (A.toNat % g ≠ 0 → FaultsAtIssue s (exec (.vld vd a imm) s) 2 0)
  ∧ (A.toNat % g = 0 → A.toNat + g > 98304 → FaultsAtIssue s (exec (.vld vd a imm) s) 3 0)
  ∧ (A.toNat % n = 0 → A.toNat + n ≤ 98304 → s.lsTraps i A.toNat n = true →
    FaultsAtIssue s (exec (.ld k d a imm) s) 5 (lsSevDetail A.toNat))

/-- `st` and `vst` write the low bytes of sd, and the group, at A = sa + SignExt(imm12, 64), and no other byte; ALIGN comes before
PROT; a store into a range that a job has still to read waits in WAIT.MEM (R143, R138, R192). -/
def Obligations.LocalStores : Prop := ∀ (s : State) (k : StK) (d a : SReg) (vd : VReg) (imm : BitVec 12),
  let A := s.aS a + imm.signExtend 64
  let i := s.cur.core
  let n := k.size
  let g := 64 * modeG s.myCore.mode
  (A.toNat % n = 0 → A.toNat + n ≤ 98304 → s.lsHeld i A.toNat n = false →
    StoresLocal s (exec (.st k d a imm) s) A.toNat (leBytes n (s.aS d).toNat))
  ∧ (A.toNat % g = 0 → A.toNat + g ≤ 98304 → s.lsHeld i A.toNat g = false →
    StoresLocal s (exec (.vst vd a imm) s) A.toNat (leBytes g (s.aV vd)))
  ∧ (A.toNat % n = 0 → A.toNat + n ≤ 98304 → s.lsHeld i A.toNat n = true → Holds s (exec (.st k d a imm) s) .waitMem .range)
  ∧ (A.toNat % g = 0 → A.toNat + g ≤ 98304 → s.lsHeld i A.toNat g = true → Holds s (exec (.vst vd a imm) s) .waitMem .range)
  ∧ (A.toNat % n ≠ 0 → FaultsAtIssue s (exec (.st k d a imm) s) 2 0)
  ∧ (A.toNat % n = 0 → A.toNat + n > 98304 → FaultsAtIssue s (exec (.st k d a imm) s) 3 0)
  ∧ (A.toNat % g ≠ 0 → FaultsAtIssue s (exec (.vst vd a imm) s) 2 0)
  ∧ (A.toNat % g = 0 → A.toNat + g > 98304 → FaultsAtIssue s (exec (.vst vd a imm) s) 3 0)

/-- `vldx` and `vstx` move each active element to or from A[e] = sa + ZeroExt(vi[e], 64) × size, once every active address has been
checked; inactive elements of vd stay, and of elements that share an address the higher stands in memory (R144). -/
def Obligations.LocalIndexed : Prop := ∀ (s : State) (w : EW) (vd : VReg) (sa : SReg) (vi : VReg) (m : MReg),
  let i := s.cur.core
  let n := w.bits / 8
  let act := idxActive s w m
  let A := idxAddr s w sa vi
  let b := physBase s.myCore.mode s.cur.ctx vd.toNat
  ((s.aS sa).toNat % n = 0 → (∀ e, act e = true → A e + n ≤ 98304) →
    ((∀ e, act e = true → s.lsTraps i (A e) n = false ∧ s.lsSnuffs i (A e) n = false) →
      ∃ t, exec (.vldx w vd sa vi m) s = .next t ∧ OnlyCtxV s t i s.cur.ctx ∧ SameBytes s t
        ∧ (∀ e, e < vlen s.myCore.mode w.bits → elem w.bits (t.liveV vd) e =
            if act e then lsNum s i (A e) n else elem w.bits (s.aV vd) e)
        ∧ (∀ p, ¬ (b ≤ p ∧ p < b + modeG s.myCore.mode) → t.phys i p = s.phys i p)
        ∧ t.me = { s.me with vRes := t.me.vRes })
    ∧ ((∀ e, act e = true → s.lsHeld i (A e) n = false) →
      ∃ t, exec (.vstx w vd sa vi m) s = .next t ∧ OnlyCore s t i
        ∧ (∀ e, act e = true → (∀ e', act e' = true → e < e' → A e' ≠ A e) → lsNum t i (A e) n = elem w.bits (s.aV vd) e)
        ∧ (∀ p, (∀ e, act e = true → ¬ (A e ≤ p ∧ p < A e + n)) → t.lsByte i p = s.lsByte i p)
        ∧ (∀ d, d ≠ s.cur.ctx → t.cx i d = s.cx i d) ∧ t.me = { s.me with stRes := t.me.stRes }
        ∧ t.myCore = { s.myCore with
            ctxs := t.myCore.ctxs, ls := t.myCore.ls, lsBad := t.myCore.lsBad, lsLatent := t.myCore.lsLatent
            pair := t.myCore.pair }))
  ∧ ((s.aS sa).toNat % n ≠ 0 →
    FaultsAtIssue s (exec (.vldx w vd sa vi m) s) 2 0 ∧ FaultsAtIssue s (exec (.vstx w vd sa vi m) s) 2 0)
  ∧ ((s.aS sa).toNat % n = 0 → (∃ e, act e = true ∧ A e + n > 98304) →
    FaultsAtIssue s (exec (.vldx w vd sa vi m) s) 3 0 ∧ FaultsAtIssue s (exec (.vstx w vd sa vi m) s) 3 0)

/-- `vext`, opcode 0x34, writes element IDX of va, sign- or zero-extended; `rdtime` TIME; `rdcsr` the CSR of Table 5.7 as it stood before the
bundle; `nop` and `vnop` do nothing (R154, R156, R64, R158). -/
def Obligations.ScalarReads : Prop := ∀ (s : State) (d : SReg) (va : VReg) (idx : BitVec 8) (ty : VxTy) (n : BitVec 4),
  GivesS s (exec (.vext ty d va idx) s) d (pickedValue ty (s.aV va) idx.toNat) ∧ Clause.opA (.vext ty d va idx) = some 0x34
  ∧ GivesS s (exec (.rdtime d) s) d (BitVec.ofNat 64 s.time)
  ∧ (n.toNat ≤ 4 → GivesS s (exec (.rdcsr d n) s) d
      (match n.toNat with
       | 0 => s.me.snap.flags
       | 1 => s.me.snap.rmode.zeroExtend 64
       | 2 => s.me.snap.seed.zeroExtend 64
       | 3 => s.me.txstat
       | _ => BitVec.ofNat 64 (s.cur.core * 16 + s.cur.ctx)))
  ∧ exec .nop s = .next s ∧ exec .vnop s = .next s

/-- `wrcsr` writes FLAGS bits [4:0], a rounding code of RMODE or SRSEED, a zero of which becomes 0x9E37_79B9; a code above 4 raises ILL
(R64, R96, R156). `trap` completes: the context is FAULTED with cause TRAP and the code in DETAIL, and its latch holds a `nop` with the
S of the bundle; in a transaction it aborts (R157, R286). -/
def Obligations.WrcsrTrap : Prop := ∀ (s : State) (sa : SReg) (code : BitVec 16),
  let v := s.aS sa
  let sets := fun (n : BitVec 4) (f : Ctx) => ∃ t, exec (.wrcsr n sa) s = .next t ∧ OnlyCtx s t s.cur.core s.cur.ctx
    ∧ SameBytes s t ∧ t.me = f
  sets 0 { s.me with flags := v &&& 0x1F }
  ∧ (v.toNat ≤ 4 → sets 1 { s.me with rmode := v.setWidth 3 })
  ∧ (4 < v.toNat → FaultsAtIssue s (exec (.wrcsr 1 sa) s) 1 0)
  ∧ sets 2 { s.me with seed := if v.setWidth 32 = 0#32 then 0x9E3779B9 else v.setWidth 32, seedSet := true }
  ∧ (∀ n : BitVec 4, 3 ≤ n.toNat → FaultsAtIssue s (exec (.wrcsr n sa) s) 1 0)
  ∧ ∃ t, exec (.trap code) s = .next t ∧
      match s.me.txn with
      | none => FaultedWith s t
          { cause := 11, pc := s.me.irPc, detail := code.zeroExtend 40, bundle := s.me.ir &&& 0x8000000000000000 } false false
      | some x => AbortedWith s t x 6 11 false 0

/-! ### Global accesses -/

/-- A global load at va = sa + SignExt(imm8, 64) × scale that its tile buffer does not serve leaves for its serving slice, and the
context waits in WAIT.MEM for the reply: not a relaxed one without acquire. A store carries the low bytes of sd, or the group; a release
store leaves when what came before it is performed at its scope; `.nt` stores and relaxed ones do not wait (R145–R149). A misaligned va
raises ALIGN, and otherwise va [63:48] ≠ 0 PROT (R138). -/
def Obligations.GlobalLoadsStores : Prop := ∀ (s : State) (k : LdK) (z : StK) (rx : Bool) (sc : Option Scope) (d a : SReg) (vd : VReg)
    (imm : BitVec 8),
  let w := me' s
  let at' := fun (n : Nat) => s.aS a + imm.signExtend 64 * BitVec.ofNat 64 n
  let g := 64 * modeG s.myCore.mode
  let goes := fun (i : Instr) (va : Word) (n : Nat) (ready : Prop) (q : Req) (wait : Bool) =>
    (va.toNat % n = 0 → va.toNat < 2 ^ 48 → Alone s → ready → tileServes s.myCore q = false → IssuesGlobal s (exec i s) q wait)
    ∧ (va.toNat % n ≠ 0 → FaultsAt s (exec i s) 2 0 (va.toNat / 256 % 2 ^ 40))
    ∧ (va.toNat % n = 0 → 2 ^ 48 ≤ va.toNat → FaultsAt s (exec i s) 3 0 (va.toNat / 256 % 2 ^ 40))
  let st := fun (bs : List Byte) (va : Word) (nt : Bool) =>
    { Req.new w (.store bs) va.toNat bs.length .none with nt := nt, relaxed := rx || nt }
  let wd := leBytes z.size (s.aS d).toNat
  let vw := leBytes g (s.aV vd)
  goes (.gld k rx sc d a imm) (at' k.size) k.size True
    { Req.new w (.load k.size) (at' k.size).toNat k.size (.s d k) with relaxed := rx && sc.isNone } (!(rx && sc.isNone))
  ∧ goes (.gvld rx sc vd a imm) (at' 64) g True
    { Req.new w (.load g) (at' 64).toNat g (.v vd) with relaxed := rx && sc.isNone } (!(rx && sc.isNone))
  ∧ goes (.gst z rx sc d a imm) (at' z.size) z.size (Releases s sc) (st wd (at' z.size) false) (!rx)
  ∧ goes (.gvst rx sc vd a imm) (at' 64) g (Releases s sc) (st vw (at' 64) false) (!rx)
  ∧ goes (.gstNt z rx d a imm) (at' z.size) z.size True (st wd (at' z.size) true) false
  ∧ goes (.gvstNt rx vd a imm) (at' 64) g True (st vw (at' 64) true) false

/-- `ga.op` leaves for the home of va = sa with its function, operand sb and, for `cas`, the expected value sd, and always waits for the
old value in sd; with release order it leaves when what came before is performed (R150, R149). -/
def Obligations.GlobalAtomics : Prop := ∀ (s : State) (w64 : Bool) (o : GaOrd) (d a b : SReg),
  let va := s.aS a
  let n := if w64 then 8 else 4
  let goes := fun (i : Instr) (fn : Nat) =>
    (va.toNat % n = 0 → va.toNat < 2 ^ 48 → Alone s →
      Releases s (match o with | .rel sc | .acqRel sc => some sc | _ => none) →
      IssuesGlobal s (exec i s)
        (Req.new (me' s) (.atomic n fn (s.aS b) (s.aS d)) va.toNat n (.s d (if w64 then .d64 else .i32))) true)
    ∧ (va.toNat % n ≠ 0 → FaultsAt s (exec i s) 2 0 (va.toNat / 256 % 2 ^ 40))
    ∧ (va.toNat % n = 0 → 2 ^ 48 ≤ va.toNat → FaultsAt s (exec i s) 3 0 (va.toNat / 256 % 2 ^ 40))
  goes (.gaAdd w64 o d a b) 0 ∧ goes (.gaMin w64 o d a b) 1 ∧ goes (.gaMax w64 o d a b) 2 ∧ goes (.gaMinu w64 o d a b) 3
  ∧ goes (.gaMaxu w64 o d a b) 4 ∧ goes (.gaAnd w64 o d a b) 5 ∧ goes (.gaOr w64 o d a b) 6 ∧ goes (.gaXor w64 o d a b) 7
  ∧ goes (.gaSwap w64 o d a b) 8 ∧ goes (.gaCas w64 o d a b) 9

/-- `lcall` leaves with the request words sb to sb + KN and waits for its results; inside a transaction it aborts it with UNSAFE
(R151). -/
def Obligations.RoutineCalls : Prop := ∀ (s : State) (d a b : SReg) (rid : BitVec 8) (kn rn : BitVec 2),
  let va := s.aS a
  let ws := (List.range (kn.toNat + 1)).map (fun k => s.aS (BitVec.ofNat 4 (b.toNat + k)))
  let i := Instr.lcall d a b rid kn rn
  (va.toNat % 64 = 0 → va.toNat < 2 ^ 48 → Alone s →
    IssuesGlobal s (exec i s) (Req.new (me' s) (.lcall rid.toNat rn.toNat ws) va.toNat 64 (.words d rn.toNat)) true)
  ∧ (∀ x, va.toNat % 64 = 0 → va.toNat < 2 ^ 48 → s.me.txn = some x → AbortsHere s (exec i s) x 5 0 (va.toNat / 256))
  ∧ (va.toNat % 64 ≠ 0 → FaultsAt s (exec i s) 2 0 (va.toNat / 256 % 2 ^ 40))
  ∧ (va.toNat % 64 = 0 → 2 ^ 48 ≤ va.toNat → FaultsAt s (exec i s) 3 0 (va.toNat / 256 % 2 ^ 40))

/-! ### Transactions -/

/-- `xred` acts at once outside a transaction, as the atomic of its operation and type without a result, and is recorded inside one:
the 65th record, and one into a granule the transaction neither read nor wrote, are told apart (R153, R281). -/
def Obligations.Reductions : Prop := ∀ (s : State) (ty : XTy) (a b : SReg),
  let va := s.aS a
  let n := match ty with | .i64 | .n64 => 8 | _ => 4
  let goes := fun (i : Instr) (fn : Nat) =>
    (va.toNat % n = 0 → va.toNat < 2 ^ 48 → Alone s →
      IssuesGlobal s (exec i s) (Req.new (me' s) (.atomic n fn (s.aS b) 0) va.toNat n .none) true)
    ∧ (∀ x, va.toNat % n = 0 → va.toNat < 2 ^ 48 → s.me.txn = some x → x.recs.length < 64 →
      (∀ e, e ∈ x.rset ++ x.wset → e.1 ≠ va.toNat / 256) →
      ∃ t, exec i s = .next t ∧ OnlyCtx s t s.cur.core s.cur.ctx
        ∧ t.me = { s.me with
            txn := some { x with recs := x.recs ++ [{ va := va.toNat, fn := fn, ty := ty, val := s.aS b }] } })
    ∧ (∀ x, va.toNat % n = 0 → va.toNat < 2 ^ 48 → s.me.txn = some x → 64 ≤ x.recs.length →
      (∀ e, e ∈ x.wset → e.1 ≠ va.toNat / 256) → AbortsHere s (exec i s) x 2 0 (va.toNat / 256))
    ∧ (va.toNat % n ≠ 0 → FaultsAt s (exec i s) 2 0 (va.toNat / 256 % 2 ^ 40))
    ∧ (va.toNat % n = 0 → 2 ^ 48 ≤ va.toNat → FaultsAt s (exec i s) 3 0 (va.toNat / 256 % 2 ^ 40))
  goes (.xredAdd ty a b) (if ty = .f32 then 0x20 else 0)
  ∧ goes (.xredMin ty a b) (match ty with | .f32 => 0x21 | .i32 | .i64 => 1 | _ => 3)
  ∧ goes (.xredMax ty a b) (match ty with | .f32 => 0x22 | .i32 | .i64 => 2 | _ => 4)
  ∧ (ty ≠ .f32 → goes (.xredOr ty a b) 6)

/-- `xbegin` at D = 0, with every earlier access performed, opens a transaction on the registers before the bundle, of age the latch or
TIME, core and context, that aborts to BLK × 128; at D from 1 to 7 it adds 1 to D, and at D = 8 it aborts with NEST. `xabort` aborts with
EXPLICIT and its code, its V-slot still acting (R273), and has no effect at D = 0; `xtest` writes D. In a light handler `xbegin`, `xend` and
`xabort` raise ILLCTX (R152, R269, R271, R272). -/
def Clause.TransactionOps : Prop := ∀ (s : State) (blk : BitVec 10) (code : BitVec 8) (d : SReg),
  (s.me.handler = none → s.me.txn = none → s.myCore.pair.on = false → Performed s .dv →
    ∃ t x, exec (.xbegin blk) s = .next t ∧ OnlyCtx s t s.cur.core s.cur.ctx
      ∧ t.me = { s.me with txn := some x, age := t.me.age }
      ∧ x.depth = 1 ∧ x.ckS = s.me.snap.s ∧ x.ckM = s.me.snap.m ∧ x.target.toNat = blk.toNat * 128
      ∧ x.age = s.me.age.getD ⟨s.time, s.cur.core, s.cur.ctx⟩ ∧ x.rset = [] ∧ x.wset = [] ∧ x.spec = [] ∧ x.recs = []
      ∧ t.me.age = some x.age)
  ∧ (∀ x, s.me.handler = none → s.me.txn = some x → x.depth < 8 →
    ∃ t, exec (.xbegin blk) s = .next t ∧ OnlyCtx s t s.cur.core s.cur.ctx
      ∧ t.me = { s.me with txn := some { x with depth := x.depth + 1 } })
  ∧ (∀ x, s.me.handler = none → s.me.txn = some x → 8 ≤ x.depth → AbortsHere s (exec (.xbegin blk) s) x 4 0 0)
  ∧ (∀ x, s.me.handler = none → s.me.txn = some x → AbortsHere s (exec (.xabort code) s) x 3 code.toNat 0)
  ∧ (s.me.handler = none → s.me.txn = none → exec (.xabort code) s = .next s)
  ∧ GivesS s (exec (.xtest d) s) d (match s.me.txn with | some x => BitVec.ofNat 64 x.depth | none => 0)
  ∧ (s.me.handler ≠ none → FaultsAtIssue s (exec (.xbegin blk) s) 6 0 ∧ FaultsAtIssue s (exec .xend s) 6 0
      ∧ FaultsAtIssue s (exec (.xabort code) s) 6 0)

/-- `xend` at D > 1 takes 1 from D and at D = 0 raises ILLCTX. At D = 1 it commits and the context waits in WAIT.MEM: with nothing
written the commit point is now, TXSTAT and the age latch are cleared and the reply comes after 26 cycles; with records left it claims
each reduced granule first (R152, R282, R284). -/
def Clause.Commit : Prop := ∀ (s : State),
  (∀ x, s.me.handler = none → s.me.txn = some x → 1 < x.depth →
    ∃ t, exec .xend s = .next t ∧ OnlyCtx s t s.cur.core s.cur.ctx
      ∧ t.me = { s.me with txn := some { x with depth := x.depth - 1 } })
  ∧ (s.me.handler = none → s.me.txn = none → FaultsAtIssue s (exec .xend s) 6 0)
  ∧ (∀ x, s.me.handler = none → s.me.txn = some x → x.depth ≤ 1 → s.myCore.pair.on = false → x.recs = [] → x.wset = [] →
    ∃ t r, exec .xend s = .next t ∧ t.me.txn = none ∧ t.me.txstat = 0 ∧ t.me.age = none ∧ t.me.st = .waitMem
      ∧ t.me.wait = .reply r ∧ (s.time + 26, Ev.globalReply r) ∈ t.agenda ∧ t.me.s = s.me.s ∧ t.me.m = s.me.m ∧ SameBytes s t)
  ∧ (∀ x, s.me.handler = none → s.me.txn = some x → x.depth ≤ 1 → s.myCore.pair.on = false → x.recs = [] → x.wset ≠ [] →
    ∃ t r, exec .xend s = .next t ∧ t.me.st = .waitMem ∧ t.me.wait = .reply r ∧ t.me.s = s.me.s ∧ t.me.m = s.me.m ∧ SameBytes s t
      ∧ ∀ e, e ∈ x.wset → ∃ d, (d, Ev.txCommitMessage s.cur.core s.cur.ctx (homeSlice (e.2 * 256))) ∈ t.agenda)

/-- Transactions: `xbegin`, `xend`, `xabort`, `xtest` and the commit (R152, R269, R271, R272, R282, R284). -/
def Obligations.Transactions : Prop := Clause.TransactionOps ∧ Clause.Commit

/-! ### Fences -/

/-- A fence with nothing outstanding completes at issue; `fence.sy` then reports the context's lost or refused window stores and clears
the record. Otherwise it waits in WAIT.MEM. Inside a transaction a fence completes at issue (R155). -/
def Obligations.SlotFences : Prop := ∀ (s : State) (d : SReg),
  let waits := fun (i : Instr) (sc : Scope) (sd : Option SReg) =>
    s.me.txn = none → s.myCore.pair.on = false → ¬ Performed s sc →
      ∃ t, exec i s = .next t ∧ OnlyCtx s t s.cur.core s.cur.ctx ∧ t.me = { s.me with st := .waitMem, wait := .fence sc sd }
  (s.myCore.pair.on = false → (s.me.txn ≠ none ∨ Performed s .cl) → exec .fenceClA s = .next s)
  ∧ (s.myCore.pair.on = false → (s.me.txn ≠ none ∨ Performed s .dv) → exec .fenceDvA s = .next s)
  ∧ (Alone s → Performed s .sy →
    ∃ t, exec (.fenceSyA d) s = .next t ∧ OnlyCtx s t s.cur.core s.cur.ctx
      ∧ (∀ r, t.me.rs r = if r ≠ 0 ∧ r = d then (if s.me.lost then 5 else if s.me.refused then 6 else 0) else s.me.rs r)
      ∧ t.me = { s.me with
          s := t.me.s, sBad := (if d = 0 then s.me.sBad else s.me.sBad.erase d.toNat), sWrote := t.me.sWrote, aRes := t.me.aRes
          lost := false, refused := false })
  ∧ waits .fenceClA .cl none ∧ waits .fenceDvA .dv none ∧ waits (.fenceSyA d) .sy (some d)

/-! ### Queues, barriers and tasks -/

/-- `qpop`, `qtrypop` and `qpeek` read the head of an inbound queue, the first two taking it out; a tagged head taken with HEN = 1 calls
the light handler; an empty queue holds `qpop` in WAIT.Q and gives the others status 0. `qpush` and `qtrypush` append sd to an outbound
queue of a stream and hold, or give 0, when there is no room. The wrong direction raises ILLCTX, and so do `qpop` and `qpush` in a light
handler; but a wait goes on though the queue is unbound meanwhile (R133, R268, R269, R60). -/
def Obligations.QueueSlotOps : Prop := ∀ (s : State) (d e : SReg) (n : BitVec 3),
  let x := s.myCore.q n.toNat
  let calls := fun (h : QElem) (t : State) =>
    t.me.pendHandler = if h.tag = true ∧ x.hen = true ∧ s.me.handler = none ∧ s.me.pendHandler = none then some n.toNat
      else s.me.pendHandler
  let left := fun (l : List QElem) (t : State) => (t.myCore.q n.toNat).elems = l
  (∀ h l, x.inbound = true → x.elems = h :: l → s.myCore.qBad.contains h.ord = false →
    (s.me.handler = none → SlotGives s (exec (.qpop d n) s) (wrote2 s d h.v none) (fun t => left l t ∧ calls h t))
    ∧ SlotGives s (exec (.qtrypop d e n) s) (wrote2 s d h.v (some (e, 1))) (fun t => left l t ∧ calls h t)
    ∧ SlotGives s (exec (.qpeek d e n) s) (wrote2 s d h.v (some (e, if h.tag then 3 else 1)))
        (fun t => left x.elems t ∧ t.me.pendHandler = s.me.pendHandler))
  ∧ (x.inbound = true → x.elems = [] →
    (s.me.handler = none → Holds s (exec (.qpop d n) s) .waitQ (.queue n.toNat))
    ∧ GivesS s (exec (.qtrypop d e n) s) e 0 ∧ GivesS s (exec (.qpeek d e n) s) e 0)
  ∧ (x.inbound = false → (s.me.wait ≠ .queue n.toNat → FaultsAtIssue s (exec (.qpop d n) s) 6 0)
      ∧ (s.me.wait = .queue n.toNat → Holds s (exec (.qpop d n) s) .waitQ (.queue n.toNat))
      ∧ FaultsAtIssue s (exec (.qtrypop d e n) s) 6 0 ∧ FaultsAtIssue s (exec (.qpeek d e n) s) 6 0)
  ∧ (x.src = 6 → x.out = true → x.room ≠ 0 →
    let put := left (x.elems ++ [{ v := s.aS d, tag := false, ord := s.myCore.qOrd }])
    (s.me.handler = none → SlotGives s (exec (.qpush d n) s) s.me.rs put)
    ∧ SlotGives s (exec (.qtrypush d e n) s) (fun r => if r ≠ 0 ∧ r = e then 1 else s.me.rs r) put)
  ∧ (x.src ≠ 0 → x.out = true → x.room = 0 →
    (s.me.handler = none → Holds s (exec (.qpush d n) s) .waitQ (.queue n.toNat)) ∧ GivesS s (exec (.qtrypush d e n) s) e 0)
  ∧ ((x.src = 0 ∨ x.out = false) → (s.me.wait ≠ .queue n.toNat → FaultsAtIssue s (exec (.qpush d n) s) 6 0)
      ∧ (s.me.wait = .queue n.toNat → Holds s (exec (.qpush d n) s) .waitQ (.queue n.toNat))
      ∧ FaultsAtIssue s (exec (.qtrypush d e n) s) 6 0)
  ∧ (s.me.handler ≠ none → s.me.wait ≠ .queue n.toNat → FaultsAtIssue s (exec (.qpop d n) s) 6 0 ∧ FaultsAtIssue s (exec (.qpush d n) s) 6 0)

/-- Over a link, an element pushed into an empty outbound queue whose neighbour of the same launch has room arrives there 4 cycles later,
and holds a place there until then (R268). -/
def Clause.LinkPush : Prop := ∀ (s : State) (d : SReg) (n : BitVec 3) (j b : Nat),
  let x := s.myCore.q n.toNat
  s.me.handler = none → x.out = true → 1 ≤ x.src → x.src ≤ 4 → x.elems = [] → x.reserved = 0 →
  (∀ k, k < 8 → k ≠ n.toNat → (s.myCore.q k).elems = []) →
  neighbour s.cur.core x.src = some j → s.sameLaunch s.cur.core j = true → s.lau.deadClusters.contains (clusterOf j) = false →
  (s.core j).inboundFrom (opposite x.src) = some b → ((s.core j).q b).room ≠ 0 → j ≠ s.cur.core →
    ∃ t, exec (.qpush d n) s = .next t ∧ (s.time + 4, Ev.queueDelivery j b (s.aS d) false) ∈ t.agenda
      ∧ (t.myCore.q n.toNat).elems = [] ∧ ((t.core j).q b).reserved = ((s.core j).q b).reserved + 1
      ∧ ((t.core j).q b).elems = ((s.core j).q b).elems

/-- `q.bind` binds a free queue register to a link, an index stream or a job stream and returns OK; SRC = 0 unbinds it, which drops its
elements; a second binding is REFUSED, and a number above 7, a link that does not exist or a bad field is BADARG (R132). -/
def Clause.QueueBinding : Prop := ∀ (s : State) (rd r1 r2 : XReg),
  let n := (s.xr r1).toNat
  let w := s.xr r2
  let src := w.toNat % 8
  let out := w.getLsbD 3
  let bad := n > 7 ∨ src = 7 ∨ (src = 5 ∧ out = true) ∨ (1 ≤ src ∧ src ≤ 4 ∧ neighbour s.cur.core src = none)
    ∨ (w.toNat / 256 % 16 ≠ 0 ∧ src ≠ 6)
  let i := Instr.qBind rd r1 r2
  s.myCore.pair.on = false →
    (bad → GivesX s (exec i s) rd 2)
    ∧ (¬ bad → src = 0 → EndsWith s (exec i s) rd 0 (fun t => (t.myCore.q n).bind = 0 ∧ (t.myCore.q n).elems = [] ∧ SameBytes s t))
    ∧ (¬ bad → src ≠ 0 → (s.myCore.q n).src ≠ 0 → GivesX s (exec i s) rd 1)
    ∧ (¬ bad → 5 ≤ src → (s.myCore.q n).src = 0 →
      EndsWith s (exec i s) rd 0 (fun t =>
        t.myCore.q n = { s.myCore.q n with bind := w &&& 0xF0F } ∧ SameBytes s t))

/-- `q.bind`, and the pushes of elements over a link (R132, R268). -/
def Obligations.QueueLinks : Prop := Clause.QueueBinding ∧ Clause.LinkPush

/-- `bar.init` and `bar.bind` set a barrier in which nothing has arrived and no phase awaits release; `bar.test` tells whether the phase
the thread joined is released; bad numbers return BADARG and a barrier in use REFUSED (R55, R130, R131). -/
def Clause.BarrierSetup : Prop := ∀ (s : State) (rd r1 r2 : XReg),
  let b := (s.xr r1).toNat
  let e := (s.xr r2).toNat
  let x := s.myCore.bar b
  let keeps := fun (t : State) => SameBytes s t ∧ ∀ k, k ≠ b → t.myCore.bar k = s.myCore.bar k
  let joined := (sfind s.myCore.ct.joined b).getD x.phase
  ((47 < b ∨ e = 0 ∨ 17 < e) → GivesX s (exec (.barInit rd r1 r2) s) rd 2)
  ∧ (b ≤ 47 → 1 ≤ e → e ≤ 17 → x.quiet = false → GivesX s (exec (.barInit rd r1 r2) s) rd 1)
  ∧ (b ≤ 47 → 1 ≤ e → e ≤ 17 → x.quiet = true →
    EndsWith s (exec (.barInit rd r1 r2) s) rd 0 (fun t => t.myCore.bar b = { x with expect := e } ∧ keeps t))
  ∧ (b ≤ 47 → s.xr r2 = BitVec.allOnes 64 → x.quiet = true →
    EndsWith s (exec (.barBind rd r1 r2) s) rd 0 (fun t => t.myCore.bar b = { x with group := none } ∧ keeps t))
  ∧ (∀ g, b ≤ 47 → s.groupOf s.cur.core e = some g → g.members.contains s.cur.core = true → s.xr r2 ≠ BitVec.allOnes 64 →
    x.quiet = true → s.myCore.bars.any (fun p => p.1 ≠ b && p.2.group = some e) = false →
    EndsWith s (exec (.barBind rd r1 r2) s) rd 0 (fun t => t.myCore.bar b = { x with group := some e } ∧ keeps t))
  ∧ (b ≤ 47 → x.quiet = false → s.xr r2 = BitVec.allOnes 64 → GivesX s (exec (.barBind rd r1 r2) s) rd 1)
  ∧ (47 < b → GivesX s (exec (.barBind rd r1 r2) s) rd 2 ∧ GivesX s (exec (.barTest rd r1) s) rd 2)
  ∧ (b ≤ 47 → GivesX s (exec (.barTest rd r1) s) rd (if x.isReleased joined then 1 else 0))

/-- An arrival counts at its barrier and returns the phase it joined; the one that closes the phase resets the count, moves to the next
phase and, without a group, releases it 3 cycles later. A wait for a phase that is released ends, another waits: the control thread
tries again, a context is in WAIT.BAR. A barrier that was never initialised gives all ones, and ILLCTX in the A-slot (R53, R131). -/
def Clause.BarrierOps : Prop := ∀ (s : State) (rd r1 : XReg) (n : BitVec 6),
  let arrived := fun (b : Nat) (t : State) =>
    let x := s.myCore.bar b
    (x.arrived + 1 < x.expect → t.myCore.bar b = { x with arrived := x.arrived + 1 })
    ∧ (x.expect ≤ x.arrived + 1 → t.myCore.bar b = { x with arrived := 0, phase := x.phase + 1 }
        ∧ (x.group = none → (s.time + 3, Ev.barrierRelease s.cur.core b) ∈ t.agenda))
    ∧ (∀ k, k ≠ b → t.myCore.bar k = s.myCore.bar k)
  let b := (s.xr r1).toNat
  let x := s.myCore.bar b
  let a := s.myCore.bar n.toNat
  let p := (sfind s.myCore.ct.joined b).getD x.phase
  let pa := (sfind s.me.joined n.toNat).getD a.phase
  (b ≤ 47 → x.expect ≠ 0 → EndsWith s (exec (.barArrive rd r1) s) rd (x.phase.zeroExtend 64) (fun t => arrived b t ∧ SameBytes s t))
  ∧ ((47 < b ∨ x.expect = 0) → GivesX s (exec (.barArrive rd r1) s) rd (BitVec.allOnes 64))
  ∧ (a.expect ≠ 0 → SlotGives s (exec (.barArriveA n) s) s.me.rs (fun t => arrived n.toNat t ∧ sfind t.me.joined n.toNat = some a.phase))
  ∧ (a.expect = 0 → FaultsAtIssue s (exec (.barArriveA n) s) 6 0)
  ∧ (47 < b → GivesX s (exec (.barWait rd r1) s) rd 2)
  ∧ (b ≤ 47 → x.isReleased p = true → EndsWith s (exec (.barWait rd r1) s) rd 0 (fun t => sfind t.myCore.ct.joined b = none ∧ SameBytes s t))
  ∧ (b ≤ 47 → x.isReleased p = false → CtRetries s (exec (.barWait rd r1) s))
  ∧ (s.me.handler = none → s.me.wait = .none → a.isReleased pa = true →
    SlotGives s (exec (.barWaitA n) s) s.me.rs (fun t => sfind t.me.joined n.toNat = none))
  ∧ (s.me.handler = none → s.me.wait = .none → a.isReleased pa = false →
    Holds s (exec (.barWaitA n) s) .waitBar (.bar n.toNat pa))
  ∧ (s.me.handler ≠ none → FaultsAtIssue s (exec (.barWaitA n) s) 6 0)

/-- The barrier instructions of the control thread and of the A-slot (R53, R55, R130, R131). -/
def Obligations.Barriers : Prop := Clause.BarrierSetup ∧ Clause.BarrierOps

/-- A push with room puts the eight words at the address, as a record, at the near end of the deque of its PRI field, and its ranges in
the cluster's window; from the control thread it returns OK, BADARG for a bad address or word 0, and FULL without room (R125, R299). An
uncorrectable word of the record that the policy traps raises exception 26, or SEVERITY (R323); the A-slot waits for records that come back
to the deque (R300). -/
def Clause.TaskPush : Prop := ∀ (s : State) (rd r1 : XReg) (a : SReg),
  let has := fun (i ad : Nat) (t : State) =>
    let ws := s.taskWords i ad
    let p := (ws.getD 0 0).toNat / 2 ^ 62
    sget [] (t.core i).deques p = { words := ws, owner := i, key := s.jobs.nextKey } :: sget [] (s.core i).deques p
      ∧ (t.cluster (clusterOf i)).win = (s.cluster (clusterOf i)).win ++ rangeEntries false s.jobs.nextKey (ws.drop 4)
      ∧ SameBytes s t
  let room := fun (i ad : Nat) =>
    let ws := s.taskWords i ad
    (sget [] (s.core i).deques ((ws.getD 0 0).toNat / 2 ^ 62)).length < 16
      ∧ (s.cluster (clusterOf i)).win.length + (rangeEntries false s.jobs.nextKey (ws.drop 4)).length ≤ 64
  let i := s.cur.core
  let ad := (s.xr r1).toNat
  let aa := (s.aS a).toNat
  let good := fun (d : Nat) => taskWordOk ((s.taskWords i d).getD 0 0) = true
  let clean := fun (d : Nat) => s.lsTraps i d 64 = false ∧ s.lsSnuffs i d 64 = false
  let refill := sget 0 s.myCore.refill (((s.taskWords i aa).getD 0 0).toNat / 2 ^ 62)
  (s.myCore.pair.on = false → ad % 64 = 0 → ad < 98304 → clean ad → good ad → room i ad →
    EndsWith s (exec (.taskPush rd r1) s) rd 0 (has i ad))
  ∧ (s.myCore.pair.on = false → (ad % 64 ≠ 0 ∨ 98304 ≤ ad ∨ (clean ad ∧ ¬ good ad)) → GivesX s (exec (.taskPush rd r1) s) rd 2)
  ∧ (s.myCore.pair.on = false → ad % 64 = 0 → ad < 98304 → s.lsTraps i ad 64 = true →
    CtTraps s (exec (.taskPush rd r1) s) 26 (BitVec.ofNat 64 ad))
  ∧ (s.myCore.pair.on = false → ad % 64 = 0 → ad < 98304 → clean ad → good ad →
    64 < (s.cluster (clusterOf i)).win.length + (rangeEntries false s.jobs.nextKey ((s.taskWords i ad).drop 4)).length →
    GivesX s (exec (.taskPush rd r1) s) rd 4)
  ∧ (s.me.txn = none → aa % 64 = 0 → aa < 98304 → clean aa → good aa → refill ≤ s.time → room i aa →
    SlotGives s (exec (.taskPushA a) s) s.me.rs (has i aa))
  ∧ (s.me.txn = none → aa % 64 = 0 → aa < 98304 → clean aa → good aa → s.time < refill → Holds s (exec (.taskPushA a) s) .waitMem .range)
  ∧ (s.me.txn = none → aa % 64 = 0 → aa < 98304 → clean aa → ¬ good aa → FaultsAtIssue s (exec (.taskPushA a) s) 6 0)
  ∧ (s.me.txn = none → aa % 64 = 0 → aa < 98304 → s.lsTraps i aa 64 = true → FaultsAtIssue s (exec (.taskPushA a) s) 5 (lsSevDetail aa))
  ∧ (aa % 64 ≠ 0 → FaultsAtIssue s (exec (.taskPushA a) s) 2 0)
  ∧ (aa % 64 = 0 → 98304 ≤ aa → FaultsAtIssue s (exec (.taskPushA a) s) 3 0)

/-- A pop takes the ready record of the highest deque that is nearest its near end: the control thread's 64 bytes of local store, or s8 to
s15 of a context, hold its words. With none ready `task.trypop` answers EMPTY, or 0, and `task.pop` waits. A party that already has a task
gets REFUSED, or ILLCTX (R126, R300). This is of a deque with nothing in its spill queue; an operation that waits first waits for records
still on their way back to the deque. -/
def Clause.TaskPop : Prop := ∀ (s : State) (rd r1 : XReg) (d : SReg),
  let i := s.cur.core
  let ad := (s.xr r1).toNat
  let words := fun (r : TaskRec) => (List.range 8).flatMap (fun k => leBytes 8 (r.words.getD k 0).toNat)
  let taken := fun (r : TaskRec) (t : State) =>
    t.myCore.ct.task = some r
      ∧ (∀ p, t.lsByte i p = if ad ≤ p ∧ p < ad + 64 then (words r).getD (p - ad) 0 else s.lsByte i p) ∧ t.mem = s.mem
  let regs := fun (r : TaskRec) (x : SReg) => if 8 ≤ x.toNat then r.words.getD (x.toNat - 8) 0 else s.me.rs x
  (∀ p r, s.myCore.pair.on = false → ad % 64 = 0 → ad < 98304 → s.myCore.ct.task = none → s.popChoice i = some (p, r) →
    r.words.length = 8 → sget [] s.myCore.spills p = [] →
    (s.lsHeld i ad 64 = false → sget 0 s.myCore.refill p ≤ s.time → EndsWith s (exec (.taskPop rd r1) s) rd 0 (taken r))
    ∧ ((s.lsHeld i ad 64 = true ∨ s.time < sget 0 s.myCore.refill p) → CtRetries s (exec (.taskPop rd r1) s))
    ∧ EndsWith s (exec (.taskTrypop rd r1) s) rd 0 (taken r))
  ∧ (s.myCore.pair.on = false → ad % 64 = 0 → ad < 98304 → s.myCore.ct.task = none → s.popChoice i = none →
    GivesX s (exec (.taskTrypop rd r1) s) rd 3 ∧ ∃ t, exec (.taskPop rd r1) s = .next t ∧ t.myCore.ct.wait = .retry)
  ∧ (s.myCore.pair.on = false → (ad % 64 ≠ 0 ∨ 98304 ≤ ad) →
    GivesX s (exec (.taskPop rd r1) s) rd 2 ∧ GivesX s (exec (.taskTrypop rd r1) s) rd 2)
  ∧ (s.myCore.pair.on = false → ad % 64 = 0 → ad < 98304 → s.myCore.ct.task ≠ none →
    GivesX s (exec (.taskPop rd r1) s) rd 1 ∧ GivesX s (exec (.taskTrypop rd r1) s) rd 1)
  ∧ (∀ p r, s.me.txn = none → s.me.task = none → s.popChoice i = some (p, r) → sget [] s.myCore.spills p = [] →
    s.time < sget 0 s.myCore.refill p → (s.me.handler = none → Holds s (exec .taskPopA s) .waitQ .taskPop)
      ∧ Holds s (exec (.taskTrypopA d) s) .waitMem .range)
  ∧ (∀ p r, s.me.txn = none → s.me.task = none → s.popChoice i = some (p, r) → sget [] s.myCore.spills p = [] →
    sget 0 s.myCore.refill p ≤ s.time → (s.me.handler = none → ∃ t, exec .taskPopA s = .next t ∧ (∀ x, t.me.rs x = regs r x) ∧ t.me.task = some r
      ∧ SameBytes s t)
    ∧ ∃ t, exec (.taskTrypopA d) s = .next t ∧ (∀ x, t.me.rs x = if x ≠ 0 ∧ x = d then 1 else regs r x) ∧ t.me.task = some r ∧ SameBytes s t)
  ∧ (s.me.txn = none → s.me.task = none → s.popChoice i = none → GivesS s (exec (.taskTrypopA d) s) d 0)
  ∧ (s.me.txn = none → s.me.task ≠ none → FaultsAtIssue s (exec .taskPopA s) 6 0 ∧ FaultsAtIssue s (exec (.taskTrypopA d) s) 6 0)

/-- `task.done` ends the party's task: its window entries go once the stores issued before are performed, which a retirement step of this
cycle begins to look for. Without a task it is REFUSED, or ILLCTX in the A-slot; in a transaction it aborts with UNSAFE (R127, R58). -/
def Clause.TaskDone : Prop := ∀ (s : State) (rd : XReg),
  let gone := fun (r : TaskRec) (agent : Nat) (t : State) =>
    (s.time, Ev.taskRetire (clusterOf r.owner) agent r.key s.nextReq) ∈ t.agenda ∧ SameBytes s t
  (∀ r, s.myCore.pair.on = false → s.myCore.ct.task = some r →
    EndsWith s (exec (.taskDone rd) s) rd 0 (fun t => t.myCore.ct.task = none ∧ gone r (s.cur.core * 32 + 16) t))
  ∧ (s.myCore.ct.task = none → GivesX s (exec (.taskDone rd) s) rd 1)
  ∧ (∀ r, s.me.txn = none → s.me.task = some r →
    SlotGives s (exec .taskDoneA s) s.me.rs (fun t => t.me.task = none ∧ gone r (s.cur.core * 32 + s.cur.ctx) t))
  ∧ (s.me.txn = none → s.me.task = none → FaultsAtIssue s (exec .taskDoneA s) 6 0)
  ∧ (∀ x, s.me.txn = some x → AbortsHere s (exec .taskDoneA s) x 5 0 0)

/-- The task instructions of the control thread and of the A-slot (R58, R125–R127, R299, R300). -/
def Obligations.Tasks : Prop := Clause.TaskPush ∧ Clause.TaskPop ∧ Clause.TaskDone

/-! ### The V-slot -/

/-- Floating-point operations: each active element is the operation on the elements of va, vb and, for the fused ones, vd, rounded once in
the rounding of the instruction, or that of RMODE, with one step of SRSEED under SR; inactive elements, other registers and memory stay
(R159, R160, R163–R166, R97, R98). -/
def Obligations.VectorFloat : Prop := ∀ (s : State) (f : Fmt) (rm : RM) (v : V3) (u : V2),
  let rnd := rndOf s.me.snap.rmode rm.rnd
  let sr := decide (rnd = .sr)
  let all := fun (_ : Nat) => sr
  let x := fun e => decodeF f (elem f.width (s.aV v.va) e)
  let y := fun e => decodeF f (elem f.width (s.aV v.vb) e)
  let z := fun e => decodeF f (elem f.width (s.aV v.vd) e)
  let fn := fun (i : Instr) (k : Fn5) =>
    let a := fun e => decodeF f (elem f.width (s.aV u.va) e)
    VEach s (exec i s) f.width u.m u.vd (fun e => sr && !fn5Special f k (a e)) (fun e r => frac5 f k rnd rm.sat r (a e))
  VEach s (exec (.vaddF f rm v) s) f.width v.m v.vd all (fun e r => fadd f rnd rm.sat r (x e) (y e))
  ∧ VEach s (exec (.vsubF f rm v) s) f.width v.m v.vd all (fun e r => fadd f rnd rm.sat r (x e) (y e).negate)
  ∧ VEach s (exec (.vmulF f rm v) s) f.width v.m v.vd all (fun e r => fmul f rnd rm.sat r (x e) (y e))
  ∧ VEach s (exec (.vfma f rm v) s) f.width v.m v.vd all (fun e r => ffma f rnd r (x e) (y e) (z e))
  ∧ VEach s (exec (.vfms f rm v) s) f.width v.m v.vd all (fun e r => ffma f rnd r (x e) (y e) (z e).negate)
  ∧ VEach s (exec (.vfnma f rm v) s) f.width v.m v.vd all (fun e r => ffma f rnd r (x e).negate (y e) (z e))
  ∧ VEach s (exec (.vfnms f rm v) s) f.width v.m v.vd all (fun e r => ffma f rnd r (x e).negate (y e) (z e).negate)
  ∧ fn (.vrecip f rm u) .recip ∧ fn (.vrsqrt f rm u) .rsqrt ∧ fn (.vsqrt f rm u) .sqrt ∧ fn (.vexp2 f rm u) .exp2
  ∧ fn (.vlog2 f rm u) .log2

/-- Minimum, maximum and sign operations of floating formats, and the compares: −0 is below +0, one NaN gives the number, a NaN of a sign
operation is canonical; none takes a rounding step; a compare writes the bits of active elements of md alone (R101, R165, R167, R173). -/
def Obligations.VectorCompare : Prop := ∀ (s : State) (f : Fmt) (p : Pred) (v : V3) (u : V2) (md : MReg),
  let none := fun (_ : Nat) => false
  let x := fun e => elem f.width (s.aV v.va) e
  let y := fun e => elem f.width (s.aV v.vb) e
  let a := fun e => elem f.width (s.aV u.va) e
  let sign := fun (g : Nat → Nat) (c : Nat) => match decodeF f c with
    | .nan sg => (⟨canonNaN f, if sg then 1 else 0⟩ : Res)
    | _ => ⟨g c, 0⟩
  VEach s (exec (.vminF f v) s) f.width v.m v.vd none (fun e _ => fminmax f false (x e) (y e))
  ∧ VEach s (exec (.vmaxF f v) s) f.width v.m v.vd none (fun e _ => fminmax f true (x e) (y e))
  ∧ VEach s (exec (.vabsF f u) s) f.width u.m u.vd none (fun e _ => sign (fun c => c % 2 ^ (f.width - 1)) (a e))
  ∧ VEach s (exec (.vnegF f u) s) f.width u.m u.vd none (fun e _ => sign (fun c => c ^^^ 2 ^ (f.width - 1)) (a e))
  ∧ VCompares s (exec (.vcmpF f p md v.va v.vb v.m) s) f.width v.m md (fun e => fcmp p (decodeF f (x e)) (decodeF f (y e)))
  ∧ VCompares s (exec (.vcmpI f p md v.va v.vb v.m) s) f.width v.m md (fun e =>
      (match p with
       | .eq => decide (intVal f (x e) = intVal f (y e)) | .ne => decide (intVal f (x e) ≠ intVal f (y e))
       | .lt => decide (intVal f (x e) < intVal f (y e)) | .le => decide (intVal f (x e) ≤ intVal f (y e))
       | .gt => decide (intVal f (x e) > intVal f (y e)) | .ge => decide (intVal f (x e) ≥ intVal f (y e))
       | .uno => false | .ord => true, 0))

/-- Integer operations on elements, signed for i and unsigned for n formats: sums and products wrap to the element, `vmulh` takes the high
half, SAT clamps to the format's range and raises SAT; absolute value and negation wrap; logic is bitwise, under opcodes 0x28 to 0x2B (R168–R171). -/
def Clause.VectorInteger : Prop := ∀ (s : State) (f : Fmt) (v : V3) (u : V2), f.isIntV = true →
  let w := f.width
  let a := fun e => elem w (s.aV v.va) e
  let b := fun e => elem w (s.aV v.vb) e
  let c := fun e => elem w (s.aV u.va) e
  let wrap := fun (x : Int) => (x % ((2 ^ w : Nat) : Int)).toNat
  let lo : Int := if f.isSigned then -((2 ^ (w - 1) : Nat) : Int) else 0
  let hi : Int := if f.isSigned then ((2 ^ (w - 1) : Nat) : Int) - 1 else ((2 ^ w : Nat) : Int) - 1
  let val := fun (x : Nat) => if f.isSigned ∧ 2 ^ (w - 1) ≤ x then (x : Int) - ((2 ^ w : Nat) : Int) else (x : Int)
  let sat := fun (x : Int) => if x < lo then (⟨wrap lo, 16⟩ : Res) else if hi < x then ⟨wrap hi, 16⟩ else ⟨wrap x, 0⟩
  VPlain s (exec (.vaddI f false v) s) w v.m v.vd (fun e => wrap (val (a e) + val (b e)))
  ∧ VPlain s (exec (.vsubI f false v) s) w v.m v.vd (fun e => wrap (val (a e) - val (b e)))
  ∧ VEach s (exec (.vaddI f true v) s) w v.m v.vd (fun _ => false) (fun e _ => sat (val (a e) + val (b e)))
  ∧ VEach s (exec (.vsubI f true v) s) w v.m v.vd (fun _ => false) (fun e _ => sat (val (a e) - val (b e)))
  ∧ VPlain s (exec (.vmulI f v) s) w v.m v.vd (fun e => wrap (val (a e) * val (b e)))
  ∧ VPlain s (exec (.vmulh f v) s) w v.m v.vd (fun e => wrap (val (a e) * val (b e) / ((2 ^ w : Nat) : Int)))
  ∧ VPlain s (exec (.vminI f v) s) w v.m v.vd (fun e => if val (a e) ≤ val (b e) then a e else b e)
  ∧ VPlain s (exec (.vmaxI f v) s) w v.m v.vd (fun e => if val (a e) ≤ val (b e) then b e else a e)
  ∧ VPlain s (exec (.vabsI f u) s) w u.m u.vd (fun e => wrap (if val (c e) < 0 then -val (c e) else val (c e)))
  ∧ VPlain s (exec (.vnegI f u) s) w u.m u.vd (fun e => wrap (-val (c e)))
  ∧ VPlain s (exec (.vand f v) s) w v.m v.vd (fun e => a e &&& b e)
  ∧ VPlain s (exec (.vor f v) s) w v.m v.vd (fun e => a e ||| b e)
  ∧ VPlain s (exec (.vxor f v) s) w v.m v.vd (fun e => a e ^^^ b e)
  ∧ VPlain s (exec (.vandn f v) s) w v.m v.vd (fun e => a e &&& (2 ^ w - 1 - b e))
  ∧ Clause.opV (.vand f v) = some 0x28 ∧ Clause.opV (.vor f v) = some 0x29 ∧ Clause.opV (.vxor f v) = some 0x2A ∧ Clause.opV (.vandn f v) = some 0x2B

/-- Shifts of each active element of va by an element of vb, or by the amount of the instruction: by the width or more `vsll` and `vsrl`
give 0 and `vsra` the sign (R172). -/
def Clause.VectorShift : Prop := ∀ (s : State) (f : Fmt) (k : ShAmt) (u : V2),
  let w := f.width
  let a := fun e => elem w (s.aV u.va) e
  let n := fun e => match k with | .reg b => elem w (s.aV b) e | .imm i => i.toNat
  let sgn := fun (x : Nat) => if 2 ^ (w - 1) ≤ x then (x : Int) - ((2 ^ w : Nat) : Int) else (x : Int)
  VPlain s (exec (.vsll f k u) s) w u.m u.vd (fun e => if w ≤ n e then 0 else a e * 2 ^ n e)
  ∧ VPlain s (exec (.vsrl f k u) s) w u.m u.vd (fun e => a e / 2 ^ n e)
  ∧ VPlain s (exec (.vsra f k u) s) w u.m u.vd (fun e => ((sgn (a e) / ((2 ^ n e : Nat) : Int)) % ((2 ^ w : Nat) : Int)).toNat)

/-- Integer arithmetic, logic and shifts of the V-slot (R168–R172). -/
def Obligations.VectorIntegers : Prop := Clause.VectorInteger ∧ Clause.VectorShift

/-- Mask logic writes md from ma and mb, all 256 bits; m0 reads all ones and is not written (R174, R61). -/
def Obligations.MaskLogic : Prop := ∀ (s : State) (md ma mb : MReg),
  let gives := fun (i : Instr) (x : BitVec 256) => GivesM s (exec i s) md x s.me.flags s.me.seed
  gives (.vmand md ma mb) (s.aM ma &&& s.aM mb) ∧ gives (.vmor md ma mb) (s.aM ma ||| s.aM mb)
  ∧ gives (.vmxor md ma mb) (s.aM ma ^^^ s.aM mb) ∧ gives (.vmandn md ma mb) (s.aM ma &&& ~~~(s.aM mb))
  ∧ gives (.vmnot md ma) (~~~(s.aM ma)) ∧ gives (.vmmov md ma) (s.aM ma)

/-- `vperm`, the slides, `vsel`, `vbcast`, `vmov` and `vget` move elements: an index of L or more, and what a slide brings in from
outside, is 0; `vsel`, opcode 0x4B, writes every element; `vget` copies a register group of a context as it stands, its own as before the bundle
(R178–R183). -/
def Obligations.VectorMoves : Prop := ∀ (s : State) (w : EW) (v : V3) (u : V2) (k : BitVec 5) (sa : SReg) (c : BitVec 4),
  let n := w.bits
  let l := vlen s.myCore.mode n
  let a := fun e => elem n (s.aV v.va) e
  let b := fun e => elem n (s.aV v.vb) e
  let x := fun e => elem n (s.aV u.va) e
  VPlain s (exec (.vperm w v) s) n v.m v.vd (fun e => if b e < l then a (b e) else 0)
  ∧ VPlain s (exec (.vslideUp w k u) s) n u.m u.vd (fun e => if k.toNat ≤ e then x (e - k.toNat) else 0)
  ∧ VPlain s (exec (.vslideDn w k u) s) n u.m u.vd (fun e => if e + k.toNat < l then x (e + k.toNat) else 0)
  ∧ VFull s (exec (.vsel w v) s) n v.vd (fun e => if bitOf (s.aM v.m).toNat e then a e else b e) 0 s.me.seed
  ∧ VPlain s (exec (.vbcast w v.vd sa v.m) s) n v.m v.vd (fun _ => (s.aS sa).toNat)
  ∧ VPlain s (exec (.vmov w u) s) n u.m u.vd x
  ∧ Clause.opV (.vsel w v) = some 0x4B
  ∧ GivesV s (exec (.vget v.vd v.va c) s) v.vd
      (if c.toNat = s.cur.ctx then s.aV v.va else groupOf s.myCore.v s.myCore.mode c.toNat v.va.toNat) s.me.flags s.me.seed

/-- `vcvt` converts the active elements of the first n, n being the element count of the wider format, and writes zero above them; under SR
each conversion that rounds takes one step (R175, R103). -/
def Obligations.VectorConvert : Prop := ∀ (s : State) (dst src : Fmt) (rm : RM) (u : V2),
  let rnd := rndOf s.me.snap.rmode rm.rnd
  let steps := fun (_ : Nat) => decide (rnd = .sr) && convSteps src dst
  let n := vlen s.myCore.mode (max (max src.width dst.width) 8)
  let mask := (s.aM u.m).toNat
  let r := fun e => convert src dst rnd rm.sat (seedOf s u.m steps e) (elem src.width (s.aV u.va) e)
  VFull s (exec (.vcvt dst src rm u) s) dst.width u.vd
    (fun e => if e < n then (if bitOf mask e then (r e).code % 2 ^ dst.width else elem dst.width (s.aV u.vd) e) else 0)
    (flagsBelow mask (fun e => (r e).fl) n) (srAfter (stepsBelow mask steps n) s.seed0)

/-- `vmxdq` writes each active element of the pair vd, vd + 1: its code times its block's scale, rounded once; a scale of 0xFF and a NaN
give the canonical NaN (R177). `vmxq` gives a block with a NaN or an infinity the scale 0xFF and codes 0, any other the scale
max(⌊log2 amax⌋ − EMAX, −127) + 127; codes of inactive elements are 0 (R176). -/
def Obligations.BlockScaled : Prop := ∀ (s : State) (f : Fmt) (rm : RM) (v : V3), (f = .e4m3 ∨ f = .e5m2 ∨ f = .e2m1) →
  let i := s.cur.core
  let n := vlen s.myCore.mode 32
  let g := modeG s.myCore.mode
  let base := fun (r : VReg) => physBase s.myCore.mode s.cur.ctx r.toNat
  let inG := fun (r : VReg) (p : Nat) => base r ≤ p ∧ p < base r + g
  let act := fun e => bitOf (s.aM v.m).toNat e
  let emax : Int := match f with | .e4m3 => 8 | .e5m2 => 15 | _ => 2
  let pairOf := fun (x : State → VReg → Nat) (u : State) (r : VReg) (e : Nat) =>
    if e < n then elem 32 (x u r) e else elem 32 (x u (r + 1)) (e - n)
  let src := fun e => decodeF .f32 (pairOf State.aV s v.va e)
  let finite := fun (x : Fv) => match x with | .fin _ _ _ => true | _ => false
  (v.vd.toNat % 2 = 0 →
    ∃ t, exec (.vmxdq f v) s = .next t ∧ OnlyCtxV s t i s.cur.ctx ∧ SameBytes s t
      ∧ (∀ e, e < 2 * n → pairOf State.liveV t v.vd e =
          if act e then (mxVal f (elem f.width (s.aV v.va) e) (elem 8 (s.aV v.vb) (e / 32))).code % 2 ^ 32
          else pairOf State.aV s v.vd e)
      ∧ (∀ p, ¬ inG v.vd p → ¬ inG (v.vd + 1) p → t.phys i p = s.phys i p)
      ∧ t.me = { s.me with flags := t.me.flags, seed := t.me.seed, vRes := t.me.vRes })
  ∧ (v.va.toNat % 2 = 0 → v.vd ≠ v.vb →
    ∃ t, exec (.vmxq f rm v) s = .next t ∧ OnlyCtxV s t i s.cur.ctx ∧ SameBytes s t
      ∧ (∀ b, b < g →
          ((∃ k, k < 32 ∧ act (32 * b + k) = true ∧ finite (src (32 * b + k)) = false) →
            elem 8 (t.liveV v.vb) b = 0xFF ∧ ∀ k, k < 32 → elem f.width (t.liveV v.vd) (32 * b + k) = 0)
          ∧ ((∀ k, k < 32 → act (32 * b + k) = true → finite (src (32 * b + k)) = true) →
            (elem 8 (t.liveV v.vb) b =
              (match maxExp (((List.range 32).filter (fun k => act (32 * b + k))).map (fun k => src (32 * b + k))) with
               | none => 0
               | some x => (max (x - emax) (-127) + 127).toNat))
            ∧ ∀ k, k < 32 → act (32 * b + k) = false → elem f.width (t.liveV v.vd) (32 * b + k) = 0))
      ∧ (∀ p, ¬ inG v.vd p → ¬ inG v.vb p → t.phys i p = s.phys i p)
      ∧ t.me = { s.me with flags := t.me.flags, seed := t.me.seed, vRes := t.me.vRes })

/-- A reduction combines the active elements of va, writes element 0 of vd and zero to all others: the integer sum wraps, the integer
maximum and minimum are those of the active elements or, with none, the least and the greatest value; the floating ones combine in the
tree of R106, a NaN being canonical, and only a stochastic sum takes steps (R184, R106, R98). -/
def Obligations.VectorReduce : Prop := ∀ (s : State) (f : Fmt) (rm : RM) (u : V2),
  let w := f.width
  let l := activeOf s w u.m u.va
  let first := fun (x : Nat) (e : Nat) => if e = 0 then x else 0
  let ends := fun (i : Instr) (x : Nat) => VFull s (exec i s) w u.vd (first x) 0 s.seed0
  let rnd := rndOf s.me.snap.rmode rm.rnd
  let leaves := (List.range (vlen s.myCore.mode w)).map
    (fun e => if bitOf (s.aM u.m).toNat e then some (elem w (s.aV u.va) e) else none)
  let tree := fun (i : Instr) (ident : Nat) (comb : BitVec 32 → Nat → Nat → Res × BitVec 32) =>
    let r := redTree comb 8 leaves 0 s.seed0
    let x : Res := match r.1 with
      | none => ⟨ident, 0⟩
      | some c => match decodeF f c with | .nan sg => ⟨canonNaN f, if sg then 1 else 0⟩ | _ => ⟨c, 0⟩
    VFull s (exec i s) w u.vd (first (x.code % 2 ^ w)) (r.2.1 ||| x.fl) r.2.2
  (f.isIntV = true →
    ends (.vredsumI f u) (l.sum % 2 ^ w)
    ∧ (∃ x, ends (.vredmaxI f u) x ∧ (if l = [] then intVal f x = intLo f else x ∈ l ∧ ∀ y, y ∈ l → intVal f y ≤ intVal f x))
    ∧ (∃ x, ends (.vredminI f u) x ∧ (if l = [] then intVal f x = intHi f else x ∈ l ∧ ∀ y, y ∈ l → intVal f x ≤ intVal f y)))
  ∧ (f.isFloat = true →
    tree (.vredsumF f rm u) 0 (fun sd a b =>
      let sd' := if rnd = .sr then srStep sd else sd
      (fadd f rnd rm.sat sd'.toNat (decodeF f a) (decodeF f b), sd'))
    ∧ tree (.vredmaxF f rm u) (infCode f true) (fun sd a b => (fminmax f true a b, sd))
    ∧ tree (.vredminF f rm u) (infCode f false) (fun sd a b => (fminmax f false a b, sd)))

/-- `vmrg.f32` merges the pairs whose even mask bit is one and leaves the others. A pair with a NaN maximum becomes two canonical NaNs, with
NV if one signals; any other takes the larger maximum M and the sum of the two products of a sum with 1, where its maximum is M, or with
2 to the power of its maximum less M, rounded once to nearest; every rounding's flags are raised (R185). -/
def Obligations.SoftmaxMerge : Prop := ∀ (s : State) (v : V3),
  let x := fun (r : VReg) (e : Nat) => elem 32 (s.aV r) e
  let on := fun p => bitOf (s.aM v.m).toNat (2 * p)
  let old := fun e => elem 32 (s.aV v.vd) e
  ∃ res : Nat → Nat × Nat × Nat,
    VFull s (exec (.vmrg v) s) 32 v.vd
      (fun e => if on (e / 2) then (if e % 2 = 0 then (res (e / 2)).1 else (res (e / 2)).2.1) % 2 ^ 32 else old e)
      ((List.range (vlen s.myCore.mode 32 / 2)).foldl (fun a p => a ||| if on p then (res p).2.2 else 0) 0) s.seed0
    ∧ ∀ p,
      let ma := x v.va (2 * p)
      let sa := x v.va (2 * p + 1)
      let mb := x v.vb (2 * p)
      let sb := x v.vb (2 * p + 1)
      let a := decodeF .f32 ma
      let b := decodeF .f32 mb
      let code := (fminmax .f32 true ma mb).code
      let big := decodeF .f32 code
      let factor := fun (y : Fv) => if fvEq y big then (⟨0x3F800000, 0⟩ : Res) else pow2Diff y big
      let part := fun (c : Nat) (y : Fv) => exactMul (decodeF .f32 c) (decodeF .f32 (factor y).code)
      let r := fadd .f32 .rne false 0 (part sa a) (part sb b)
      (a.isNaN = true ∨ b.isNaN = true → res p = (0x7FC00000, 0x7FC00000, if a.sig || b.sig then 1 else 0))
      ∧ (a.isNaN = false → b.isNaN = false → res p = (code, r.code, (factor a).fl ||| (factor b).fl ||| r.fl))

/-! ### Near-data operations -/

/-- A computation of a routine or a kernel writes nd from the n registers: 64-bit integer operations, FP32 ones on the low words with
round to nearest and no flag, compares and a select on nd (R256, Table 17.1). -/
def Clause.NearCompute : Prop := ∀ (s : State) (d a b : NReg) (i : BitVec 14) (c : NCond),
  let x := s.nr a
  let y := s.nr b
  let fx := x.toNat % 2 ^ 32
  let fy := y.toNat % 2 ^ 32
  let gives := fun (n : Instr) (v : Word) => NearGives s (exec n s) d v
  gives (.nadd d a b) (x + y) ∧ gives (.nsub d a b) (x - y) ∧ gives (.nand d a b) (x &&& y) ∧ gives (.nor d a b) (x ||| y)
  ∧ gives (.nxor d a b) (x ^^^ y)
  ∧ gives (.nsll d a b) (x <<< (y.toNat % 64)) ∧ gives (.nsrl d a b) (x >>> (y.toNat % 64))
  ∧ gives (.nsra d a b) (x.sshiftRight (y.toNat % 64))
  ∧ gives (.naddi d a i) (x + i.signExtend 64)
  ∧ gives (.nmin d a b) (if x.toInt < y.toInt then x else y) ∧ gives (.nmax d a b) (if x.toInt < y.toInt then y else x)
  ∧ gives (.nminu d a b) (if x.toNat < y.toNat then x else y) ∧ gives (.nmaxu d a b) (if x.toNat < y.toNat then y else x)
  ∧ gives (.nfadd d a b) (BitVec.ofNat 64 (fadd .f32 .rne false 0 (decodeF .f32 fx) (decodeF .f32 fy)).code)
  ∧ gives (.nfmin d a b) (BitVec.ofNat 64 (fminmax .f32 false fx fy).code)
  ∧ gives (.nfmax d a b) (BitVec.ofNat 64 (fminmax .f32 true fx fy).code)
  ∧ gives (.ncmp c d a b) (if (match c with
      | .eq => decide (x = y) | .ne => decide (x ≠ y) | .lt => decide (x.toInt < y.toInt) | .ge => decide (y.toInt ≤ x.toInt)
      | .ltu => decide (x.toNat < y.toNat) | .geu => decide (y.toNat ≤ x.toNat)
      | .flt => (fcmp .lt (decodeF .f32 fx) (decodeF .f32 fy)).1 | .fge => (fcmp .ge (decodeF .f32 fx) (decodeF .f32 fy)).1) = true
    then 1 else 0)
  ∧ gives (.nsel d a b) (if s.nr d ≠ 0 then x else y)

/-- `nrdw` reads a word of the line, `nwrw` writes one, `nrdk` reads a request word, and `nret` ends a routine with its reply words, zero
beyond those named. A word in error that the policy traps ends a routine with an RFAULT of kind SEVERITY and a kernel with a SEVERITY
fault (R258, R260, R265). -/
def Clause.NearLine : Prop := ∀ (s : State) (d a b : NReg) (k : BitVec 4) (kk c : BitVec 2),
  let word := fun (w : Line) (j : Nat) => elem 32 w.toNat j
  let put := fun (v : Word) (r : NReg) => if r = d then v else s.nr r
  (∀ x, s.rrun = some x → (x.wrote.getLsbD k.toNat = true ∨ x.bad.find? (fun e => e.1 = k.toNat) = none) →
    RoutineGoes s (exec (.nrdw d k) s) 1 (put (BitVec.ofNat 64 (word x.w k.toNat))) id)
  ∧ (∀ x, s.grun = some x → x.trig.bad.find? (fun e => e.1 = k.toNat) = none →
    KernelGoes s (exec (.nrdw d k) s) 1 (put (BitVec.ofNat 64 (word x.w k.toNat))) id)
  ∧ (∀ x e, s.cur.inRoutine = true → s.rrun = some x → x.wrote.getLsbD k.toNat = false →
    x.bad.find? (fun e => e.1 = k.toNat) = some e → polAction (s.sevpol s.nearCore) e.2 = 1 →
    ∃ t y, exec (.nrdw d k) s = .next t ∧ t = { s with near := t.near } ∧ t.rrun = some y ∧ y.ended = true
      ∧ y.rfault = some (rfaultWord (max x.sev (e.2 + 1)) 2 0))
  ∧ (∀ x e, s.grun = some x → x.trig.bad.find? (fun e => e.1 = k.toNat) = some e → polAction (s.sevpol s.cur.core) e.2 = 1 →
    KernelFaults s (exec (.nrdw d k) s) 4 e.2 (x.trig.va / 64 * 64))
  ∧ (∃ f : Line → Line, (∀ w j, j < 16 → word (f w) j = if j = k.toNat then (s.nr a).toNat % 2 ^ 32 else word w j)
      ∧ RoutineGoes s (exec (.nwrw k a) s) 1 s.nr (fun x => { x with w := f x.w, wrote := x.wrote ||| BitVec.ofNat 16 (2 ^ k.toNat) })
      ∧ KernelGoes s (exec (.nwrw k a) s) 1 s.nr (fun x => { x with
          w := f x.w, trig := { x.trig with bad := x.trig.bad.filter (fun e => e.1 ≠ k.toNat) } }))
  ∧ (∀ x, s.rrun = some x → RoutineGoes s (exec (.nrdk d kk) s) 1 (put (x.k.getD kk.toNat 0)) id)
  ∧ (∀ x q, s.cur.inRoutine = true → s.rrun = some x → s.req x.req = some q →
    ∃ t y, exec (.nret a b c) s = .next t ∧ t = { s with near := t.near } ∧ t.rrun = some y
      ∧ y = { x with ended := true, k := y.k } ∧ y.k.length = (q.words.getD 0 0).toNat
      ∧ ∀ i, i < y.k.length → y.k.getD i 0 = if i < c.toNat then (if i = 0 then s.nr a else if i = 1 then s.nr b else 0) else 0)

/-- Near-data computations and line accesses (R256, R258, R260, R265). -/
def Obligations.NearRoutines : Prop := Clause.NearCompute ∧ Clause.NearLine

/-- `nloop` counts nd down and goes back while it is not zero; `nbr` goes ahead when na is not; `nstop` ends the kernel run, after which
a waiting trigger is taken; `nfault` ends a routine with an RFAULT of kind EXPLICIT and a kernel with NFAULT (R256, R258, R263, R265). -/
def Obligations.NearEnds : Prop := ∀ (s : State) (d a : NReg) (i : BitVec 14) (code : BitVec 8),
  let v := s.nr d - 1
  KernelGoes s (exec (.nloop d i) s) (if v = 0 then 1 else -(i.toNat : Int)) (fun k => if k = d then v else s.nr k) id
  ∧ KernelGoes s (exec (.nbr a i) s) (if s.nr a = 0 then 1 else (i.toNat : Int)) s.nr id
  ∧ (∀ x, s.cur.inRoutine = false → s.grun = some x →
    ∃ t, exec .nstop s = .next t ∧ t.grun = none ∧ SameBytes s t ∧ OnlyCore { s with agenda := t.agenda } t s.cur.core
      ∧ t.myCore = { s.myCore with gat :=
          { s.myCore.gat with run := none, taken := t.myCore.gat.taken, takenAt := t.myCore.gat.takenAt
                              triggers := t.myCore.gat.triggers } }
      ∧ ∀ e l, s.myCore.gat.taken = none → s.myCore.gat.triggers = e :: l →
          t.myCore.gat.taken = some e ∧ t.myCore.gat.triggers = l ∧ (s.time + 2, Ev.gatherRun s.cur.core) ∈ t.agenda)
  ∧ (∀ x, s.cur.inRoutine = true → s.rrun = some x →
    ∃ t y, exec (.nfault code) s = .next t ∧ t = { s with near := t.near } ∧ t.rrun = some y
      ∧ y = { x with ended := true, rfault := some (rfaultWord x.sev 0 code.toNat) })
  ∧ KernelFaults s (exec (.nfault code) s) 7 code.toNat 0

/-- A kernel's `nfetch` requests the line at na as a relaxed load, `nfetch.rt` once a run as one whose reply triggers: a misaligned or
wide address, and a second `nfetch.rt`, fault; 32 requests outstanding hold it. `npush` appends na to a queue bound to the unit and
waits while it is full, another binding faults with NOQUEUE; `ndig` appends 16 bytes to the digest stream and waits while 64 pairs are
in the hash unit's buffer (R264, R266). -/
def Obligations.NearFetches : Prop := ∀ (s : State) (a b : NReg) (rt tag : Bool) (q : BitVec 3),
  let va := (s.nr a).toNat
  let i := if rt then Instr.nfetchRt a else Instr.nfetch a
  let x' := s.myCore.q q.toNat
  (2 ^ 48 ≤ va → KernelFaults s (exec i s) 2 0 va)
  ∧ (va < 2 ^ 48 → va % 64 ≠ 0 → KernelFaults s (exec i s) 3 0 va)
  ∧ (∀ x, s.cur.inRoutine = false → s.grun = some x → va < 2 ^ 48 → va % 64 = 0 →
    ((rt = true ∧ x.usedRt = true) → KernelFaults s (exec i s) 8 0 0)
    ∧ (¬ (rt = true ∧ x.usedRt = true) → 32 ≤ (s.gatOut s.cur.core).length → exec i s = .next s)
    ∧ (¬ (rt = true ∧ x.usedRt = true) → (s.gatOut s.cur.core).length < 32 → x.count + 1 < 1024 →
      ∃ t, exec i s = .next t
        ∧ Sent s t s.nextReq
            { Req.new (.gu s.cur.core) (.load 64) va 64 (.fetch x.trig.slot rt (s.nr 15)) with relaxed := true }
        ∧ t.grun = some { x with pc := x.pc + 1, count := x.count + 1, usedRt := x.usedRt || rt }
        ∧ (∀ j, j ≠ s.cur.core → t.core j = s.core j)))
  ∧ (x'.src ≠ 5 → KernelFaults s (exec (.npush tag q a) s) 5 0 0)
  ∧ (∀ x, s.cur.inRoutine = false → s.grun = some x → x'.src = 5 →
    (x'.room = 0 → exec (.npush tag q a) s = .next s)
    ∧ (x'.room ≠ 0 → x.count + 1 < 1024 →
      ∃ t, exec (.npush tag q a) s = .next t ∧ t.grun = some { x with pc := x.pc + 1, count := x.count + 1 }
        ∧ t.myCore.q q.toNat = { x' with elems := x'.elems ++ [{ v := s.nr a, tag := tag, ord := s.myCore.qOrd }] }
        ∧ (∀ k, k ≠ q.toNat → t.myCore.q k = s.myCore.q k) ∧ SameBytes s t ∧ ∀ j, j ≠ s.cur.core → t.core j = s.core j))
  ∧ (∀ x, s.cur.inRoutine = false → s.grun = some x →
    (64 ≤ (s.myCore.digIn s.time).length → exec (.ndig a b) s = .next s)
    ∧ ((s.myCore.digIn s.time).length < 64 → x.count + 1 < 1024 →
      ∃ t u, exec (.ndig a b) s = .next t ∧ t.grun = some { x with pc := x.pc + 1, count := x.count + 1, digs := x.digs + 1 }
        ∧ OnlyCore s t s.cur.core ∧ SameBytes s t
        ∧ t.myCore = { s.myCore with
            dig := s.myCore.dig ++ [(s.nr a, s.nr b)], digBuf := s.myCore.digIn s.time ++ [u]
            gat := { s.myCore.gat with run := t.myCore.gat.run } }))


/-- A QCFG write with GO = 1 stores its fields and starts a stream over its descriptor's range, or leaves ERR: 2 without a stream binding, 1
while the kernel slot is in use, 4 without a kernel, 3 for a descriptor that is not one packed dimension at a multiple of 64.
One with GO = 0 stops the stream (R261, R262). -/
def Clause.StreamStarts : Prop := ∀ (s : State) (q : BitVec 3) (v : Word),
  let i := s.cur.core
  let n := q.toNat
  let g := s.myCore.gat
  let x := { s.myCore.q n with cfg := v &&& 0xFFF807FF }
  let desc := v.toNat / 2 ^ 22 % 2 ^ 10 * 128
  let slot := v.toNat / 2 ^ 20 % 4
  let busy := g.streams.any (fun u => u.slot = slot) = true
  let refuses := fun (e : BitVec 3) => ∃ t, exec (.qcfgGo q v) s = .next t ∧ OnlyCore s t i ∧ SameBytes s t
    ∧ t.myCore.q n = { x with err := e } ∧ (∀ k, k ≠ n → t.myCore.q k = s.myCore.q k) ∧ t.myCore.gat = g
  let streams := fun (d : Desc) => d.ndim = 1 ∧ d.loc = false ∧ d.mx = false ∧ d.bm = false ∧ d.base % 64 = 0
  (x.src ≠ 5 → refuses 2)
  ∧ (x.src = 5 → busy → refuses 1)
  ∧ (x.src = 5 → ¬ busy → sfind g.kernels slot = none → refuses 4)
  ∧ (x.src = 5 → ¬ busy → sfind g.kernels slot ≠ none →
    (98304 < desc + 128 ∨ parseDesc (s.descWords i desc) = none ∨ ∃ d, parseDesc (s.descWords i desc) = some d ∧ ¬ streams d) → refuses 3)
  ∧ (∀ d, x.src = 5 → ¬ busy → sfind g.kernels slot ≠ none → desc + 128 ≤ 98304 → parseDesc (s.descWords i desc) = some d → streams d →
    ∃ t, exec (.qcfgGo q v) s = .next t ∧ t.myCore.q n = { x with go := true, err := 0 } ∧ SameBytes s t
      ∧ (∀ k, k ≠ n → t.myCore.q k = s.myCore.q k) ∧ (s.time + 1, Ev.gatherReadIssue i slot) ∈ t.agenda
      ∧ t.myCore.gat = { g with streams := g.streams ++
          [{ q := n, slot := slot, base := d.base, bytes := d.bytesOf (d.ext 0), next := 0, total := (d.bytesOf (d.ext 0) + 63) / 64 }] })
  ∧ ∃ t, exec (.qcfgStop q v) s = .next t ∧ t.myCore.q n = { x with go := false } ∧ SameBytes s t
      ∧ (∀ k, k ≠ n → t.myCore.q k = s.myCore.q k) ∧ ∀ u, u ∈ t.myCore.gat.streams → u.q ≠ n

/-- A stream reads its next line as a relaxed load while fewer than 32 requests are outstanding and fewer than 32 triggers of its slot wait;
a returned line is a trigger, which an idle unit takes, and waits while the unit has 32; a run of it starts with n12 to n15 as the trigger
says and every other n register zero (R262, R263). -/
def Clause.StreamRuns : Prop := ∀ (s : State) (i n r : Nat),
  let g := (s.core i).gat
  (∀ u, s.cur.ev = .gatherReadIssue i n → g.streams.find? (fun t => t.slot = n) = some u → u.next < u.total →
    (s.gatOut i).length < 32 → s.slotBusy i u.slot < 32 →
    ∃ t, exec .gatherReadIssue s = .next t
      ∧ Sent s t s.nextReq
          { Req.new (.gu i) (.load 64) (u.base + 64 * u.next) 64 (.index u.slot u.next) with relaxed := true }
      ∧ (t.core i).gat = { g with streams := g.streams.map (fun v => if v.slot = n then { v with next := v.next + 1 } else v) }
      ∧ (u.next + 1 < u.total → (s.time + 1, Ev.gatherReadIssue i n) ∈ t.agenda))
  ∧ (∀ u, s.cur.ev = .gatherReadIssue i n → g.streams.find? (fun t => t.slot = n) = some u → u.next < u.total →
    (32 ≤ (s.gatOut i).length ∨ 32 ≤ s.slotBusy i u.slot) →
    ∃ t, exec .gatherReadIssue s = .next t ∧ t = { s with agenda := t.agenda } ∧ (s.time + 1, Ev.gatherReadIssue i n) ∈ t.agenda)
  ∧ (∀ u q slot ord, s.cur.ev = .gatherTrigger i r → s.req r = some q → q.live = true → q.dest = .index slot ord →
    g.streams.find? (fun t => t.slot = slot) = some u →
    (32 ≤ g.triggers.length →
      ∃ t, exec .gatherTrigger s = .next t ∧ t = { s with agenda := t.agenda } ∧ (s.time + 1, Ev.gatherTrigger i r) ∈ t.agenda)
    ∧ (g.triggers.length < 32 → ∃ t e, exec .gatherTrigger s = .next t ∧ t.req r = none ∧ SameBytes s t
      ∧ e.slot = slot ∧ e.va = q.va ∧ e.line = BitVec.ofNat 512 (leVal q.data) ∧ e.n12 = min 64 (u.bytes - 64 * ord)
      ∧ e.n13 = (if ord + 1 = u.total then 1 else 0) ∧ e.n15 = BitVec.ofNat 64 ord
      ∧ (g.taken ≠ none → (t.core i).gat = { g with triggers := g.triggers ++ [e] })
      ∧ (g.taken = none → g.triggers = [] →
        (t.core i).gat = { g with taken := some e, takenAt := s.time } ∧ (s.time + 2, Ev.gatherRun i) ∈ t.agenda)))
  ∧ (∀ e, s.cur.ev = .gatherRun i → g.taken = some e → g.run = none → g.takenAt + 2 ≤ s.time →
    ∃ t x, exec .gatherRun s = .next t ∧ (t.core i).gat.run = some x ∧ Agent.gu i ∈ t.todo ∧ SameBytes s t
      ∧ x.trig = e ∧ x.w = e.line ∧ x.pc = 0 ∧ x.count = 0 ∧ x.usedRt = false
      ∧ ∀ k, k < 16 → sget 0 x.n k =
          if k = 12 then BitVec.ofNat 64 e.n12 else if k = 13 then BitVec.ofNat 64 e.n13 else if k = 14 then BitVec.ofNat 64 e.va
          else if k = 15 then e.n15 else 0)

/-- A fault at a slice stops the stream of its slot and of no other; its fault word is pushed with its tag when the queue has room and
leaves ERR 5; a drained stream ends, with EOS after a tagged zero; both wait for room. GO then says whether another stream of the queue
runs (R262, R264, R265). -/
def Clause.StreamEnds : Prop := ∀ (s : State) (i n slot cause va : Nat),
  let g := (s.core i).gat
  let x := (s.core i).q n
  let rest := g.streams.filter (fun v => v.slot ≠ slot)
  let pushed := fun (l : List Stream) (w : Word) (e : BitVec 3) (t : State) => (t.core i).q n =
    { x with elems := x.elems ++ [{ v := w, tag := true, ord := (s.core i).qOrd }], go := l.any (fun v => v.q = n), err := e }
  let waits := ∃ t, exec .gatherDrain s = .next t ∧ t = { s with agenda := t.agenda } ∧ (s.time + 1, Ev.gatherDrain i slot) ∈ t.agenda
  (∀ u, s.cur.ev = .gatherFetchFault i slot cause va → g.streams.find? (fun t => t.slot = slot) = some u →
    ∃ t, exec .gatherFetchFault s = .next t ∧ SameBytes s t
      ∧ (slot * 8 + u.q, BitVec.ofNat 64 (cause * 2 ^ 56 + va % 2 ^ 48)) ∈ (t.core i).gat.pend
      ∧ (s.time, Ev.gatherDrain i slot) ∈ t.agenda ∧ (t.core i).gat.streams = rest)
  ∧ (∀ p, s.cur.ev = .gatherDrain i slot → g.pend.find? (fun p => p.1 / 8 = slot) = some p → p.1 % 8 = n → x.src = 5 →
    (x.room ≠ 0 → ∃ t, exec .gatherDrain s = .next t ∧ pushed g.streams p.2 5 t ∧ SameBytes s t ∧ (t.core i).gat.pend = g.pend.erase p)
    ∧ (x.room = 0 → waits))
  ∧ (∀ u, s.cur.ev = .gatherDrain i slot → g.pend.find? (fun p => p.1 / 8 = slot) = none →
    g.streams.find? (fun t => t.slot = slot) = some u → u.q = n → s.drained i u = true →
    (x.cfg.getLsbD 19 = true → x.room ≠ 0 →
      ∃ t, exec .gatherDrain s = .next t ∧ pushed rest 0 0 t ∧ SameBytes s t ∧ (t.core i).gat.streams = rest)
    ∧ (x.cfg.getLsbD 19 = true → x.room = 0 → waits)
    ∧ (x.cfg.getLsbD 19 = false →
      ∃ t, exec .gatherDrain s = .next t ∧ (t.core i).q n = { x with go := rest.any (fun v => v.q = n), err := 0 } ∧ SameBytes s t
        ∧ (t.core i).gat.streams = rest))

/-- Index streams: start, reads, triggers and ends (R261–R265). -/
def Obligations.Streams : Prop := Clause.StreamStarts ∧ Clause.StreamRuns ∧ Clause.StreamEnds

/-- A routine call whose slot is loaded and whose line is free runs on that line with its request words; at the end of the hold the words
it wrote are stored and the reply carries its words, or the fault RFAULT. A call without a slot asks the MMP, which loads the routine
within 600 cycles or answers NOROUTINE (R258–R260). -/
def Obligations.RoutineRuns : Prop := ∀ (s : State) (r k die : Nat) (x : RRun) (q : Req),
  let line := q.pa / 64
  let answers := fun (t : State) (f : Req) => ∃ d, t.req r = some { f with st := .done, replyAt := d } ∧ (d, Ev.globalReply r) ∈ t.agenda
  (s.cur.ev = .routineRun r → s.near.runs.find? (fun e => e.2.req = r) = some (k, x) → x.ended = true → s.req r = some q →
    (∀ w, x.rfault = some w →
      ∃ t, exec .routineRun s = .next t ∧ answers t { q with fault := some { cause := 12, detail := w.setWidth 40 } } ∧ SameBytes s t
        ∧ sfind t.near.runs k = none)
    ∧ (x.rfault = none → s.ownerOf line = none →
      ∃ t, exec .routineRun s = .next t ∧ answers t { q with words := x.k } ∧ sfind t.near.runs k = none
        ∧ ∀ p, t.byteAt p = if p / 64 = line ∧ x.wrote.getLsbD (p % 64 / 4) = true
            then BitVec.ofNat 8 (elem 8 x.w.toNat (p % 64)) else s.byteAt p))
  ∧ (∀ rid rn ws sl, s.cur.ev = .routineRun r → s.near.runs.find? (fun e => e.2.req = r) = none → s.req r = some q →
    q.op = .lcall rid rn ws → s.slotOf q.homeSlice (s.asidOf q.who.core) rid = some sl → s.lineBusy r q.pa 64 = false →
    s.markers q.pa 64 false = [] → s.otherCopies (homeOf q.pa) (homeOf q.pa) [line] = [] → s.missing [line] = [] →
    sfind s.coh.latent line = none →
    ∃ t y, exec .routineRun s = .next t ∧ sfind t.near.runs s.near.nextRun = some y ∧ SameBytes s t
      ∧ y.req = r ∧ y.code = sl.code ∧ y.k = ws ∧ y.pc = 0 ∧ y.n = [] ∧ y.ended = false ∧ y.startAt = s.time
      ∧ y.w = BitVec.ofNat 512 (leVal (s.lineNow line)) ∧ (s.time + (sl.code.length + 6), Ev.routineRun r) ∈ t.agenda)
  ∧ (∀ rid rn ws, s.cur.ev = .routineRun r → s.near.runs.find? (fun e => e.2.req = r) = none → s.req r = some q →
    q.op = .lcall rid rn ws → s.slotOf q.homeSlice (s.asidOf q.who.core) rid = none →
    ∃ t, exec .routineRun s = .next t ∧ SameBytes s t
      ∧ sget [] t.near.slotReqs (homeOf q.pa) = sget [] s.near.slotReqs (homeOf q.pa) ++ [r]
      ∧ (sget [] s.near.slotReqs (homeOf q.pa) = [] → (s.time + 600, Ev.routineSlotLoad (homeOf q.pa)) ∈ t.agenda))
  ∧ (∀ rid rn ws l, s.cur.ev = .routineSlotLoad die → sget [] s.near.slotReqs die = r :: l → s.req r = some q → q.op = .lcall rid rn ws →
    ((s.launchOf q.who.core).bind (fun l => l.routine rid) = none →
      ∃ t, exec .routineSlotLoad s = .next t ∧ sget [] t.near.slotReqs die = l ∧ SameBytes s t
        ∧ answers t { q with fault := some { cause := 12, detail := BitVec.ofNat 40 0x100 } })
    ∧ (∀ code, (s.launchOf q.who.core).bind (fun l => l.routine rid) = some code →
      s.slotOf q.homeSlice (s.asidOf q.who.core) rid = none → (sget [] s.near.slots q.homeSlice).length < 64 →
      ∃ t, exec .routineSlotLoad s = .next t ∧ sget [] t.near.slotReqs die = l ∧ SameBytes s t
        ∧ (s.time, Ev.routineRun r) ∈ t.agenda ∧ sget [] t.near.slots q.homeSlice = sget [] s.near.slots q.homeSlice ++
            [{ asid := s.asidOf q.who.core, rid := rid, code := code, started := s.time }]))

/-! ### The control thread -/

/-- The computations of RV64I, M, Zba and Zbb write rd and nothing else, with x0 discarding: division by zero gives all ones and the
dividend, 32-bit forms sign-extend; a taken branch or jump goes to its target, and one that is no multiple of 4 raises cause 0; `ecall`
raises cause 8 or 11 and `ebreak` cause 3 (R107, R109). -/
def Clause.RvComputes : Prop := ∀ (s : State) (rd a b : XReg) (i : BitVec 12) (u : BitVec 20) (k : BitVec 6) (k5 : BitVec 5),
  let x := s.xr a
  let y := s.xr b
  let n := y.toNat % 64
  let xw : BitVec 32 := x.setWidth 32
  let yw : BitVec 32 := y.setWidth 32
  let m := yw.toNat % 32
  let gives := fun (op : RvOp) (v : Word) => GivesX s (exec (.rvIntegerOp op) s) rd v
  let w := fun (v : BitVec 32) => v.signExtend 64
  let counts := fun (op : RvUn) (P : Nat → Prop) => ∃ c, P c ∧ gives (.un op rd a) (BitVec.ofNat 64 c)
  (∀ f, gives (.alu f rd a b) (match f with
    | .add => x + y | .sub => x - y | .sll => x <<< n | .srl => x >>> n | .sra => x.sshiftRight n
    | .slt => if x.toInt < y.toInt then 1 else 0 | .sltu => if x.toNat < y.toNat then 1 else 0
    | .xor => x ^^^ y | .or => x ||| y | .and => x &&& y | .mul => x * y
    | .mulh => (x.signExtend 128 * y.signExtend 128).extractLsb' 64 64
    | .mulhsu => (x.signExtend 128 * y.zeroExtend 128).extractLsb' 64 64
    | .mulhu => (x.zeroExtend 128 * y.zeroExtend 128).extractLsb' 64 64
    | .div => if y = 0 then BitVec.allOnes 64 else x.sdiv y | .divu => if y = 0 then BitVec.allOnes 64 else x / y
    | .rem => if y = 0 then x else x.srem y | .remu => x % y
    | .sh1add => y + x <<< 1 | .sh2add => y + x <<< 2 | .sh3add => y + x <<< 3
    | .andn => x &&& ~~~y | .orn => x ||| ~~~y | .xnor => ~~~(x ^^^ y)
    | .min => if x.toInt < y.toInt then x else y | .max => if x.toInt < y.toInt then y else x
    | .minu => if x.toNat < y.toNat then x else y | .maxu => if x.toNat < y.toNat then y else x
    | .rol => x.rotateLeft n | .ror => x.rotateRight n
    | .addUw => y + xw.zeroExtend 64 | .sh1addUw => y + xw.zeroExtend 64 <<< 1 | .sh2addUw => y + xw.zeroExtend 64 <<< 2
    | .sh3addUw => y + xw.zeroExtend 64 <<< 3))
  ∧ (∀ f, gives (.aluW f rd a b) (w (match f with
    | .addw => xw + yw | .subw => xw - yw | .sllw => xw <<< m | .srlw => xw >>> m | .sraw => xw.sshiftRight m | .mulw => xw * yw
    | .divw => if yw = 0 then BitVec.allOnes 32 else xw.sdiv yw | .divuw => if yw = 0 then BitVec.allOnes 32 else xw / yw
    | .remw => if yw = 0 then xw else xw.srem yw | .remuw => xw % yw
    | .rolw => xw.rotateLeft m | .rorw => xw.rotateRight m)))
  ∧ (∀ f, gives (.opImm f rd a i) (let j := i.signExtend 64
    match f with
    | .addi => x + j | .slti => if x.toInt < j.toInt then 1 else 0 | .sltiu => if x.toNat < j.toNat then 1 else 0
    | .xori => x ^^^ j | .ori => x ||| j | .andi => x &&& j | .addiw => w (xw + j.setWidth 32)))
  ∧ (∀ f, gives (.shImm f rd a k) (match f with
    | .slli => x <<< k.toNat | .srli => x >>> k.toNat | .srai => x.sshiftRight k.toNat | .rori => x.rotateRight k.toNat
    | .slliUw => xw.zeroExtend 64 <<< k.toNat))
  ∧ (∀ f, gives (.shImmW f rd a k5) (w (match f with
    | .slliw => xw <<< k5.toNat | .srliw => xw >>> k5.toNat | .sraiw => xw.sshiftRight k5.toNat | .roriw => xw.rotateRight k5.toNat)))
  ∧ counts .clz (fun c => c ≤ 64 ∧ (∀ j, j < c → x.getMsbD j = false) ∧ (c < 64 → x.getMsbD c = true))
  ∧ counts .clzw (fun c => c ≤ 32 ∧ (∀ j, j < c → xw.getMsbD j = false) ∧ (c < 32 → xw.getMsbD c = true))
  ∧ counts .ctz (fun c => c ≤ 64 ∧ (∀ j, j < c → x.getLsbD j = false) ∧ (c < 64 → x.getLsbD c = true))
  ∧ counts .ctzw (fun c => c ≤ 32 ∧ (∀ j, j < c → xw.getLsbD j = false) ∧ (c < 32 → xw.getLsbD c = true))
  ∧ gives (.un .cpop rd a) (BitVec.ofNat 64 ((List.range 64).filter (fun j => x.getLsbD j)).length)
  ∧ gives (.un .cpopw rd a) (BitVec.ofNat 64 ((List.range 32).filter (fun j => x.getLsbD j)).length)
  ∧ gives (.un .sextB rd a) ((x.setWidth 8).signExtend 64) ∧ gives (.un .sextH rd a) ((x.setWidth 16).signExtend 64)
  ∧ gives (.un .zextH rd a) ((x.setWidth 16).zeroExtend 64)
  ∧ (∃ v : Word, gives (.un .orcB rd a) v ∧ ∀ j, j < 8 → elem 8 v.toNat j = if elem 8 x.toNat j = 0 then 0 else 0xFF)
  ∧ (∃ v : Word, gives (.un .rev8 rd a) v ∧ ∀ j, j < 8 → elem 8 v.toNat j = elem 8 x.toNat (7 - j))
  ∧ gives (.lui rd u) ((u ++ 0#12).signExtend 64) ∧ gives (.auipc rd u) (s.cpc + (u ++ 0#12).signExtend 64)

/-- Jumps and taken branches go to their target with the link in rd, one that is no multiple of 4 raises cause 0, a branch not taken goes
on, `ecall` raises cause 8 or 11 by the mode, and `ebreak` cause 3 (R107, R109). -/
def Clause.RvTransfers : Prop := ∀ (s : State) (rd a b : XReg) (i : BitVec 12) (o : BitVec 20) (o12 : BitVec 12) (c : RvBr),
  let x := s.xr a
  let y := s.xr b
  let goes := fun (op : RvOp) (r : XReg) (v t : Word) =>
    (t.toNat % 4 = 0 → CtJumps s (exec (.rvIntegerOp op) s) r v t)
    ∧ (t.toNat % 4 ≠ 0 → CtTraps s (exec (.rvIntegerOp op) s) 0 t)
  let taken : Prop := match c with
    | .beq => x = y | .bne => x ≠ y | .blt => x.toInt < y.toInt | .bge => y.toInt ≤ x.toInt
    | .bltu => x.toNat < y.toNat | .bgeu => y.toNat ≤ x.toNat
  goes (.jal rd o) rd (s.cpc + 4) (s.cpc + (o ++ 0#1).signExtend 64)
  ∧ goes (.jalr rd a i) rd (s.cpc + 4) ((x + i.signExtend 64) &&& ~~~1)
  ∧ (taken → goes (.br c a b o12) 0 0 (s.cpc + (o12 ++ 0#1).signExtend 64))
  ∧ (¬ taken → GivesX s (exec (.rvIntegerOp (.br c a b o12)) s) 0 0)
  ∧ CtTraps s (exec (.rvIntegerOp .ecall) s) (match s.myCore.ct.priv with | .machine => 11 | .user => 8) 0
  ∧ CtTraps s (exec (.rvIntegerOp .ebreak) s) 3 s.cpc

/-- Computations, jumps and branches of the base set (R107, R109). -/
def Obligations.RvIntegers : Prop := Clause.RvComputes ∧ Clause.RvTransfers

/-- Taking an exception: mepc is the pc, mcause and mtval say why, MPP and MPIE hold the mode and MIE, and the thread goes on in machine
mode at mtvec; a handler that cannot be fetched halts it and fails its launch with CTHALT, 7 (R309, R310). `mret` undoes the saving: the pc
from mepc, the mode from MPP, MIE from MPIE, and MPRV ends with machine mode; in user mode it is illegal, cause 2 with the word in mtval
(R107, R67). -/
def Obligations.Exceptions : Prop := ∀ (s : State) (i cause : Nat) (tval : Word),
  TrapTaken s (takeTrap s i cause tval) i cause tval
  ∧ (∀ k l, s.lau.launches.find? (fun e => e.2.lid = (s.core i).lid && e.2.st ≠ .done && e.2.st ≠ .failed) = some (k, l) →
    ((s.core i).bound ≤ (s.core i).ct.mtvec.toNat ∨ (s.core i).ct.mtvec.toNat % 4 ≠ 0) →
    (s.time, Ev.launchEnd (s.core i).lid) ∈ (takeTrap s i cause tval).agenda
      ∧ sfind (takeTrap s i cause tval).lau.launches k = some { l with reason := 7 })
  ∧ (s.myCore.ct.priv = .machine →
    ∃ t, exec .rvMret s = .next t ∧ OnlyCt s t s.cur.core ∧ SameBytes s t
      ∧ t.myCore.ct = { s.myCore.ct with
          pc := s.myCore.ct.mepc, priv := s.myCore.ct.mpp, mie := s.myCore.ct.mpie, mpie := true, mpp := .user
          mprv := s.myCore.ct.mprv && decide (s.myCore.ct.mpp = .machine)
          minstret := s.myCore.ct.minstret + 1, wait := .none })
  ∧ (s.myCore.ct.priv = .user → CtTraps s (exec .rvMret s) 2 (s.myCore.ct.ir.zeroExtend 64))

/-- Loads and stores of the control thread: the own local store at once, global memory and other cores' local stores by a request it waits
for; misaligned addresses raise causes 4 and 6, addresses of no region 5 and 7, an uncorrectable word that traps 26; a store into a range
that a job has still to read waits (R108, R189, R190, R192, R319). -/
def Obligations.RvMemory : Prop := ∀ (s : State) (k : RvLd) (z : StK) (rd r1 r2 : XReg) (imm : BitVec 12),
  let a := s.xr r1 + imm.signExtend 64
  let i := s.cur.core
  let n := k.size
  let m := z.size
  let bs := leBytes m (s.xr r2).toNat
  let ld := exec (.rvLoad k rd r1 imm) s
  let st := exec (.rvStore z r1 r2 imm) s
  let lo := a.toNat % 2 ^ 17
  let j := a.toNat / 2 ^ 32 % 2 ^ 11
  let remote := fun (n : Nat) => a.toNat / 2 ^ 48 = 2 ∧ a.toNat / 2 ^ 43 % 32 = 0 ∧ a.toNat / 2 ^ 17 % 2 ^ 15 = 0 ∧ lo + n ≤ 98304
    ∧ s.sameLaunch i j = true
  let nowhere := fun (n : Nat) => (a.toNat / 2 ^ 48 = 0 ∧ 98304 < a.toNat + n) ∨ 3 ≤ a.toNat / 2 ^ 48
    ∨ (a.toNat / 2 ^ 48 = 2 ∧ ¬ remote n)
  let q := fun (op : ReqOp) (n : Nat) (d : Dest) => Req.new (.ct i) op (a.toNat % 2 ^ 48) n d
  (a.toNat % n = 0 → a.toNat + n ≤ 98304 → s.lsTraps i a.toNat n = false → s.lsSnuffs i a.toNat n = false →
    GivesX s ld rd (rvLoaded k (lsNum s i a.toNat n)))
  ∧ (a.toNat % n = 0 → a.toNat + n ≤ 98304 → s.lsTraps i a.toNat n = true → CtTraps s ld 26 a)
  ∧ (a.toNat % n ≠ 0 → CtTraps s ld 4 a) ∧ (a.toNat % n = 0 → nowhere n → CtTraps s ld 5 a)
  ∧ (a.toNat % n = 0 → a.toNat / 2 ^ 48 = 1 → tileServes s.myCore (q (.load n) n (.x rd k)) = false →
    CtAwaits s ld (q (.load n) n (.x rd k)))
  ∧ (a.toNat % n = 0 → remote n → CtAwaitsRemote s ld (Req.new (.ct i) (.load n) lo n (.x rd k)) j)
  ∧ (a.toNat % m = 0 → a.toNat + m ≤ 98304 → s.lsHeld i a.toNat m = false →
    EndsWith s st 0 0 (fun t => (∀ p, t.lsByte i p = if a.toNat ≤ p ∧ p < a.toNat + m then bs.getD (p - a.toNat) 0 else s.lsByte i p)
      ∧ t.mem = s.mem ∧ (∀ j, j ≠ i → t.core j = s.core j)))
  ∧ (a.toNat % m = 0 → a.toNat + m ≤ 98304 → s.lsHeld i a.toNat m = true → CtRetries s st)
  ∧ (a.toNat % m ≠ 0 → CtTraps s st 6 a) ∧ (a.toNat % m = 0 → nowhere m → CtTraps s st 7 a)
  ∧ (a.toNat % m = 0 → a.toNat / 2 ^ 48 = 1 → tileServes s.myCore (q (.store bs) m .none) = false →
    CtAwaits s st (q (.store bs) m .none))
  ∧ (a.toNat % m = 0 → remote m → CtAwaitsRemote s st (Req.new (.ct i) (.store bs) lo m .none) j)

/-- AMOs on the own local store give rd the old value and write the new one; on global memory, and `lr` and `sc` there, a request goes to the
home and the thread waits; elsewhere they raise cause 7, `lr` 5, and misaligned 6, `lr` 4 (R107, R108, R189). -/
def Obligations.RvAtomics : Prop := ∀ (s : State) (op : AmoOp) (d aq rl : Bool) (rd r1 r2 : XReg),
  let a := s.xr r1
  let i := s.cur.core
  let n := if d then 8 else 4
  let k : RvLd := if d then .ld else .lw
  let y := (s.xr r2).toNat
  let amo := exec (.rvAmo op d aq rl rd r1 r2) s
  let lr := exec (.rvLr d aq rl rd r1) s
  let sc := exec (.rvSc d aq rl rd r1 r2) s
  let region := a.toNat / 2 ^ 48
  let old := lsNum s i a.toNat n
  let sgn := fun (x : Nat) => if 2 ^ (8 * n - 1) ≤ x then (x : Int) - ((2 ^ (8 * n) : Nat) : Int) else (x : Int)
  let b := y % 2 ^ (8 * n)
  let new := match op with
    | .add => (old + b) % 2 ^ (8 * n) | .swap => b | .and => old &&& b | .or => old ||| b | .xor => old ^^^ b
    | .min => if sgn old ≤ sgn b then old else b | .max => if sgn old ≤ sgn b then b else old
    | .minu => if old ≤ b then old else b | .maxu => if old ≤ b then b else old
  let fn := match op with
    | .add => 0 | .min => 1 | .max => 2 | .minu => 3 | .maxu => 4 | .and => 5 | .or => 6 | .xor => 7 | .swap => 8
  let sends := fun (o : Out) (x : ReqOp) (dst : Dest) =>
    let q := Req.new (.ct i) x (a.toNat % 2 ^ 48) n dst
    a.toNat % n = 0 → region = 1 → tileServes s.myCore q = false → CtAwaits s o q
  (a.toNat % n = 0 → a.toNat + n ≤ 98304 → s.lsTraps i a.toNat n = false → s.lsSnuffs i a.toNat n = false →
    s.lsHeld i a.toNat n = false →
    EndsWith s amo rd (rvLoaded k old) (fun t =>
      (∀ p, t.lsByte i p = if a.toNat ≤ p ∧ p < a.toNat + n then BitVec.ofNat 8 (new / 256 ^ (p - a.toNat)) else s.lsByte i p)
      ∧ t.mem = s.mem))
  ∧ sends amo (.atomic n fn (s.xr r2) 0) (.x rd k)
  ∧ sends lr (.lr n) (.x rd k)
  ∧ sends sc (.sc (leBytes n y)) (.scx rd)
  ∧ (a.toNat % n ≠ 0 → CtTraps s amo 6 a ∧ CtTraps s lr 4 a ∧ CtTraps s sc 6 a)
  ∧ (a.toNat % n = 0 → 2 ≤ region → CtTraps s amo 7 a)
  ∧ (a.toNat % n = 0 → region ≠ 1 → CtTraps s lr 5 a ∧ CtTraps s sc 7 a)

/-- The fences of the control thread return OK, and `fence.sy`, once the thread's window stores are performed, LOST or REFUSED as its
record has it and clears it; FENCE and FENCE.I do nothing. `ct.sleep` and WFI return the pending masked events or wait, and an empty mask
ends the thread (R107, R134, R135, R295). -/
def Obligations.RvWaits : Prop := ∀ (s : State) (rd r1 : XReg),
  let c := s.myCore.ct
  let done : Prop := ∀ r q, (r, q) ∈ s.reqs → q.who = .ct s.cur.core → q.live = true → r < s.nextReq → q.atDv = true ∧ q.atSy = true
  let sleeps := fun (i : Instr) (d : XReg) (m : Word) =>
    (m = 0 → ∃ t, exec i s = .next t ∧ t.myCore.ct = { c with finished := true, wait := .none } ∧ SameBytes s t)
    ∧ (s.myCore.events &&& m ≠ 0 → GivesX s (exec i s) d (s.myCore.events &&& m))
    ∧ (m ≠ 0 → s.myCore.events &&& m = 0 → CtRetries s (exec i s))
  GivesX s (exec .rvFence s) 0 0 ∧ GivesX s (exec .rvFenceI s) 0 0 ∧ GivesX s (exec (.fenceCl rd) s) rd 0
  ∧ GivesX s (exec (.fenceDv rd) s) rd 0
  ∧ (done → ∃ t, exec (.fenceSy rd) s = .next t ∧ OnlyCt s t s.cur.core
      ∧ (∀ r, t.xr r = if r ≠ 0 ∧ r = rd then (if c.lost then 5 else if c.refused then 6 else 0) else s.xr r)
      ∧ t.myCore.ct = { c with
          x := t.myCore.ct.x, pc := c.pc + 4, minstret := c.minstret + 1, wait := .none, lost := false, refused := false })
  ∧ (¬ done → CtRetries s (exec (.fenceSy rd) s))
  ∧ sleeps (.ctSleep rd r1) rd (if r1 = 0 then s.myCore.evmask else s.xr r1)
  ∧ sleeps .rvWfi 0 s.myCore.evmask

/-- A CSR instruction naming no CSR, one the mode may not access, or writing a read-only one is illegal; a set or clear form of x0 or 0 reads
and writes nothing. Reads give TIME, the hart id, MTSTAT, EVPEND with its level bits, XBOUND in bytes, the mode of contexts and the fields
kept; MTFAULT gives the oldest entry and takes it (R62, R63, R107, R304, R313). -/
def Clause.CsrReads : Prop := ∀ (s : State) (op : CsrOp) (imm : Bool) (n : BitVec 12) (rd src : XReg),
  let k := s.myCore
  let c := k.ct
  let run := exec (.rvCsrAccess op imm n rd src) s
  let writes : Prop := op = .rw ∨ src ≠ 0
  let x := n.toNat
  let ro : Prop := x = 0x7C4 ∨ x = 0x800 ∨ x = 0x801 ∨ x = 0x805 ∨ 0xC00 ≤ x
  let gives := fun (m : Nat) (v : Word) => x = m → c.mayAccess m = true → ¬ writes → GivesX s run rd v
  let bad := CtTraps s run 2 (c.ir.zeroExtend 64)
  ((((0x7C7 ≤ x ∧ x ≤ 0x7FF) ∨ (0x806 ≤ x ∧ x ≤ 0x807) ∨ (0x810 ≤ x ∧ x ≤ 0x8FF)) → bad)
    ∧ (writes → ro → bad)
    ∧ (c.priv = .user → 0x7C0 ≤ x → x ≤ 0x7FF → bad) ∧ (c.priv = .user → 0x300 ≤ x → x ≤ 0x3FF → bad))
  ∧ gives 0x300 c.mstatus ∧ gives 0x305 c.mtvec ∧ gives 0x306 (c.mcounteren.zeroExtend 64) ∧ gives 0x340 c.mscratch
  ∧ gives 0x341 c.mepc ∧ gives 0x342 c.mcause ∧ gives 0x343 c.mtval ∧ gives 0xC00 (BitVec.ofNat 64 s.time)
  ∧ gives 0xC01 (BitVec.ofNat 64 s.time) ∧ gives 0xB02 c.minstret ∧ gives 0xF14 (BitVec.ofNat 64 s.cur.core)
  ∧ gives 0x7C0 (BitVec.ofNat 64 (k.xbound.toNat * 128)) ∧ gives 0x7C1 k.ovlvec ∧ gives 0x7C2 (k.mode.zeroExtend 64)
  ∧ gives 0x7C3 k.sevpol ∧ gives 0x7C4 k.pair.ctl ∧ gives 0x7C5 k.glimctl ∧ gives 0x800 (s.mtstat s.cur.core)
  ∧ gives 0x802 k.timecmp ∧ gives 0x803 k.evmask
  ∧ gives 0x804 (k.evpend ||| (if k.faultq = [] then 0 else 2) ||| (if k.mbx = [] then 0 else 1))
  ∧ gives 0x805 (s.jobstat s.cur.core) ∧ gives (0x808 + n.toNat % 8) (k.q (n.toNat % 8)).qcfg
  ∧ (x = 0x801 → ¬ writes →
    EndsWith s run rd (k.faultq.headD 0) (fun t => t.myCore.faultq = k.faultq.tail ∧ SameBytes s t))

/-- A CSR write leaves the fields the CSR has: `mstatus` MIE, MPIE, MPRV and a legal MPP, `mtvec` and `mepc` multiples of 4, XBOUND at most 98,304
bytes, OVLVEC, SEVPOL, GLIMCTL and EVMASK their bits; CTXMODE changes the mode of a quiescent core and empties it; TIMECMP sets TIMER at its
cycle, or the next; EVPEND clears the edge bits written one; MTFAULT's read takes an entry; TRIGCTL sets the trigger it names (R63, R107,
R116, R304, R313, R314, R360). -/
def Clause.CsrRows : Prop := ∀ (s : State) (v : Word) (rd : XReg),
  let i := s.cur.core
  let k := s.myCore
  let sets := fun (n : BitVec 12) (f : Core) => CoreBecomes s (exec (.csrWrite n v) s) i f
  sets 0x300 { k with ct := { k.ct with
      mie := v.getLsbD 3, mpie := v.getLsbD 7, mprv := v.getLsbD 17
      mpp := if v.toNat / 2048 % 4 = 3 then .machine else if v.toNat / 2048 % 4 = 0 then .user else k.ct.mpp } }
  ∧ sets 0x305 { k with ct := { k.ct with mtvec := v &&& ~~~3 } } ∧ sets 0x306 { k with ct := { k.ct with mcounteren := v.setWidth 3 } }
  ∧ sets 0x340 { k with ct := { k.ct with mscratch := v } } ∧ sets 0x341 { k with ct := { k.ct with mepc := v &&& ~~~3 } }
  ∧ sets 0x342 { k with ct := { k.ct with mcause := v } } ∧ sets 0x343 { k with ct := { k.ct with mtval := v } }
  ∧ sets 0xB02 { k with ct := { k.ct with minstret := v } }
  ∧ sets 0x7C0 { k with xbound := BitVec.ofNat 10 (min (v.toNat / 128 % 1024) 768) }
  ∧ sets 0x7C1 { k with ovlvec := v &&& 0x800000000001FF80 } ∧ sets 0x7C3 { k with sevpol := v &&& 0x3FF }
  ∧ sets 0x7C5 { k with glimctl := v &&& 1 } ∧ sets 0x803 { k with evmask := v &&& 0xFF7F }
  ∧ (k.pair.on = false → s.quiescent i = true →
    CoreBecomes s (exec (.ctxmodeWrite v) s) i { k with mode := v.setWidth 2, v := [], vBad := [], ctxs := [] })
  ∧ (k.pair.on = false → s.quiescent i = false → exec (.ctxmodeWrite v) s = .next s)
  ∧ (∃ t, exec (.timecmpWrite v) s = .next t ∧ t.myCore = { k with timecmp := v } ∧ SameBytes s t
      ∧ (∀ e, e ∈ t.agenda → e.2 = Ev.timerMatch i → e.1 = if s.time < v.toNat then v.toNat else s.time + 1)
      ∧ ((if s.time < v.toNat then v.toNat else s.time + 1), Ev.timerMatch i) ∈ t.agenda)
  ∧ CoreBecomes s (exec (.evpendWrite v) s) i { k with evpend := k.evpend &&& ~~~(v &&& 0xFF7C) }
  ∧ CoreBecomes s (exec (.mtfaultRead rd) s) i { k with faultq := k.faultq.tail, ct := k.ct.wx rd (k.faultq.headD 0) }
  ∧ (let w := if 6 ≤ v.toNat / 2 ^ 57 % 8 then v &&& 0xF1FFFFFFFFFFFFFF else v
     CoreBecomes s (exec (.trigctlWrite v) s) i
       { k with trigs := sput 0 k.trigs (v.toNat / 2 ^ 60) w, trigIdx := BitVec.ofNat 4 (v.toNat / 2 ^ 60) })

/-- A CSR instruction that writes gives rd the old value and the CSR the new one: the source, or the old value with the source's bits set or
cleared (R62, R107). -/
def Clause.CsrWrites : Prop := ∀ (s : State) (op : CsrOp) (imm : Bool) (n : BitVec 12) (rd src : XReg),
  let x : Word := if imm then src.zeroExtend 64 else s.xr src
  let old := csrRead s n.toNat
  let new := match op with | .rw => x | .rs => old ||| x | .rc => old &&& ~~~x
  (op = .rw ∨ src ≠ 0) → s.myCore.ct.mayAccess n.toNat = true →
  (n.toNat = 0x305 ∨ n.toNat = 0x340 ∨ n.toNat = 0x803 ∨ n.toNat = 0x7C3) →
    ∃ t, exec (.rvCsrAccess op imm n rd src) s = .next t ∧ OnlyCore s t s.cur.core ∧ SameBytes s t
      ∧ (∀ r, t.xr r = if r ≠ 0 ∧ r = rd then old else s.xr r) ∧ t.cpc = s.cpc + 4
      ∧ t.myCore.ct.mtvec = (if n.toNat = 0x305 then new &&& ~~~3 else s.myCore.ct.mtvec)
      ∧ t.myCore.ct.mscratch = (if n.toNat = 0x340 then new else s.myCore.ct.mscratch)
      ∧ t.myCore.evmask = (if n.toNat = 0x803 then new &&& 0xFF7F else s.myCore.evmask)
      ∧ t.myCore.sevpol = (if n.toNat = 0x7C3 then new &&& 0x3FF else s.myCore.sevpol)

/-- Control-thread CSRs: reads, writes, and the effects of a write (R62, R63, R107, R116, R304, R313, R314, R360). -/
def Obligations.ControlRegisters : Prop := Clause.CsrReads ∧ Clause.CsrRows ∧ Clause.CsrWrites

/-! ### Context control -/

/-- `mt.start` and `mt.bcast` put the masked contexts in EMPTY or STOPPED into RUN at a block address and return the mask of the others;
`mt.start` has each copy its block, `mt.bcast` sends the first n + 1 bundles; a misaligned address raises cause 24, and a block of `mt.bcast`
beyond XBOUND cause 25. `mt.wait` and `mt.poll` return the masks of FAULTED, STOPPED and EMPTY or EVICTED contexts, `mt.poll` with BUSY, and
`mt.wait` waits while some are busy and none FAULTED. The odd core of a pair is refused (R47, R48, R112–R114, R329). -/
def Obligations.ContextStart : Prop := ∀ (s : State) (n : BitVec 4) (rd r1 r2 : XReg),
  let i := s.cur.core
  let a := (s.xr r1).toNat
  let cx := fun c => s.cx i c
  let masked := fun (m : Word) (c : Nat) => decide (c < modeN s.myCore.mode) && m.getLsbD c
  let idle := fun c => decide ((cx c).st = .empty) || decide ((cx c).st = .stopped)
  let left := fun (v : Word) => ∀ c, c < 64 → v.getLsbD c = (masked (s.xr r2) c && !idle c)
  let runs := fun (copy : Bool) (at' : Nat) (t : State) => SameBytes s t ∧ ∀ c, c < 16 → t.cx i c =
    if masked (s.xr r2) c && idle c then { cx c with
        st := .run, pc := BitVec.ofNat 17 a, copy := copy, bufOk := false, inBlock := false, bcastEnd := none, readyAt := at', wait := .none
        xfer := none, quash := false, reissue := false, alone := false, sWrote := 0 }
    else cx c
  let k := n.toNat + 1
  let st := fun (p : CSt → Bool) (c : Nat) => masked (s.xr r1) c && p (cx c).st
  let faulted := st (fun x => decide (x = .faulted))
  let busy := st (fun x => decide (x = .run ∨ x = .waitMem ∨ x = .waitQ ∨ x = .waitBar))
  let summary := fun (v : Word) => ∀ c, c < 16 → v.getLsbD c = faulted c ∧ v.getLsbD (16 + c) = st (fun x => decide (x = .stopped)) c
    ∧ v.getLsbD (32 + c) = st (fun x => decide (x = .empty ∨ x = .evicted)) c
  (s.myCore.pair.on = false →
    (a % 128 = 0 → a < 2 ^ 17 → ∃ v, left v ∧ EndsWith s (exec (.mtStart rd r1 r2) s) rd v (runs true (s.time + 2)))
    ∧ (a % 128 = 0 → a + 128 ≤ s.myCore.bound → ∃ v m, left v
        ∧ EndsWith s (exec (.mtBcast n rd r1 r2) s) rd v (fun t => runs false (s.time + (2 + k)) t
            ∧ (s.time + (1 + k), Ev.bcastDelivery i m a ((List.range k).map (fun j => BitVec.ofNat 64 (lsNum s i (a + 8 * j) 8)))) ∈ t.agenda
            ∧ ∀ c, c < 16 → m.testBit c = (masked (s.xr r2) c && idle c)))
    ∧ (a % 128 ≠ 0 → CtTraps s (exec (.mtStart rd r1 r2) s) 24 (s.xr r1) ∧ CtTraps s (exec (.mtBcast n rd r1 r2) s) 24 (s.xr r1))
    ∧ (a % 128 = 0 → s.myCore.bound < a + 128 → CtTraps s (exec (.mtBcast n rd r1 r2) s) 25 (s.xr r1))
    ∧ (∃ v, GivesX s (exec (.mtPoll rd r1) s) rd v ∧ summary v ∧ (v.getLsbD 63 = true ↔ ∃ c, busy c = true))
    ∧ (((∃ c, faulted c = true) ∨ ∀ c, busy c = false) → ∃ v, GivesX s (exec (.mtWait rd r1) s) rd v ∧ summary v ∧ v.getLsbD 63 = false)
    ∧ ((∀ c, faulted c = false) → (∃ c, busy c = true) → CtRetries s (exec (.mtWait rd r1) s)))
  ∧ (s.oddCt = true → GivesX s (exec (.mtStart rd r1 r2) s) rd 1 ∧ GivesX s (exec (.mtBcast n rd r1 r2) s) rd 1
      ∧ GivesX s (exec (.mtPoll rd r1) s) rd 1 ∧ GivesX s (exec (.mtWait rd r1) s) rd 1)

/-- `mt.kill` empties the masked contexts that are not in a block and hold neither EMPTY nor EVICTED, and is held for those that are;
`mt.rdreg` and `mt.wrreg` read, as they were before a bundle that still executes, and write the word of context state that a selector
names, or return 0 and BADARG, and a read of an uncorrectable word that the policy traps raises exception 26; `mt.resume` has a FAULTED
context reissue its latch, and `mt.redirect` sends a STOPPED, FAULTED, WAIT.Q or WAIT.BAR one to a block (R44, R65, R115, R117, R118,
R160, R323). -/
def Obligations.ContextState : Prop := ∀ (s : State) (rd r1 r2 : XReg), s.myCore.pair.on = false →
  let i := s.cur.core
  let w := s.xr r1
  let v := s.xr r2
  let mode := s.myCore.mode
  let cx := fun c => s.cx i c
  let masked := fun (c : Nat) => decide (c < modeN mode) && w.getLsbD c
  let hit := fun c => masked c && decide ((cx c).st ≠ .empty) && decide ((cx c).st ≠ .evicted)
  let c := w.toNat % 16
  let num := w.toNat / 256 % 32
  let word := w.toNat / 8192 % 32
  let kind := w.toNat / 16 % 16
  let rdreg := exec (.mtRdreg rd r1) s
  let wrreg := exec (.mtWrreg rd r1 r2) s
  let z := (cx c).seen s.time
  let becomes := fun (x : Ctx) => EndsWith s wrreg rd 0 (fun t => t.cx i c = x ∧ (∀ d, d ≠ c → t.cx i d = cx d) ∧ SameBytes s t
    ∧ t.myCore.v = s.myCore.v)
  ((∀ c, hit c = true → (cx c).holds = false ∧ (cx c).txn = none) →
    ∃ m, (∀ c, c < 64 → m.getLsbD c = hit c) ∧ EndsWith s (exec (.mtKill rd r1) s) rd m (fun t => SameBytes s t
      ∧ ∀ c, c < 16 → if hit c then (t.cx i c).st = .empty ∧ (t.cx i c).s = (cx c).s ∧ (t.cx i c).task = none else t.cx i c = cx c))
  ∧ ((∃ c, hit c = true ∧ (cx c).holds = true) → (∀ c, hit c = true → (cx c).txn = none) →
    ∃ t l m, exec (.mtKill rd r1) s = .next t ∧ t.myCore.ct.wait = .held rd l m ∧ t.cpc = s.cpc ∧ SameBytes s t
      ∧ (∀ c, c < 16 → l.getLsbD c = (hit c && (cx c).holds) ∧ m.getLsbD c = (hit c && !(cx c).holds))
      ∧ ∀ c, c < 16 → hit c = true →
          if (cx c).holds then (t.cx i c).held = some .kill ∧ (t.cx i c).st = (cx c).st else (t.cx i c).st = .empty)
  ∧ (selOk mode w = false → GivesX s rdreg rd 0 ∧ GivesX s wrreg rd 2)
  ∧ (selOk mode w = true → (cx c).holds = true → ∃ t, rdreg = .next t ∧ (t.cx i c).held = some (.rdreg w)
      ∧ t.myCore.ct.wait = .held rd (BitVec.ofNat 16 (2 ^ c)) 0 ∧ SameBytes s t)
  ∧ (selOk mode w = true → (cx c).holds = false →
    (selBad s i w = true → polAction (s.sevpol i) 4 = 1 → CtTraps s rdreg 26 0)
    ∧ (selBad s i w = false → GivesX s rdreg rd (match kind with
      | 0 => z.rs (BitVec.ofNat 4 num)
      | 1 => BitVec.ofNat 64 (groupOf (if (cx c).busyUnit s.time then (cx c).snap.v else s.myCore.v) mode c num / 2 ^ (64 * word))
      | 2 => BitVec.ofNat 64 ((z.rm (BitVec.ofNat 2 num)).toNat / 2 ^ (64 * word))
      | 3 => (match (cx c).pcOld with | some (n, p) => if s.time < n then p else (cx c).pc | none => (cx c).pc).zeroExtend 64
      | 4 => z.flags | 5 => z.rmode.zeroExtend 64 | 6 => z.seed.zeroExtend 64
      | 7 => (cx c).txstat | 8 => BitVec.ofNat 64 (i * 16 + c) | _ => (cx c).latch))
    ∧ (kind = 0 → becomes (if num = 0 then cx c else { cx c with s := sput 0 (cx c).s num v, sBad := (cx c).sBad.erase num }))
    ∧ (kind = 1 → EndsWith s wrreg rd 0 (fun t => t.myCore.ctxs = s.myCore.ctxs ∧ SameBytes s t ∧ ∀ j, j < modeG mode * 8 →
        groupOf t.myCore.v mode c num / 2 ^ (64 * j) % 2 ^ 64 = if j = word then v.toNat else groupOf s.myCore.v mode c num / 2 ^ (64 * j) % 2 ^ 64))
    ∧ (kind = 2 → EndsWith s wrreg rd 0 (fun t => SameBytes s t ∧ ∀ j, j < 4 →
        ((t.cx i c).rm (BitVec.ofNat 2 num)).toNat / 2 ^ (64 * j) % 2 ^ 64 =
          if j = word ∧ num ≠ 0 then v.toNat else ((cx c).rm (BitVec.ofNat 2 num)).toNat / 2 ^ (64 * j) % 2 ^ 64))
    ∧ (kind = 3 → v.toNat % 8 = 0 → v.toNat < 98304 → becomes { cx c with
        pc := v.setWidth 17, copy := true, bufOk := false, inBlock := false, bcastEnd := none
        alone := (cx c).reissue || (cx c).st = .faulted || (cx c).st = .waitQ || (cx c).st = .waitBar })
    ∧ (kind = 4 → becomes { cx c with flags := v &&& 0x1F })
    ∧ (kind = 5 → v.toNat ≤ 4 → becomes { cx c with rmode := v.setWidth 3 })
    ∧ (kind = 6 → becomes { cx c with seed := if v.setWidth 32 = 0#32 then 0x9E3779B9 else v.setWidth 32 })
    ∧ (kind = 9 → becomes { cx c with latch := v })
    ∧ ((kind = 7 ∨ kind = 8 ∨ (kind = 5 ∧ 4 < v.toNat) ∨ (kind = 3 ∧ (v.toNat % 8 ≠ 0 ∨ 98304 ≤ v.toNat))) → GivesX s wrreg rd 2))
  ∧ (modeN mode ≤ w.toNat → GivesX s (exec (.mtResume rd r1) s) rd 2
      ∧ (v.toNat % 128 = 0 → GivesX s (exec (.mtRedirect rd r1 r2) s) rd 2))
  ∧ (w.toNat < modeN mode → (cx w.toNat).st ≠ .faulted → GivesX s (exec (.mtResume rd r1) s) rd 1)
  ∧ (w.toNat < modeN mode → (cx w.toNat).st = .faulted →
    EndsWith s (exec (.mtResume rd r1) s) rd 0 (fun t => SameBytes s t ∧ t.cx i w.toNat = { cx w.toNat with
      st := .run, reissue := true, noTrig := decide ((cx w.toNat).cause.cause = 9 ∨ (cx w.toNat).cause.cause = 10), readyAt := s.time + 1
      wait := .none }))
  ∧ (v.toNat % 128 ≠ 0 → CtTraps s (exec (.mtRedirect rd r1 r2) s) 24 v)
  ∧ (v.toNat % 128 = 0 → v.toNat < 2 ^ 17 → w.toNat < modeN mode → (cx w.toNat).txn = none →
    ((cx w.toNat).st = .stopped ∨ (cx w.toNat).st = .faulted ∨ (cx w.toNat).st = .waitQ ∨ (cx w.toNat).st = .waitBar) →
    EndsWith s (exec (.mtRedirect rd r1 r2) s) rd 0 (fun t => SameBytes s t ∧ (t.cx i w.toNat).st = .run
      ∧ (t.cx i w.toNat).pc.toNat = v.toNat ∧ (t.cx i w.toNat).copy = true ∧ (t.cx i w.toNat).latch = 0
      ∧ (t.cx i w.toNat).reissue = false ∧ (t.cx i w.toNat).s = (cx w.toNat).s))
  ∧ (v.toNat % 128 = 0 → w.toNat < modeN mode → ((cx w.toNat).st = .empty ∨ (cx w.toNat).st = .evicted) →
    GivesX s (exec (.mtRedirect rd r1 r2) s) rd 1)

/-- `mt.mode`, `mt.evict` and `mt.admit` are illegal in user mode. `mt.mode` sets the mode of a quiescent core and empties it; `mt.evict` takes
a context of which no access is outstanding into the cache, under a handle that is not 0, and the thread waits for the save; `mt.admit`
brings one back into an EMPTY slot; each refuses what the rules refuse (R40, R116, R119, R120, R311, R312). -/
def Obligations.ContextMoves : Prop := ∀ (s : State) (rd r1 r2 : XReg), s.myCore.pair.on = false →
  let i := s.cur.core
  let c := (s.xr r1).toNat
  let k := s.myCore
  let m := exec (.mtMode rd r1) s
  let e := exec (.mtEvict rd r1) s
  let a := exec (.mtAdmit rd r1 r2) s
  (k.ct.priv = .user → ∀ o, (o = m ∨ o = e ∨ o = a) → CtTraps s o 2 (k.ct.ir.zeroExtend 64))
  ∧ (k.ct.priv = .machine →
    (c ≠ 16 → c ≠ 8 → c ≠ 4 → c ≠ 2 → GivesX s m rd 2)
    ∧ (c = 16 ∨ c = 8 ∨ c = 4 ∨ c = 2 → s.quiescent i = false → GivesX s m rd 1)
    ∧ (c = 16 ∨ c = 8 ∨ c = 4 ∨ c = 2 → s.quiescent i = true →
      EndsWith s m rd 0 (fun t => modeN t.myCore.mode = c ∧ t.myCore.v = [] ∧ t.myCore.ctxs = [] ∧ SameBytes s t))
    ∧ ((modeN k.mode ≤ c ∨ (s.cx i c).st = .empty ∨ s.canEvict i = false) → GivesX s e rd 0)
    ∧ (c < modeN k.mode → (s.cx i c).st ≠ .empty → (s.cx i c).st ≠ .evicted → s.canEvict i = true → (s.cx i c).holds = false →
      (s.cx i c).txn = none →
      ∃ t h, e = .next t ∧ h ≠ 0 ∧ t.myCore.ct.wait = .save rd h ∧ (t.cx i c).st = .evicted ∧ SameBytes s t ∧ t.cpc = s.cpc
        ∧ (∃ x, x ∈ t.myCore.tcc ∧ x.handle = h ∧ x.mode = k.mode ∧ x.slot = some c ∧ x.ctx.s = (s.cx i c).s)
        ∧ ∃ d, (d, Ev.evictSave i c) ∈ t.agenda)
    ∧ ((modeN k.mode ≤ c ∨ k.tcc.find? (fun x => x.handle = s.xr r2) = none) → GivesX s a rd 2)
    ∧ (∀ x, c < modeN k.mode → k.tcc.find? (fun x => x.handle = s.xr r2) = some x →
      (x.mode ≠ k.mode → GivesX s a rd 2)
      ∧ (x.mode = k.mode → (s.cx i c).st ≠ .empty → GivesX s a rd 1)
      ∧ (x.mode = k.mode → (s.cx i c).st = .empty →
        ∃ t, a = .next t ∧ t.myCore = { k with ct := { k.ct with wait := .save rd (s.xr r2) } } ∧ SameBytes s t
          ∧ (s.time + (saveCycles k.mode + (if x.inCache then 0 else entryLines k.mode + 26)), Ev.admitLoad i c) ∈ t.agenda)))

/-- A block copy fills the buffer from the local store below XBOUND, else goes to the overlay stub with the block address in s15, or faults
with OVERLAY; a broadcast fills its targets' buffers; a light handler starts at block HBLK; a held request acts on the context as it now is;
the save of an eviction empties the slot and ends the instruction with the handle, and a load puts the context and its registers in (R43,
R44, R47, R269, R305, R308, R311, R312). -/
def Obligations.ContextSteps : Prop := ∀ (s : State) (i c q base m : Nat) (ws : List Word),
  let x := s.me
  let a := x.pc.toNat / 128 * 128
  let stub := s.myCore.ovlvec.toNat / 128 % 1024 * 128
  let block := fun (t : State) (b : Nat) => (∀ k, k < 16 → sget 0 t.me.buf k = BitVec.ofNat 64 (lsNum s s.cur.core (b + 8 * k) 8))
    ∧ t.me.bufOk = true ∧ t.me.copy = false ∧ t.me.bufBase = b ∧ OnlyCtx s t s.cur.core s.cur.ctx
  let n := 256 / modeN (s.core i).mode
  (s.cur.ev = .blockCopy → a + 128 ≤ s.myCore.bound →
    ∃ t, exec .blockCopy s = .next t ∧ block t a ∧ t.me.s = x.s ∧ t.me.pc = x.pc)
  ∧ (s.cur.ev = .blockCopy → s.myCore.bound < a + 128 → s.myCore.ovlvec.getLsbD 63 = true → stub + 128 ≤ s.myCore.bound →
    ∃ t, exec .blockCopy s = .next t ∧ block t stub ∧ t.me.pc.toNat = stub
      ∧ ∀ r, t.me.rs r = if r = 15 then BitVec.ofNat 64 a else x.rs r)
  ∧ (s.cur.ev = .blockCopy → s.myCore.bound < a + 128 → (s.myCore.ovlvec.getLsbD 63 = false ∨ s.myCore.bound < stub + 128) → x.txn = none →
    ∃ t, exec .blockCopy s = .next t ∧ FaultedWith s t
      { cause := 7, pc := BitVec.ofNat 17 a, detail := BitVec.ofNat 40 s.myCore.bound, bundle := 0 } true true)
  ∧ (s.cur.ev = .bcastDelivery i m base ws → c < 16 → m.testBit c = true → (s.cx i c).st = .run → (s.cx i c).readyAt = s.time + 1 →
    (s.cx i c).pc.toNat = base → (s.cx i c).copy = false →
    ∃ t, exec .bcastDelivery s = .next t ∧ (t.cx i c).bufOk = true ∧ (t.cx i c).bufBase = base
      ∧ (t.cx i c).bcastEnd = some (base + 8 * (ws.length - 1)) ∧ (∀ k, k < ws.length → sget 0 (t.cx i c).buf k = ws.getD k 0))
  ∧ (s.cur.ev = .lightHandlerEntry i c q → (s.cx i c).handler ≠ none → (s.cx i c).st = .run →
    ∃ t, exec .lightHandlerEntry s = .next t ∧ OnlyCtx s t i c
      ∧ t.cx i c = { s.cx i c with
          pc := BitVec.ofNat 17 (((s.core i).q q).cfg.toNat % 1024 * 128), copy := true, bufOk := false })
  ∧ (s.cur.ev = .heldRequestApply i c → (s.cx i c).held = none → exec .heldRequestApply s = .next s)
  ∧ (∀ rd w, s.cur.ev = .heldRequestApply i c → (s.cx i c).held = some (.rdreg w) → (s.core i).pair.on = false → c < 16 →
    (s.core i).ct.wait = .held rd (BitVec.ofNat 16 (2 ^ c)) 0 →
    ∃ t, exec .heldRequestApply s = .next t ∧ (t.core i).ct.wait = .none ∧ (t.core i).ct.pc = (s.core i).ct.pc + 4
      ∧ (∀ r, (t.core i).ct.rx r = if r ≠ 0 ∧ r = rd then selRead s i w else (s.core i).ct.rx r) ∧ (t.cx i c).held = none)
  ∧ (∀ rd h, s.cur.ev = .evictSave i c → (s.cx i c).st = .evicted → (s.cx i c).readyAt ≠ 2 ^ 64 → (s.core i).ct.wait = .save rd h →
    ∃ t, exec .evictSave s = .next t ∧ (t.cx i c).st = .empty ∧ (t.core i).ct.wait = .none
      ∧ (∀ r, (t.core i).ct.rx r = if r ≠ 0 ∧ r = rd then h else (s.core i).ct.rx r)
      ∧ (∀ j, j < n → t.phys i (c * n + j) = 0)
      ∧ ∀ e, e ∈ (t.core i).tcc → e ∉ (s.core i).tcc → ∀ j, j < n → sget 0 e.v j = s.phys i (c * n + j))
  ∧ (∀ rd h e, s.cur.ev = .admitLoad i c → (s.core i).ct.wait = .save rd h → (s.core i).tcc.find? (fun e => e.handle = h) = some e →
    e.ctx.st ≠ .faulted →
    ∃ t, exec .admitLoad s = .next t ∧ t.cx i c = { e.ctx with readyAt := s.time + 1, wait := .none }
      ∧ (∀ j, j < n → t.phys i (c * n + j) = sget 0 e.v j) ∧ (∀ y, y ∈ (t.core i).tcc → y.handle ≠ h)
      ∧ (t.core i).ct.wait = .none ∧ ∀ r, (t.core i).ct.rx r = if r ≠ 0 ∧ r = rd then 0 else (s.core i).ct.rx r)



/-! ### Jobs -/

/-- `tc.push`, `tc.trypush` and `tc.send` read the command word at rs1: an opcode that is none gives BADOP, a word that breaks a field
rule, or an address that is no multiple of 32 below the local store's end, BADFIELD, with job id 0 in rd and the reason in JOBSTAT.PUSH
(a target of 256 or more is BADFIELD too). A good word with room, in its core's turn, enters with id SEQ × 64 + record, PUSH = 0; else
`tc.push` waits with that word, whatever is stored there later, and the others give FULL. A sent command leaves for its target with the
capability that follows it. An uncorrectable word that the policy traps raises exception 26 (R77, R121, R122, R218, R222, R323). -/
def Clause.PushCommands : Prop := ∀ (s : State) (rd r1 r2 : XReg),
  let i := s.cur.core
  let a := (s.xr r1).toNat
  let k := clusterOf i
  let target := (s.xr r2).toNat
  let read := BitVec.ofNat 256 (lsNum s i a 32)
  let op := fun (w : BitVec 256) => (w.extractLsb' 248 8).toNat
  let c := tileFields read
  let push := exec (.tcPush rd r1) s
  let try' := exec (.tcTrypush rd r1) s
  let send := exec (.tcSend rd r1 r2) s
  let fresh := ∀ v, s.myCore.ct.wait ≠ .push v
  let placed := a % 32 = 0 ∧ a < 98304
  let clean := fun (p n : Nat) => s.lsTraps i p n = false ∧ s.lsSnuffs i p n = false
  let known := (tileOfOp c (op read)).isSome = true
  let fields := read.getLsbD 244 = false ∧ tileFieldsOk (op read) c = true ∧ (c.grp = true → s.groupOk i c.gid.toNat = true)
  let room := fun (w : BitVec 256) => s.noRoom (op w) k (tileFields w) = false ∧ s.myTurn (queueFor (op w) k) (i % 8) = true
    ∧ s.myCore.takeRec ≠ none
  let gives := fun (o : Out) (n : BitVec 8) => EndsWith s o rd 0 (fun t => t.myCore.push = n ∧ t.jobs = s.jobs ∧ SameBytes s t)
  let waits := fun (o : Out) (w : BitVec 256) => Becomes o (fun t => OnlyCt s t i ∧ t.jobs = s.jobs ∧ SameBytes s t
    ∧ t.myCore.ct = { s.myCore.ct with wait := .push w })
  let enters := fun (o : Out) (w : BitVec 256) (sent : Bool) (P : State → Job → Prop) => ∃ seq n, 1 ≤ seq ∧ seq ≤ 1023 ∧ n < 64 ∧
    EndsWith s o rd (BitVec.ofNat 64 (seq * 64 + n)) (fun t => t.myCore.push = 0 ∧ SameBytes s t
      ∧ sfind t.myCore.recs n = some { seq := seq, job := s.jobs.next, shown := none }
      ∧ ∃ x, t.job s.jobs.next = some x ∧ x.core = i ∧ x.op = op w ∧ x.cmd = tileFields w ∧ x.sent = sent ∧ x.lid = s.myCore.lid ∧ P t x)
  let accepted := fun (o : Out) (w : BitVec 256) => enters o w false (fun t x => x.accepted = true
    ∧ ((tileFields w).grp = false → ∀ e, e ∈ cmdEntries s.jobs.next (tileFields w) → e ∈ (t.cluster k).win))
  (fresh → ¬ placed → ∀ o, (o = push ∨ o = try' ∨ o = send) → gives o 2)
  ∧ (256 ≤ target → gives send 2)
  ∧ (fresh → placed → s.lsTraps i a 32 = true → ∀ o, (o = push ∨ o = try' ∨ (o = send ∧ target < 256)) →
    CtTraps s o 26 (BitVec.ofNat 64 a))
  ∧ (fresh → placed → clean a 32 → ¬ known → gives push 1 ∧ gives try' 1 ∧ (target < 256 → gives send 1))
  ∧ (fresh → placed → clean a 32 → known → ¬ fields → gives push 2 ∧ gives try' 2 ∧ gives send 2)
  ∧ (fresh → placed → clean a 32 → known → fields →
    (¬ room read → waits push read ∧ gives try' 3) ∧ (room read → ∀ o, (o = push ∨ o = try') → accepted o read)
    ∧ (target < 256 → (16 ≤ s.sentLive i ∨ s.myCore.takeRec = none) → gives send 3)
    ∧ (target < 256 → s.sentLive i < 16 → s.myCore.takeRec ≠ none → s.lsTraps i (a + 32) 16 = true →
      CtTraps s send 26 (BitVec.ofNat 64 (a + 32)))
    ∧ (target < 256 → s.sentLive i < 16 → s.myCore.takeRec ≠ none → clean (a + 32) 16 →
      enters send read true (fun t x => x.cluster = target ∧ (∀ b, b < 16 → x.cap.getD b 0 = s.lsByte i (a + 32 + b))
        ∧ (txHolders s i c = [] → Coming s t (13 + travel k target) (.sendArrival s.jobs.next)))))
  ∧ (∀ w, s.myCore.ct.wait = .push w → (¬ room w → waits push w) ∧ (room w → accepted push w))

/-- `job.wait` and `job.poll` give 0 for an id that names no record; a terminal status is returned and frees the record; of a job whose
record shows no terminal state `job.wait` waits, and `job.poll` gives the status, RUNNING for one that has just ended (R124, R226). -/
def Clause.JobStatus : Prop := ∀ (s : State) (rd r1 : XReg),
  let id := (s.xr r1).toNat
  let n := id % 64
  let wait := exec (.jobWait rd r1) s
  let poll := exec (.jobPoll rd r1) s
  ((∀ r, sfind s.myCore.recs n = some r → r.job = 0 ∨ id ≠ r.seq * 64 + n) → GivesX s wait rd 0 ∧ GivesX s poll rd 0)
  ∧ (∀ r, sfind s.myCore.recs n = some r → r.job ≠ 0 → id = r.seq * 64 + n →
    (∀ v, r.shown = some v → ∀ o, (o = wait ∨ o = poll) → EndsWith s o rd v (fun t => t.job r.job = none ∧ SameBytes s t
      ∧ sfind t.myCore.recs n = some { r with job := 0, shown := none }))
    ∧ (r.shown = none → CtRetries s wait ∧ ∀ x, s.job r.job = some x →
      GivesX s poll rd (if x.st.terminal then ({ x with st := .running, code := 0 } : Job).status else x.status)))

/-- `tc.mint` is illegal in user mode; it gives 2 for a bad address or body; else it writes LID and TAG, nothing else, and ends 40
cycles later. An uncorrectable word of the body that the policy traps raises exception 26 (R79, R123, R323). -/
def Clause.Mint : Prop := ∀ (s : State) (rd r1 : XReg),
  let i := s.cur.core
  let k := s.myCore
  let a := (s.xr r1).toNat
  let b := lsNum s i a 8
  let placed := a % 16 = 0 ∧ a < 98304
  let clean := s.lsTraps i a 8 = false ∧ s.lsSnuffs i a 8 = false
  let bad := bitsOf b 47 43 ≠ 0 ∨ bitsOf b 39 32 ≠ 0 ∨ bitsOf b 55 48 < bitsOf b 63 56
  let o := exec (.tcMint rd r1) s
  (k.ct.priv = .user → CtTraps s o 2 (k.ct.ir.zeroExtend 64))
  ∧ (k.ct.priv = .machine → (¬ placed ∨ (clean ∧ bad)) → GivesX s o rd 2)
  ∧ (k.ct.priv = .machine → placed → s.lsTraps i a 8 = true → CtTraps s o 26 (BitVec.ofNat 64 a))
  ∧ (k.ct.priv = .machine → placed → clean → ¬ bad → ∃ t, o = .next t ∧ OnlyCore s t i
    ∧ t.myCore.ct = { k.ct with wait := .until (s.time + 40) rd 0 }
    ∧ ∀ p, t.lsByte i p =
        if a ≤ p ∧ p < a + 4 then BitVec.ofNat 8 (k.lid / 256 ^ (p - a))
        else if a + 8 ≤ p ∧ p < a + 16 then
          BitVec.ofNat 8 ((capTag (Config.launchKey k.lid) ((List.range 8).map (fun j => t.lsByte i (a + j)))).toNat / 256 ^ (p - (a + 8)))
        else s.lsByte i p)

/-- Job commands of the control thread: pushes, status and capabilities (R77, R79, R121–R124). -/
def Obligations.JobCommands : Prop := Clause.PushCommands ∧ Clause.JobStatus ∧ Clause.Mint

/-- A command sent to a cluster: dead, or one its launch has lost, it is cancelled; a collective is refused with BADARG; where no launch
holds the cluster or the capability does not verify, with BADCAP; without room, or out of its turn, it waits at the port; else it is
accepted (R232, R218). A gang enters
every member's window, or ends with BADGANG; the last member's report, or an engine's end, makes the job DONE or FAILED; the record then
shows the status, with the job event where EV asks (R227, R238, R239); a paused log goes on once its page is mapped (R267). -/
def Obligations.JobSteps : Prop := ∀ (s : State) (j : Nat) (x : Job), s.job j = some x →
  let st := if x.code = 0 then JSt.done else .failed
  let arrive := exec .sendArrival s
  let b := leVal (x.cap.take 8)
  let good := fun (l : Launch) =>
    (capTag (Config.launchKey l.lid) (x.cap.take 8)).toNat = leVal (x.cap.drop 8) % 2 ^ 64 ∧ bitsOf b 31 0 = l.lid
      ∧ bitsOf b 63 56 ≤ x.cluster ∧ x.cluster ≤ bitsOf b 55 48
      ∧ (engineOf x.op = .mxe → b.testBit 40 = true) ∧ (engineOf x.op = .cpe → b.testBit 41 = true)
      ∧ (x.cmd.grp = true → b.testBit 42 = true)
  let ends := fun (o : Out) (z : JSt) (code : Nat) => Becomes o (fun t => JobEnded s t j x z code)
  let arbiter := exec .gangArbiterEntry s
  let g := s.gangOf x
  let fits := (∀ k, k ∈ g → k / 32 = x.cluster / 32) ∧ g.length ≤ 16 ∧ x.cluster ∈ g
  let freed := s.lau.deadClusters.contains x.cluster = true ∨ ∃ l, s.launch x.lid = some l ∧ l.freed.contains x.cluster = true
  let taken := s.noRoom x.op x.cluster x.cmd = false ∧ s.firstAtPort x.cluster j (queueFor x.op x.cluster) = true
    ∧ s.myTurn (queueFor x.op x.cluster) 8 = true
  let room := ∀ k, k ∈ g → (k = x.cluster ∨ s.queueLen (.mxe, k) < 16) ∧ (s.cluster k).win.length + (cmdEntries j x.cmd).length ≤ 64
  (s.cur.ev = .sendArrival j → x.st.terminal = false → x.accepted = false →
    (freed → ends arrive .cancelled 0)
    ∧ (¬ freed → engineOf x.op = .cle → ends arrive .rejected 7)
    ∧ (¬ freed → engineOf x.op ≠ .cle → s.launchAt x.cluster = none → ends arrive .rejected 6)
    ∧ (∀ l, ¬ freed → engineOf x.op ≠ .cle → s.launchAt x.cluster = some l →
      (¬ good l → ends arrive .rejected 6)
      ∧ (good l → ¬ taken → Becomes arrive (fun t => Coming s t 1 (.sendArrival j) ∧ (∀ m, t.job m = s.job m)
          ∧ j ∈ (t.cluster x.cluster).port))
      ∧ (good l → taken → Becomes arrive (fun t => (∃ y, t.job j = some y ∧ y.accepted = true)
          ∧ (x.cmd.grp = false → ∀ e, e ∈ cmdEntries j x.cmd → e ∈ (t.cluster x.cluster).win) ∧ SameBytes s t))))
  ∧ (s.cur.ev = .gangArbiterEntry j → x.st.terminal = false → x.gang = [] →
    (¬ fits → ends arbiter .failed 8)
    ∧ (fits → x.unentered = true → s.jobs.gangs.head? = some j → room → Becomes arbiter (fun t =>
        (∃ y, t.job j = some y ∧ y.gang = g) ∧ (∀ k, k ∈ g → ∀ e, e ∈ cmdEntries j x.cmd → e ∈ (t.cluster k).win) ∧ SameBytes s t))
    ∧ (fits → ¬ room → Becomes arbiter (fun t => Coming s t 1 (.gangArbiterEntry j) ∧ t.job j = some x ∧ j ∈ t.jobs.gangs)))
  ∧ (∀ q, s.cur.ev = .gangMemberReport j q → x.st.terminal = false → x.gang.length ≤ x.reports + 1 →
    ends (exec .gangMemberReport s) st x.code)
  ∧ (∀ q, s.cur.ev = .gangMemberReport j q → x.reports + 1 < x.gang.length →
    Becomes (exec .gangMemberReport s) (fun t => JobBecomes s t j { x with reports := x.reports + 1 } ∧ t.agenda = s.agenda))
  ∧ (s.cur.ev = .jobTerminal j → x.st.terminal = false → ends (exec .jobTerminal s) st x.code)
  ∧ (s.cur.ev = .jobRecordUpdate j → Becomes (exec .jobRecordUpdate s) (fun t => t.jobs = s.jobs ∧ SameBytes s t
    ∧ (∀ n r, sfind (s.core x.core).recs n = some r →
        sfind (t.core x.core).recs n = some (if r.job = j then { r with shown := some x.status } else r))
    ∧ (x.op < 0x40 → (t.core x.core).evpend = if x.cmd.ev then (s.core x.core).evpend ||| 8 else (s.core x.core).evpend)
    ∧ (0x40 ≤ x.op → x.cmd.ev = true → ∀ c, (c = x.core ∨ (x.cmd.grp = true ∧ ∃ l h, s.launchOf x.core = some l
        ∧ sfind l.groups x.cmd.gid.toNat = some h ∧ c ∈ h.members)) → (t.core c).evpend.getLsbD 3 = true)))
  ∧ (∀ k l die m, s.cur.ev = .logExtend j → s.lau.mmps.find? (fun m => (m.2.queue.head?.map (·.ext)) = some (some j)) = some (die, m) →
    x.st = .paused → s.lau.launches.find? (fun e => e.2.lid = x.lid && e.2.st.holds) = some (k, l) →
    let v := s.reportDone die
    (l.log.length < l.logPages * 1024 → exec .logExtend s = .next (v.after 1 (.jobRun j)))
    ∧ (l.logPages * 1024 ≤ l.log.length → (l.word 19 = 0 ∨ 16384 ≤ l.logPages) → ends (exec .logExtend s) .failed 3)
    ∧ (∀ u, l.logPages * 1024 ≤ l.log.length → l.word 19 ≠ 0 → l.logPages < 16384 →
      mapLogPage v die l.asid (l.word 19 + 65536 * l.logPages) = some u → Becomes (exec .logExtend s) (fun t =>
        Coming s t 1 (.jobRun j) ∧ sfind t.lau.launches k = some { l with logPages := l.logPages + 1 } ∧ t.mem = u.mem)))


/-! ### Messages, coupling, the start of a core -/

/-- `mbx.send` refuses a core of another launch with 2 and a fifth message in flight with 4; else the message leaves and arrives
13 + 2h + 44c cycles later. `mbx.recv` takes the oldest message or waits; `mbx.tryrecv` stores it with its sender, or gives 2 for a bad
address and 3 for an empty mailbox (R128, R129). -/
def Clause.Mailbox : Prop := ∀ (s : State) (rd r1 r2 : XReg),
  let i := s.cur.core
  let k := s.myCore
  let c := (s.xr r1).toNat
  let same := c < 2048 ∧ k.lid ≠ 0 ∧ (s.core c).lid = k.lid
  let send := exec (.mbxSend rd r1 r2) s
  let recv := exec (.mbxRecv rd) s
  let try' := exec (.mbxTryrecv rd r1) s
  (¬ same → GivesX s send rd 2) ∧ (same → 4 ≤ k.flying → GivesX s send rd 4)
  ∧ (same → k.flying < 4 → EndsWith s send rd 0 (fun t => t.myCore.flying = k.flying + 1 ∧ t.myCore.mbx = k.mbx ∧ SameBytes s t
    ∧ Coming s t (13 + travel (clusterOf i) (clusterOf c)) (.mbxAccept i c (s.xr r2) s.time)))
  ∧ (k.mbx = [] → CtRetries s recv)
  ∧ (∀ m ms, k.mbx = m :: ms → EndsWith s recv rd m.2 (fun t => t.myCore.mbx = ms ∧ SameBytes s t))
  ∧ ((c % 16 ≠ 0 ∨ 98304 ≤ c) → GivesX s try' rd 2)
  ∧ (c % 16 = 0 → c < 98304 → k.mbx = [] → GivesX s try' rd 3)
  ∧ (∀ m ms, c % 16 = 0 → c < 98304 → k.mbx = m :: ms → EndsWith s try' rd 0 (fun t => t.myCore.mbx = ms
    ∧ ∀ p, t.lsByte i p = if c ≤ p ∧ p < c + 8 then BitVec.ofNat 8 (m.2.toNat / 256 ^ (p - c))
        else if c + 8 ≤ p ∧ p < c + 16 then BitVec.ofNat 8 (m.1 / 256 ^ (p - (c + 8))) else s.lsByte i p))

/-- `pair.on`, `pair.off` and `core.start` are illegal in user mode. `pair.on` couples the two cores, or gives 1 unless both belong to
the launch, uncoupled and quiescent; `pair.off` waits for a checkpoint, or gives 1 on an uncoupled core; `core.start` starts another
core's control thread at the pc and with the argument in memory, or gives 2 for a bad operand and 1 for a started core, and traps on an
uncorrectable word that the policy traps (R136, R137, R323, R333). -/
def Clause.CoreControl : Prop := ∀ (s : State) (rd r1 r2 : XReg),
  let i := s.cur.core
  let k := s.myCore
  let j := i ^^^ 1
  let c := (s.xr r1).toNat
  let a := (s.xr r2).toNat
  let on := exec (.pairOn rd) s
  let off := exec (.pairOff rd) s
  let start := exec (.coreStart rd r1 r2) s
  let can := k.pair.on = false ∧ s.sameLaunch i j = true ∧ s.quiescent i = true ∧ s.quiescent j = true
  let good := c < 2048 ∧ k.lid ≠ 0 ∧ (s.core c).lid = k.lid ∧ a % 16 = 0 ∧ a < 98304
  let storing := s.reqs.any (fun e => e.2.who.core = i && e.2.remote = some c && e.2.op.writes && !e.2.atDv)
  (k.ct.priv = .user → ∀ o, (o = on ∨ o = off ∨ o = start) → CtTraps s o 2 (k.ct.ir.zeroExtend 64))
  ∧ (k.ct.priv = .machine →
    (¬ can → GivesX s on rd 1)
    ∧ (can → EndsWith s on rd 0 (fun t => SameBytes s t ∧ t.myCore.pair.on = true ∧ (t.core j).pair.on = true
        ∧ (t.myCore.pair.odd = decide (i % 2 = 1)) ∧ ((t.core j).pair.odd = decide (j % 2 = 1)) ∧ t.myCore.ctxs = k.ctxs ∧ t.myCore.v = k.v))
    ∧ (k.pair.on = false → GivesX s off rd 1)
    ∧ (k.pair.on = true → Becomes off (fun t => t.myCore = { k with ct := { k.ct with wait := .pair rd } } ∧ SameBytes s t
        ∧ ∃ d, (d, Ev.pairCheckpoint (i / 2 * 2)) ∈ t.agenda))
    ∧ (¬ good → GivesX s start rd 2)
    ∧ (good → (s.core c).ct.started = true → GivesX s start rd 1)
    ∧ (good → (s.core c).ct.started = false → storing = true → CtRetries s start)
    ∧ (good → (s.core c).ct.started = false → storing = false → s.lsTraps i a 16 = true → CtTraps s start 26 (BitVec.ofNat 64 a))
    ∧ (good → c ≠ i → (s.core c).ct.started = false → storing = false → s.lsTraps i a 16 = false → s.lsSnuffs i a 16 = false →
      EndsWith s start rd 0 (fun t => SameBytes s t
        ∧ (t.core c).ct.started = true ∧ (t.core c).ct.priv = .machine ∧ (t.core c).ct.pc = BitVec.ofNat 64 (lsNum s i a 8)
        ∧ ∀ r, (t.core c).ct.rx r = if r = 10 then BitVec.ofNat 64 c else if r = 11 then BitVec.ofNat 64 (lsNum s i (a + 8) 8) else 0)))

/-- The mailbox, coupling and the start of a core (R128, R129, R136, R137). -/
def Obligations.CoreMessages : Prop := Clause.Mailbox ∧ Clause.CoreControl

/-- A message that arrives, or is sent again, is dropped by a core of no launch or a dead cluster, is sent again 64 cycles later while
eight stand in the mailbox or an earlier one of its sender is refused, and else joins the mailbox (R128). -/
def Clause.MessageArrives : Prop := ∀ (s : State) (src dst n : Nat) (msg : Word) (o : Out),
  ((s.cur.ev = .mbxAccept src dst msg n ∧ o = exec .mbxAccept s) ∨ (s.cur.ev = .mbxResend src dst msg n ∧ o = exec .mbxResend s)) →
  let gone := (s.core dst).lid = 0 ∨ s.lau.deadClusters.contains (clusterOf dst) = true
  let refused := 8 ≤ (s.core dst).mbx.length ∨ s.resending src dst n = true
  let freed := fun (t : State) => src < 2048 → (t.core src).flying = (s.core src).flying - 1
  (gone → Becomes o (fun t => freed t ∧ (∀ c, (t.core c).mbx = (s.core c).mbx) ∧ t.agenda = s.agenda ∧ SameBytes s t))
  ∧ (¬ gone → refused → Becomes o (fun t => Coming s t 64 (.mbxResend src dst msg n) ∧ t.cores = s.cores ∧ SameBytes s t))
  ∧ (¬ gone → ¬ refused → Becomes o (fun t => freed t ∧ (t.core dst).mbx = (s.core dst).mbx ++ [(src, msg)] ∧ SameBytes s t
    ∧ ∀ c, c ≠ dst → (t.core c).mbx = (s.core c).mbx))

/-- The release of a phase, and that of a group's barrier, counts the phase released and sets BAR; an arrival at a group's root counts for
its member, and once every member has one, each counts down and is released 10 + 2h cycles later; a group that has lost a member never
releases (R53, R54, R313, R327). -/
def Clause.BarrierEvents : Prop := ∀ (s : State) (i b lid g m : Nat),
  let released := fun (t : State) (i b : Nat) =>
    (t.core i).bar b = { (s.core i).bar b with released := ((s.core i).bar b).released + 1 }
      ∧ (t.core i).evpend = (s.core i).evpend ||| 64 ∧ (∀ c, c ≠ b → (t.core i).bar c = (s.core i).bar c) ∧ SameBytes s t
      ∧ ∀ j, j ≠ i → t.core j = s.core j
  (s.cur.ev = .barrierRelease i b → Becomes (exec .barrierRelease s) (fun t => released t i b))
  ∧ (∀ x, s.cur.ev = .groupRelease lid g m → (s.core m).lid = lid → (s.core m).bars.find? (fun e => e.2.group = some g) = some (b, x) →
    Becomes (exec .groupRelease s) (fun t => released t m b))
  ∧ (∀ l gr, s.cur.ev = .groupArrival lid g i → s.launch lid = some l → sfind l.groups g = some gr →
    let alive := ∀ c, c ∈ gr.members → s.lau.deadClusters.contains (clusterOf c) = false ∧ (s.core c).lid = lid
    let count := fun (t : State) (c : Nat) => sget 0 (t.core gr.root).roots (rootKey g c)
    let n := fun (c : Nat) => count s c + if c = i then 1 else 0
    (¬ alive → exec .groupArrival s = .next s)
    ∧ (alive → i ∈ gr.members → gr.members.Nodup → Becomes (exec .groupArrival s) (fun t => SameBytes s t
      ∧ (∀ j, j ≠ gr.root → t.core j = s.core j)
      ∧ ((∃ c, c ∈ gr.members ∧ n c = 0) → (∀ c, count t c = n c) ∧ t.agenda = s.agenda)
      ∧ ((∀ c, c ∈ gr.members → n c ≠ 0) → ∀ c, c ∈ gr.members → count t c = n c - 1
        ∧ Coming s t (10 + 2 * groupH (clusterOf c) (clusterOf gr.root)) (.groupRelease lid g c)))))

/-- An element that arrives at an inbound queue joins it with its tag, and sets the queue's bit of EVPEND where the queue was empty; a
match of TIMECMP sets TIMER (R268, R313). -/
def Clause.ArrivalEvents : Prop := ∀ (s : State) (i n : Nat) (v : Word) (tag : Bool),
  let x := (s.core i).q n
  (s.cur.ev = .queueDelivery i n v tag → Becomes (exec .queueDelivery s) (fun t =>
    ((t.core i).q n).elems = x.elems ++ [{ v := v, tag := tag, ord := (s.core i).qOrd }]
      ∧ ((t.core i).q n).reserved = x.reserved - 1 ∧ (∀ m, m ≠ n → (t.core i).q m = (s.core i).q m)
      ∧ (t.core i).evpend = (if x.inbound = true ∧ x.elems = [] then (s.core i).evpend ||| BitVec.ofNat 64 (2 ^ (8 + n)) else (s.core i).evpend)
      ∧ (∀ j, j ≠ i → t.core j = s.core j) ∧ SameBytes s t))
  ∧ (s.cur.ev = .timerMatch i → Becomes (exec .timerMatch s) (fun t =>
    (t.core i).evpend = (s.core i).evpend ||| 4 ∧ (∀ j, j ≠ i → t.core j = s.core j) ∧ SameBytes s t))

/-- A finished task's entries leave the window once the stores before are performed. A waiting push is tried again in its own slot. A
steal takes a ready unpinned record from its victim, or none; a record stolen is at the near end of the thief's deque, for the waiter to
pop at once or, when none waits any more, with TASK set;
without one the pass goes on to the next victim while the core is idle (R58, R125, R302). -/
def Obligations.TaskSteps : Prop := ∀ (s : State) (i v k agent c upto p : Nat) (r : TaskRec),
  let open' := s.reqs.any (fun e => decide (e.1 < upto) && e.2.who.agent = agent && e.2.op.writes && e.2.st ≠ .done)
  let back := 10 + travel (clusterOf i) (clusterOf v)
  let pri := bitsOf r.w0 63 62
  let try' := exec .stealTry s
  let reply := exec .stealReply s
  (s.cur.ev = .taskRetire k agent c upto → open' = true →
    Becomes (exec .taskRetire s) (fun t => Coming s t 1 (.taskRetire k agent c upto) ∧ t.jobs = s.jobs))
  ∧ (s.cur.ev = .taskRetire k agent c upto → open' = false →
    Becomes (exec .taskRetire s) (fun t => (t.cluster k).win = (s.cluster k).win.filter (fun w => w.isJob || w.key ≠ c)
      ∧ (∀ q, q ≠ k → t.cluster q = s.cluster q) ∧ SameBytes s t))
  ∧ (s.cur.ev = .taskPushRetry i c → (s.cx i c).wait = .taskPush p → Becomes (exec .taskPushRetry s) (fun t =>
    t.cx i c = { s.cx i c with wait := .none, readyAt := s.time } ∧ t.todo = .cx i c :: s.todo ∧ OnlyCtx { s with todo := t.todo } t i c))
  ∧ (s.cur.ev = .stealTry i v →
    ((s.lau.deadClusters.contains (clusterOf v) = true ∨ s.sameLaunch i v = false ∨ s.stealChoice v = none) →
      try' = .next (s.after back (.stealReply i v none)))
    ∧ (s.lau.deadClusters.contains (clusterOf v) = false → s.sameLaunch i v = true → s.stealChoice v = some (p, r) →
      sget [] (s.core v).spills p = [] → sget 0 (s.core v).refill p ≤ s.time → Becomes try' (fun t => Coming s t back (.stealReply i v (some r))
        ∧ (∀ y, y ∈ (t.core v).deq p → y.key ≠ r.key)
        ∧ (∀ y, y ∈ (t.core v).deq p → y ∈ (s.core v).deq p) ∧ SameBytes s t ∧ ∀ j, j ≠ v → t.core j = s.core j)))
  ∧ (s.cur.ev = .stealReply i v (some r) → Becomes reply (fun t => ((t.core i).deq pri).head? = some r ∧ (t.core i).steal = none
    ∧ (t.core i).evpend = (if s.idle i = true then (s.core i).evpend else (s.core i).evpend ||| 32) ∧ SameBytes s t
      ∧ ∀ j, j ≠ i → t.core j = s.core j))
  ∧ (∀ n, s.cur.ev = .stealReply i v none → (s.core i).steal = some n →
    (s.idle i = false → Becomes reply (fun t => (t.core i).steal = none ∧ t.agenda = s.agenda ∧ SameBytes s t))
    ∧ (∀ u, s.idle i = true → (s.victims i)[n + 1]? = some u → Becomes reply (fun t => (t.core i).steal = some (n + 1)
        ∧ Coming s t (10 + travel (clusterOf i) (clusterOf u)) (.stealTry i u) ∧ SameBytes s t))
    ∧ (s.idle i = true → (s.victims i)[n + 1]? = none → Becomes reply (fun t => Coming s t 256 (.stealPassRetry i) ∧ SameBytes s t)))
  ∧ (s.cur.ev = .stealPassRetry i → s.idle i = false →
    Becomes (exec .stealPassRetry s) (fun t => (t.core i).steal = none ∧ t.agenda = s.agenda ∧ SameBytes s t))
  ∧ (∀ u, s.cur.ev = .stealPassRetry i → s.idle i = true → (s.victims i)[0]? = some u → Becomes (exec .stealPassRetry s) (fun t =>
    (t.core i).steal = some 0 ∧ Coming s t (10 + travel (clusterOf i) (clusterOf u)) (.stealTry i u) ∧ SameBytes s t))

/-- At the exchange of fingerprints equal ones publish the held stores and make the present state both cores' checkpoint, counted in CKPT;
unequal ones take both back to their last checkpoint, count in MISM, and snuff when the exchange before differed too (R330–R332). No
transaction is open, no store is on its way to be held, and no `pair.off` waits; where the cores agree, no held store has to wait for its
line; where they do not, nothing that stood before the last checkpoint is still due. -/
def Clause.PairExchange : Prop := ∀ (s : State) (i : Nat), s.cur.ev = .pairCheckpoint i → (s.core i).pair.on = true →
  s.pairInTxn i = false → (∀ e, e ∈ s.reqs → e.2.hold = false) → (∀ j rd, (s.core j).ct.wait ≠ .pair rd) →
  let p := (s.core i).pair
  let both := fun (P : Nat → Prop) => P i ∧ P (i + 1)
  let past := fun (c : Nat) => let q := (s.core c).pair
    q.came = [] ∧ (∀ e, e ∈ q.ckCtx → e.2.st ≠ .waitMem) ∧ ∀ x, x ∈ q.stores → p.ckReq ≤ x.req ∧ p.kept.contains x.req = false
  (p.f = (s.core (i + 1)).pair.f → (∀ x, x ∈ p.stores → s.heldWait i x = (s, 0)) → Becomes (exec .pairCheckpoint s) (fun t => both (fun c =>
    let q := (t.core c).pair
    q.ckpt = (s.core c).pair.ckpt + 1 ∧ q.mism = (s.core c).pair.mism ∧ q.rb = false ∧ q.f = BitVec.allOnes 64 ∧ q.count = 0
      ∧ q.stores = [] ∧ q.ckV = (s.core c).v ∧ (t.core c).v = (s.core c).v)))
  ∧ (p.f ≠ (s.core (i + 1)).pair.f → both past → Becomes (exec .pairCheckpoint s) (fun t => both (fun c =>
    let q := (t.core c).pair
    q.ckpt = (s.core c).pair.ckpt ∧ q.mism = (if (s.core c).pair.mism = 255 then 255 else (s.core c).pair.mism + 1) ∧ q.rb = true
      ∧ q.f = BitVec.allOnes 64 ∧ q.count = 0 ∧ q.stores = [] ∧ (t.core c).v = (s.core c).pair.ckV)
    ∧ (p.rb = true → ∃ n, (s.time, Ev.snuffRun (dieOf i) n) ∈ t.agenda)))

/-- The steps of messages, barriers, inbound queues, timers and coupled cores (R53, R54, R128, R268, R313, R330–R332). -/
def Obligations.MessageSteps : Prop := Clause.MessageArrives ∧ Clause.BarrierEvents ∧ Clause.ArrivalEvents ∧ Clause.PairExchange


/-! ### The memory system -/

/-- A request at its serving slice waits behind an earlier one of its agent on the same bytes; then its address is translated: a missing
page is reported to the MMP and answered with PAGE, a refused one with PROT, one under migration waits, the cost of a walk delays it;
a load or a store of device memory whose lines are in the home L2 and in no other cache is performed there, and its reply leaves
(R23, R25, R197–R203, R206). -/
def Clause.SliceAccess : Prop := ∀ (s : State) (r : Nat) (q : Req), s.cur.ev = .sliceAccess r → s.req r = some q → q.st = .sent →
  q.live = true →
  let o := exec .sliceAccess s
  let behind := s.reqs.any (fun e => decide (e.1 < r) && e.2.who = q.who && e.2.st ≠ .done && e.2.remote.isNone
    && overlap e.2.va e.2.size q.va q.size)
  let asid := s.asidOf q.who.core
  let x := s.translate q.die q.slice asid q.va q.need
  let w := x.2.1
  let failed := fun (t : State) (cause : Nat) => Coming s t (w + q.back) (.globalReply r)
    ∧ t.req r = some { q with st := .done, replyAt := s.time + w + q.back, fault := some { cause := cause, detail := BitVec.ofNat 40 (q.va / 256) } }
  (behind = true → o = .next (s.after 1 (.sliceAccess r)))
  ∧ (behind = false → x.2.2 = .prot → Becomes o (fun t => failed t 3))
  ∧ (behind = false → x.2.2 = .page → (∀ i, q.who ≠ .gu i) → Becomes o (fun t => failed t 4
    ∧ ∃ p, p ∈ ((sfind t.lau.mmps q.die).getD Mmp.init).queue ∧ p.asid = asid ∧ p.page = q.va / 65536))
  ∧ (behind = false → x.2.2 = .mig → Becomes o (fun t => r ∈ t.coh.stalled ∧ t.req r = some q))
  ∧ (∀ l, behind = false → x.2.2 = .ok l → 0 < w → Becomes o (fun t => Coming s t w (.sliceAccess r) ∧ t.req r = some q))
  ∧ (∀ l, behind = false → x.2.2 = .ok l → w = 0 → regionOf (l.pa q.va) = .dram → homeOf (l.pa q.va) = q.die →
    let u := (x.1.classify q.die asid q.va q.pageOwner).1
    let pa := l.pa q.va
    (x.1.classify q.die asid q.va q.pageOwner).2.1 = 0 → u.coh.rdc = [] → u.coh.latent = [] → u.coh.marks = [] →
    u.lineBusy r pa q.size = false → (∀ k, k ∈ linesOf pa q.size → u.inL2 k = true) → (u.core q.who.core).pair.stores = [] →
    (∀ n, q.op = .load n → q.size = n → Becomes o (fun t => Coming s t q.back (.globalReply r)
      ∧ (∃ y, t.req r = some y ∧ y.st = .done ∧ y.fault = q.fault ∧ y.data = cells u.mem pa n) ∧ t.mem = u.mem))
    ∧ (∀ bs, q.op = .store bs → q.size = bs.length → u.markers pa q.size false = [] → Becomes o (fun t =>
      Coming s t q.back (.globalReply r) ∧ (∃ y, t.req r = some y ∧ y.st = .done ∧ y.fault = q.fault) ∧ t.mem = putCells u.mem pa bs)))

/-- A fill puts its line in the home L2, and what waits for no other fill goes on (R25, R196). -/
def Clause.Fill : Prop := ∀ (s : State) (line : Nat), s.cur.ev = .dramFill line →
  Becomes (exec .dramFill s) (fun t => t.inL2 line = true ∧ sfind t.coh.fills line = none ∧ SameBytes s t
    ∧ ∀ rs r q, sfind s.coh.fills line = some rs → r ∈ rs → s.req r = some q → (∀ e, e ∈ s.coh.fills → e.1 ≠ line → r ∉ e.2) →
      ∃ e, (s.time, e) ∈ t.agenda ∧ (e = .sliceAccess r ∨ e = .gets r true ∨ e = .getm r ∨ e = .routineRun r ∨ e = .txRequest r))

/-- A reply that has come: before its time it is the acceptance signal; then a load gives a control thread or a waiting context its
register's value and lets it go on, a relaxed one gives only the value; a fault becomes the control thread's exception or the context's
FAULTED state (R138, R146, R147, R189, R206, R309). -/
def Clause.Replies : Prop := ∀ (s : State) (r i c : Nat) (q : Req), s.cur.ev = .globalReply r → s.req r = some q → q.atDv = false →
  let o := exec .globalReply s
  let x := s.cx i c
  let come := q.st = .done ∧ q.replyAt ≤ s.time ∧ q.live = true ∧ q.quiet = false ∧ q.op.isTx = false
  let alone := (s.core i).pair.on = false
  let sets := fun (t : State) (sd : SReg) (v : Word) => ∀ z, (t.cx i c).rs z = if z ≠ 0 ∧ z = sd then v else x.rs z
  ((q.st ≠ .done ∨ s.time < q.replyAt) → (q.who = .ct i ∨ (q.who = .cx i c ∧ x.st ≠ .waitMem ∧ alone)) →
    o = .next (s.setReq r { q with accepted := true }))
  ∧ (∀ n rd k, come → q.who = .ct i → (s.core i).ct.wait = .reply r → q.op = .load n → q.fault = none → q.dest = .x rd k →
    q.data.length = k.size → Becomes o (fun t => t.req r = none ∧ SameBytes s t ∧ (t.core i).ct.wait = .none
      ∧ (t.core i).ct.pc = (s.core i).ct.pc + 4
      ∧ ∀ z, (t.core i).ct.rx z = if z ≠ 0 ∧ z = rd then rvLoaded k (leVal q.data) else (s.core i).ct.rx z))
  ∧ (∀ n f, come → q.who = .ct i → (s.core i).ct.wait = .reply r → q.op = .load n → q.fault = some f → q.remote = none →
    Becomes o (fun t => t.req r = none ∧ SameBytes s t ∧ (t.core i).ct.mepc = (s.core i).ct.pc ∧ (t.core i).ct.priv = .machine
      ∧ (t.core i).ct.mcause = (if f.cause = 4 then 13 else if f.cause = 5 then 26 else 5)
      ∧ (t.core i).ct.mtval = BitVec.ofNat 64 (2 ^ 48 + q.va) ∧ (t.core i).ct.pc = (s.core i).ct.mtvec))
  ∧ (∀ n sd k, come → q.who = .cx i c → alone → x.st = .waitMem → x.wait = .reply r → q.op = .load n → q.fault = none →
    q.dest = .s sd k → q.data.length = k.size → Becomes o (fun t => t.req r = none ∧ SameBytes s t ∧ sets t sd (loadedValue k (leVal q.data))
      ∧ (t.cx i c).wait = .none ∧ ((t.cx i c).st = .run ∨ (t.cx i c).st = .stopped)))
  ∧ (∀ n sd k, come → q.who = .cx i c → alone → x.st ≠ .waitMem → x.wait ≠ .reply r → q.op = .load n → q.fault = none →
    q.dest = .s sd k → q.data.length = k.size → Becomes o (fun t => t.req r = none ∧ SameBytes s t ∧ sets t sd (loadedValue k (leVal q.data))
      ∧ (t.cx i c).wait = x.wait ∧ (t.cx i c).st = x.st))
  ∧ (∀ n f, come → q.who = .cx i c → alone → x.st = .waitMem → x.wait = .reply r → x.txn = none → q.op = .load n → q.fault = some f →
    Becomes o (fun t => t.req r = none ∧ SameBytes s t ∧ (t.cx i c).st = .faulted ∧ (t.cx i c).latch = q.bundle
      ∧ (t.cx i c).cause = { cause := f.cause, pc := q.pc, detail := f.detail, bundle := q.bundle, gran := q.va / 256 }
      ∧ (t.cx i c).s = x.s))

/-- A held fault report puts its context in FAULTED with the report in the latch and an entry in MTFAULT (R147, R305). -/
def Clause.LateFault : Prop := ∀ (s : State) (i c r : Nat) (f : FaultRep) (fs : List FaultRep), s.cur.ev = .relaxedLateFault i c r →
  (s.cx i c).heldFaults = f :: fs → (s.cx i c).txn = none →
  Becomes (exec .relaxedLateFault s) (fun t => SameBytes s t
    ∧ t.cx i c = { s.cx i c with
        heldFaults := fs, st := .faulted, latch := f.bundle, cause := f, alone := true, wait := .none, reissue := false, quash := true }
    ∧ if (s.core i).faultq.any (fun w => entryCtx w = c) then (t.core i).faultq = (s.core i).faultq
      else EntryJoins (s.core i).faultq (if (s.core i).faultAt = s.time then (s.core i).faultNew else 0) c (faultEntry c f) (t.core i).faultq)

/-- A remote access is performed in the target's local store and its reply leaves; at a dead cluster, or a core of another launch, it
faults, and a load faults where the policy of the core that executes it traps an uncorrectable word (R190, R322, R327). -/
def Clause.RemoteAccess : Prop := ∀ (s : State) (r k : Nat) (q : Req), s.cur.ev = .remoteLsAccess r → s.req r = some q → q.remote = some k →
  let o := exec .remoteLsAccess s
  let i := q.who.core
  let gone := s.lau.deadClusters.contains (clusterOf k) = true ∨ s.sameLaunch i k = false
  let back := 13 + travel (clusterOf i) (clusterOf k)
  let comes := fun (t : State) (P : Req → Prop) => Coming s t back (.globalReply r)
    ∧ ∃ y, t.req r = some y ∧ y.st = .done ∧ y.replyAt = s.time + back ∧ P y
  (gone → Becomes o (fun t => comes t (fun y => y.fault = some { cause := 3, detail := 0 }) ∧ SameBytes s t))
  ∧ (∀ bs, ¬ gone → q.op = .store bs → Becomes o (fun t => comes t (fun y => y.fault = q.fault)
    ∧ (∀ p, t.lsByte k p = if q.va ≤ p ∧ p < q.va + bs.length then bs.getD (p - q.va) 0 else s.lsByte k p)
    ∧ (∀ j, j ≠ k → t.core j = s.core j) ∧ t.mem = s.mem))
  ∧ (∀ n, ¬ gone → q.op = .load n → (s.lsAct i k q.va q.size = 1 ∨ s.lsAct i k q.va q.size = 2) → Becomes o (fun t => SameBytes s t
    ∧ comes t (fun y => y.fault = some { cause := 5, detail := 0 })))
  ∧ (∀ n, ¬ gone → q.op = .load n → s.lsAct i k q.va q.size = 0 → Becomes o (fun t => SameBytes s t
    ∧ comes t (fun y => y.fault = q.fault ∧ ∀ b, b < q.size → y.data.getD b 0 = s.lsByte k (q.va + b))))

/-- An entry that holds `w`: its eight bytes, the lowest first. -/
def Clause.entryIs (t : State) (a w : Nat) : Prop := ∀ k, k < 8 → t.byteAt (a + k) = BitVec.ofNat 8 (w / 256 ^ k)
/-- The invalidation of a range is on its way to every slice. -/
def Clause.invalidates (s t : State) (asid va len : Nat) : Prop :=
  ∀ d k, d < 8 → k < 32 → Coming s t 44 (.invalidateBroadcast d k asid va len)

/-- The MMP changes an entry and invalidates what it maps; a slice that is told drops its matching translations and keeps the others. A
page moves in two steps: MIG is set and invalidated; then, when every slice has answered, the frame is copied, the entry names the new
frame and is invalidated again. A large leaf is shared. The sweeper clears A, or queues the frame (R202–R204). -/
def Clause.Translations : Prop := ∀ (s : State) (asid va level w die idx len : Nat) (z : Tier),
  (∀ x u a, s.cur.ev = .translationChange asid va level w → s.space asid = some x → entryFor 4 s asid 0 level x.root va = some (u, a) →
    Becomes (exec .translationChange s) (fun t => ((pteLeaf w = false ∨ 3 ≤ level) → Clause.entryIs t a w)
      ∧ (pteLeaf w = true → level < 3 → tablesBelow u 3 level (u.pword a) = [] → Clause.entryIs t a (pteSetCls w 2 0))
      ∧ Clause.invalidates s t asid (va / 2 ^ levelBits level * 2 ^ levelBits level) (2 ^ levelBits level)))
  ∧ (s.cur.ev = .invalidateBroadcast die idx asid va len → Becomes (exec .invalidateBroadcast s) (fun t => t.mem = s.mem
    ∧ t.coh.tlb = s.coh.tlb.filter (fun e => !(e.die = die && e.slice = idx && e.asid = asid
        && (len = 0 || overlap (e.page * 2 ^ levelBits e.level) (2 ^ levelBits e.level) va len)))))
  ∧ (∀ l, s.cur.ev = .migratePage asid va z → s.spaceLeaf asid va = some l → l.level = 3 → pteSeal l.pte = false →
    regionOf (pteAddr l.pte) = .dram →
    let o := exec .migratePage s
    let tier := match z with | .near d => d | .lpddr => 8
    let old := pteAddr l.pte
    (pteMig l.pte = false → Becomes o (fun t => Clause.entryIs t l.at' (l.pte + 2 ^ 50)
      ∧ Clause.invalidates s t asid (va / 65536 * 65536) 65536 ∧ Coming s t 88 (.migratePage asid va z)))
    ∧ (pteMig l.pte = true → s.invalPending asid (va / 65536) = true → o = .next (s.after 1 (.migratePage asid va z)))
    ∧ (pteMig l.pte = true → s.invalPending asid (va / 65536) = false → takeFrame s tier = none →
      Becomes o (fun t => t = { s with agenda := t.agenda } ∧ Coming s t 1 (.migratePage asid va z)))
    ∧ (∀ u f, pteMig l.pte = true → s.invalPending asid (va / 65536) = false → takeFrame s tier = some (u, f) → MemInv s → s.coh.rdc = [] →
      s.coh.latent = [] →
      (f + 65536 ≤ old ∨ old + 65536 ≤ f) → (l.at' + 8 ≤ old ∨ old + 65536 ≤ l.at') → (l.at' + 8 ≤ f ∨ f + 65536 ≤ l.at') →
      Becomes o (fun t => Clause.entryIs t l.at' (l.pte - old - 2 ^ 50 + f) ∧ Clause.invalidates s t asid (va / 65536 * 65536) 65536
        ∧ (∀ k, k < 65536 → t.byteAt (f + k) = s.byteAt (old + k)) ∧ (∀ k, k < 65536 → t.byteAt (old + k) = 0) ∧ old ∈ t.lau.freed)))
  ∧ (∀ f p l, s.cur.ev = .clockSweep die →
    let m := (sfind s.lau.mmps die).getD Mmp.init
    let o := exec .clockSweep s
    m.ready.length < m.watermark →
    let table := (s.frameTable die).filter (fun e => !m.ready.contains e.1)
    (match table.find? (fun e => decide (e.1 > m.sweep)) with | some e => some e | none => table.head?) = some (f, asid, p) →
    s.spaceLeaf asid (p * 65536) = some l →
    (pteA l.pte = true → Becomes o (fun t => Clause.entryIs t l.at' (l.pte - 16) ∧ Clause.invalidates s t asid (p * 65536) 65536))
    ∧ (pteA l.pte = false → Becomes o (fun t => f ∈ ((sfind t.lau.mmps die).getD Mmp.init).ready ∧ SameBytes s t)))

/-- The MMP serves its oldest report. It waits while an invalidation of the page is under way; a page already mapped ends the service with a
message to every context in it. A page of the launch's regions whose entry is not valid is zero-filled where R or W says so, or moves from
the frame its entry names, into a frame of the die; it is then invalidated, and the service comes again. A host-backed page is asked of the
host once, whichever MMP asks, and any other page is answered with bit 56 set (R306, R307, R342). -/
def Clause.PageService : Prop := ∀ (s : State) (die : Nat) (p : PfReport) (rest : List PfReport), s.cur.ev = .pageFaultService die →
  ((sfind s.lau.mmps die).getD Mmp.init).queue = p :: rest → p.ext = none →
  let o := exec .pageFaultService s
  let va := p.page * 65536
  let there := (s.spaceLeaf p.asid va).isSome
  let told := fun (bit : Nat) => Becomes o (fun t => ((sfind t.lau.mmps die).getD Mmp.init).queue = rest
    ∧ ∀ k, k ∈ p.who → Coming s t (13 + travel (die * 32) (clusterOf k.1)) (.mbxAccept (2048 + die) k.1
        (BitVec.ofNat 64 (15 * 2 ^ 60 + bit * 2 ^ 56 + k.2 % 32 * 2 ^ 51 + k.2 / 32 % 2 ^ 40)) s.time))
  let asked := fun (m : Mmp) => match m.queue with
    | h :: _ => h.asid = p.asid && h.page = p.page && h.ext.isNone && h.tag.isSome && !h.refused
    | [] => false
  let needed := s.invalPending p.asid p.page = false ∧ there = false ∧ p.refused = false ∧ p.tag = none
  (s.invalPending p.asid p.page = true → o = .next (s.after 1 (.pageFaultService die)))
  ∧ (s.invalPending p.asid p.page = false → there = true → told 0)
  ∧ (s.invalPending p.asid p.page = false → there = false → p.refused = true → told 1)
  ∧ (s.invalPending p.asid p.page = false → there = false → p.refused = false → p.tag ≠ none → o = .next s)
  ∧ (∀ x l u f, needed → s.space p.asid = some x → p.page ∈ x.pages → lastEntry s 4 0 x.root va = some l → l.level = 3 → pteV l.pte = false →
    s.coh.rdc = [] → s.coh.latent = [] → MemInv s → (l.at' + 8 ≤ f ∨ f + 65536 ≤ l.at') →
    (pteLeaf l.pte = false → (pteR l.pte = true ∨ pteW l.pte = true) → takeFrame s die = some (u, f) →
      Becomes o (fun t => Clause.entryIs t l.at' ((l.pte - pteAddr l.pte + f) ||| 3) ∧ (∀ k, k < 65536 → t.byteAt (f + k) = 0)
        ∧ Clause.invalidates s t p.asid va 65536 ∧ Coming s t 44 (.pageFaultService die)))
    ∧ (pteLeaf l.pte = true → takeFrame s (if tierOf (pteAddr l.pte) = 8 then die else 8) = some (u, f) →
      (f + 65536 ≤ pteAddr l.pte ∨ pteAddr l.pte + 65536 ≤ f) → (l.at' + 8 ≤ pteAddr l.pte ∨ pteAddr l.pte + 65536 ≤ l.at') →
      Becomes o (fun t => Clause.entryIs t l.at' ((l.pte - pteAddr l.pte + f) ||| 1)
        ∧ (∀ k, k < 65536 → t.byteAt (f + k) = s.byteAt (pteAddr l.pte + k))
        ∧ Clause.invalidates s t p.asid va 65536 ∧ Coming s t 44 (.pageFaultService die))))
  ∧ (needed → fillPage s die p = none → s.hbRange p.asid p.page = none → told 1)
  ∧ (∀ d m h hs, needed → fillPage s die p = none → s.hbRange p.asid p.page ≠ none →
    s.lau.mmps.find? (fun e => e.1 ≠ die && asked e.2) = some (d, m) → m.queue = h :: hs →
    Becomes o (fun t => SameBytes s t ∧ ((sfind t.lau.mmps die).getD Mmp.init).queue = rest ∧ t.host.hbq = s.host.hbq
      ∧ sfind t.lau.mmps d = some { m with
          queue := { h with who := h.who ++ p.who, jobs := h.jobs ++ p.jobs, reqs := h.reqs ++ p.reqs } :: hs }))
  ∧ (needed → fillPage s die p = none → s.hbRange p.asid p.page ≠ none → (∀ e, e ∈ s.lau.mmps → e.1 ≠ die → asked e.2 = false) →
    Becomes o (fun t => SameBytes s t ∧ t.host.msix = (s.host.msix || s.host.msixOn)
      ∧ t.host.hbq = s.host.hbq ++ [BitVec.ofNat 64 (2 ^ 63 + p.asid * 2 ^ 48 + p.page * 2 ^ 16 + s.host.hbTag)]
      ∧ ((sfind t.lau.mmps die).getD Mmp.init).queue = { p with tag := some s.host.hbTag } :: rest))

/-- The steps of slices, replies and the MMP (R25, R138, R146, R147, R190, R197–R204, R206, R306, R342). -/
def Obligations.MemorySteps : Prop :=
  Clause.SliceAccess ∧ Clause.Fill ∧ Clause.Replies ∧ Clause.LateFault ∧ Clause.RemoteAccess ∧ Clause.Translations ∧ Clause.PageService


/-! ### Coherence and transactions at the slices -/

/-- The home serves a read of lines no cache holds: the requester's RDC gets them in E with the home's data, and the reply leaves 44
cycles later; a write of such lines makes them M there, with the new bytes (R214, R215, Table 13.9). -/
def Clause.HomeRequests : Prop := ∀ (s : State) (r : Nat) (q : Req), s.req r = some q → q.die < 8 → homeOf q.pa ≠ q.die →
  s.coh.rdc = [] → s.coh.latent = [] → s.coh.marks = [] → s.lineBusy r q.pa q.size = false →
  (∀ k, k ∈ linesOf q.pa q.size → s.inL2 k = true) → (s.core q.who.core).pair.stores = [] →
  let answered := fun (t : State) => Coming s t (44 + q.back) (.globalReply r)
  (∀ n b, s.cur.ev = .gets r b → q.op = .load n → q.size = n → Becomes (exec .gets s) (fun t => answered t
    ∧ (∃ y, t.req r = some y ∧ y.st = .done ∧ y.data = cells s.mem q.pa n) ∧ t.mem = s.mem
    ∧ ∀ k, k ∈ linesOf q.pa n → ∃ e, t.rdcAt q.die k = some e ∧ e.st = .e ∧ leBytes 64 e.data.toNat = cells s.mem (k * 64) 64))
  ∧ (∀ bs, s.cur.ev = .getm r → q.op = .store bs → q.size = bs.length → bs.length ≤ 256 → q.nt = false → s.markers q.pa q.size false = [] →
    Becomes (exec .getm s) (fun t => answered t ∧ t.mem = s.mem ∧ t.pread q.pa bs.length = bs
      ∧ ∀ k, k ∈ linesOf q.pa bs.length → ∃ e, t.rdcAt q.die k = some e ∧ e.st = .m))

/-- An RDC gives up a line: clean, it goes; in M or O, its data go home, unless the home discards the message; asked for its data an owner
in M becomes O and one in E becomes S. The buddy keeps a mirrored line, or writes it home when it is the home. An owner that does not
answer loses its dirty lines of the slice, and every rectangle of its die, with the rest of it, is snuffed (R214–R217, R325). -/
def Clause.LineMessages : Prop := ∀ (s : State) (die line : Nat) (e : RdcEnt), die < 8 → s.rdcAt die line = some e →
  let dirty := e.st = .m ∨ e.st = .o
  let others := fun (t : State) => ∀ d k, d < 8 → (d ≠ die ∨ k ≠ line) → t.rdcAt d k = s.rdcAt d k
  let home := fun (t : State) => ∀ b, b < 64 → t.byteAt (line * 64 + b) = (leBytes 64 e.data.toNat).getD b 0
  let kept := s.cutOff die (s.nextOwn die).2 = false
  (∀ o, ((s.cur.ev = .wback die line ∧ o = exec .wback s) ∨ (s.cur.ev = .invalidationRequest die line ∧ o = exec .invalidationRequest s)) →
    dirty → Becomes o (fun t => t.rdcAt die line = none ∧ others t ∧ (kept → home t ∧ t.inL2 line = true) ∧ (¬ kept → t.mem = s.mem)))
  ∧ (∀ o, ((s.cur.ev = .rdcEvictClean die line ∧ o = exec .rdcEvictClean s)
      ∨ (s.cur.ev = .invalidationRequest die line ∧ o = exec .invalidationRequest s)) →
    ¬ dirty → Becomes o (fun t => t.rdcAt die line = none ∧ others t ∧ t.mem = s.mem))
  ∧ (s.cur.ev = .recallRequest die line → (s.lineDir line).owner = some die →
    Becomes (exec .recallRequest s) (fun t => others t ∧ t.mem = s.mem
      ∧ t.rdcAt die line = some { e with st := match e.st with | .m => .o | .e => .s | x => x }))
  ∧ (s.cur.ev = .recallRequest die line → (s.lineDir line).owner ≠ some die → exec .recallRequest s = .next s)
  ∧ (∀ data num, s.cur.ev = .mirrorUpdate die line data num → Becomes (exec .mirrorUpdate s) (fun t => t.coh.rdc = s.coh.rdc
    ∧ ((s.cutOff die num = true ∨ ¬ dirty) → t = s)
    ∧ (s.cutOff die num = false → dirty → homeOf (line * 64) = die ^^^ 1 →
        ∀ b, b < 64 → t.byteAt (line * 64 + b) = (leBytes 64 data.toNat).getD b 0)
    ∧ (s.cutOff die num = false → dirty → homeOf (line * 64) ≠ die ^^^ 1 →
        sfind t.coh.mirror line = some { owner := die, data := data, num := num } ∧ t.mem = s.mem)))
  ∧ (∀ h idx, s.cur.ev = .ownerUnresponsive die h idx → Becomes (exec .ownerUnresponsive s) (fun t =>
    t.coh.deaf.contains die = true ∧ SameBytes s t
    ∧ (dirty → homeSlice (line * 64) = h * 32 + idx → t.rdcAt die line = none)
    ∧ (s.coh.deaf.contains die = false → ∀ n, (n < 8 ∨ n = 40) → (s.time, Ev.snuffRun die n) ∈ t.agenda)))

/-- A transactional request whose granule a routine or a publishing commit holds comes again in the next cycle. It loses to an older
holder; it aborts the holders when all are younger, and comes again; where nothing stands against it, its marker is set, its context
tracks the granule and the reply leaves (R272–R277). -/
def Clause.TxRequests : Prop := ∀ (s : State) (r i c : Nat) (q : Req) (x : Txn), s.cur.ev = .txRequest r → s.req r = some q →
  q.who = .cx i c → (s.cx i c).txn = some x → (∃ w n, q.op = .tx w n) →
  let o := exec .txRequest s
  let pg := q.pa / 256
  let write := q.op.writes
  let d := if homeOf q.pa = q.die then 0 else 44
  let busy := s.lineBusy r (pg * 256) 256
  let m := s.marksOf pg
  let rivals := ((if write then m.readers else []) ++ m.writer.toList).filter (fun w => w ≠ (i, c))
  let younger := rivals.all (fun w => (s.ageOf w).after (s.ageOf (i, c)))
  (q.live = false → Becomes o (fun t => t = { s with reqs := sdel r s.reqs }))
  ∧ (q.live = true → busy = true → o = .next (s.after 1 (.txRequest r)))
  ∧ (q.live = true → busy = false → rivals ≠ [] → younger = false → Becomes o (fun t => Coming s t (d + q.back) (.globalReply r)
    ∧ t.req r = some { q with ok := false, words := [1], st := .done, replyAt := s.time + d + q.back } ∧ t.coh.tx = s.coh.tx))
  ∧ (q.live = true → busy = false → rivals ≠ [] → younger = true → Becomes o (fun t => t.coh.tx = s.coh.tx ∧ t.req r = some q
    ∧ (∃ n, Coming s t n (.txRequest r))
    ∧ ∀ w, w ∈ rivals → Coming s t (toCore (homeOf q.pa) q.slice w.1) (.txAbortArrival w.1 w.2 1 0 true pg)))
  ∧ (q.live = true → busy = false → rivals = [] → s.coh.rdc = [] → s.coh.latent = [] → s.coh.marks = [] →
    s.dirFull (homeSlice q.pa) pg (i, c) write = none → (write = true → (s.core i).mustSpill (q.va / 256) = none) → (s.core i).pair.on = false →
    Becomes o (fun t =>
      (if write then (t.marksOf pg).writer = some (i, c) else (i, c) ∈ (t.marksOf pg).readers)
      ∧ (∃ y, t.req r = some y ∧ y.st = .done ∧ y.ok = true) ∧ t.mem = s.mem
      ∧ ∃ z, (t.cx i c).txn = some z ∧ (if write then (q.va / 256, pg) ∈ z.wset else (q.va / 256, pg) ∈ z.rset)))

/-- An abort that reaches a transaction which tracks the granule and is not at its commit point ends it: the checkpointed registers are
back and the context goes to its target with TXSTAT; else nothing happens. A commit message that names a slice's clean-up clears the
context's markers there; an earlier one counts down, and the last publishes every byte the transaction wrote and ends its hold on TXSTAT
and age (R278, R282, R284, R287). -/
def Clause.TxArrivals : Prop := ∀ (s : State) (i c cause code pg h : Nat) (retry : Bool),
  (∀ x, s.cur.ev = .txAbortArrival i c cause code retry pg → (s.cx i c).txn = some x → (s.core i).pair.on = false →
    let tracks := ∃ e, e ∈ x.wset ++ x.rset ∧ e.2 = pg
    ((¬ tracks ∨ x.committing = true) → exec .txAbortArrival s = .next s)
    ∧ (tracks → x.committing = false → Becomes (exec .txAbortArrival s) (fun t => SameBytes s t ∧ (t.cx i c).txn = none
      ∧ (t.cx i c).s = x.ckS ∧ (t.cx i c).m = x.ckM ∧ (t.cx i c).pc = x.target ∧ (t.cx i c).copy = true
      ∧ (t.cx i c).age = (if retry then (s.cx i c).age else none)
      ∧ (∃ e b, e ∈ x.wset ++ x.rset ∧ e.2 = pg ∧ (t.cx i c).txstat = txstatWord cause code x.depth retry b e.1)
      ∧ ∀ g m, sfind t.coh.tx g = some m → (i, c) ∉ m.readers ∧ m.writer ≠ some (i, c))))
  ∧ (s.cur.ev = .txAbortArrival i c cause code retry pg → (s.cx i c).txn = none → exec .txAbortArrival s = .next s)
  ∧ (s.cur.ev = .txCommitMessage i c h → 256 ≤ h → Becomes (exec .txCommitMessage s) (fun t => t.cores = s.cores ∧ SameBytes s t
    ∧ ∀ g m, sfind t.coh.tx g = some m → homeSlice (g * 256) = h - 256 → (i, c) ∉ m.readers ∧ m.writer ≠ some (i, c)))
  ∧ (∀ x, s.cur.ev = .txCommitMessage i c h → h < 256 → (s.cx i c).txn = some x →
    (x.msgs ≠ 1 → Becomes (exec .txCommitMessage s) (fun t =>
      (t.cx i c).txn = some { x with msgs := x.msgs - 1, reached := x.reached ++ [h] } ∧ t.agenda = s.agenda ∧ SameBytes s t))
    ∧ (x.msgs = 1 → x.recs = [] → s.coh.rdc = [] →
      (∀ e f, e ∈ x.spec → f ∈ x.spec → x.phys (e.1 / 256) = x.phys (f.1 / 256) → e.1 % 256 = f.1 % 256 → e = f) →
      Becomes (exec .txCommitMessage s) (fun t => (t.cx i c).txstat = 0 ∧ (t.cx i c).age = none
        ∧ (∀ e g, e ∈ x.spec → x.phys (e.1 / 256) = some g → t.byteAt (g * 256 + e.1 % 256) = e.2)
        ∧ ∀ e, e ∈ x.wset ++ x.rset → ∃ n, Coming s t n (.txCommitMessage i c (256 + homeSlice (e.2 * 256))))))

/-- Coherence between dies and the home's part in transactions (R214–R217, R272–R278, R282, R284, R287). -/
def Obligations.CoherenceSteps : Prop := Clause.HomeRequests ∧ Clause.LineMessages ∧ Clause.TxRequests ∧ Clause.TxArrivals


/-! ### Launches and containment -/

/-- Bytes of device memory or of the host's window from a physical address. -/
def Clause.statusIs (t : State) (pa state reason lid : Nat) : Prop :=
  (regionOf (pa + 144) = .dram → t.pread (pa + 144) 8 = leBytes 8 (state * 2 ^ 60 + reason * 2 ^ 52 + lid))
  ∧ (regionOf (pa + 144) = .host → cells t.hostMem (t.hostBus (pa + 144)) 8 = leBytes 8 (state * 2 ^ 60 + reason * 2 ^ 52 + lid))

/-- A doorbell, the host's or the launch-control page's: an address that is no multiple of 256, or in no memory, is ignored and counted; a
full queue rejects with QUEUEFULL, a bad descriptor with BADDESC; a good one joins its queue with STATUS QUEUED, and the heads are
looked at (R293, R338, R340). The host's works from stage A on (Table 25.4). -/
def Clause.Doorbells : Prop := ∀ (s : State) (q pa die : Nat) (o : Out),
  ((s.cur.ev = .lqdbWrite q pa ∧ s.host.stages.getLsbD 0 = true ∧ s.host.err = 0 ∧ o = exec .lqdbWrite s)
    ∨ (s.cur.ev = .launchDoorbell q pa die ∧ o = exec .launchDoorbell s)) →
  let bad := pa % 256 ≠ 0 ∨ regionOf pa = .reserved ∨ ∃ p, regionOf pa = .peer p
  let l := Launch.new pa ((chunks 8 32 (s.physRead pa 256)).map (fun b => BitVec.ofNat 64 (leVal b)))
  let queue := sget [] s.lau.queues q
  (bad → o = .next { s with host := { s.host with ignored := s.host.ignored + 1 } })
  ∧ (¬ bad → s.coh.rdc = [] → 64 ≤ queue.length → Becomes o (fun t => Clause.statusIs t pa 5 1 0 ∧ t.lau = s.lau))
  ∧ (¬ bad → s.coh.rdc = [] → queue.length < 64 → descOk s q l = false → Becomes o (fun t => Clause.statusIs t pa 5 2 0 ∧ t.lau = s.lau))
  ∧ (¬ bad → s.coh.rdc = [] → queue.length < 64 → descOk s q l = true → Becomes o (fun t => Clause.statusIs t pa 1 0 0
    ∧ sget [] t.lau.queues q = queue ++ [s.lau.nextId] ∧ sfind t.lau.launches s.lau.nextId = some l
    ∧ ∀ p, p < 4 → (s.time, Ev.launchStart p) ∈ t.agenda))

/-- The head of a queue waits while a cluster of it is not up or a higher queue's head wants one of its clusters; where its preparation
fails it is FAILED with the reason; a launch of lower priority that holds a cluster and has a save area is pre-empted, and any other
holder is waited for (R294, R296). -/
def Clause.LaunchHeads : Prop := ∀ (s : State) (q k : Nat) (l : Launch), s.cur.ev = .launchStart q →
  (∀ e, e ∈ s.lau.launches → e.2.st ≠ .preempting) → s.headOf q = some (k, l) →
  let o := exec .launchStart s
  let behind := (List.range q).any (fun p => match s.headOf p with | some (_, m) => l.meets m | none => false)
  let up := l.clusters.all (fun c => s.host.announced.getLsbD (c / 32) && !s.lau.deadClusters.contains c)
  let holds := fun (e : Nat × Launch) => e ∈ s.lau.launches ∧ e.2.st.holds = true ∧ e.2.meets l = true
  let yields := fun (e : Nat × Launch) => e.2.st = .running ∧ q < e.2.pri ∧ e.2.word 11 ≠ 0
  ((behind = true ∨ up = false) → Becomes o (fun t => t.lau = s.lau ∧ t.cores = s.cores ∧ SameBytes s t))
  ∧ (∀ e, behind = false → up = true → holds e → ¬ yields e → Becomes o (fun t => t.lau = s.lau ∧ t.cores = s.cores ∧ SameBytes s t))
  ∧ (behind = false → up = true → (∃ e, holds e) → (∀ e, holds e → yields e) → Becomes o (fun t => Coming s t 1 (.launchStart q)
    ∧ ∀ e, holds e → (∀ f, f ∈ s.lau.launches → f.1 = e.1 → f = e) → ∃ m, sfind t.lau.launches e.1 = some m ∧ m.st = .preempting ∧ m.lid = e.2.lid))
  ∧ (behind = false → up = true → (∀ e, ¬ holds e) → l.st = .preempted → Becomes o (fun t =>
    Coming s t (4096 * l.cores.length + 1) (.launchRestore l.lid) ∧ ∃ m, sfind t.lau.launches k = some m ∧ m.st = .restoring))
  ∧ (∀ why, behind = false → up = true → (∀ e, ¬ holds e) → l.st = .queued → prepare (dequeue s k l) l = .reject why → s.coh.rdc = [] →
    Becomes o (fun t => Clause.statusIs t l.pa 5 why 0 ∧ sfind t.lau.launches k = some { l with st := .failed, reason := why }
      ∧ k ∉ sget [] t.lau.queues q ∧ ∀ c, (t.core c).lid = (s.core c).lid ∧ (t.core c).ls = (s.core c).ls))
  ∧ (∀ z code lsd, behind = false → up = true → (∀ e, ¬ holds e) → l.st = .queued → prepare (dequeue s k l) l = .ok z code lsd →
    z.word 19 = 0 → s.coh.tx = [] → Becomes o (fun t =>
      (∃ m, sfind t.lau.launches k = some m ∧ m.st = .running ∧ m.lid = s.lau.nextLid ∧ m.meas = z.meas)
      ∧ ∀ c, c ∈ z.cores → (t.core c).lid = s.lau.nextLid ∧ (t.core c).xbound = BitVec.ofNat 10 (bitsOf (z.word 3) 16 7)
        ∧ (t.core c).sevpol = BitVec.ofNat 64 (bitsOf (z.word 10) 9 0) ∧ (t.core c).ctxs = []
        ∧ (t.core c).ls = putCells (putCells [] 0 code) (bitsOf (z.word 7) 16 0) lsd
        ∧ ((z.defers = false ∨ c = z.cores.headD 0) → (t.core c).ct.started = true ∧ (t.core c).ct.pc = BitVec.ofNat 64 (z.word 2)
            ∧ (t.core c).ct.priv = .machine ∧ (t.core c).ct.rx 10 = BitVec.ofNat 64 c ∧ (t.core c).ct.rx 11 = BitVec.ofNat 64 (z.word 1))
        ∧ ((z.defers = true ∧ c ≠ z.cores.headD 0) → (t.core c).ct.started = false)))

/-- A restoration brings every saved core back and makes the launch RUNNING; at the end of a launch its control threads are finished and
its contexts ended, and once no access is open its cores are released, STATUS says DONE or FAILED with the reason, and every queue is
looked at (R295, R297). -/
def Clause.LaunchEnds : Prop := ∀ (s : State) (lid k : Nat) (l : Launch),
  (s.cur.ev = .launchRestore lid → s.lau.launches.find? (fun e => e.2.lid = lid && e.2.st = .restoring) = some (k, l) →
    Becomes (exec .launchRestore s) (fun t => (∃ m, sfind t.lau.launches k = some m ∧ m.st = .running ∧ m.lid = l.lid)
      ∧ ∀ c z, sfind l.saveCores c = some z → (∀ e, e ∈ l.saveCores → e.1 = c → e.2 = z) →
        (t.core c).ls = z.ls ∧ (t.core c).mode = z.mode ∧ { (t.core c).ct with resv := none } = { z.ct with resv := none } ∧ (t.core c).mbx = z.mbx
          ∧ (∀ e, e ∈ z.tcc → 16 ≤ e.handle.toNat → e ∈ (t.core c).tcc) ∧ ∀ n, ((t.core c).q n).go = false))
  ∧ (s.cur.ev = .launchEnd lid → s.lau.launches.find? (fun e => e.2.lid = lid && (e.2.st.holds || e.2.st = .preempted)) = some (k, l) →
    let o := exec .launchEnd s
    (l.reason = 0 → (l.st ≠ .running ∨ s.launchOver l = false) → o = .next s)
    ∧ ((l.reason ≠ 0 ∧ l.st = .preempted) → s.coh.rdc = [] → Becomes o (fun t => Clause.statusIs t l.pa 6 l.reason l.lid
      ∧ (∃ m, sfind t.lau.launches k = some m ∧ m.st = .failed) ∧ l.lid ∉ t.lau.restore.filter (fun x => x ≠ 0)
      ∧ ∀ p, p < 4 → (s.time, Ev.launchStart p) ∈ t.agenda))
    ∧ (l.reason = 0 → l.st = .running → s.launchOver l = true → (∀ c, c ∈ l.cores → (s.core c).ctxs = [] ∧ (s.core c).qs = []) →
      s.accessing l = false → s.coh.rdc = [] → Becomes o (fun t => Clause.statusIs t l.pa 4 0 l.lid
        ∧ (∃ m, sfind t.lau.launches k = some m ∧ m.st = .done)
        ∧ (∀ c, c ∈ l.cores → (t.core c).lid = 0 ∧ (t.core c).ct.started = false ∧ (t.core c).mbx = [] ∧ (t.core c).recs = []
            ∧ (t.core c).ls = (s.core c).ls)
        ∧ ∀ p, p < 4 → (s.time, Ev.launchStart p) ∈ t.agenda)))

/-- Launches: submission, start, restoration and end (R26, R28, R293–R297, R338). -/
def Clause.LaunchSteps : Prop := Clause.Doorbells ∧ Clause.LaunchHeads ∧ Clause.LaunchEnds

/-- A snuff request of a number takes the clusters it names that no snuff has taken; 16 cycles later everything in them stops: local stores
read zero, contexts are EMPTY, control threads halted, jobs of their cores cancelled; 2,400 cycles after the request the clusters are free,
their cores as at the end of a launch and their local stores zero, and every launch that holds one fails with SNUFFED. A request for one
under way changes nothing (R288, R324–R327). -/
def Clause.SnuffSteps : Prop := ∀ (s : State) (die n : Nat),
  let run := exec .snuffRun s
  let under := s.lau.snuffs.any (fun x => x.die = die && x.n = n)
  let cs := (s.snuffClusters die n).filter (fun c => !s.lau.snuffs.any (fun x => x.clusters.contains c))
  (s.cur.ev = .snuffRun die n → n < 64 → (under = true ∨ cs = []) → run = .next s)
  ∧ (s.cur.ev = .snuffRun die n → n < 64 → under = false → cs ≠ [] → Becomes run (fun t => t.cores = s.cores ∧ SameBytes s t
    ∧ t.lau.snuffs = s.lau.snuffs ++ [{ die := die, n := n, at0 := s.time, clusters := cs }]
    ∧ Coming s t 16 (.snuffRun die (n + 64)) ∧ Coming s t 2400 (.snuffNotification die n)))
  ∧ (∀ x, s.cur.ev = .snuffRun die (n + 64) → s.lau.snuffs.find? (fun x => x.die = die && x.n = n) = some x →
    Becomes run (fun t => t.mem = s.mem ∧ (∀ c, c ∈ x.clusters → t.lau.deadClusters.contains c = true)
      ∧ ∀ i, i < 2048 → (if x.clusters.contains (clusterOf i) = true
          then (∀ a, t.lsByte i a = 0) ∧ (∀ c, (t.cx i c).st = .empty ∧ (t.cx i c).txn = none)
            ∧ ((∃ z, sfind s.cores i = some z) → (t.core i).ct.halted = true) ∧ (t.core i).mbx = [] ∧ (t.core i).tcc = []
          else (t.core i).ls = (s.core i).ls ∧ (t.core i).v = (s.core i).v)))
  ∧ (∀ x, s.cur.ev = .snuffNotification die n → s.lau.snuffs.find? (fun x => x.die = die && x.n = n) = some x →
    Becomes (exec .snuffNotification s) (fun t => (∀ c, c ∈ x.clusters → t.lau.deadClusters.contains c = false)
      ∧ (∀ y, y ∈ t.lau.snuffs → ¬ (y.die = die ∧ y.n = n)) ∧ t.mem = s.mem
      ∧ (∀ i, t.core i = if x.clusters.contains (clusterOf i) = true ∧ (sfind s.cores i).isSome = true then (s.core i).wiped else s.core i)
      ∧ (∀ e, e ∈ s.lau.launches → e.2.st.holds = true → x.clusters.any e.2.hasCluster = true →
          (∀ f, f ∈ s.lau.launches → f.1 = e.1 ∨ f.2.lid = e.2.lid → f = e) → (s.time, Ev.launchEnd e.2.lid) ∈ t.agenda
            ∧ sfind t.lau.launches e.1 = some { e.2 with reason := 8, freed := e.2.freed ++ x.clusters })
      ∧ ∀ p, p < 4 → (s.time, Ev.launchStart p) ∈ t.agenda))

/-- Launches and snuffs (R26, R28, R288, R293–R297, R324–R327, R338). -/
def Obligations.LaunchAndSnuff : Prop := Clause.LaunchSteps ∧ Clause.SnuffSteps

/-! ### Fabric -/

/-- A session with a device that is bound to the port, whose chain verifies and whose message is signed with its identity key, brings the
port up with fresh keys once stage C is over; any other leaves everything as it was (R344, R346). A port that loses its link is down at
once, without allowance, and is declared down 2 ms later unless it has come up; the packets of a peer all of whose ports are declared down
are gone (R334, R343, R358). -/
def Clause.Links : Prop := ∀ (s : State) (q : Nat),
  (∀ pp cert chain nonce key identity sig, s.cur.ev = .fabricSession q pp cert chain nonce key identity sig → q < 18 →
    let bound := s.fab.peers.any (fun p => p.2.mask.testBit q && p.2.hash = cert)
    let good := chain = true ∧ bound = true ∧ s.host.stages.getLsbD 2 = true ∧ pp < 18
      ∧ ecdsaVerify identity (helloDigest key nonce pp) sig = true
    let d := scalar (Config.sessionKey s.fab.sessions)
    let mine := Config.sessionNonce s.fab.sessions
    (∀ z, good → ecdh d key = some z → (s.port q).allow = 0 → Becomes (exec .fabricSession s) (fun t => SameBytes s t
      ∧ t.fab.sessions = s.fab.sessions + 1 ∧ t.port q = { s.port q with
          up := true, peerPort := pp, peerCert := cert, txKey := dirKey z mine nonce, rxKey := dirKey z nonce mine
          txCtr := 0, rxCtr := 0, retrain := none, declaredDown := false, given := (t.port q).given, hello := (t.port q).hello }
      ∧ ∃ own, (t.port q).hello = some (pubOf d, mine, own)))
    ∧ (¬ good ∨ ecdh d key = none → exec .fabricSession s = .next s))
  ∧ (s.cur.ev = .linkRetrain q → (s.port q).up = true → Becomes (exec .linkRetrain s) (fun t => SameBytes s t ∧ t.cores = s.cores
    ∧ t.port q = { s.port q with up := false, allow := 0, retrain := some s.time } ∧ (∀ p, p ≠ q → t.port p = s.port p)
    ∧ Coming s t 2400000 (.linkDown q)))
  ∧ (s.cur.ev = .linkDown q →
    let late := (∃ t0, (s.port q).retrain = some t0 ∧ t0 + 2400000 ≤ s.time) ∧ (s.port q).up = false
    Becomes (exec .linkDown s) (fun t =>
      (late → t.port q = { s.port q with declaredDown := true, retrain := none }) ∧ (¬ late → t.port q = s.port q)
      ∧ (∀ p, p ≠ q → t.port p = s.port p)
      ∧ ∀ k f, sfind s.fab.flows k = some f → t.peerDown (k % 128) = true → ∃ g, sfind t.fab.flows k = some g ∧ g.pkts = []))
  ∧ (∀ n, s.cur.ev = .allowanceGrant q n → q < 18 → Becomes (exec .allowanceGrant s) (fun t => SameBytes s t
    ∧ (t.port q).allow ≤ (s.port q).allow + n ∧ (s.fab.flows = [] → (t.port q).allow = (s.port q).allow + n)
    ∧ (t.port q).up = (s.port q).up))

/-- A port that is up takes a packet within the allowance it has granted and counts it; one whose tag is not that of AES-256-GCM under its
key is dropped (R346), one received twice, or older than the window, is acknowledged again with its stored reply and applied no more (R334),
and the flits of each that is over are granted again (R343). A ring packet reaches its ring and is acknowledged; an operation on an
unexported range is refused (R345). An acknowledged packet is over, one unacknowledged for 24,000 cycles is sent again (R334); a store of a
context that the peer refuses is logged, and the context has a refused store (R155, R345, R347). -/
def Clause.Packets : Prop := ∀ (s : State) (port flow peer seq : Nat) (tag : BitVec 128) (op : FabOp) (err : Bool) (data : List Byte),
  let k := flowKey flow peer
  let f := (sfind s.fab.rflows k).getD { high := seq, got := [], replies := [] }
  let acks := fun (t : State) (e : Bool) (d : List Byte) => t.fab.acked = some { flow := flow, peer := peer, seq := seq, err := e, data := d }
  let counted := { s.port port with rxCtr := (s.port port).rxCtr + 1 }
  (s.cur.ev = .fabricPacketReceive port flow peer seq tag op → port < 18 → (s.port port).up = true → fabFlits op ≤ (s.port port).given →
    let o := exec .fabricPacketReceive s
    let good := tag = BitVec.ofNat 128 (blockVal (sealPacket (s.port port).rxKey (s.port port).peerPort (s.port port).rxCtr flow seq op).2)
    (¬ good → Becomes o (fun t => t = { s with fab := { s.fab with ports := t.fab.ports } } ∧ t.port port = counted
      ∧ ∀ q, q ≠ port → t.port q = s.port q))
    ∧ (good → f.stale seq = true → (∀ r, r ∈ f.replies → r.1 ≠ seq) → Becomes o (fun t => acks t false []
      ∧ t = { s with fab := { s.fab with acked := t.fab.acked, ports := t.fab.ports } } ∧ t.port port = counted))
    ∧ (∀ r, good → f.stale seq = true → f.replies.find? (fun r => r.1 = seq) = some r → Becomes o (fun t => acks t r.2.1 r.2.2
      ∧ t = { s with fab := { s.fab with acked := t.fab.acked, ports := t.fab.ports } } ∧ t.port port = counted))
    ∧ (∀ g rank step block ws, good → f.stale seq = false → op = .ring g rank step block ws →
      Becomes o (fun t => acks t false [] ∧ SameBytes s t ∧ (s.time, Ev.ringStep g step block ws) ∈ t.agenda ∧ t.port port = counted
        ∧ ∃ h, sfind t.fab.rflows k = some h ∧ h.stale seq = true))
    ∧ (∀ off bs, good → f.stale seq = false → op = .store off bs →
      (s.fab.exportRgn = none ∨ ∃ a va len, s.fab.exportRgn = some (a, va, len) ∧ len < off + bs.length ∧ s.migrating a (va + off) = false) →
      Becomes o (fun t => acks t true [] ∧ SameBytes s t ∧ t.port port = counted
        ∧ ∃ h, sfind t.fab.rflows k = some h ∧ (seq, true, []) ∈ h.replies)))
  ∧ (s.cur.ev = .fabricAck k peer seq err data →
    let o := exec .fabricAck s
    (sfind s.fab.flows k = none → o = .next s)
    ∧ ∀ h p, sfind s.fab.flows k = some h → h.pkts.find? (fun x => x.seq = seq && x.sentAt.isSome) = some p →
      Becomes o (fun t => (∃ g, sfind t.fab.flows k = some g ∧ g.seq = h.seq ∧ ∀ x, x ∈ g.pkts → x.seq ≠ seq)
        ∧ (∀ i c off bs, err = true → p.job = none → p.req = none → p.op = .store off bs → whoOf (k / 128) = some (.cx i c) →
            s.fab.log.length < 65536 → (t.cx i c).refused = true ∧ (t.cx i c).st = (s.cx i c).st
              ∧ t.fab.log = s.fab.log ++ [leBytes 2 (i * 16 + c) ++ leBytes 1 (k % 128) ++ leBytes 1 1 ++ leBytes 4 seq ++ leBytes 8 off
                  ++ leBytes 8 s.time ++ leBytes 8 bs.length])))
  ∧ (s.cur.ev = .fabricRetransmit k peer seq →
    let o := exec .fabricRetransmit s
    (sfind s.fab.flows k = none → o = .next s)
    ∧ ∀ h, sfind s.fab.flows k = some h →
      ((∀ x, x ∈ h.pkts → x.seq ≠ seq) → o = .next s)
      ∧ (∀ x q, h.pkts = [x] → x.seq = seq → x.sentAt ≠ none → s.pktPort (k % 128) x.op = some q → (s.port q).holds x.op = false →
        Becomes o (fun t => SameBytes s t ∧ Coming s t 24000 (.fabricRetransmit k (k % 128) seq)
          ∧ t.port q = (s.port q).send q (k / 128) seq x.op
          ∧ ∃ g, sfind t.fab.flows k = some g ∧ g.pkts = [{ x with sentAt := some s.time, due := false }])))
  ∧ ∀ ring step block ws, s.cur.ev = .ringStep ring step block ws →
    let o := exec .ringStep s
    (sfind s.fab.rings ring = none → o = .next s)
    ∧ (sfind s.fab.rings ring ≠ none → Becomes o (fun t => t.fab.ringIn = s.fab.ringIn ++ [(ring, step, block, ws)]
      ∧ t.cores = s.cores ∧ SameBytes s t ∧ ∀ j, j ∈ s.collsOn ring → (s.time, Ev.jobRun j) ∈ t.agenda))

/-- The fabric's steps (R334, R343–R348, R358, R365). -/
def Clause.FabricSteps : Prop := Clause.Links ∧ Clause.Packets

/-! ### The host link -/

/-- The host reads and writes through the window MAPWIN opened, within its length, no space with an owner key that has not admitted debug,
and only pages with HV = 1 and no seal: else a read gets Unsupported Request and a write is discarded and reported as one (R335, R336,
R354). An access behind one that waits joins the line (R213). The bytes here lie in one line of device memory that no die has a copy of, on
a page whose A, for a write D as well, is set. A host-window read that times out ends its access with PROT (R337); HBREQ, IGNCNT, CECNT and
UECNT change as Table 25.1 says, and an unanswered request for a page is refused (R342). -/
def Clause.HostSteps : Prop := ∀ (s : State) (off n d : Nat) (bs : List Byte),
  let shut := fun (m : Nat) => ∀ a va len, s.host.mapwin = some (a, va, len) → len < off + m ∨ s.closed a = true
  let one := fun (m va : Nat) (l : Leaf) => ∃ a w len, s.host.mapwin = some (a, w, len) ∧ va = w + off ∧ off + m ≤ len ∧ s.closed a = false
    ∧ va < 2 ^ 48 ∧ 0 < m ∧ va % 64 + m ≤ 64 ∧ s.spaceLeaf a va = some l ∧ pteMig l.pte = false ∧ regionOf (l.pa va) = .dram
    ∧ s.coh.rdc = [] ∧ s.coh.latent = [] ∧ s.coh.marks = [] ∧ s.coh.tx = [] ∧ s.coh.tlb = [] ∧ s.near.runs = []
  let waits := fun (m : Nat) (o : Out) => ¬ shut m → s.host.mapwin ≠ none → s.host.bar2 ≠ [] → s.host.bar2.head? ≠ some s.cur.ev →
    o = .next { s with host := { s.host with bar2 := s.host.bar2 ++ [s.cur.ev] } }
  let opens := fun (l : Leaf) => pteHv l.pte = true ∧ pteSeal l.pte = false
  (s.cur.ev = .hostBar2Read off n →
    let o := exec .hostBar2Read s
    let refusal := Becomes o (fun t => t = { s with host := { s.host with answer := none, answerEp := false } })
    (waits n o)
    ∧ (s.host.bar2 = [] → (shut n → refusal)
      ∧ ∀ va l, one n va l → (¬ (opens l ∧ pteR l.pte = true) → refusal)
        ∧ (opens l → pteR l.pte = true → pteA l.pte = true →
          Becomes o (fun t => t.host.answer = some (cells s.mem (l.pa va) n) ∧ t.host.answerEp = false ∧ SameBytes s t ∧ t.cores = s.cores))))
  ∧ (s.cur.ev = .hostBar2Write off bs →
    let o := exec .hostBar2Write s
    let refusal := o = .next { s with host := { s.host with urPosted := true } }
    (waits bs.length o)
    ∧ (s.host.bar2 = [] → (shut bs.length → refusal)
      ∧ ∀ va l, one bs.length va l → (¬ (opens l ∧ pteW l.pte = true) → refusal)
        ∧ (opens l → pteW l.pte = true → pteA l.pte = true → pteD l.pte = true → Becomes o (fun t =>
          (∀ a, t.byteAt a = if l.pa va ≤ a ∧ a < l.pa va + bs.length then bs.getD (a - l.pa va) 0 else s.byteAt a)
          ∧ t.hostMem = s.hostMem ∧ ∀ i a, t.lsByte i a = s.lsByte i a))))
  ∧ (s.cur.ev = .hostReadTimeout n → n ∈ s.host.hostReads →
    let o := exec .hostReadTimeout s
    (∀ q, n < 2 ^ 40 → s.req n = some q → Becomes o (fun t => n ∉ t.host.hostReads ∧ SameBytes s t ∧ t.cores = s.cores
      ∧ t.req n = some { q with
          fault := some { cause := 3, detail := BitVec.ofNat 40 (q.va / 256) }, st := .done, replyAt := s.time + 44 + q.back }))
    ∧ (∀ x, 2 ^ 40 ≤ n → s.job (n - 2 ^ 40) = some x → x.st.terminal = false → Becomes o (fun t => n ∉ t.host.hostReads
      ∧ JobEnded s t (n - 2 ^ 40) x .failed 4)))
  ∧ (s.cur.ev = .hbreqRead → Becomes (exec .hbreqRead s) (fun t => t = { s with host := { s.host with
      hbq := s.host.hbq.tail, answer := some (leBytes 8 (s.host.hbq.headD 0).toNat), answerEp := false } }))
  ∧ (s.cur.ev = .igncntRead → Becomes (exec .igncntRead s) (fun t => t = { s with host := { s.host with
      ignored := 0, answer := some (leBytes 8 s.host.ignored), answerEp := false } }))
  ∧ (s.cur.ev = .cecntRead d → Becomes (exec .cecntRead s) (fun t => t.host.answer = some (leBytes 8 (sget 0 s.host.ce d)) ∧ SameBytes s t
      ∧ ∀ e, sget 0 t.host.ce e = if e = d then 0 else sget 0 s.host.ce e))
  ∧ (s.cur.ev = .uecntRead d → Becomes (exec .uecntRead s) (fun t => t.host.answer = some (leBytes 8 (sget 0 s.host.ue d)) ∧ SameBytes s t
      ∧ ∀ e, sget 0 t.host.ue e = if e = d then 0 else sget 0 s.host.ue e))
  ∧ (s.cur.ev = .hbreqTimeout n →
    let o := exec .hbreqTimeout s
    (s.hbWaiting n = none → o = .next s)
    ∧ ∀ die m p, s.hbWaiting n = some (die, m, p) →
      (s.spaceLeaf p.asid (p.page * 65536) ≠ none → o = .next (s.at s.time (.pageFaultService die)))
      ∧ (s.spaceLeaf p.asid (p.page * 65536) = none → Becomes o (fun t => (s.time, Ev.pageFaultService die) ∈ t.agenda ∧ SameBytes s t
        ∧ sfind t.lau.mmps die = some { m with queue := { p with refused := true } :: m.queue.tail })))

/-- The fabric and the host (R155, R334–R337, R342–R348, R354, R358, R365). -/
def Obligations.FabricAndHost : Prop := Clause.FabricSteps ∧ Clause.HostSteps

/-! ### Management commands -/

/-- `s` at the end of a command: BUSY reads 0, and MRES holds the result in [7:0] and a value in [63:8] (R339). -/
def Clause.ends (s : State) (res val : Nat) : State :=
  { s with host := { s.host with busy := false, acking := false, mres := BitVec.ofNat 64 (res + val * 256) } }
/-- The step of command `code` runs now. -/
def Clause.running (s : State) (code : Nat) (e : Ev) : Prop := s.cur.ev = e ∧ s.host.busy = true ∧ s.host.mcmd.toNat = code
/-- `o` is a next state in which the command has ended with a result and no value, and `P` holds. -/
def Clause.endsIn (o : Out) (res : Nat) (P : State → Prop) : Prop :=
  Becomes o (fun t => t.host.busy = false ∧ t.host.mres = BitVec.ofNat 64 res ∧ P t)
/-- An invalidation of a range is on its way to every slice. -/
def Clause.invalidating (s t : State) (asid va len : Nat) : Prop :=
  ∀ d i, d < 8 → i < 32 → Coming s t 44 (.invalidateBroadcast d i asid va len)
/-- A space with its tables, ASID 1 to 4,095. -/
def Clause.isSpace (s : State) (asid : Nat) : Prop := 1 ≤ asid ∧ asid ≤ 4095 ∧ s.space asid ≠ none

/-- ASNEW, ASFREE, MAP, LOAD, SEAL, MAPWIN, EXPORT and LCMAP on address spaces: results OK 0, REFUSED 1, BADARG 2, NOSPACE 4, and what each
does (Table 25.2, R340, R342, R355). ASFREE and SEAL go on once every slice has acknowledged their invalidation (R202). LOAD's bytes are
here those of one line of device memory without copies; SEAL's entry that of one page. The frames, the order of the checks, and that a
sealed leaf loses HV, are the model's choice (log 22, log 19, log 15). -/
def Clause.SpaceCommands : Prop := ∀ (s : State),
  let a := fun (k : Nat) => (sget 0 s.host.marg k).toNat
  let asid := a 0
  let va := a 1
  let len := a 2
  let sp := Clause.isSpace s asid
  let pages := va % 65536 = 0 ∧ len % 65536 = 0 ∧ len ≠ 0 ∧ va + len ≤ 2 ^ 48
  let leafless := fun (p : Nat) => s.spaceLeaf asid (p * 65536) = none
  let asks := fun (o : Out) (e : Ev) (P : State → Prop) => Becomes o (fun t =>
    t.host = { s.host with acking := true } ∧ Coming s t 44 e ∧ P t)
  let used := ∃ l, l ∈ s.lau.launches ∧ l.2.asid = asid ∧ (l.2.st.holds = true ∨ l.2.st = .queued ∨ l.2.st = .preempted)
  (Clause.running s 0x01 .asnew →
    let o := exec .asnew s
    (asid = 0 ∨ 4095 < asid → o = .next (Clause.ends s 2 0)) ∧ (sp → o = .next (Clause.ends s 1 0))
    ∧ (1 ≤ asid → asid ≤ 4095 → s.space asid = none →
      (anyFrame s = none → o = .next (Clause.ends s 4 0))
      ∧ (anyFrame s ≠ none → Clause.endsIn o 0 (fun t => ∃ x, t.space asid = some x ∧ x.debug = false ∧ x.hb = [] ∧ x.pages = []
          ∧ x.ownerKey = (if va = 0 then none else some (cells s.hostMem va 96)) ∧ (∀ k, k < 65536 → t.byteAt (x.root + k) = 0)
          ∧ ∀ b, b ≠ asid → t.space b = s.space b))))
  ∧ (Clause.running s 0x02 .asfree →
    let o := exec .asfree s
    (¬ sp → o = .next (Clause.ends s 2 0)) ∧ (sp → used → o = .next (Clause.ends s 1 0))
    ∧ (sp → ¬ used →
      (s.host.acking = false → asks o .asfree (fun t => Clause.invalidating s t asid 0 0 ∧ SameBytes s t ∧ t.lau = s.lau))
      ∧ (s.host.acking = true → s.invalPending asid 0 = true → o = .next (s.after 1 .asfree))
      ∧ (s.host.acking = true → s.invalPending asid 0 = false → Clause.endsIn o 0 (fun t => t.space asid = none ∧ t.rootOf asid = none))))
  ∧ (Clause.running s 0x03 .map →
    let o := exec .map s
    let fl := a 3
    let hv := fl.testBit 6
    let hb := fl.testBit 7
    let good := sp ∧ pages ∧ ¬ (hb = true ∧ hv = true) ∧ fl < 256
    let free := ∀ p, p ∈ pagesIn va len → leafless p
    (¬ good → o = .next (Clause.ends s 2 0)) ∧ (good → ¬ free → o = .next (Clause.ends s 1 0))
    ∧ (good → free → hb = true → Clause.endsIn o 0 (fun t => SameBytes s t ∧ ∃ x y, s.space asid = some x ∧ t.space asid = some y
        ∧ y = { x with hb := x.hb ++ [{ lo := va, len := len, attr := fl % 64 }] }))
    ∧ (good → free → hb = false → o = .next (Clause.ends s 4 0) ∨ Clause.endsIn o 0 (fun t => ∃ x y, s.space asid = some x ∧ t.space asid = some y
        ∧ y.root = x.root ∧ y.pages = x.pages ++ pagesIn va len)))
  ∧ (Clause.running s 0x04 .load →
    let o := exec .load s
    let buf := a 2
    let n := a 3
    let mapped := va + n ≤ 2 ^ 48 ∧ ∀ p, 0 < n → va / 65536 ≤ p → p * 65536 < (va + n + 65535) / 65536 * 65536 → ¬ leafless p
    let sealed := ∃ p l, 0 < n ∧ va / 65536 ≤ p ∧ p * 65536 < (va + n + 65535) / 65536 * 65536 ∧ s.spaceLeaf asid (p * 65536) = some l
      ∧ pteSeal l.pte = true
    (¬ (sp ∧ mapped) → o = .next (Clause.ends s 2 0)) ∧ (sp → mapped → sealed → o = .next (Clause.ends s 1 0))
    ∧ (sp → mapped → ¬ sealed → Clause.endsIn o 0 (fun t => (∀ i x, t.lsByte i x = s.lsByte i x)
      ∧ ∀ l, 0 < n → va % 64 + n ≤ 64 → s.spaceLeaf asid va = some l → regionOf (l.pa va) = .dram → s.coh.rdc = [] →
        ∀ x, t.byteAt x = if l.pa va ≤ x ∧ x < l.pa va + n then sget 0 s.hostMem (buf + (x - l.pa va)) else s.byteAt x)))
  ∧ (Clause.running s 0x05 .sealRange →
    let o := exec .sealRange s
    let good := sp ∧ pages ∧ ∀ p, p ∈ pagesIn va len → ¬ leafless p
    let moving := ∃ p, p ∈ pagesIn va len ∧ s.migrating asid (p * 65536) = true
    let pending := ∃ p, p ∈ pagesIn va len ∧ s.invalPending asid p = true
    (¬ good → o = .next (Clause.ends s 2 0)) ∧ (good → s.host.acking = false → moving → o = .next (s.after 1 .sealRange))
    ∧ (good → s.host.acking = false → ¬ moving → o = .next (Clause.ends s 4 0) ∨
      asks o .sealRange (fun t => Clause.invalidating s t asid va len))
    ∧ (∀ l, good → s.host.acking = false → ¬ moving → len = 65536 → s.spaceLeaf asid va = some l → l.level = 3 →
      asks o .sealRange (fun t => let w := t.pword l.at'
        pteAddr w = pteAddr l.pte ∧ pteSeal w = true ∧ pteW w = false ∧ pteHv w = false
          ∧ (pteHv l.pte = false → pteSeal l.pte = false → w = l.pte + 2 ^ 49 - (if pteW l.pte = true then 8 else 0))))
    ∧ (good → s.host.acking = true → pending → o = .next (s.after 1 .sealRange))
    ∧ (good → s.host.acking = true → ¬ pending → Clause.endsIn o 0 (fun t => t.mem = s.mem
      ∧ cells t.hostMem (a 3) 48 = sha384 ((pagesIn va len).flatMap (fun p => match s.spaceLeaf asid (p * 65536) with
          | some l => s.pread (l.pa (p * 65536)) 65536
          | none => [])))))
  ∧ (Clause.running s 0x06 .mapwin →
    let o := exec .mapwin s
    (len = 0 → Clause.endsIn o 0 (fun t => t.host.mapwin = none ∧ SameBytes s t))
    ∧ (len ≠ 0 → ¬ (sp ∧ va + len ≤ 2 ^ 48 ∧ len ≤ 2 ^ 36) → o = .next (Clause.ends s 2 0))
    ∧ (len ≠ 0 → sp → va + len ≤ 2 ^ 48 → len ≤ 2 ^ 36 → Clause.endsIn o 0 (fun t => t.host.mapwin = some (asid, va, len) ∧ SameBytes s t)))
  ∧ (Clause.running s 0x07 .exportRegion →
    let o := exec .exportRegion s
    (¬ (sp ∧ va + len ≤ 2 ^ 48 ∧ len ≤ 2 ^ 36) → o = .next (Clause.ends s 2 0))
    ∧ (sp → va + len ≤ 2 ^ 48 → len ≤ 2 ^ 36 → Clause.endsIn o 0 (fun t => t.fab = { s.fab with exportRgn := some (asid, va, len) } ∧ SameBytes s t)))
  ∧ (Clause.running s 0x15 .lcmap →
    let o := exec .lcmap s
    let made := mapPage s asid va (leafWord (2 ^ 38) 0 true true false 2)
    let good := sp ∧ va % 65536 = 0 ∧ va < 2 ^ 48
    (¬ good → o = .next (Clause.ends s 2 0)) ∧ (good → s.spaceLeaf asid va ≠ none → o = .next (Clause.ends s 1 0))
    ∧ (good → s.spaceLeaf asid va = none → (made = none → o = .next (Clause.ends s 4 0)) ∧ ∀ u, made = some u → o = .next (Clause.ends u 0 0)))

/-- HBFILL, PEER, RING, RECT, SNUFF, ATTEST and DEBUG (Table 25.2, R324, R339, R342, R344, R348, R353, R354). -/
def Clause.DeviceCommands : Prop := ∀ (s : State),
  let a := fun (k : Nat) => (sget 0 s.host.marg k).toNat
  (Clause.running s 0x16 .hbfill →
    let o := exec .hbfill s
    (s.hbWaiting (a 0) = none → o = .next (Clause.ends s 2 0))
    ∧ ∀ die m p, s.hbWaiting (a 0) = some (die, m, p) →
      let absent := s.spaceLeaf p.asid (p.page * 65536) = none
      (1 < a 2 ∨ ¬ absent → o = .next (Clause.ends s 2 0))
      ∧ (a 2 = 1 → absent → Clause.endsIn o 0 (fun t => (s.time, Ev.pageFaultService die) ∈ t.agenda ∧ SameBytes s t
          ∧ sfind t.lau.mmps die = some { m with queue := { p with refused := true } :: m.queue.tail }))
      ∧ (a 2 = 0 → absent → anyFrame s = none → o = .next (Clause.ends s 4 0))
      ∧ (a 2 = 0 → absent → o = .next (Clause.ends s 4 0) ∨ Clause.endsIn o 0 (fun t => Coming s t 44 (.pageFaultService die)
          ∧ Clause.invalidating s t p.asid (p.page * 65536) 65536)))
  ∧ (Clause.running s 0x08 .peer →
    let o := exec .peer s
    let hash := BitVec.ofNat 384 (beVal (cells s.hostMem (a 1) 48))
    (63 < a 0 ∨ 2 ^ 18 ≤ a 2 → o = .next (Clause.ends s 2 0))
    ∧ (a 0 ≤ 63 → a 2 < 2 ^ 18 → Clause.endsIn o 0 (fun t => SameBytes s t
      ∧ (∀ p, sfind t.fab.peers p = if p = a 0 then some { hash := hash, mask := a 2 } else sfind s.fab.peers p)
      ∧ ∀ i, i < 18 → (a 2).testBit i = true → (s.port i).up = true → (s.port i).peerCert ≠ hash → (s.time, Ev.linkRetrain i) ∈ t.agenda)))
  ∧ (Clause.running s 0x09 .ring →
    let o := exec .ring s
    let p := a 1 / 256 % 256
    let good := a 0 ≤ 255 ∧ 2 ≤ p ∧ p ≤ 64 ∧ a 1 % 256 < p ∧ a 1 < 65536 ∧ a 2 < 18 ∧ a 3 < 18
    (¬ good → o = .next (Clause.ends s 2 0))
    ∧ (good → Clause.endsIn o 0 (fun t => SameBytes s t ∧ (∀ x, x ∈ t.fab.ringIn ↔ x ∈ s.fab.ringIn ∧ x.1 ≠ a 0)
      ∧ ∀ r, sfind t.fab.rings r = if r = a 0 then some { p := p, rank := a 1 % 256, nextPort := a 2, prevPort := a 3 } else sfind s.fab.rings r)))
  ∧ (Clause.running s 0x0A .rect →
    let o := exec .rect s
    let w := a 2 % 2 ^ 10 + a 2 / 2 ^ 63 * 2 ^ 63
    (7 < a 0 ∨ 7 < a 1 → o = .next (Clause.ends s 2 0))
    ∧ (a 0 ≤ 7 → a 1 ≤ 7 → rectOk s (a 0) (a 1) w = false → o = .next (Clause.ends s 1 0))
    ∧ (a 0 ≤ 7 → a 1 ≤ 7 → rectOk s (a 0) (a 1) w = true → Clause.endsIn o 0 (fun t => SameBytes s t
      ∧ ∀ d n, d ≤ 7 → n ≤ 7 → t.rect d n = if d = a 0 ∧ n = a 1 then w else s.rect d n)))
  ∧ (Clause.running s 0x0B .snuff →
    let o := exec .snuff s
    (7 < a 0 ∨ 7 < a 1 → o = .next (Clause.ends s 2 0))
    ∧ (a 0 ≤ 7 → a 1 ≤ 7 → s.obs.frozen = true → Clause.endsIn o 0 (fun t => t.obs = { s.obs with heldSnuffs := s.obs.heldSnuffs ++ [(a 0, a 1)] }
        ∧ t.agenda = s.agenda))
    ∧ (a 0 ≤ 7 → a 1 ≤ 7 → s.obs.frozen = false → Clause.endsIn o 0 (fun t => (s.time, Ev.snuffRun (a 0) (a 1)) ∈ t.agenda ∧ t.lau = s.lau)))
  ∧ (Clause.running s 0x0C .attest →
    let o := exec .attest s
    let body := reportBody s (a 2) (cells s.hostMem (a 0) 48)
    (body = none → o = .next (Clause.ends s 2 0))
    ∧ ∀ b, body = some b →
      let sig := ecdsaSign (scalar Config.identityKey) (scalar (Config.signNonce s.host.signs)) (BitVec.ofNat 384 (beVal (sha384 b)))
      let rep := b ++ beBytes 96 sig.toNat
      Clause.endsIn o 0 (fun t => cells t.hostMem (a 1) rep.length = rep ∧ t.host.signs = s.host.signs + 1 ∧ t.mem = s.mem ∧ t.cores = s.cores))
  ∧ (Clause.running s 0x0D .admitDebug →
    let o := exec .admitDebug s
    let sp := Clause.isSpace s (a 0)
    (¬ sp → o = .next (Clause.ends s 2 0))
    ∧ ∀ x, sp → s.space (a 0) = some x → (x.ownerKey = none → o = .next (Clause.ends s 0 0))
      ∧ ∀ key, x.ownerKey = some key →
        let expiry := cells s.hostMem (a 1) 8
        let digest := sha384 (leBytes 8 (a 0) ++ beBytes 48 Config.certHash.toNat ++ expiry)
        let good := s.time ≤ leVal expiry ∧ ecdsaVerify (BitVec.ofNat 768 (beVal key)) (BitVec.ofNat 384 (beVal digest))
          (BitVec.ofNat 768 (beVal (cells s.hostMem (a 1 + 8) 96))) = true
        (¬ good → o = .next (Clause.ends s 3 0))
        ∧ (good → Clause.endsIn o 0 (fun t => SameBytes s t ∧ t.space (a 0) = some { x with debug := true } ∧ ∀ b, b ≠ a 0 → t.space b = s.space b)))

/-- FREEZE, THAW, DUMP, TRIG, POWCAP, LOGREAD, GLIM and TRACE (Table 25.2, R341, R347, R354, R359–R363). -/
def Clause.WatchCommands : Prop := ∀ (s : State),
  let a := fun (k : Nat) => (sget 0 s.host.marg k).toNat
  let shut := fun (i : Nat) => (s.core i).lid ≠ 0 ∧ s.closed (s.asidOf i) = true
  (Clause.running s 0x0E .freeze → sget 0 s.host.marg 0 = 0 →
    let o := exec .freeze s
    (s.obs.frozen = true ∨ s.obs.freezeAt ≠ none → o = .next (Clause.ends s 0 0))
    ∧ (s.obs.frozen = false → s.obs.freezeAt = none → Clause.endsIn o 0 (fun t => Coming s t 64 .deviceFreeze
      ∧ t.obs = { s.obs with freezeAt := some (s.time + 64) } ∧ SameBytes s t)))
  ∧ (Clause.running s 0x0E .thaw → sget 0 s.host.marg 0 = 1 → Clause.endsIn (exec .thaw s) 0 (fun t => SameBytes s t
      ∧ t.obs = { s.obs with frozen := false, freezeAt := none, heldSnuffs := [] }
      ∧ (∀ x, x ∈ s.obs.heldSnuffs → (s.time, Ev.snuffRun x.1 x.2) ∈ t.agenda)
      ∧ ∀ d e, (d, e) ∈ s.agenda → e ≠ .deviceFreeze →
        ((s.obs.frozen = false ∨ evWhileFrozen e = true ∨ (∃ i, e = .timerMatch i)) → (d, e) ∈ t.agenda)
        ∧ ((s.obs.frozen = true ∧ evWhileFrozen e = false ∧ ∀ i, e ≠ .timerMatch i) → (d + (s.time - s.obs.frozenAt), e) ∈ t.agenda)))
  ∧ (Clause.running s 0x0F .dump →
    let o := exec .dump s
    (2048 ≤ a 0 → o = .next (Clause.ends s 2 0)) ∧ (a 0 < 2048 → shut (a 0) → o = .next (Clause.ends s 3 0))
    ∧ (a 0 < 2048 → ¬ shut (a 0) → s.obs.frozen = false → o = .next (Clause.ends s 1 0))
    ∧ (a 0 < 2048 → ¬ shut (a 0) → s.obs.frozen = true → Becomes o (fun t => t.host.busy = false
      ∧ t.host.mres = BitVec.ofNat 64 (123136 * 256) ∧ cells t.hostMem (a 1) (dumpBytes s (a 0)).length = dumpBytes s (a 0)
      ∧ t.mem = s.mem ∧ t.cores = s.cores)))
  ∧ (Clause.running s 0x10 .trig →
    let o := exec .trig s
    (2048 ≤ a 0 → o = .next (Clause.ends s 2 0)) ∧ (a 0 < 2048 → shut (a 0) → o = .next (Clause.ends s 3 0))
    ∧ (a 0 < 2048 → ¬ shut (a 0) → Clause.endsIn o 0 (fun t => t.cur = s.cur ∧ t.mem = s.mem ∧ (∀ j, j ≠ a 0 → t.core j = s.core j)
      ∧ t.core (a 0) = (trigWrite { s with cur := { s.cur with core := a 0 } } (BitVec.ofNat 64 (a 1))).core (a 0))))
  ∧ (Clause.running s 0x11 .powcap →
    let o := exec .powcap s
    let most := if a 0 < 8 then 181 else 76
    (9 < a 0 ∨ most < a 1 → o = .next (Clause.ends s 2 0))
    ∧ (a 0 ≤ 9 → a 1 ≤ most → Clause.endsIn o 0 (fun t => sfind t.obs.caps (a 0) = some (a 1) ∧ SameBytes s t)))
  ∧ (Clause.running s 0x12 .logread →
    let o := exec .logread s
    let gives := fun (l : List (List Byte)) =>
      (l[a 2]? = none → o = .next (Clause.ends s 2 0))
      ∧ ∀ r, l[a 2]? = some r → Clause.endsIn o 0 (fun t => cells t.hostMem (a 3) r.length = r ∧ t.mem = s.mem ∧ t.cores = s.cores)
    (a 0 = 0 → gives s.fab.log)
    ∧ (∀ e, a 0 = 1 → s.lau.launches.find? (fun l => l.2.lid = a 1 && a 1 ≠ 0) = some e → gives e.2.log)
    ∧ ((1 < a 0 ∨ (a 0 = 1 ∧ ∀ l, l ∈ s.lau.launches → l.2.lid = a 1 → a 1 = 0)) → o = .next (Clause.ends s 2 0)))
  ∧ (Clause.running s 0x13 .glim →
    let o := exec .glim s
    let k := a 0
    let good := 10 ≤ k ∧ k ≤ 24 ∧ a 2 % 65536 = 0 ∧ physBuffer (a 1) (a 2) = true
    (k = 0 → Clause.endsIn o 0 (fun t => t.obs = { s.obs with glimK := 0 } ∧ ∀ d, (d, Ev.glimPulse) ∉ t.agenda))
    ∧ (k ≠ 0 → ¬ good → o = .next (Clause.ends s 2 0))
    ∧ (good → Clause.endsIn o 0 (fun t => t.obs = { s.obs with glimK := k, glimBase := a 1, glimSize := a 2, glimNext := 0 }
      ∧ ((s.time / 2 ^ k + 1) * 2 ^ k, Ev.glimPulse) ∈ t.agenda)))
  ∧ (Clause.running s 0x14 .traceSet →
    let o := exec .traceSet s
    (physBuffer (a 0) (a 1) = false → o = .next (Clause.ends s 2 0))
    ∧ (physBuffer (a 0) (a 1) = true → Clause.endsIn o 0 (fun t => SameBytes s t
      ∧ t.obs = { s.obs with traceBase := a 0, traceSize := a 1, traceNext := 0 })))

/-- A host write to BAR0 from stage A on: a doorbell, HWBASE, an argument, or a command, which sets BUSY and runs next cycle; one to MCMD
or MARGn while BUSY is ignored and counted; an unknown command is BADARG (R335, R338, R339, Table 25.1). The cycle is the model's (log 5). -/
def Clause.RegisterWrites : Prop := ∀ (s : State) (off : Nat) (v : Word), s.cur.ev = .mgmtRegWrite off v →
  let o := exec .mgmtRegWrite s
  let up := s.host.stages.getLsbD 0 = true ∨ s.host.err = 1
  let arg := 0x40 ≤ off ∧ off ≤ 0x58 ∧ off % 8 = 0
  let door := 0x10 ≤ off ∧ off ≤ 0x28 ∧ off % 8 = 0
  (¬ up → o = .next s)
  ∧ (up → door → Becomes o (fun t => (s.time, Ev.lqdbWrite ((off - 0x10) / 8) v.toNat) ∈ t.agenda ∧ t.host = s.host))
  ∧ (up → off = 0x30 → o = .next { s with host := { s.host with hwbase := v &&& ~~~0xFFFF } })
  ∧ (up → ¬ door → off ≠ 0x30 → off ≠ 0x38 → ¬ arg → o = .next s)
  ∧ (up → off = 0x38 ∨ arg → s.host.busy = true → o = .next { s with host := { s.host with ignored := s.host.ignored + 1 } })
  ∧ (up → arg → s.host.busy = false → Becomes o (fun t => SameBytes s t
    ∧ ∀ k, sget 0 t.host.marg k = if k = (off - 0x40) / 8 then v else sget 0 s.host.marg k))
  ∧ (up → off = 0x38 → s.host.busy = false → s.host.err = 1 → v.toNat % 256 ≠ 0x0C → o = .next s)
  ∧ (up → off = 0x38 → s.host.busy = false → (s.host.err ≠ 1 ∨ v.toNat % 256 = 0x0C) →
    (∀ e, mgmtEv s (v.toNat % 256) = some e → Becomes o (fun t => t.host = { s.host with mcmd := v.setWidth 8, busy := true } ∧ Coming s t 1 e))
    ∧ (mgmtEv s (v.toNat % 256) = none → o = .next (Clause.ends { s with host := { s.host with mcmd := v.setWidth 8 } } 2 0)))

/-- The management interface: register writes and every command of Table 25.2. -/
def Obligations.ManagementCommands : Prop := Clause.RegisterWrites ∧ Clause.SpaceCommands ∧ Clause.DeviceCommands ∧ Clause.WatchCommands


/-! ### Power, start-up, observation, soft errors -/

/-- The state after power-good: nothing but the host's memory and what was due stays, MR0 to MR3 are extended once from 0, and the stages lie ahead
at their bounds, in which the model has them complete (log 1); a refused image leaves ERR 1 and no stage (R11, R351, R352, R357). -/
def Clause.StartUp : Prop := ∀ (s : State) (d : Nat) (good : Bool),
  (s.cur.ev = .powerGood → s.time = 0 → s.host.stages = 0 →
    let o := exec .powerGood s
    (Config.configImageOk = true → Becomes o (fun t => t.powered = true ∧ t.time = 0 ∧ t.cores = [] ∧ t.mem = [] ∧ t.hostMem = s.hostMem
      ∧ t.host.err = 0 ∧ t.host.stages = 0 ∧ (∀ k, k < 4 → sfind t.host.mr k = some (extendMr 0 (Config.imageDigest k)))
      ∧ (36000000, Ev.stageAComplete) ∈ t.agenda ∧ (3600000000, Ev.stageCComplete) ∈ t.agenda
      ∧ (∀ c, c < 8 → (1440000000, Ev.cDieAnnounce c true) ∈ t.agenda) ∧ ∀ c, c < 10 → (65536, Ev.powerWindowEnd c) ∈ t.agenda))
    ∧ (Config.configImageOk = false → Becomes o (fun t => t.powered = true ∧ t.cores = [] ∧ t.mem = [] ∧ t.host.err = 1 ∧ t.host.stages = 0
      ∧ t.agenda = s.agenda)))
  ∧ (s.cur.ev = .stageAComplete → s.host.err = 0 → Becomes (exec .stageAComplete s) (fun t =>
      t = { s with host := { s.host with stages := s.host.stages ||| 1 } }))
  ∧ (s.cur.ev = .cDieAnnounce d good → d ≤ 7 → s.host.err = 0 → s.lau.launches = [] →
    let b := BitVec.ofNat 8 (2 ^ d)
    Becomes (exec .cDieAnnounce s) (fun t => SameBytes s t
      ∧ t.host.announced = (if good then s.host.announced ||| b else s.host.announced)
      ∧ t.host.failed = (if good then s.host.failed else s.host.failed ||| b)
      ∧ t.host.stages = (if s.host.announced ||| s.host.failed ||| b = 0xFF then s.host.stages ||| 2 else s.host.stages)
      ∧ ∀ p, p < 4 → (s.time, Ev.launchStart p) ∈ t.agenda))
  ∧ (s.cur.ev = .stageCComplete → s.host.err = 0 → Becomes (exec .stageCComplete s) (fun t => SameBytes s t
      ∧ t.host = { s.host with stages := s.host.stages ||| 4 }
      ∧ (∀ q, q < 18 → (s.port q).up = false → t.port q = { s.port q with retrain := some s.time } ∧ Coming s t 2400000 (.linkDown q))
      ∧ (∀ q, (s.port q).up = true → t.port q = s.port q) ∧ ∀ p, p < 4 → (s.time, Ev.launchStart p) ∈ t.agenda))
  ∧ (s.cur.ev = .powerRemoved → Becomes (exec .powerRemoved s) (fun t => t.powered = false ∧ t.time = 0 ∧ t.cores = [] ∧ t.mem = []
      ∧ t.hostMem = s.hostMem ∧ t.lau = State.dark.lau ∧ t.host = { State.dark.host with signs := s.host.signs }))

/-- At the end of a power window a die above its cap throttles one level more, up to 7, and one below nine tenths of it one less (R359). A freeze
stops every agent as it stands (R361). A glim pulse comes every 2^k cycles; each announced C-die's record is written whole where the
buffer has room, else dropped and counted (R363). -/
def Clause.Watching : Prop := ∀ (s : State) (d : Nat),
  (s.cur.ev = .powerWindowEnd d →
    let cap := (sfind s.obs.caps d).getD (if d < 8 then 181 else 76)
    let w := Config.dieWatts d (s.time / 65536)
    let l := sget 0 s.obs.levels d
    Becomes (exec .powerWindowEnd s) (fun t => SameBytes s t ∧ t.cores = s.cores ∧ Coming s t 65536 (.powerWindowEnd d)
      ∧ ∀ e, sget 0 t.obs.levels e = if e = d then (if w > cap then min 7 (l + 1) else if 10 * w < 9 * cap then l - 1 else l)
        else sget 0 s.obs.levels e))
  ∧ (s.cur.ev = .deviceFreeze → Becomes (exec .deviceFreeze s) (fun t => t.obs.frozen = true ∧ t.cores = s.cores ∧ t.mem = s.mem
      ∧ t.agenda = s.agenda ∧ (s.obs.frozen = false → t.obs.frozenAt = s.time ∧ t.obs.freezeAt = none)))
  ∧ (s.cur.ev = .glimPulse → s.obs.glimK ≠ 0 →
    let o := exec .glimPulse s
    let r := glimRecord s d
    (Becomes o (fun t => Coming s t (2 ^ s.obs.glimK) .glimPulse ∧ t.obs.glimK = s.obs.glimK))
    ∧ (s.obs.frozen = true → Becomes o (fun t => t = { s with agenda := t.agenda }))
    ∧ (s.obs.frozen = false → d < 8 → s.host.announced = BitVec.ofNat 8 (2 ^ d) →
      (s.obs.glimSize < s.obs.glimNext + r.length → Becomes o (fun t => SameBytes s t ∧ t.cores = s.cores
        ∧ t.obs = { s.obs with glimDropped := s.obs.glimDropped + 1 }))
      ∧ (s.obs.glimNext + r.length ≤ s.obs.glimSize → regionOf (s.obs.glimBase + s.obs.glimNext) = .dram → s.coh.rdc = [] →
        Becomes o (fun t => t.obs = { s.obs with glimNext := s.obs.glimNext + r.length, glimWritten := s.obs.glimWritten + 1 }
          ∧ cells t.mem (s.obs.glimBase + s.obs.glimNext) r.length = r))))

/-- A soft error inverts bits where it strikes: of a protected word one bit is corrected and two make the word uncorrectable, of a line the
bits wait for the next check, and those of a lane's latch stay (R317–R319, R330). -/
def Clause.SoftErrors : Prop := ∀ (s : State) (i p w b c : Nat) (bits : List Nat),
  let o := exec .softError s
  (s.cur.ev = .softError (.latchBits i p [b]) → b < 512 → Becomes o (fun t => (∀ j, j ≠ i → t.core j = s.core j)
    ∧ t.phys i p = s.phys i p ^^^ BitVec.ofNat 512 (2 ^ b) ∧ (∀ q, q ≠ p → t.phys i q = s.phys i q) ∧ (t.core i).vBad = (s.core i).vBad))
  ∧ (s.cur.ev = .softError (.regFile i p w [b]) → o = .next s)
  ∧ (s.cur.ev = .softError (.regFile i p w [b, c]) → b < 64 → c < 64 → b ≠ c → w < 8 → Becomes o (fun t => (∀ j, j ≠ i → t.core j = s.core j)
    ∧ t.phys i p = s.phys i p ^^^ BitVec.ofNat 512 (2 ^ (64 * w + b) + 2 ^ (64 * w + c)) ∧ (p * 8 + w) ∈ (t.core i).vBad))
  ∧ (s.cur.ev = .softError (.localStore i p [b]) → (∀ e, e ∈ (s.core i).lsLatent → e.1 ≠ p / 8 * 8) → Becomes o (fun t => SameBytes s t
    ∧ (t.core i).lsBad = (s.core i).lsBad ∧ (p / 8 * 8, b) ∈ (t.core i).lsLatent))
  ∧ (s.cur.ev = .softError (.localStore i p [b, c]) → b ≠ c → (∀ e, e ∈ (s.core i).lsLatent → e.1 ≠ p / 8 * 8) → Becomes o (fun t =>
    (p / 8 * 8) ∈ (t.core i).lsBad ∧ ∀ a, ¬ (p / 8 * 8 ≤ a ∧ a < p / 8 * 8 + 8) → t.lsByte i a = s.lsByte i a))
  ∧ (s.cur.ev = .softError (.line p bits) → sfind s.coh.latent p = none → bits ≠ [] → Becomes o (fun t => SameBytes s t ∧ t.cores = s.cores
    ∧ sfind t.coh.latent p = some bits ∧ ∀ l, l ≠ p → sfind t.coh.latent l = sfind s.coh.latent l))
  ∧ (s.cur.ev = .softError (.accumulator i w [b]) ∨ s.cur.ev = .softError (.blockBuffer i c w [b]) ∨ s.cur.ev = .softError (.queueElem i c w [b]) →
    o = .next s)

/-- Power, start-up, freezing, the glim and soft errors (R11, R317–R319, R330, R351, R352, R357–R359, R361, R363). -/
def Obligations.PowerSteps : Prop := Clause.StartUp ∧ Clause.Watching ∧ Clause.SoftErrors


/-! ### Tile commands -/

/-- The engine of this step starts job `j`, which is `x`: it runs alone in its cluster, and no word it may meet has an uncorrectable
error. -/
def Clause.Begins (s : State) (j : Nat) (x : Job) : Prop :=
  s.cur.job = j ∧ s.job j = some x ∧ x.st.terminal = false ∧ x.descs = [] ∧ x.progress = 0 ∧ x.tmp = [] ∧ x.gang = [] ∧ x.reports = 0
    ∧ (s.core x.core).lsBad = [] ∧ ∀ k, (s.cluster k).accBad = []
/-- The descriptor a field names keeps R80 and lies, with its operand, in the local store. -/
def Clause.opnd (s : State) (x : Job) (fld : BitVec 10) (d : Desc) : Prop :=
  fld.toNat * 128 + 128 ≤ 98304 ∧ parseDesc (s.descWords x.core (fld.toNat * 128)) = some d ∧ d.loc = true ∧ d.inside = true
    ∧ (d.mx = true → d.ext 0 % 32 = 0) ∧ (d.bm = true → d.ndim = 2 ∧ d.stride 1 = 0)
/-- A dense operand without scales, of one dimension. -/
def Clause.vec (s : State) (x : Job) (fld : BitVec 10) (d : Desc) : Prop := Clause.opnd s x fld d ∧ d.mx = false ∧ d.bm = false ∧ d.ndim = 1
/-- A dense operand without scales, of two dimensions. -/
def Clause.mat (s : State) (x : Job) (fld : BitVec 10) (d : Desc) : Prop := Clause.opnd s x fld d ∧ d.mx = false ∧ d.bm = false ∧ d.ndim = 2
/-- Element `p` of an operand in core `i`'s local store, unswizzled (R80, R91). -/
def Clause.elAt (s : State) (i : Nat) (d : Desc) (p : Nat) : Nat :=
  let a := d.at 0 p
  (lsNum s i a.1.toNat ((d.fmt.width + 7) / 8) >>> (4 * a.2)) % 2 ^ d.fmt.width
/-- Scale code of element `p`: 2^0 without scales (R92). -/
def Clause.scaleAt (s : State) (i : Nat) (d : Desc) (p : Nat) : Nat := if d.mx = true then lsNum s i (d.scaleAt p).toNat 1 else 0x7F
/-- Two byte ranges have nothing in common. -/
def Clause.apart (a n b m : Nat) : Prop := a + n ≤ b ∨ b + m ≤ a
/-- The bytes of a row of `d` from element `p` on. -/
def Clause.row (d : Desc) (p : Nat) : Nat := (d.at 0 p).1.toNat
/-- Job `j` has done its work with PROGRESS `n`, and ends after `T` cycles of it (R359). -/
def Clause.Ending (s t : State) (j : Nat) (x : Job) (n T : Nat) : Prop :=
  ∃ y, t.job j = some y ∧ y.st = .running ∧ y.code = x.code ∧ y.progress = n
    ∧ (s.time + s.stretch x.powerDie T, Ev.jobTerminal j) ∈ t.agenda
/-- Outside a range of the local store of core `i`, no byte of memory has changed. -/
def Clause.within (s t : State) (i a n : Nat) : Prop :=
  (∀ p, t.byteAt p = s.byteAt p) ∧ (∀ p, sget 0 t.hostMem p = sget 0 s.hostMem p)
    ∧ ∀ k p, ¬ (k = i ∧ a ≤ p ∧ p < a + n) → t.lsByte k p = s.lsByte k p
/-- `o` is a next state, in which job `j` ends at once with a code, and no byte has changed. -/
def Clause.Rejects (s : State) (o : Out) (j code : Nat) : Prop :=
  Becomes o (fun t => (∃ y, t.job j = some y ∧ y.code = code) ∧ (s.time, Ev.jobTerminal j) ∈ t.agenda ∧ SameBytes s t)

/-- Elements of row `ra` of A and row `rb` of B, pair by pair along k (R104). -/
def Clause.pairs (s : State) (i : Nat) (a b : Desc) (ra rb : Nat) : List (Fv × Fv) :=
  (List.range (a.ext 0)).map (fun k => (codeVal a.fmt (Clause.elAt s i a (ra * a.ext 0 + k)), codeVal b.fmt (Clause.elAt s i b (rb * b.ext 0 + k))))
/-- A product of one block and one column tile leaves in accumulator (row, col) what `f` says, and zero or what was there beyond it. -/
def Clause.Product (s : State) (o : Out) (j : Nat) (x : Job) (c : TileCmd) (rows cols T : Nat) (f : Nat → Nat → Nat → Nat) : Prop :=
  let c0 := c.acb.toNat * 128
  let n := 128 * (c.acn.toNat + 1)
  let old := fun (row col : Nat) => if c.cf = 1 ∧ c0 ≤ col ∧ col < c0 + n then 0 else s.accAt x.cluster row col
  Becomes o (fun t => SameBytes s t ∧ Clause.Ending s t j x 1 T
    ∧ ∀ row col, row < 128 → col < 1024 → t.accAt x.cluster row col =
        if row < rows ∧ c0 ≤ col ∧ col < c0 + cols then f row (col - c0) (old row col) % 2 ^ 32 else old row col)

/-- MMA and MMA.MX on one block of k and one tile of columns: each accumulator takes the rounded sum of its row's products under the two
scales, exact and clamped for integers, after a zeroing where CF is 1 (R104, R105, R233–R236). MMA.GA takes its rows of A by the index
list (R237). MMA.BM takes only present leaves: here the one leaf at the origin, or none (R93, R236). -/
def Clause.Products : Prop := ∀ (s : State) (j : Nat) (x : Job) (c : TileCmd) (a b : Desc) (fam : Nat),
  Clause.Begins s j x → c.acb.toNat + c.acn.toNat + 1 ≤ 8 → c.cf.toNat ≤ 1 →
  Clause.opnd s x c.d1 b → b.bm = false → b.ndim = 2 → b.ext 1 ≤ 128 →
  mmFamily a.fmt = some fam → mmFamily b.fmt = some fam → a.ext 0 = b.ext 0 → a.ext 0 ≤ 32 →
  let i := x.core
  let T := mmCycles fam 32 + 24
  let upd := fun (old : Nat) (ps : List (Fv × Fv)) (sa sb : Nat) => if fam = 3 then (intBlock old ps).code else (fpBlock old ps sa sb).code
  let sums := fun (ra rb old : Nat) =>
    upd old (Clause.pairs s i a b ra rb) (Clause.scaleAt s i a (ra * a.ext 0)) (Clause.scaleAt s i b (rb * b.ext 0))
  (Clause.opnd s x c.d0 a → a.bm = false → a.ndim = 2 → a.ext 1 ≤ 128 →
    (a.mx = false → b.mx = false → Clause.Product s (exec (.mma c) s) j x c (a.ext 1) (b.ext 1) T (fun r k old => sums r k old))
    ∧ (a.mx = true → b.mx = true → Clause.Product s (exec (.mmaMx c) s) j x c (a.ext 1) (b.ext 1) T (fun r k old => sums r k old)))
  ∧ (∀ d, Clause.opnd s x c.d0 a → a.bm = false → a.ndim = 2 → a.mx = b.mx → Clause.vec s x c.d2 d → d.fmt = .n32 → d.ext 0 ≤ 128 →
    (∀ r, r < d.ext 0 → Clause.elAt s i d r < a.ext 1) →
    Clause.Product s (exec (.mmaGa c) s) j x c (d.ext 0) (b.ext 1) (T + 28) (fun r k old => sums (Clause.elAt s i d r) k old))
  ∧ (Clause.opnd s x c.d0 a → a.bm = true → b.mx = false → a.ext 1 ≤ 16 → a.ext 0 ≤ 16 → a.levels = 2 →
    let node := fun (k : Nat) => lsNum s i (a.sbase + 8 * k) 8
    let leaf := fun (r k : Nat) =>
      codeVal a.fmt ((lsNum s i (a.base + (16 * r + k) * a.fmt.width / 8) ((a.fmt.width + 7) / 8) >>> (4 * ((16 * r + k) * a.fmt.width % 8 / 4)))
        % 2 ^ a.fmt.width)
    (a.sbase + 8 ≤ 98304 → node 0 = 0 →
      Clause.Product s (exec (.mmaBm c) s) j x c (a.ext 1) (b.ext 1) (mmCycles fam 0 + 24) (fun _ _ old => old))
    ∧ (a.sbase + 16 ≤ 98304 → a.base + 32 * a.fmt.width ≤ 98304 → node 0 = 1 → node 1 = 1 →
      Clause.Product s (exec (.mmaBm c) s) j x c (a.ext 1) (b.ext 1) (mmCycles fam 16 + 24) (fun r k old =>
        upd old ((List.range (a.ext 0)).map (fun m => (leaf r m, codeVal b.fmt (Clause.elAt s i b (k * b.ext 0 + m))))) 0x7F 0x7F)))

/-- ACC.ZERO zeroes its columns in every row; ACC.LOAD and ACC.STORE move f32 words between a matrix and the accumulators; TOPK.BLK writes the
greatest words of each block of columns and their column numbers (R241, R242). -/
def Clause.Accumulators : Prop := ∀ (s : State) (j : Nat) (x : Job) (c : TileCmd), Clause.Begins s j x → c.acb.toNat + c.acn.toNat + 1 ≤ 8 →
  let i := x.core
  let k := x.cluster
  let c0 := c.acb.toNat * 128
  let n := 128 * (c.acn.toNat + 1)
  Becomes (exec (.accZero c) s) (fun t => SameBytes s t ∧ Clause.Ending s t j x 0 (2 + (c.acn.toNat + 1))
    ∧ ∀ row col, row < 128 → col < 1024 → t.accAt k row col = if c0 ≤ col ∧ col < c0 + n then 0 else s.accAt k row col)
  ∧ (∀ d, Clause.mat s x c.d0 d → d.fmt = .f32 → d.ext 0 ≤ n → d.ext 1 ≤ 128 →
    Becomes (exec (.accLoad c) s) (fun t => SameBytes s t ∧ Clause.Ending s t j x (d.ext 1) (24 + (4 * d.ext 1 * d.ext 0 + 255) / 256)
      ∧ ∀ row col, row < 128 → col < 1024 → t.accAt k row col =
          if row < d.ext 1 ∧ c0 ≤ col ∧ col < c0 + d.ext 0 then Clause.elAt s i d (row * d.ext 0 + (col - c0)) else s.accAt k row col)
    ∧ (c.cf = 0 → c.swz = 0 → (4 * d.ext 0 : Int) ≤ d.stride 1 →
      Becomes (exec (.accStore c) s) (fun t => (∀ q, t.cluster q = s.cluster q)
        ∧ Clause.Ending s t j x (d.ext 1) (24 + (4 * d.ext 1 * d.ext 0 + 255) / 256)
        ∧ ∀ row col, row < d.ext 1 → col < d.ext 0 → Clause.elAt t i d (row * d.ext 0 + col) = s.accAt k row (c0 + col))))
  ∧ (∀ dv di, let kk := c.arg.toNat % 16 + 1
      let w := 32 * 2 ^ (c.arg.toNat / 16 % 8)
    c.arg.toNat < 128 → n % w = 0 → c.cf.toNat ≤ 1 → Clause.mat s x c.d0 dv → Clause.mat s x c.d1 di →
    dv.fmt = (if c.cf = 1 then .i32 else .f32) → di.fmt = .n32 → dv.ext 1 = 1 → di.ext 1 = 1 → dv.ext 0 = kk * (n / w) → di.ext 0 = kk * (n / w) →
    Clause.apart dv.base (4 * dv.ext 0) di.base (4 * di.ext 0) →
    Becomes (exec (.topkBlk c) s) (fun t => Clause.Ending s t j x 1 (24 + n / 8 + kk)
      ∧ ∀ b q, b < n / w → q < kk →
        let best := topOf (c.cf = 1) kk ((List.range w).map (fun m => (b * w + m, s.accAt k 0 (c0 + b * w + m))))
        Clause.elAt t i dv (b * kk + q) = (best.getD q (0, 0)).2 ∧ Clause.elAt t i di (b * kk + q) = (best.getD q (0, 0)).1))

/-- A command whose descriptor D0 breaks R80 is BADDESC (R80, R228). -/
def Clause.BadDescriptors : Prop := ∀ (s : State) (j : Nat) (x : Job) (c : TileCmd) (i : Instr), Clause.Begins s j x →
  i ∈ [.mma c, .mmaMx c, .mmaBm c, .mmaGa c, .accLoad c, .accStore c, .topkBlk c, .copy c, .copyRows c, .scatRows c, .copyPeer c, .bmPack c
    , .bmUnpack c, .fill c, .hash c, .collScale c, .collRs c, .collAg c] →
  (98304 < c.d0.toNat * 128 + 128 ∨ parseDesc (s.descWords x.core (c.d0.toNat * 128)) = none) → Clause.Rejects s (exec i s) j 1

/-- The matrix engine's commands (R104, R105, R233–R237, R240–R242). -/
def Obligations.TileCompute : Prop := Clause.Products ∧ Clause.Accumulators ∧ Clause.BadDescriptors

/-- COPY moves or converts element by element; COPY.ROWS and SCAT.ROWS move a row under an index, a bad one counting in NBAD with BADINDEX and,
for COPY.ROWS, a row of zeros; FILL writes its value; SIGNAL its word; HASH the SHA-384 of its operand (R246, R247, R250–R252). Operands here
lie in the local store; an engine with no line to request takes 26 cycles (log 5). -/
def Clause.Moves : Prop := ∀ (s : State) (j : Nat) (x : Job) (c : TileCmd) (a b : Desc), Clause.Begins s j x →
  let i := x.core
  let bad := fun (t : State) => ∃ y, t.job j = some y ∧ y.nbad = x.nbad + 1 ∧ y.flags.testBit 5 = true
  (Clause.vec s x c.d0 a → Clause.vec s x c.d1 b → a.ext 0 = b.ext 0 → c.swz = 0 → c.cf = 0 → c.arg = 0 →
    Clause.apart a.base (a.bytesOf (a.ext 0)) b.base (b.bytesOf (b.ext 0)) →
    Becomes (exec (.copy c) s) (fun t => Clause.Ending s t j x (a.ext 0) 26 ∧ Clause.within s t i b.base (b.bytesOf (b.ext 0))
      ∧ ∀ p, p < a.ext 0 → Clause.elAt t i b p =
          if a.fmt = b.fmt then Clause.elAt s i a p else (convert a.fmt b.fmt .rne false 0 (Clause.elAt s i a p)).code % 2 ^ b.fmt.width))
  ∧ (∀ d, Clause.mat s x c.d0 a → Clause.mat s x c.d1 b → Clause.vec s x c.d2 d → d.fmt = .n32 → a.fmt = b.fmt → a.ext 0 = b.ext 0 →
    c.swz = 0 → c.cf = 0 → c.arg = 0 →
    let v := Clause.elAt s i d 0
    let n := a.ext 0
    (v < a.ext 1 → Clause.apart (Clause.row a (v * n)) (a.bytesOf n) (Clause.row b 0) (b.bytesOf n) →
      Becomes (exec (.copyRows c) s) (fun t => Clause.Ending s t j x 1 26 ∧ Clause.within s t i (Clause.row b 0) (b.bytesOf n)
        ∧ ∀ p, p < n → Clause.elAt t i b p = Clause.elAt s i a (v * n + p)))
    ∧ (a.ext 1 ≤ v → Becomes (exec (.copyRows c) s) (fun t => Clause.Ending s t j x 1 26 ∧ bad t ∧ Clause.within s t i (Clause.row b 0) (b.bytesOf n)
        ∧ ∀ p, p < n → Clause.elAt t i b p = 0))
    ∧ (v < b.ext 1 → Clause.apart (Clause.row a 0) (a.bytesOf n) (Clause.row b (v * n)) (b.bytesOf n) →
      Becomes (exec (.scatRows c) s) (fun t => Clause.Ending s t j x 1 26 ∧ Clause.within s t i (Clause.row b (v * n)) (b.bytesOf n)
        ∧ ∀ p, p < n → Clause.elAt t i b (v * n + p) = Clause.elAt s i a p))
    ∧ (b.ext 1 ≤ v → Becomes (exec (.scatRows c) s) (fun t => Clause.Ending s t j x 1 26 ∧ bad t ∧ SameBytes s t)))
  ∧ (Clause.vec s x c.d0 a → c.swz = 0 →
    (c.arg.toNat < 2 ^ a.fmt.width → Becomes (exec (.fill c) s) (fun t => Clause.Ending s t j x (a.ext 0) 26
      ∧ Clause.within s t i a.base (a.bytesOf (a.ext 0)) ∧ ∀ p, p < a.ext 0 → Clause.elAt t i a p = c.arg.toNat))
    ∧ (2 ^ a.fmt.width ≤ c.arg.toNat → Clause.Rejects s (exec (.fill c) s) j 7))
  ∧ (let base := (lsNum s i (c.d0.toNat * 128) 8) % 2 ^ 48
    c.d0.toNat * 128 < 98304 → (lsNum s i (c.d0.toNat * 128 + 8) 8).testBit 4 = true →
    (c.cf = 0 → base % 8 = 0 → base + 8 ≤ 98304 → Becomes (exec (.signal c) s) (fun t => Clause.Ending s t j x 1 26
      ∧ Clause.within s t i base 8 ∧ cells (t.core i).ls base 8 = leBytes 8 c.arg.toNat))
    ∧ (∀ k l, c.cf = 1 → base % 64 = 0 → base + 64 ≤ 98304 → (s.core i).gat.run = none → l.word 19 = 0 → l.log.length < 2 ^ 24 →
      s.lau.launches.find? (fun e => e.2.lid = x.lid && e.2.st.holds) = some (k, l) →
      let ps := (s.core i).dig
      let h := sha384 (ps.flatMap (fun p => leBytes 8 p.1.toNat ++ leBytes 8 p.2.toNat))
      Becomes (exec (.signal c) s) (fun t => Clause.Ending s t j x 1 106 ∧ Clause.within s t i base 64
        ∧ cells (t.core i).ls base 64 = leBytes 8 c.arg.toNat ++ h ++ leBytes 8 0 ∧ (t.core i).dig = [] ∧ (t.core i).digNo = (s.core i).digNo + 1
        ∧ sfind t.lau.launches k = some { l with log := l.log ++
            [leBytes 8 c.arg.toNat ++ h ++ leBytes 4 ps.length ++ leBytes 4 (i + ((s.core i).digNo + 1) * 2048)] })))
  ∧ (let base := (lsNum s i (c.d1.toNat * 128) 8) % 2 ^ 48
    let bytes := packBytes a.fmt.width ((List.range (a.ext 0)).map (Clause.elAt s i a))
    Clause.vec s x c.d0 a → c.d1.toNat * 128 < 98304 → (lsNum s i (c.d1.toNat * 128 + 8) 8).testBit 4 = true → base % 64 = 0 → base + 48 ≤ 98304 →
    Becomes (exec (.hash c) s) (fun t => Clause.Ending s t j x 1 (26 + 80 * ((bytes.length + 17 + 127) / 128))
      ∧ Clause.within s t i base 48 ∧ cells (t.core i).ls base 48 = sha384 bytes))

/-- BM.PACK and BM.UNPACK on a matrix of at most 16 × 16 elements: one leaf, or none (R93, R249). -/
def Clause.Bitmaps : Prop := ∀ (s : State) (j : Nat) (x : Job) (c : TileCmd) (a b : Desc), Clause.Begins s j x →
  let i := x.core
  let w := a.fmt.width
  let n0 := a.ext 0
  let leafOf := fun (t : State) (d : Desc) (k : Nat) =>
    (lsNum t i (d.base + k * w / 8) ((w + 7) / 8) >>> (4 * (k * w % 8 / 4))) % 2 ^ w
  let node := fun (t : State) (d : Desc) (k : Nat) => lsNum t i (d.sbase + 8 * k) 8
  Clause.opnd s x c.d0 a → Clause.opnd s x c.d1 b → a.fmt = b.fmt → a.ext 0 = b.ext 0 → a.ext 1 = b.ext 1 → a.ext 0 ≤ 16 → a.ext 1 ≤ 16 →
  a.mx = false → b.mx = false → a.ndim = 2 → b.ndim = 2 →
  (a.bm = false → b.bm = true → b.levels = 2 → c.cf.toNat ≤ 1 → 2 ≤ c.arg.toNat / 2 ^ 32 → 4 * w ≤ c.arg.toNat % 2 ^ 32 →
    b.sbase + 16 ≤ 98304 → b.base + 32 * w ≤ 98304 → Clause.apart b.sbase 16 b.base (32 * w) →
    (∀ r, r < a.ext 1 → Clause.apart (Clause.row a (r * n0)) (a.bytesOf n0) b.sbase 16
      ∧ Clause.apart (Clause.row a (r * n0)) (a.bytesOf n0) b.base (32 * w)) →
    let full := c.cf = 1 ∨ ∃ p, p < a.ext 1 * n0 ∧ zeroEl a.fmt (Clause.elAt s i a p) = false
    (¬ full → Becomes (exec (.bmPack c) s) (fun t => Clause.Ending s t j x 0 26 ∧ node t b 0 = 0 ∧ Clause.within s t i b.sbase 8))
    ∧ (full → Becomes (exec (.bmPack c) s) (fun t => Clause.Ending s t j x 1 26 ∧ node t b 0 = 1 ∧ node t b 1 = 1
      ∧ ∀ r q, r < 16 → q < 16 → leafOf t b (16 * r + q) = if r < a.ext 1 ∧ q < n0 then Clause.elAt s i a (r * n0 + q) else 0)))
  ∧ (a.bm = true → b.bm = false → a.levels = 2 → c.arg.toNat < 2 ^ w → b.ext 1 = 1 →
    (a.sbase + 8 ≤ 98304 → node s a 0 = 0 → Becomes (exec (.bmUnpack c) s) (fun t => Clause.Ending s t j x n0 26
      ∧ Clause.within s t i b.base (b.bytesOf n0) ∧ ∀ p, p < n0 → Clause.elAt t i b p = c.arg.toNat))
    ∧ (a.sbase + 16 ≤ 98304 → a.base + 32 * w ≤ 98304 → node s a 0 = 1 → node s a 1 = 1 → Clause.apart a.base (32 * w) b.base (b.bytesOf n0) →
      Becomes (exec (.bmUnpack c) s) (fun t => Clause.Ending s t j x n0 26 ∧ Clause.within s t i b.base (b.bytesOf n0)
        ∧ ∀ p, p < n0 → Clause.elAt t i b p = leafOf s a p)))

/-- COPY.PEER sends a run of the local store to a peer window as one posted store; the job waits for its acknowledgement (R248, R334). A
collective sends its first shard to the next rank, and waits (R348–R350). -/
def Clause.Exchanges : Prop := ∀ (s : State) (j : Nat) (x : Job) (c : TileCmd) (a b : Desc), Clause.Begins s j x →
  let u := kickJobs (s.setJob j { x with
    cmd := c, st := .running, ranges := [], descs := [c.d0, c.d1, c.d2].map (fun d => s.descWords x.core (d.toNat * 128)) })
  let agent := if 0x40 ≤ x.op then 65792 + x.cluster else 65536 + x.cluster
  (∀ v m l q, Clause.vec s x c.d0 a → a.fmt.width = 8 → c.d1.toNat * 128 + 128 ≤ 98304 → parseDesc (s.descWords x.core (c.d1.toNat * 128)) = some b →
    b.loc = false → b.mx = false → b.bm = false → b.ndim = 1 → b.fmt = a.fmt → a.ext 0 = b.ext 0 → b.base % 64 + a.ext 0 ≤ 64 →
    u.translate (x.place / 32) (sliceIdx b.base) (u.asidOf x.core) b.base { r := false, w := true, hv := false } = (v, m, .ok l) →
    regionOf (l.pa b.base) = .peer q → v.peerUp q ≠ none → v.peerDown q = false →
    let key := flowKey agent q
    Becomes (exec (.copyPeer c) s) (fun t => (∃ y, t.job j = some y ∧ y.st = .running ∧ y.tmp ≠ [])
      ∧ ∃ f p, sfind t.fab.flows key = some f ∧ p ∈ f.pkts ∧ p.job = some j
        ∧ p.op = .store ((l.pa b.base - 2 ^ 42) % 2 ^ 36) ((List.range (a.ext 0)).map (fun k => s.lsByte x.core (a.base + k)))))
  ∧ (∀ k i d0 d1 d2 g r h e1 ws,
    (k, i) ∈ [(Coll.scale, Instr.collScale c), (Coll.rs, Instr.collRs c), (Coll.ag, Instr.collAg c)] →
    let desc := fun (f : BitVec 10) => if f.toNat * 128 + 128 ≤ 98304 then parseDesc (s.descWords x.core (f.toNat * 128)) else none
    desc c.d0 = some d0 → desc (if k = .scale then c.d0 else c.d1) = some d1 → desc c.d2 = some d2 →
    (∀ d, d = d0 ∨ d = d1 → d.fmt = .f32 ∧ d.ndim = 1 ∧ d.loc = false ∧ d.bm = false ∧ d.mx = false) →
    d2.fmt = .e8m0 → d2.mx = false → d2.bm = false → d2.loc = false →
    (u.launchOf x.core).bind (fun l => sfind l.groups c.gid.toNat) = some g → g.root = x.core → ringArg u c = some r →
    d0.ext 0 = (if k = .ag then r.nel / r.p else r.nel) → d1.ext 0 = (match k with | .rs => r.nel / r.p | _ => r.nel) → d2.count = r.nel / 32 →
    sfind s.fab.rings r.ring = some h → s.peerDown (64 + h.nextPort) = false → s.peerDown (64 + h.prevPort) = false → s.fab.ringIn = [] → 0 < r.nel →
    let y := { x with
      cmd := c, st := .running, ranges := [], descs := [c.d0, c.d1, c.d2].map (fun d => s.descWords x.core (d.toNat * 128)), gang := g.members }
    collBegin k r d0 d2 { s := u, j := j, x := y, halt := none, late := 0, far := 0, lines := 0, rd := none, wr := none, dry := false } = (e1, ws) →
    e1.halt = none →
    let n := k.per * r.nb
    let mine := k.sends r 1
    Becomes (exec i s) (fun t => (∃ y, t.job j = some y ∧ y.st = .running ∧ y.tmp = ws ∧ y.gang = g.members)
      ∧ ∃ f p, sfind t.fab.flows (flowKey agent (64 + h.nextPort)) = some f ∧ p ∈ f.pkts ∧ p.job = some j
        ∧ p.op = .ring r.ring r.rank 1 (r.nb * mine) (match k with | .rs => ws | _ => (ws.drop (n * mine)).take n)))

/-- The copy engine's commands and the collectives' first step (R246–R252, R267, R348–R350). -/
def Obligations.TileCopy : Prop := Clause.Moves ∧ Clause.Bitmaps ∧ Clause.Exchanges

/-! ### The machine as a whole -/

/-- At reset the module has power, TIME is 0, nothing runs and nothing but the stages from power-good on lies ahead; no space, launch or job
exists, every link is down, memory lists nothing, and every core and context holds what Table 3.1 and Tables 5.2 to 5.7 state (R11, R28,
R63, R64, R96, R357); where the spec states no value the value is the model's choice (log 1). -/
def Clause.ResetState : Prop :=
  State.reset.powered = true ∧ State.reset.time = 0 ∧ State.reset.agenda = [(0, .powerGood)] ∧ State.reset.todo = []
  ∧ State.reset.reqs = [] ∧ State.reset.jobs.list = [] ∧ State.reset.lau.launches = [] ∧ State.reset.lau.spaces = []
  ∧ State.reset.fab.ports = [] ∧ State.reset.host.stages = 0 ∧ State.reset.host.busy = false ∧ State.reset.host.mres = 0
  ∧ (∀ a, State.reset.byteAt a = 0)
  ∧ ∀ i, i < 2048 → let k := State.reset.core i
    k.mode = 0 ∧ k.timecmp = 0xFFFFFFFFFFFFFFFF ∧ k.evmask = 0 ∧ k.evpend = 0 ∧ k.faultq = [] ∧ k.glimctl = 0 ∧ k.pair.on = false
    ∧ (∀ r, sget 0 k.v r = 0) ∧ (∀ a, State.reset.lsByte i a = 0) ∧ k.ct.started = false ∧ k.ct.priv = .machine
    ∧ ∀ c, c < 16 → let x := State.reset.cx i c
      x.st = .empty ∧ x.seed = 0x9E3779B9#32 ^^^ BitVec.ofNat 32 (i * 16 + c) ∧ x.flags = 0 ∧ x.rmode = 0 ∧ x.txstat = 0 ∧ x.latch = 0
      ∧ x.txn = none ∧ (∀ r, x.rs r = 0) ∧ (∀ r, x.rm r = if r = 0 then BitVec.allOnes 256 else 0)

/-- The memory invariant holds at reset, and at reset the machine is as the spec leaves it; the byte that an unlisted address reads as is the
model's choice (log 3). -/
def Obligations.ResetState : Prop := Clause.ResetState ∧ MemInv State.reset

/-- Every step keeps the canonical form of device memory, of the host's memory and of every local store. -/
def Obligations.MemInvStep : Prop := ∀ (s t : State), MemInv s → step s = .next t → MemInv t

/-- A step in a control thread's turn: the word at a pc that is a multiple of 4 below XBOUND executes as the instruction it decodes to,
raises an illegal-instruction exception where it decodes to none, and a pc at or above XBOUND or no multiple of 4 raises causes 1 and 0
(R30, R67, R107). No context of the core has still to act in this cycle (R44), and no word of the store or of a register that the
instruction uses is uncorrectable. -/
def Clause.CtRuns : Prop := ∀ (s : State) (i : Nat) (rest : List Agent),
  let t := (s.core i).ct
  let a := t.pc.toNat
  let u : State := { s with todo := rest, cur := { Cur.none with core := i } }
  s.powered = true → s.todo = .ct i :: rest → (∀ c, .cx i c ∉ rest) → t.started = true → t.finished = false → t.halted = false →
  t.wait = .none →
  (a % 4 ≠ 0 → CtTraps u (step s) 0 t.pc)
  ∧ (a % 4 = 0 → (s.core i).xbound.toNat * 128 ≤ a → CtTraps u (step s) 1 t.pc)
  ∧ (a % 4 = 0 → a < (s.core i).xbound.toNat * 128 → s.lsTraps i a 4 = false → s.lsSnuffs i a 4 = false →
    let w := BitVec.ofNat 32 (lsNum s i a 4)
    let z := u.modMyCt (fun t => { t with ir := w, wait := .none })
    (∀ j, decodeCt w = some j → (ctSources w).any t.xBad.contains = false → step s = exec j z)
      ∧ (decodeCt w = none → CtTraps z (step s) 2 (w.zeroExtend 64)))

/-- The context as it stands when bundle `w` at its pc has issued (R35): its operands are those before the bundle, the pc is past it, and the
next slot is a later cycle's; its register writes show when the unit has taken its G cycles (R160). -/
def Clause.issued (s : State) (i c : Nat) (x : Ctx) (w : Word) (wrote : BitVec 16) : Ctx :=
  { x with
    st := .run, wait := .none, ir := w, irPc := x.pc, pc := x.pc + 8
    snap := { s := x.s, m := x.m, v := (s.core i).vSeen c s.time, flags := x.flags, rmode := x.rmode, seed := x.seed }
    shownAt := s.time + modeG (s.core i).mode, quash := false, vStill := false, xfer := none, seedSet := false, aRes := none
    vRes := [], stRes := [], inBlock := true, readyAt := s.time + 1, sWrote := wrote }

/-- A step in a context's own slot: the bundle at its pc in the block buffer raises ILL where it decodes to none, names a register its
mode lacks or writes one register from both slots; else its A-slot acts, and unless that faulted at issue or did not issue its V-slot
acts; then the bundle ends, but where it waits for an answer or its A-slot has ended it by an abort (R32, R35, R69, R138, R273). This is of
a context that has no access outstanding on a core that is not coupled, has no trigger set and no uncorrectable word, and that no abort
reaches in this cycle (R278). -/
def Clause.BundleRuns : Prop := ∀ (s : State) (i c : Nat) (rest : List Agent),
  let k := s.core i
  let x := s.cx i c
  let w := sget 0 x.buf (x.pc.toNat / 8 % 16)
  let u : State := { s with todo := rest, cur := { Cur.none with core := i, ctx := c } }
  let y := fun (wrote : BitVec 16) => u.setCx i c (Clause.issued s i c x w wrote)
  s.powered = true → s.todo = .cx i c :: rest → c < modeN k.mode → s.time % modeI k.mode = c * modeG k.mode → x.readyAt ≤ s.time →
  x.st = .run → x.wait = .none → x.heldFaults = [] → x.reissue = false → x.copy = false → x.alone = false → x.bufOk = true →
  x.bufBad = [] → x.sBad = [] → x.mBad = [] → s.abortDue (.cx i c) = none → k.vBad = [] → k.trigs = [] → k.trace = none → k.pair.on = false →
    (∀ e, e ∈ s.reqs → e.2.who ≠ .cx i c) →
  (decodeBundle w = none → FaultsAtIssue (y x.sWrote) (step s) 1 0)
  ∧ ∀ a v, decodeBundle w = some (a, v) →
    let z := match a with | .bfetchReg _ => y x.sWrote | _ => y 0
    ((modeOk k.mode a && modeOk k.mode v && !clash a v) = false → FaultsAtIssue (y x.sWrote) (step s) 1 0)
    ∧ ((modeOk k.mode a && modeOk k.mode v && !clash a v) = true →
      (∀ f, exec a z = .fault f → step s = .fault f) ∧ (∀ f, exec a z = .refused f → step s = .refused f)
      ∧ ∀ p, exec a z = .next p → (p.core i).pair.on = false →
        (p.me.quash = true → p.me.vStill = false → step s = .next p)
        ∧ (p.me.quash = false ∨ p.me.vStill = true → p.cur = z.cur →
          (∀ f, exec v p = .fault f → step s = .fault f) ∧ (∀ f, exec v p = .refused f → step s = .refused f)
          ∧ ∀ q, exec v p = .next q → q.cur = z.cur → q.myCore.trigs = [] → q.myCore.trace = none → q.myCore.pair.on = false →
            let e := q.modMe (fun x => { x with noTrig := false })
            let waits := q.me.st = .waitMem ∧ match q.me.wait with
              | .reply _ | .fence .. | .release .. | .xbegin _ | .commit => True
              | _ => False
            let ended := finishBundle (e.modMe (fun x => { x with wait := .none })) i c
            (p.me.vStill = true → step s = .next (e.modMe (fun x => { x with vStill := false })))
            ∧ (p.me.vStill = false → waits → step s = .next e)
            ∧ (p.me.vStill = false → ¬ waits → (ended.core i).pair.on = false → step s = .next ended)))

/-- A step in a gather unit's or a routine run's turn executes the word at its place in the code (R258, R263). -/
def Clause.NearRuns : Prop := ∀ (s : State) (i : Nat) (rest : List Agent),
  s.powered = true →
  (∀ r w j, s.todo = .gu i :: rest → (s.core i).gat.run = some r → ((sfind (s.core i).gat.kernels r.trig.slot).getD [])[r.pc]? = some w →
    decodeNear w = some j → step s = exec j { s with todo := rest, cur := { Cur.none with core := i } })
  ∧ ∀ r w j, s.todo = .rt i :: rest → sfind s.near.runs i = some r → r.ended = false → r.code[r.pc]? = some w → decodeNear w = some j →
    step s = exec j { s with todo := rest, cur := { Cur.none with run := i, inRoutine := true } }

/-- When nobody is left to act in the present cycle, the first step of the agenda that is due is taken; with none due TIME counts up and
the control threads and contexts of running launches stand ready, a context in its own slot; without power nothing
happens (R11, R30, R32). The order is the model's choice (log 4). -/
def Clause.CyclesRun : Prop := ∀ (s : State),
  (s.powered = false → (∀ e, e ∈ s.agenda → e.2 ≠ .powerGood) → step s = .fault .noPower)
  ∧ (s.powered = true → s.todo = [] → s.obs.frozen = false →
    (∀ d e rest j t, s.agenda = (d, e) :: rest → d ≤ s.time → evRow s e = some j →
      exec j { s with agenda := rest, cur := evCur e } = .next t → (∀ n, n ∈ t.cores → n.2.pair.on = false) → step s = .next t)
    ∧ ((∀ d e rest, s.agenda = (d, e) :: rest → s.time < d) →
      ∃ t, step s = .next t ∧ t = { s with time := s.time + 1, todo := t.todo }
        ∧ ∀ i k l, (i, k) ∈ s.cores → s.core i = k → s.launchOf i = some l → l.st = .running →
          (k.ct.started = true → k.ct.finished = false → k.ct.halted = false → k.ct.wait = .none → .ct i ∈ t.todo)
          ∧ ∀ c x, (c, x) ∈ k.ctxs → x.st = .run → c < modeN k.mode → (s.time + 1) % modeI k.mode = c * modeG k.mode → .cx i c ∈ t.todo))

/-- A step runs the instruction that the bytes at its agent's pc decode to. -/
def Obligations.StepRuns : Prop := Clause.CtRuns ∧ Clause.BundleRuns ∧ Clause.NearRuns ∧ Clause.CyclesRun

/-- Words written out field by field from Tables 5.9 to 5.19 decode to the instructions they stand for, and words that the tables do not
list to none (R66–R77, R81, R107). -/
def Obligations.DecodeWords : Prop :=
  decodeCt (0#7 ++ 7#5 ++ 6#5 ++ 1#3 ++ 5#5 ++ 0b0001011#7) = some (.mtStart 5 6 7)
  ∧ decodeCt (2#7 ++ 2#5 ++ 1#5 ++ 0#3 ++ 9#5 ++ 0b1111011#7) = some (.coreStart 9 1 2)
  ∧ decodeCt (11#7 ++ 7#5 ++ 6#5 ++ 1#3 ++ 5#5 ++ 0b0001011#7) = none
  ∧ decodeCt (0xFFF#12 ++ 2#5 ++ 0#3 ++ 1#5 ++ 0b0010011#7) = some (.rvIntegerOp (.opImm .addi 1 2 0xFFF))
  ∧ decodeBundle (0#2 ++ 0x01#6 ++ 3#4 ++ 1#4 ++ 2#4 ++ 1#6 ++ 0#6 ++ 0#32) = some (.sub 3 1 2, .vnop)
  ∧ decodeBundle (1#1 ++ 0#1 ++ 0x10#6 ++ 5#5 ++ 2#4 ++ 4#3 ++ 0xFF8#12 ++ 0x08#7 ++ 3#5 ++ 1#5 ++ 2#5 ++ 1#2 ++ 0#3 ++ 4#5)
    = some (.ld .i32 5 2 0xFF8, .vfma .f32 { rnd := .sr, sat := false } { vd := 3, va := 1, vb := 2, m := 1 })
  ∧ decodeBundle (0#2 ++ 0x1C#6 ++ 3#4 ++ 1#4 ++ 2#4 ++ 9#4 ++ 1#1 ++ 2#2 ++ 1#2 ++ 0#3 ++ 0#32) = some (.gaCas true (.rel .dv) 3 1 2, .vnop)
  ∧ decodeBundle (0#1 ++ 1#1 ++ 0x01#6 ++ 3#4 ++ 1#4 ++ 2#4 ++ 1#6 ++ 0#6 ++ 0#32) = none
  ∧ decodeBundle (0#32 ++ 0x12#7 ++ 0#25) = none
  ∧ decodeNear (0x25#6 ++ 0#4 ++ 3#4 ++ 0#4 ++ 0x3FFC#14) = some (.nbr 3 0x3FFC)
  ∧ decodeNear (0x14#6 ++ 1#4 ++ 2#4 ++ 3#4 ++ 6#14) = some (.ncmp .flt 1 2 3)
  ∧ decodeTile (0x05#8 ++ 1#1 ++ 0#1 ++ 0#1 ++ 0#1 ++ 0#4 ++ 0#8 ++ 0#10 ++ 0#10 ++ 0#10 ++ 2#3 ++ 1#3 ++ 0#4 ++ 0#64 ++ 0#64 ++ 0#64)
    = some (.accZero
        { ev := true, grp := false, fpv := false, cf := 0, gid := 0, d0 := 0, d1 := 0, d2 := 0, acb := 2, acn := 1, swz := 0, arg := 0
          fp1 := 0, fp0 := 0 })
  ∧ decodeTile 0 = none

/-- Decoding the word of any well-formed instruction gives the instruction back, at every value its encoding admits: control-thread words,
either slot of a bundle, near-data words and tile commands, each by its own decoder; a bundle gives its two slots and S (R66–R77, R81, R107). -/
def Obligations.DecodeEncode : Prop := ∀ (i : Instr), i.wf = true →
  (∀ w, encodeCustom i = some w → decodeCt w = some i) ∧ (∀ w, encodeRv i = some w → decodeCt w = some i)
  ∧ (∀ x a, encodeA i = some (x, a) → decodeA x a = some i) ∧ (∀ w, encodeV i = some w → decodeV w = some i)
  ∧ (∀ w, encodeNear i = some w → decodeNear w = some i) ∧ (∀ w, encodeTile i = some w → decodeTile w = some i)
  ∧ ∀ (st x : Bool) (a : BitVec 30) (v : Instr) (w : BitVec 32), encodeA i = some (x, a) → v.wf = true → encodeV v = some w →
    decodeBundle (bundleWord st x a w) = some (i, v) ∧ bundleS (bundleWord st x a w) = st

/-- A word of the custom majors, of the near-data encoding or of the tile commands that decodes is the word of a well-formed instruction:
every other bit pattern is refused, none is read as a neighbour (R66, R67, R76, R77, R81). -/
def Obligations.ReservedWords : Prop :=
  (∀ w i, decodeCustom w = some i → i.wf = true ∧ encodeCustom i = some w)
  ∧ (∀ w i, decodeNear w = some i → i.wf = true ∧ encodeNear i = some w)
  ∧ ∀ w i, decodeTile w = some i → i.wf = true ∧ encodeTile i = some w
end

