-- ==== Sys2Proof/Laws/Maps.lean ====
section
/-!
SUPPORT. The sparse maps of Bits.lean: what a read after an insertion, a deletion or a write gives, and that the canonical form
is kept.
-/
namespace Sys2Proof

variable {α : Type}

theorem sfind_sins_same (j : Nat) (v : α) (m : List (Nat × α)) : sfind (sins j v m) j = some v := by
  induction m with
  | nil => simp [sins, sfind]
  | cons e t ih =>
    obtain ⟨k, w⟩ := e
    by_cases h : k = j
    · simp [sins, sfind, h]
    · by_cases h' : j < k
      · simp [sins, sfind, h, h']
      · simp [sins, sfind, h, h', ih]

theorem sfind_sins_ne {i j : Nat} (h : i ≠ j) (v : α) (m : List (Nat × α)) : sfind (sins j v m) i = sfind m i := by
  induction m with
  | nil => simp [sins, sfind, Ne.symm h]
  | cons e t ih =>
    obtain ⟨k, w⟩ := e
    by_cases hk : k = j
    · subst hk; simp [sins, sfind, Ne.symm h]
    · by_cases h' : j < k
      · simp [sins, sfind, hk, h', Ne.symm h]
      · simp only [sins, sfind, hk, h', if_false]
        by_cases hi : k = i
        · simp [hi]
        · simp [hi, ih]

/-- A read after an insertion. -/
theorem sfind_sins (i j : Nat) (v : α) (m : List (Nat × α)) : sfind (sins j v m) i = if i = j then some v else sfind m i := by
  by_cases h : i = j
  · subst h; simp [sfind_sins_same]
  · simp [sfind_sins_ne h, h]

theorem sget_eq_sfind (d : α) (m : List (Nat × α)) (i : Nat) : sget d m i = (sfind m i).getD d := by
  induction m with
  | nil => rfl
  | cons e t ih =>
    obtain ⟨k, w⟩ := e
    by_cases h : k = i
    · simp [sget, sfind, h]
    · simp [sget, sfind, h, ih]

theorem sfind_sdel (i j : Nat) (m : List (Nat × α)) : sfind (sdel j m) i = if i = j then none else sfind m i := by
  induction m with
  | nil => simp [sdel, sfind]
  | cons e t ih =>
    obtain ⟨k, w⟩ := e
    by_cases hk : k = j
    · subst hk
      simp only [sdel, if_true, ih, sfind]
      by_cases hi : i = k
      · simp [hi]
      · simp [hi, Ne.symm hi]
    · simp only [sdel, hk, if_false, sfind]
      by_cases hi : k = i
      · subst hi; simp [hk]
      · simp [hi, ih]

/-- A read after a write in the canonical form. -/
theorem sget_sput [DecidableEq α] (d : α) (m : List (Nat × α)) (i j : Nat) (v : α) :
    sget d (sput d m j v) i = if i = j then v else sget d m i := by
  simp only [sget_eq_sfind, sput]
  by_cases hv : v = d
  · subst hv
    by_cases h : i = j <;> simp [h, sfind_sdel]
  · by_cases h : i = j <;> simp [hv, h, sfind_sins]

theorem sget_sput_same [DecidableEq α] (d : α) (m : List (Nat × α)) (j : Nat) (v : α) : sget d (sput d m j v) j = v := by
  simp [sget_sput]

theorem sget_sput_ne [DecidableEq α] (d : α) (m : List (Nat × α)) {i j : Nat} (h : i ≠ j) (v : α) :
    sget d (sput d m j v) i = sget d m i := by simp [sget_sput, h]

/-! ### The canonical form -/

/-- Keys that rise from above `p` rise from above any lower bound. -/
theorem skeysOk_weaken {p q : Nat} (h : q ≤ p) (m : List (Nat × α)) (hm : skeysOk (some p) m = true) :
    skeysOk (some q) m = true := by
  cases m with
  | nil => rfl
  | cons e t =>
    simp only [skeysOk, Bool.and_eq_true, decide_eq_true_eq] at hm ⊢
    exact ⟨by omega, hm.2⟩

theorem skeysOk_none {p : Nat} (m : List (Nat × α)) (hm : skeysOk (some p) m = true) : skeysOk none m = true := by
  cases m with
  | nil => rfl
  | cons e t => simp only [skeysOk, Bool.and_eq_true] at hm ⊢; exact hm.2

theorem skeysOk_sins_some {p j : Nat} (h : p < j) (v : α) (m : List (Nat × α)) (hm : skeysOk (some p) m = true) :
    skeysOk (some p) (sins j v m) = true := by
  induction m generalizing p with
  | nil => simp [sins, skeysOk, h]
  | cons e t ih =>
    obtain ⟨k, w⟩ := e
    simp only [skeysOk, Bool.and_eq_true, decide_eq_true_eq] at hm
    by_cases hk : k = j
    · subst hk; simp [sins, skeysOk, h, hm.2]
    · by_cases hj : j < k
      · simp [sins, skeysOk, hk, hj, h, hm.2]
      · have : k < j := by omega
        simp [sins, skeysOk, hk, hj, hm.1, ih this hm.2]

theorem skeysOk_sins (j : Nat) (v : α) (m : List (Nat × α)) (hm : skeysOk none m = true) : skeysOk none (sins j v m) = true := by
  cases m with
  | nil => simp [sins, skeysOk]
  | cons e t =>
    obtain ⟨k, w⟩ := e
    simp only [skeysOk] at hm
    by_cases hk : k = j
    · subst hk; simp [sins, skeysOk, hm]
    · by_cases hj : j < k
      · simp [sins, skeysOk, hk, hj, hm]
      · have : k < j := by omega
        simp [sins, skeysOk, hk, hj, skeysOk_sins_some this v t hm]

theorem skeysOk_sdel_some {p : Nat} (j : Nat) (m : List (Nat × α)) (hm : skeysOk (some p) m = true) :
    skeysOk (some p) (sdel j m) = true := by
  induction m generalizing p with
  | nil => rfl
  | cons e t ih =>
    obtain ⟨k, w⟩ := e
    simp only [skeysOk, Bool.and_eq_true, decide_eq_true_eq] at hm
    by_cases hk : k = j
    · subst hk
      simp only [sdel, if_true]
      exact ih (skeysOk_weaken (Nat.le_of_lt hm.1) t hm.2)
    · simp [sdel, hk, skeysOk, hm.1, ih hm.2]

theorem skeysOk_sdel (j : Nat) (m : List (Nat × α)) (hm : skeysOk none m = true) : skeysOk none (sdel j m) = true := by
  cases m with
  | nil => rfl
  | cons e t =>
    obtain ⟨k, w⟩ := e
    simp only [skeysOk] at hm
    by_cases hk : k = j
    · subst hk; simp only [sdel, if_true]; exact skeysOk_none _ (skeysOk_sdel_some k t hm)
    · simp [sdel, hk, skeysOk, skeysOk_sdel_some j t hm]

theorem all_sins (p : Nat × α → Bool) (j : Nat) (v : α) (m : List (Nat × α)) (hv : p (j, v) = true) (hm : m.all p = true) :
    (sins j v m).all p = true := by
  induction m with
  | nil => simp [sins, hv]
  | cons e t ih =>
    obtain ⟨k, w⟩ := e
    simp only [List.all_cons, Bool.and_eq_true] at hm
    by_cases hk : k = j
    · simp [sins, hk, hv, hm.2]
    · by_cases hj : j < k
      · simp [sins, hk, hj, hv, hm.1, hm.2]
      · simp [sins, hk, hj, hm.1, ih hm.2]

theorem all_sdel (p : Nat × α → Bool) (j : Nat) (m : List (Nat × α)) (hm : m.all p = true) : (sdel j m).all p = true := by
  induction m with
  | nil => rfl
  | cons e t ih =>
    obtain ⟨k, w⟩ := e
    simp only [List.all_cons, Bool.and_eq_true] at hm
    by_cases hk : k = j
    · simp [sdel, hk, ih hm.2]
    · simp [sdel, hk, hm.1, ih hm.2]

/-- Every write keeps the canonical form. -/
theorem scanon_sput [DecidableEq α] (d : α) (m : List (Nat × α)) (j : Nat) (v : α) (hm : scanon d m = true) :
    scanon d (sput d m j v) = true := by
  simp only [scanon, Bool.and_eq_true] at hm ⊢
  by_cases h : v = d
  · simp only [sput, h, if_true]
    exact ⟨skeysOk_sdel j m hm.1, all_sdel _ j m hm.2⟩
  · simp only [sput, h, if_false]
    exact ⟨skeysOk_sins j v m hm.1, all_sins _ j v m (by simp [h]) hm.2⟩

end Sys2Proof
end

