-- ==== Sys2Proof/Laws/State.lean ====
section
/-!
SUPPORT. One lemma per field of State and per shared update: what the update leaves as it was, and what a read of a core, a
context or a control thread gives after it.
-/
namespace Sys2Proof.Machine

@[simp] theorem State.setCore_powered (s : State) (i : Nat) (k : Core) : (s.setCore i k).powered = s.powered := rfl
@[simp] theorem State.setCore_time (s : State) (i : Nat) (k : Core) : (s.setCore i k).time = s.time := rfl
@[simp] theorem State.setCore_agenda (s : State) (i : Nat) (k : Core) : (s.setCore i k).agenda = s.agenda := rfl
@[simp] theorem State.setCore_todo (s : State) (i : Nat) (k : Core) : (s.setCore i k).todo = s.todo := rfl
@[simp] theorem State.setCore_cur (s : State) (i : Nat) (k : Core) : (s.setCore i k).cur = s.cur := rfl
@[simp] theorem State.setCore_fresh (s : State) (i : Nat) (k : Core) : (s.setCore i k).fresh = s.fresh := rfl
@[simp] theorem State.setCore_mem (s : State) (i : Nat) (k : Core) : (s.setCore i k).mem = s.mem := rfl
@[simp] theorem State.setCore_hostMem (s : State) (i : Nat) (k : Core) : (s.setCore i k).hostMem = s.hostMem := rfl
@[simp] theorem State.setCore_reqs (s : State) (i : Nat) (k : Core) : (s.setCore i k).reqs = s.reqs := rfl
@[simp] theorem State.setCore_nextReq (s : State) (i : Nat) (k : Core) : (s.setCore i k).nextReq = s.nextReq := rfl
@[simp] theorem State.setCore_coh (s : State) (i : Nat) (k : Core) : (s.setCore i k).coh = s.coh := rfl
@[simp] theorem State.setCore_near (s : State) (i : Nat) (k : Core) : (s.setCore i k).near = s.near := rfl
@[simp] theorem State.setCore_jobs (s : State) (i : Nat) (k : Core) : (s.setCore i k).jobs = s.jobs := rfl
@[simp] theorem State.setCore_lau (s : State) (i : Nat) (k : Core) : (s.setCore i k).lau = s.lau := rfl
@[simp] theorem State.setCore_fab (s : State) (i : Nat) (k : Core) : (s.setCore i k).fab = s.fab := rfl
@[simp] theorem State.setCore_host (s : State) (i : Nat) (k : Core) : (s.setCore i k).host = s.host := rfl
@[simp] theorem State.setCore_obs (s : State) (i : Nat) (k : Core) : (s.setCore i k).obs = s.obs := rfl

@[simp] theorem State.modCore_powered (s : State) (i : Nat) (f : Core → Core) : (s.modCore i f).powered = s.powered := rfl
@[simp] theorem State.modCore_time (s : State) (i : Nat) (f : Core → Core) : (s.modCore i f).time = s.time := rfl
@[simp] theorem State.modCore_agenda (s : State) (i : Nat) (f : Core → Core) : (s.modCore i f).agenda = s.agenda := rfl
@[simp] theorem State.modCore_todo (s : State) (i : Nat) (f : Core → Core) : (s.modCore i f).todo = s.todo := rfl
@[simp] theorem State.modCore_cur (s : State) (i : Nat) (f : Core → Core) : (s.modCore i f).cur = s.cur := rfl
@[simp] theorem State.modCore_fresh (s : State) (i : Nat) (f : Core → Core) : (s.modCore i f).fresh = s.fresh := rfl
@[simp] theorem State.modCore_mem (s : State) (i : Nat) (f : Core → Core) : (s.modCore i f).mem = s.mem := rfl
@[simp] theorem State.modCore_hostMem (s : State) (i : Nat) (f : Core → Core) : (s.modCore i f).hostMem = s.hostMem := rfl
@[simp] theorem State.modCore_reqs (s : State) (i : Nat) (f : Core → Core) : (s.modCore i f).reqs = s.reqs := rfl
@[simp] theorem State.modCore_nextReq (s : State) (i : Nat) (f : Core → Core) : (s.modCore i f).nextReq = s.nextReq := rfl
@[simp] theorem State.modCore_coh (s : State) (i : Nat) (f : Core → Core) : (s.modCore i f).coh = s.coh := rfl
@[simp] theorem State.modCore_near (s : State) (i : Nat) (f : Core → Core) : (s.modCore i f).near = s.near := rfl
@[simp] theorem State.modCore_jobs (s : State) (i : Nat) (f : Core → Core) : (s.modCore i f).jobs = s.jobs := rfl
@[simp] theorem State.modCore_lau (s : State) (i : Nat) (f : Core → Core) : (s.modCore i f).lau = s.lau := rfl
@[simp] theorem State.modCore_fab (s : State) (i : Nat) (f : Core → Core) : (s.modCore i f).fab = s.fab := rfl
@[simp] theorem State.modCore_host (s : State) (i : Nat) (f : Core → Core) : (s.modCore i f).host = s.host := rfl
@[simp] theorem State.modCore_obs (s : State) (i : Nat) (f : Core → Core) : (s.modCore i f).obs = s.obs := rfl

@[simp] theorem State.setCx_powered (s : State) (i c : Nat) (x : Ctx) : (s.setCx i c x).powered = s.powered := rfl
@[simp] theorem State.setCx_time (s : State) (i c : Nat) (x : Ctx) : (s.setCx i c x).time = s.time := rfl
@[simp] theorem State.setCx_agenda (s : State) (i c : Nat) (x : Ctx) : (s.setCx i c x).agenda = s.agenda := rfl
@[simp] theorem State.setCx_todo (s : State) (i c : Nat) (x : Ctx) : (s.setCx i c x).todo = s.todo := rfl
@[simp] theorem State.setCx_cur (s : State) (i c : Nat) (x : Ctx) : (s.setCx i c x).cur = s.cur := rfl
@[simp] theorem State.setCx_fresh (s : State) (i c : Nat) (x : Ctx) : (s.setCx i c x).fresh = s.fresh := rfl
@[simp] theorem State.setCx_mem (s : State) (i c : Nat) (x : Ctx) : (s.setCx i c x).mem = s.mem := rfl
@[simp] theorem State.setCx_hostMem (s : State) (i c : Nat) (x : Ctx) : (s.setCx i c x).hostMem = s.hostMem := rfl
@[simp] theorem State.setCx_reqs (s : State) (i c : Nat) (x : Ctx) : (s.setCx i c x).reqs = s.reqs := rfl
@[simp] theorem State.setCx_nextReq (s : State) (i c : Nat) (x : Ctx) : (s.setCx i c x).nextReq = s.nextReq := rfl
@[simp] theorem State.setCx_coh (s : State) (i c : Nat) (x : Ctx) : (s.setCx i c x).coh = s.coh := rfl
@[simp] theorem State.setCx_near (s : State) (i c : Nat) (x : Ctx) : (s.setCx i c x).near = s.near := rfl
@[simp] theorem State.setCx_jobs (s : State) (i c : Nat) (x : Ctx) : (s.setCx i c x).jobs = s.jobs := rfl
@[simp] theorem State.setCx_lau (s : State) (i c : Nat) (x : Ctx) : (s.setCx i c x).lau = s.lau := rfl
@[simp] theorem State.setCx_fab (s : State) (i c : Nat) (x : Ctx) : (s.setCx i c x).fab = s.fab := rfl
@[simp] theorem State.setCx_host (s : State) (i c : Nat) (x : Ctx) : (s.setCx i c x).host = s.host := rfl
@[simp] theorem State.setCx_obs (s : State) (i c : Nat) (x : Ctx) : (s.setCx i c x).obs = s.obs := rfl

@[simp] theorem State.modCx_powered (s : State) (i c : Nat) (f : Ctx → Ctx) : (s.modCx i c f).powered = s.powered := rfl
@[simp] theorem State.modCx_time (s : State) (i c : Nat) (f : Ctx → Ctx) : (s.modCx i c f).time = s.time := rfl
@[simp] theorem State.modCx_agenda (s : State) (i c : Nat) (f : Ctx → Ctx) : (s.modCx i c f).agenda = s.agenda := rfl
@[simp] theorem State.modCx_todo (s : State) (i c : Nat) (f : Ctx → Ctx) : (s.modCx i c f).todo = s.todo := rfl
@[simp] theorem State.modCx_cur (s : State) (i c : Nat) (f : Ctx → Ctx) : (s.modCx i c f).cur = s.cur := rfl
@[simp] theorem State.modCx_fresh (s : State) (i c : Nat) (f : Ctx → Ctx) : (s.modCx i c f).fresh = s.fresh := rfl
@[simp] theorem State.modCx_mem (s : State) (i c : Nat) (f : Ctx → Ctx) : (s.modCx i c f).mem = s.mem := rfl
@[simp] theorem State.modCx_hostMem (s : State) (i c : Nat) (f : Ctx → Ctx) : (s.modCx i c f).hostMem = s.hostMem := rfl
@[simp] theorem State.modCx_reqs (s : State) (i c : Nat) (f : Ctx → Ctx) : (s.modCx i c f).reqs = s.reqs := rfl
@[simp] theorem State.modCx_nextReq (s : State) (i c : Nat) (f : Ctx → Ctx) : (s.modCx i c f).nextReq = s.nextReq := rfl
@[simp] theorem State.modCx_coh (s : State) (i c : Nat) (f : Ctx → Ctx) : (s.modCx i c f).coh = s.coh := rfl
@[simp] theorem State.modCx_near (s : State) (i c : Nat) (f : Ctx → Ctx) : (s.modCx i c f).near = s.near := rfl
@[simp] theorem State.modCx_jobs (s : State) (i c : Nat) (f : Ctx → Ctx) : (s.modCx i c f).jobs = s.jobs := rfl
@[simp] theorem State.modCx_lau (s : State) (i c : Nat) (f : Ctx → Ctx) : (s.modCx i c f).lau = s.lau := rfl
@[simp] theorem State.modCx_fab (s : State) (i c : Nat) (f : Ctx → Ctx) : (s.modCx i c f).fab = s.fab := rfl
@[simp] theorem State.modCx_host (s : State) (i c : Nat) (f : Ctx → Ctx) : (s.modCx i c f).host = s.host := rfl
@[simp] theorem State.modCx_obs (s : State) (i c : Nat) (f : Ctx → Ctx) : (s.modCx i c f).obs = s.obs := rfl

@[simp] theorem State.modMe_powered (s : State) (f : Ctx → Ctx) : (s.modMe f).powered = s.powered := rfl
@[simp] theorem State.modMe_time (s : State) (f : Ctx → Ctx) : (s.modMe f).time = s.time := rfl
@[simp] theorem State.modMe_agenda (s : State) (f : Ctx → Ctx) : (s.modMe f).agenda = s.agenda := rfl
@[simp] theorem State.modMe_todo (s : State) (f : Ctx → Ctx) : (s.modMe f).todo = s.todo := rfl
@[simp] theorem State.modMe_cur (s : State) (f : Ctx → Ctx) : (s.modMe f).cur = s.cur := rfl
@[simp] theorem State.modMe_fresh (s : State) (f : Ctx → Ctx) : (s.modMe f).fresh = s.fresh := rfl
@[simp] theorem State.modMe_mem (s : State) (f : Ctx → Ctx) : (s.modMe f).mem = s.mem := rfl
@[simp] theorem State.modMe_hostMem (s : State) (f : Ctx → Ctx) : (s.modMe f).hostMem = s.hostMem := rfl
@[simp] theorem State.modMe_reqs (s : State) (f : Ctx → Ctx) : (s.modMe f).reqs = s.reqs := rfl
@[simp] theorem State.modMe_nextReq (s : State) (f : Ctx → Ctx) : (s.modMe f).nextReq = s.nextReq := rfl
@[simp] theorem State.modMe_coh (s : State) (f : Ctx → Ctx) : (s.modMe f).coh = s.coh := rfl
@[simp] theorem State.modMe_near (s : State) (f : Ctx → Ctx) : (s.modMe f).near = s.near := rfl
@[simp] theorem State.modMe_jobs (s : State) (f : Ctx → Ctx) : (s.modMe f).jobs = s.jobs := rfl
@[simp] theorem State.modMe_lau (s : State) (f : Ctx → Ctx) : (s.modMe f).lau = s.lau := rfl
@[simp] theorem State.modMe_fab (s : State) (f : Ctx → Ctx) : (s.modMe f).fab = s.fab := rfl
@[simp] theorem State.modMe_host (s : State) (f : Ctx → Ctx) : (s.modMe f).host = s.host := rfl
@[simp] theorem State.modMe_obs (s : State) (f : Ctx → Ctx) : (s.modMe f).obs = s.obs := rfl

@[simp] theorem State.modCt_powered (s : State) (i : Nat) (f : Ct → Ct) : (s.modCt i f).powered = s.powered := rfl
@[simp] theorem State.modCt_time (s : State) (i : Nat) (f : Ct → Ct) : (s.modCt i f).time = s.time := rfl
@[simp] theorem State.modCt_agenda (s : State) (i : Nat) (f : Ct → Ct) : (s.modCt i f).agenda = s.agenda := rfl
@[simp] theorem State.modCt_todo (s : State) (i : Nat) (f : Ct → Ct) : (s.modCt i f).todo = s.todo := rfl
@[simp] theorem State.modCt_cur (s : State) (i : Nat) (f : Ct → Ct) : (s.modCt i f).cur = s.cur := rfl
@[simp] theorem State.modCt_fresh (s : State) (i : Nat) (f : Ct → Ct) : (s.modCt i f).fresh = s.fresh := rfl
@[simp] theorem State.modCt_mem (s : State) (i : Nat) (f : Ct → Ct) : (s.modCt i f).mem = s.mem := rfl
@[simp] theorem State.modCt_hostMem (s : State) (i : Nat) (f : Ct → Ct) : (s.modCt i f).hostMem = s.hostMem := rfl
@[simp] theorem State.modCt_reqs (s : State) (i : Nat) (f : Ct → Ct) : (s.modCt i f).reqs = s.reqs := rfl
@[simp] theorem State.modCt_nextReq (s : State) (i : Nat) (f : Ct → Ct) : (s.modCt i f).nextReq = s.nextReq := rfl
@[simp] theorem State.modCt_coh (s : State) (i : Nat) (f : Ct → Ct) : (s.modCt i f).coh = s.coh := rfl
@[simp] theorem State.modCt_near (s : State) (i : Nat) (f : Ct → Ct) : (s.modCt i f).near = s.near := rfl
@[simp] theorem State.modCt_jobs (s : State) (i : Nat) (f : Ct → Ct) : (s.modCt i f).jobs = s.jobs := rfl
@[simp] theorem State.modCt_lau (s : State) (i : Nat) (f : Ct → Ct) : (s.modCt i f).lau = s.lau := rfl
@[simp] theorem State.modCt_fab (s : State) (i : Nat) (f : Ct → Ct) : (s.modCt i f).fab = s.fab := rfl
@[simp] theorem State.modCt_host (s : State) (i : Nat) (f : Ct → Ct) : (s.modCt i f).host = s.host := rfl
@[simp] theorem State.modCt_obs (s : State) (i : Nat) (f : Ct → Ct) : (s.modCt i f).obs = s.obs := rfl

@[simp] theorem State.modMyCt_powered (s : State) (f : Ct → Ct) : (s.modMyCt f).powered = s.powered := rfl
@[simp] theorem State.modMyCt_time (s : State) (f : Ct → Ct) : (s.modMyCt f).time = s.time := rfl
@[simp] theorem State.modMyCt_agenda (s : State) (f : Ct → Ct) : (s.modMyCt f).agenda = s.agenda := rfl
@[simp] theorem State.modMyCt_todo (s : State) (f : Ct → Ct) : (s.modMyCt f).todo = s.todo := rfl
@[simp] theorem State.modMyCt_cur (s : State) (f : Ct → Ct) : (s.modMyCt f).cur = s.cur := rfl
@[simp] theorem State.modMyCt_fresh (s : State) (f : Ct → Ct) : (s.modMyCt f).fresh = s.fresh := rfl
@[simp] theorem State.modMyCt_mem (s : State) (f : Ct → Ct) : (s.modMyCt f).mem = s.mem := rfl
@[simp] theorem State.modMyCt_hostMem (s : State) (f : Ct → Ct) : (s.modMyCt f).hostMem = s.hostMem := rfl
@[simp] theorem State.modMyCt_reqs (s : State) (f : Ct → Ct) : (s.modMyCt f).reqs = s.reqs := rfl
@[simp] theorem State.modMyCt_nextReq (s : State) (f : Ct → Ct) : (s.modMyCt f).nextReq = s.nextReq := rfl
@[simp] theorem State.modMyCt_coh (s : State) (f : Ct → Ct) : (s.modMyCt f).coh = s.coh := rfl
@[simp] theorem State.modMyCt_near (s : State) (f : Ct → Ct) : (s.modMyCt f).near = s.near := rfl
@[simp] theorem State.modMyCt_jobs (s : State) (f : Ct → Ct) : (s.modMyCt f).jobs = s.jobs := rfl
@[simp] theorem State.modMyCt_lau (s : State) (f : Ct → Ct) : (s.modMyCt f).lau = s.lau := rfl
@[simp] theorem State.modMyCt_fab (s : State) (f : Ct → Ct) : (s.modMyCt f).fab = s.fab := rfl
@[simp] theorem State.modMyCt_host (s : State) (f : Ct → Ct) : (s.modMyCt f).host = s.host := rfl
@[simp] theorem State.modMyCt_obs (s : State) (f : Ct → Ct) : (s.modMyCt f).obs = s.obs := rfl

@[simp] theorem State.setS_powered (s : State) (r : SReg) (v : Word) : (s.setS r v).powered = s.powered := rfl
@[simp] theorem State.setS_time (s : State) (r : SReg) (v : Word) : (s.setS r v).time = s.time := rfl
@[simp] theorem State.setS_agenda (s : State) (r : SReg) (v : Word) : (s.setS r v).agenda = s.agenda := rfl
@[simp] theorem State.setS_todo (s : State) (r : SReg) (v : Word) : (s.setS r v).todo = s.todo := rfl
@[simp] theorem State.setS_cur (s : State) (r : SReg) (v : Word) : (s.setS r v).cur = s.cur := rfl
@[simp] theorem State.setS_fresh (s : State) (r : SReg) (v : Word) : (s.setS r v).fresh = s.fresh := rfl
@[simp] theorem State.setS_mem (s : State) (r : SReg) (v : Word) : (s.setS r v).mem = s.mem := rfl
@[simp] theorem State.setS_hostMem (s : State) (r : SReg) (v : Word) : (s.setS r v).hostMem = s.hostMem := rfl
@[simp] theorem State.setS_reqs (s : State) (r : SReg) (v : Word) : (s.setS r v).reqs = s.reqs := rfl
@[simp] theorem State.setS_nextReq (s : State) (r : SReg) (v : Word) : (s.setS r v).nextReq = s.nextReq := rfl
@[simp] theorem State.setS_coh (s : State) (r : SReg) (v : Word) : (s.setS r v).coh = s.coh := rfl
@[simp] theorem State.setS_near (s : State) (r : SReg) (v : Word) : (s.setS r v).near = s.near := rfl
@[simp] theorem State.setS_jobs (s : State) (r : SReg) (v : Word) : (s.setS r v).jobs = s.jobs := rfl
@[simp] theorem State.setS_lau (s : State) (r : SReg) (v : Word) : (s.setS r v).lau = s.lau := rfl
@[simp] theorem State.setS_fab (s : State) (r : SReg) (v : Word) : (s.setS r v).fab = s.fab := rfl
@[simp] theorem State.setS_host (s : State) (r : SReg) (v : Word) : (s.setS r v).host = s.host := rfl
@[simp] theorem State.setS_obs (s : State) (r : SReg) (v : Word) : (s.setS r v).obs = s.obs := rfl

@[simp] theorem State.putV_powered (s : State) (i c r x : Nat) : (s.putV i c r x).powered = s.powered := rfl
@[simp] theorem State.putV_time (s : State) (i c r x : Nat) : (s.putV i c r x).time = s.time := rfl
@[simp] theorem State.putV_agenda (s : State) (i c r x : Nat) : (s.putV i c r x).agenda = s.agenda := rfl
@[simp] theorem State.putV_todo (s : State) (i c r x : Nat) : (s.putV i c r x).todo = s.todo := rfl
@[simp] theorem State.putV_cur (s : State) (i c r x : Nat) : (s.putV i c r x).cur = s.cur := rfl
@[simp] theorem State.putV_fresh (s : State) (i c r x : Nat) : (s.putV i c r x).fresh = s.fresh := rfl
@[simp] theorem State.putV_mem (s : State) (i c r x : Nat) : (s.putV i c r x).mem = s.mem := rfl
@[simp] theorem State.putV_hostMem (s : State) (i c r x : Nat) : (s.putV i c r x).hostMem = s.hostMem := rfl
@[simp] theorem State.putV_reqs (s : State) (i c r x : Nat) : (s.putV i c r x).reqs = s.reqs := rfl
@[simp] theorem State.putV_nextReq (s : State) (i c r x : Nat) : (s.putV i c r x).nextReq = s.nextReq := rfl
@[simp] theorem State.putV_coh (s : State) (i c r x : Nat) : (s.putV i c r x).coh = s.coh := rfl
@[simp] theorem State.putV_near (s : State) (i c r x : Nat) : (s.putV i c r x).near = s.near := rfl
@[simp] theorem State.putV_jobs (s : State) (i c r x : Nat) : (s.putV i c r x).jobs = s.jobs := rfl
@[simp] theorem State.putV_lau (s : State) (i c r x : Nat) : (s.putV i c r x).lau = s.lau := rfl
@[simp] theorem State.putV_fab (s : State) (i c r x : Nat) : (s.putV i c r x).fab = s.fab := rfl
@[simp] theorem State.putV_host (s : State) (i c r x : Nat) : (s.putV i c r x).host = s.host := rfl
@[simp] theorem State.putV_obs (s : State) (i c r x : Nat) : (s.putV i c r x).obs = s.obs := rfl

@[simp] theorem State.lsPut_powered (s : State) (i a : Nat) (bs : List Byte) : (s.lsPut i a bs).powered = s.powered := rfl
@[simp] theorem State.lsPut_time (s : State) (i a : Nat) (bs : List Byte) : (s.lsPut i a bs).time = s.time := rfl
@[simp] theorem State.lsPut_agenda (s : State) (i a : Nat) (bs : List Byte) : (s.lsPut i a bs).agenda = s.agenda := rfl
@[simp] theorem State.lsPut_todo (s : State) (i a : Nat) (bs : List Byte) : (s.lsPut i a bs).todo = s.todo := rfl
@[simp] theorem State.lsPut_cur (s : State) (i a : Nat) (bs : List Byte) : (s.lsPut i a bs).cur = s.cur := rfl
@[simp] theorem State.lsPut_fresh (s : State) (i a : Nat) (bs : List Byte) : (s.lsPut i a bs).fresh = s.fresh := rfl
@[simp] theorem State.lsPut_mem (s : State) (i a : Nat) (bs : List Byte) : (s.lsPut i a bs).mem = s.mem := rfl
@[simp] theorem State.lsPut_hostMem (s : State) (i a : Nat) (bs : List Byte) : (s.lsPut i a bs).hostMem = s.hostMem := rfl
@[simp] theorem State.lsPut_reqs (s : State) (i a : Nat) (bs : List Byte) : (s.lsPut i a bs).reqs = s.reqs := rfl
@[simp] theorem State.lsPut_nextReq (s : State) (i a : Nat) (bs : List Byte) : (s.lsPut i a bs).nextReq = s.nextReq := rfl
@[simp] theorem State.lsPut_coh (s : State) (i a : Nat) (bs : List Byte) : (s.lsPut i a bs).coh = s.coh := rfl
@[simp] theorem State.lsPut_near (s : State) (i a : Nat) (bs : List Byte) : (s.lsPut i a bs).near = s.near := rfl
@[simp] theorem State.lsPut_jobs (s : State) (i a : Nat) (bs : List Byte) : (s.lsPut i a bs).jobs = s.jobs := rfl
@[simp] theorem State.lsPut_lau (s : State) (i a : Nat) (bs : List Byte) : (s.lsPut i a bs).lau = s.lau := rfl
@[simp] theorem State.lsPut_fab (s : State) (i a : Nat) (bs : List Byte) : (s.lsPut i a bs).fab = s.fab := rfl
@[simp] theorem State.lsPut_host (s : State) (i a : Nat) (bs : List Byte) : (s.lsPut i a bs).host = s.host := rfl
@[simp] theorem State.lsPut_obs (s : State) (i a : Nat) (bs : List Byte) : (s.lsPut i a bs).obs = s.obs := rfl

@[simp] theorem ctDone_powered (s : State) (rd : XReg) (v : Word) : (ctDone s rd v).powered = s.powered := rfl
@[simp] theorem ctDone_time (s : State) (rd : XReg) (v : Word) : (ctDone s rd v).time = s.time := rfl
@[simp] theorem ctDone_agenda (s : State) (rd : XReg) (v : Word) : (ctDone s rd v).agenda = s.agenda := rfl
@[simp] theorem ctDone_todo (s : State) (rd : XReg) (v : Word) : (ctDone s rd v).todo = s.todo := rfl
@[simp] theorem ctDone_cur (s : State) (rd : XReg) (v : Word) : (ctDone s rd v).cur = s.cur := rfl
@[simp] theorem ctDone_fresh (s : State) (rd : XReg) (v : Word) : (ctDone s rd v).fresh = s.fresh := rfl
@[simp] theorem ctDone_mem (s : State) (rd : XReg) (v : Word) : (ctDone s rd v).mem = s.mem := rfl
@[simp] theorem ctDone_hostMem (s : State) (rd : XReg) (v : Word) : (ctDone s rd v).hostMem = s.hostMem := rfl
@[simp] theorem ctDone_reqs (s : State) (rd : XReg) (v : Word) : (ctDone s rd v).reqs = s.reqs := rfl
@[simp] theorem ctDone_nextReq (s : State) (rd : XReg) (v : Word) : (ctDone s rd v).nextReq = s.nextReq := rfl
@[simp] theorem ctDone_coh (s : State) (rd : XReg) (v : Word) : (ctDone s rd v).coh = s.coh := rfl
@[simp] theorem ctDone_near (s : State) (rd : XReg) (v : Word) : (ctDone s rd v).near = s.near := rfl
@[simp] theorem ctDone_jobs (s : State) (rd : XReg) (v : Word) : (ctDone s rd v).jobs = s.jobs := rfl
@[simp] theorem ctDone_lau (s : State) (rd : XReg) (v : Word) : (ctDone s rd v).lau = s.lau := rfl
@[simp] theorem ctDone_fab (s : State) (rd : XReg) (v : Word) : (ctDone s rd v).fab = s.fab := rfl
@[simp] theorem ctDone_host (s : State) (rd : XReg) (v : Word) : (ctDone s rd v).host = s.host := rfl
@[simp] theorem ctDone_obs (s : State) (rd : XReg) (v : Word) : (ctDone s rd v).obs = s.obs := rfl

@[simp] theorem ctRetry_powered (s : State) : (ctRetry s).powered = s.powered := rfl
@[simp] theorem ctRetry_time (s : State) : (ctRetry s).time = s.time := rfl
@[simp] theorem ctRetry_agenda (s : State) : (ctRetry s).agenda = s.agenda := rfl
@[simp] theorem ctRetry_todo (s : State) : (ctRetry s).todo = s.todo := rfl
@[simp] theorem ctRetry_cur (s : State) : (ctRetry s).cur = s.cur := rfl
@[simp] theorem ctRetry_fresh (s : State) : (ctRetry s).fresh = s.fresh := rfl
@[simp] theorem ctRetry_mem (s : State) : (ctRetry s).mem = s.mem := rfl
@[simp] theorem ctRetry_hostMem (s : State) : (ctRetry s).hostMem = s.hostMem := rfl
@[simp] theorem ctRetry_reqs (s : State) : (ctRetry s).reqs = s.reqs := rfl
@[simp] theorem ctRetry_nextReq (s : State) : (ctRetry s).nextReq = s.nextReq := rfl
@[simp] theorem ctRetry_coh (s : State) : (ctRetry s).coh = s.coh := rfl
@[simp] theorem ctRetry_near (s : State) : (ctRetry s).near = s.near := rfl
@[simp] theorem ctRetry_jobs (s : State) : (ctRetry s).jobs = s.jobs := rfl
@[simp] theorem ctRetry_lau (s : State) : (ctRetry s).lau = s.lau := rfl
@[simp] theorem ctRetry_fab (s : State) : (ctRetry s).fab = s.fab := rfl
@[simp] theorem ctRetry_host (s : State) : (ctRetry s).host = s.host := rfl
@[simp] theorem ctRetry_obs (s : State) : (ctRetry s).obs = s.obs := rfl

@[simp] theorem State.at_powered (s : State) (d : Nat) (e : Ev) : (s.at d e).powered = s.powered := rfl
@[simp] theorem State.at_time (s : State) (d : Nat) (e : Ev) : (s.at d e).time = s.time := rfl
@[simp] theorem State.at_todo (s : State) (d : Nat) (e : Ev) : (s.at d e).todo = s.todo := rfl
@[simp] theorem State.at_cur (s : State) (d : Nat) (e : Ev) : (s.at d e).cur = s.cur := rfl
@[simp] theorem State.at_fresh (s : State) (d : Nat) (e : Ev) : (s.at d e).fresh = s.fresh := rfl
@[simp] theorem State.at_cores (s : State) (d : Nat) (e : Ev) : (s.at d e).cores = s.cores := rfl
@[simp] theorem State.at_mem (s : State) (d : Nat) (e : Ev) : (s.at d e).mem = s.mem := rfl
@[simp] theorem State.at_hostMem (s : State) (d : Nat) (e : Ev) : (s.at d e).hostMem = s.hostMem := rfl
@[simp] theorem State.at_reqs (s : State) (d : Nat) (e : Ev) : (s.at d e).reqs = s.reqs := rfl
@[simp] theorem State.at_nextReq (s : State) (d : Nat) (e : Ev) : (s.at d e).nextReq = s.nextReq := rfl
@[simp] theorem State.at_coh (s : State) (d : Nat) (e : Ev) : (s.at d e).coh = s.coh := rfl
@[simp] theorem State.at_near (s : State) (d : Nat) (e : Ev) : (s.at d e).near = s.near := rfl
@[simp] theorem State.at_jobs (s : State) (d : Nat) (e : Ev) : (s.at d e).jobs = s.jobs := rfl
@[simp] theorem State.at_lau (s : State) (d : Nat) (e : Ev) : (s.at d e).lau = s.lau := rfl
@[simp] theorem State.at_fab (s : State) (d : Nat) (e : Ev) : (s.at d e).fab = s.fab := rfl
@[simp] theorem State.at_host (s : State) (d : Nat) (e : Ev) : (s.at d e).host = s.host := rfl
@[simp] theorem State.at_obs (s : State) (d : Nat) (e : Ev) : (s.at d e).obs = s.obs := rfl

@[simp] theorem State.after_powered (s : State) (n : Nat) (e : Ev) : (s.after n e).powered = s.powered := rfl
@[simp] theorem State.after_time (s : State) (n : Nat) (e : Ev) : (s.after n e).time = s.time := rfl
@[simp] theorem State.after_todo (s : State) (n : Nat) (e : Ev) : (s.after n e).todo = s.todo := rfl
@[simp] theorem State.after_cur (s : State) (n : Nat) (e : Ev) : (s.after n e).cur = s.cur := rfl
@[simp] theorem State.after_fresh (s : State) (n : Nat) (e : Ev) : (s.after n e).fresh = s.fresh := rfl
@[simp] theorem State.after_cores (s : State) (n : Nat) (e : Ev) : (s.after n e).cores = s.cores := rfl
@[simp] theorem State.after_mem (s : State) (n : Nat) (e : Ev) : (s.after n e).mem = s.mem := rfl
@[simp] theorem State.after_hostMem (s : State) (n : Nat) (e : Ev) : (s.after n e).hostMem = s.hostMem := rfl
@[simp] theorem State.after_reqs (s : State) (n : Nat) (e : Ev) : (s.after n e).reqs = s.reqs := rfl
@[simp] theorem State.after_nextReq (s : State) (n : Nat) (e : Ev) : (s.after n e).nextReq = s.nextReq := rfl
@[simp] theorem State.after_coh (s : State) (n : Nat) (e : Ev) : (s.after n e).coh = s.coh := rfl
@[simp] theorem State.after_near (s : State) (n : Nat) (e : Ev) : (s.after n e).near = s.near := rfl
@[simp] theorem State.after_jobs (s : State) (n : Nat) (e : Ev) : (s.after n e).jobs = s.jobs := rfl
@[simp] theorem State.after_lau (s : State) (n : Nat) (e : Ev) : (s.after n e).lau = s.lau := rfl
@[simp] theorem State.after_fab (s : State) (n : Nat) (e : Ev) : (s.after n e).fab = s.fab := rfl
@[simp] theorem State.after_host (s : State) (n : Nat) (e : Ev) : (s.after n e).host = s.host := rfl
@[simp] theorem State.after_obs (s : State) (n : Nat) (e : Ev) : (s.after n e).obs = s.obs := rfl

@[simp] theorem State.freshen_powered (s : State) : (s.freshen).powered = s.powered := rfl
@[simp] theorem State.freshen_time (s : State) : (s.freshen).time = s.time := rfl
@[simp] theorem State.freshen_agenda (s : State) : (s.freshen).agenda = s.agenda := rfl
@[simp] theorem State.freshen_todo (s : State) : (s.freshen).todo = s.todo := rfl
@[simp] theorem State.freshen_cur (s : State) : (s.freshen).cur = s.cur := rfl
@[simp] theorem State.freshen_cores (s : State) : (s.freshen).cores = s.cores := rfl
@[simp] theorem State.freshen_mem (s : State) : (s.freshen).mem = s.mem := rfl
@[simp] theorem State.freshen_hostMem (s : State) : (s.freshen).hostMem = s.hostMem := rfl
@[simp] theorem State.freshen_reqs (s : State) : (s.freshen).reqs = s.reqs := rfl
@[simp] theorem State.freshen_nextReq (s : State) : (s.freshen).nextReq = s.nextReq := rfl
@[simp] theorem State.freshen_coh (s : State) : (s.freshen).coh = s.coh := rfl
@[simp] theorem State.freshen_near (s : State) : (s.freshen).near = s.near := rfl
@[simp] theorem State.freshen_jobs (s : State) : (s.freshen).jobs = s.jobs := rfl
@[simp] theorem State.freshen_lau (s : State) : (s.freshen).lau = s.lau := rfl
@[simp] theorem State.freshen_fab (s : State) : (s.freshen).fab = s.fab := rfl
@[simp] theorem State.freshen_host (s : State) : (s.freshen).host = s.host := rfl
@[simp] theorem State.freshen_obs (s : State) : (s.freshen).obs = s.obs := rfl

@[simp] theorem State.setJob_powered (s : State) (j : Nat) (x : Job) : (s.setJob j x).powered = s.powered := rfl
@[simp] theorem State.setJob_time (s : State) (j : Nat) (x : Job) : (s.setJob j x).time = s.time := rfl
@[simp] theorem State.setJob_agenda (s : State) (j : Nat) (x : Job) : (s.setJob j x).agenda = s.agenda := rfl
@[simp] theorem State.setJob_todo (s : State) (j : Nat) (x : Job) : (s.setJob j x).todo = s.todo := rfl
@[simp] theorem State.setJob_cur (s : State) (j : Nat) (x : Job) : (s.setJob j x).cur = s.cur := rfl
@[simp] theorem State.setJob_fresh (s : State) (j : Nat) (x : Job) : (s.setJob j x).fresh = s.fresh := rfl
@[simp] theorem State.setJob_cores (s : State) (j : Nat) (x : Job) : (s.setJob j x).cores = s.cores := rfl
@[simp] theorem State.setJob_mem (s : State) (j : Nat) (x : Job) : (s.setJob j x).mem = s.mem := rfl
@[simp] theorem State.setJob_hostMem (s : State) (j : Nat) (x : Job) : (s.setJob j x).hostMem = s.hostMem := rfl
@[simp] theorem State.setJob_reqs (s : State) (j : Nat) (x : Job) : (s.setJob j x).reqs = s.reqs := rfl
@[simp] theorem State.setJob_nextReq (s : State) (j : Nat) (x : Job) : (s.setJob j x).nextReq = s.nextReq := rfl
@[simp] theorem State.setJob_coh (s : State) (j : Nat) (x : Job) : (s.setJob j x).coh = s.coh := rfl
@[simp] theorem State.setJob_near (s : State) (j : Nat) (x : Job) : (s.setJob j x).near = s.near := rfl
@[simp] theorem State.setJob_lau (s : State) (j : Nat) (x : Job) : (s.setJob j x).lau = s.lau := rfl
@[simp] theorem State.setJob_fab (s : State) (j : Nat) (x : Job) : (s.setJob j x).fab = s.fab := rfl
@[simp] theorem State.setJob_host (s : State) (j : Nat) (x : Job) : (s.setJob j x).host = s.host := rfl
@[simp] theorem State.setJob_obs (s : State) (j : Nat) (x : Job) : (s.setJob j x).obs = s.obs := rfl

@[simp] theorem State.modCluster_powered (s : State) (k : Nat) (f : Cluster → Cluster) : (s.modCluster k f).powered = s.powered := rfl
@[simp] theorem State.modCluster_time (s : State) (k : Nat) (f : Cluster → Cluster) : (s.modCluster k f).time = s.time := rfl
@[simp] theorem State.modCluster_agenda (s : State) (k : Nat) (f : Cluster → Cluster) : (s.modCluster k f).agenda = s.agenda := rfl
@[simp] theorem State.modCluster_todo (s : State) (k : Nat) (f : Cluster → Cluster) : (s.modCluster k f).todo = s.todo := rfl
@[simp] theorem State.modCluster_cur (s : State) (k : Nat) (f : Cluster → Cluster) : (s.modCluster k f).cur = s.cur := rfl
@[simp] theorem State.modCluster_fresh (s : State) (k : Nat) (f : Cluster → Cluster) : (s.modCluster k f).fresh = s.fresh := rfl
@[simp] theorem State.modCluster_cores (s : State) (k : Nat) (f : Cluster → Cluster) : (s.modCluster k f).cores = s.cores := rfl
@[simp] theorem State.modCluster_mem (s : State) (k : Nat) (f : Cluster → Cluster) : (s.modCluster k f).mem = s.mem := rfl
@[simp] theorem State.modCluster_hostMem (s : State) (k : Nat) (f : Cluster → Cluster) : (s.modCluster k f).hostMem = s.hostMem := rfl
@[simp] theorem State.modCluster_reqs (s : State) (k : Nat) (f : Cluster → Cluster) : (s.modCluster k f).reqs = s.reqs := rfl
@[simp] theorem State.modCluster_nextReq (s : State) (k : Nat) (f : Cluster → Cluster) : (s.modCluster k f).nextReq = s.nextReq := rfl
@[simp] theorem State.modCluster_coh (s : State) (k : Nat) (f : Cluster → Cluster) : (s.modCluster k f).coh = s.coh := rfl
@[simp] theorem State.modCluster_near (s : State) (k : Nat) (f : Cluster → Cluster) : (s.modCluster k f).near = s.near := rfl
@[simp] theorem State.modCluster_lau (s : State) (k : Nat) (f : Cluster → Cluster) : (s.modCluster k f).lau = s.lau := rfl
@[simp] theorem State.modCluster_fab (s : State) (k : Nat) (f : Cluster → Cluster) : (s.modCluster k f).fab = s.fab := rfl
@[simp] theorem State.modCluster_host (s : State) (k : Nat) (f : Cluster → Cluster) : (s.modCluster k f).host = s.host := rfl
@[simp] theorem State.modCluster_obs (s : State) (k : Nat) (f : Cluster → Cluster) : (s.modCluster k f).obs = s.obs := rfl

@[simp] theorem State.setReq_powered (s : State) (r : Nat) (q : Req) : (s.setReq r q).powered = s.powered := rfl
@[simp] theorem State.setReq_time (s : State) (r : Nat) (q : Req) : (s.setReq r q).time = s.time := rfl
@[simp] theorem State.setReq_agenda (s : State) (r : Nat) (q : Req) : (s.setReq r q).agenda = s.agenda := rfl
@[simp] theorem State.setReq_todo (s : State) (r : Nat) (q : Req) : (s.setReq r q).todo = s.todo := rfl
@[simp] theorem State.setReq_cur (s : State) (r : Nat) (q : Req) : (s.setReq r q).cur = s.cur := rfl
@[simp] theorem State.setReq_fresh (s : State) (r : Nat) (q : Req) : (s.setReq r q).fresh = s.fresh := rfl
@[simp] theorem State.setReq_cores (s : State) (r : Nat) (q : Req) : (s.setReq r q).cores = s.cores := rfl
@[simp] theorem State.setReq_mem (s : State) (r : Nat) (q : Req) : (s.setReq r q).mem = s.mem := rfl
@[simp] theorem State.setReq_hostMem (s : State) (r : Nat) (q : Req) : (s.setReq r q).hostMem = s.hostMem := rfl
@[simp] theorem State.setReq_nextReq (s : State) (r : Nat) (q : Req) : (s.setReq r q).nextReq = s.nextReq := rfl
@[simp] theorem State.setReq_coh (s : State) (r : Nat) (q : Req) : (s.setReq r q).coh = s.coh := rfl
@[simp] theorem State.setReq_near (s : State) (r : Nat) (q : Req) : (s.setReq r q).near = s.near := rfl
@[simp] theorem State.setReq_jobs (s : State) (r : Nat) (q : Req) : (s.setReq r q).jobs = s.jobs := rfl
@[simp] theorem State.setReq_lau (s : State) (r : Nat) (q : Req) : (s.setReq r q).lau = s.lau := rfl
@[simp] theorem State.setReq_fab (s : State) (r : Nat) (q : Req) : (s.setReq r q).fab = s.fab := rfl
@[simp] theorem State.setReq_host (s : State) (r : Nat) (q : Req) : (s.setReq r q).host = s.host := rfl
@[simp] theorem State.setReq_obs (s : State) (r : Nat) (q : Req) : (s.setReq r q).obs = s.obs := rfl

@[simp] theorem State.giveUp_powered (s : State) (p : Req → Bool) : (s.giveUp p).powered = s.powered := rfl
@[simp] theorem State.giveUp_time (s : State) (p : Req → Bool) : (s.giveUp p).time = s.time := rfl
@[simp] theorem State.giveUp_agenda (s : State) (p : Req → Bool) : (s.giveUp p).agenda = s.agenda := rfl
@[simp] theorem State.giveUp_todo (s : State) (p : Req → Bool) : (s.giveUp p).todo = s.todo := rfl
@[simp] theorem State.giveUp_cur (s : State) (p : Req → Bool) : (s.giveUp p).cur = s.cur := rfl
@[simp] theorem State.giveUp_fresh (s : State) (p : Req → Bool) : (s.giveUp p).fresh = s.fresh := rfl
@[simp] theorem State.giveUp_cores (s : State) (p : Req → Bool) : (s.giveUp p).cores = s.cores := rfl
@[simp] theorem State.giveUp_mem (s : State) (p : Req → Bool) : (s.giveUp p).mem = s.mem := rfl
@[simp] theorem State.giveUp_hostMem (s : State) (p : Req → Bool) : (s.giveUp p).hostMem = s.hostMem := rfl
@[simp] theorem State.giveUp_nextReq (s : State) (p : Req → Bool) : (s.giveUp p).nextReq = s.nextReq := rfl
@[simp] theorem State.giveUp_coh (s : State) (p : Req → Bool) : (s.giveUp p).coh = s.coh := rfl
@[simp] theorem State.giveUp_near (s : State) (p : Req → Bool) : (s.giveUp p).near = s.near := rfl
@[simp] theorem State.giveUp_jobs (s : State) (p : Req → Bool) : (s.giveUp p).jobs = s.jobs := rfl
@[simp] theorem State.giveUp_lau (s : State) (p : Req → Bool) : (s.giveUp p).lau = s.lau := rfl
@[simp] theorem State.giveUp_fab (s : State) (p : Req → Bool) : (s.giveUp p).fab = s.fab := rfl
@[simp] theorem State.giveUp_host (s : State) (p : Req → Bool) : (s.giveUp p).host = s.host := rfl
@[simp] theorem State.giveUp_obs (s : State) (p : Req → Bool) : (s.giveUp p).obs = s.obs := rfl

@[simp] theorem State.cancel_powered (s : State) (p : Ev → Bool) : (s.cancel p).powered = s.powered := rfl
@[simp] theorem State.cancel_time (s : State) (p : Ev → Bool) : (s.cancel p).time = s.time := rfl
@[simp] theorem State.cancel_todo (s : State) (p : Ev → Bool) : (s.cancel p).todo = s.todo := rfl
@[simp] theorem State.cancel_cur (s : State) (p : Ev → Bool) : (s.cancel p).cur = s.cur := rfl
@[simp] theorem State.cancel_fresh (s : State) (p : Ev → Bool) : (s.cancel p).fresh = s.fresh := rfl
@[simp] theorem State.cancel_cores (s : State) (p : Ev → Bool) : (s.cancel p).cores = s.cores := rfl
@[simp] theorem State.cancel_mem (s : State) (p : Ev → Bool) : (s.cancel p).mem = s.mem := rfl
@[simp] theorem State.cancel_hostMem (s : State) (p : Ev → Bool) : (s.cancel p).hostMem = s.hostMem := rfl
@[simp] theorem State.cancel_reqs (s : State) (p : Ev → Bool) : (s.cancel p).reqs = s.reqs := rfl
@[simp] theorem State.cancel_nextReq (s : State) (p : Ev → Bool) : (s.cancel p).nextReq = s.nextReq := rfl
@[simp] theorem State.cancel_coh (s : State) (p : Ev → Bool) : (s.cancel p).coh = s.coh := rfl
@[simp] theorem State.cancel_near (s : State) (p : Ev → Bool) : (s.cancel p).near = s.near := rfl
@[simp] theorem State.cancel_jobs (s : State) (p : Ev → Bool) : (s.cancel p).jobs = s.jobs := rfl
@[simp] theorem State.cancel_lau (s : State) (p : Ev → Bool) : (s.cancel p).lau = s.lau := rfl
@[simp] theorem State.cancel_fab (s : State) (p : Ev → Bool) : (s.cancel p).fab = s.fab := rfl
@[simp] theorem State.cancel_host (s : State) (p : Ev → Bool) : (s.cancel p).host = s.host := rfl
@[simp] theorem State.cancel_obs (s : State) (p : Ev → Bool) : (s.cancel p).obs = s.obs := rfl

@[simp] theorem State.modPort_powered (s : State) (i : Nat) (f : Port → Port) : (s.modPort i f).powered = s.powered := rfl
@[simp] theorem State.modPort_time (s : State) (i : Nat) (f : Port → Port) : (s.modPort i f).time = s.time := rfl
@[simp] theorem State.modPort_agenda (s : State) (i : Nat) (f : Port → Port) : (s.modPort i f).agenda = s.agenda := rfl
@[simp] theorem State.modPort_todo (s : State) (i : Nat) (f : Port → Port) : (s.modPort i f).todo = s.todo := rfl
@[simp] theorem State.modPort_cur (s : State) (i : Nat) (f : Port → Port) : (s.modPort i f).cur = s.cur := rfl
@[simp] theorem State.modPort_fresh (s : State) (i : Nat) (f : Port → Port) : (s.modPort i f).fresh = s.fresh := rfl
@[simp] theorem State.modPort_cores (s : State) (i : Nat) (f : Port → Port) : (s.modPort i f).cores = s.cores := rfl
@[simp] theorem State.modPort_mem (s : State) (i : Nat) (f : Port → Port) : (s.modPort i f).mem = s.mem := rfl
@[simp] theorem State.modPort_hostMem (s : State) (i : Nat) (f : Port → Port) : (s.modPort i f).hostMem = s.hostMem := rfl
@[simp] theorem State.modPort_reqs (s : State) (i : Nat) (f : Port → Port) : (s.modPort i f).reqs = s.reqs := rfl
@[simp] theorem State.modPort_nextReq (s : State) (i : Nat) (f : Port → Port) : (s.modPort i f).nextReq = s.nextReq := rfl
@[simp] theorem State.modPort_coh (s : State) (i : Nat) (f : Port → Port) : (s.modPort i f).coh = s.coh := rfl
@[simp] theorem State.modPort_near (s : State) (i : Nat) (f : Port → Port) : (s.modPort i f).near = s.near := rfl
@[simp] theorem State.modPort_jobs (s : State) (i : Nat) (f : Port → Port) : (s.modPort i f).jobs = s.jobs := rfl
@[simp] theorem State.modPort_lau (s : State) (i : Nat) (f : Port → Port) : (s.modPort i f).lau = s.lau := rfl
@[simp] theorem State.modPort_host (s : State) (i : Nat) (f : Port → Port) : (s.modPort i f).host = s.host := rfl
@[simp] theorem State.modPort_obs (s : State) (i : Nat) (f : Port → Port) : (s.modPort i f).obs = s.obs := rfl

@[simp] theorem State.setLaunch_powered (s : State) (k : Nat) (l : Launch) : (s.setLaunch k l).powered = s.powered := rfl
@[simp] theorem State.setLaunch_time (s : State) (k : Nat) (l : Launch) : (s.setLaunch k l).time = s.time := rfl
@[simp] theorem State.setLaunch_agenda (s : State) (k : Nat) (l : Launch) : (s.setLaunch k l).agenda = s.agenda := rfl
@[simp] theorem State.setLaunch_todo (s : State) (k : Nat) (l : Launch) : (s.setLaunch k l).todo = s.todo := rfl
@[simp] theorem State.setLaunch_cur (s : State) (k : Nat) (l : Launch) : (s.setLaunch k l).cur = s.cur := rfl
@[simp] theorem State.setLaunch_fresh (s : State) (k : Nat) (l : Launch) : (s.setLaunch k l).fresh = s.fresh := rfl
@[simp] theorem State.setLaunch_cores (s : State) (k : Nat) (l : Launch) : (s.setLaunch k l).cores = s.cores := rfl
@[simp] theorem State.setLaunch_mem (s : State) (k : Nat) (l : Launch) : (s.setLaunch k l).mem = s.mem := rfl
@[simp] theorem State.setLaunch_hostMem (s : State) (k : Nat) (l : Launch) : (s.setLaunch k l).hostMem = s.hostMem := rfl
@[simp] theorem State.setLaunch_reqs (s : State) (k : Nat) (l : Launch) : (s.setLaunch k l).reqs = s.reqs := rfl
@[simp] theorem State.setLaunch_nextReq (s : State) (k : Nat) (l : Launch) : (s.setLaunch k l).nextReq = s.nextReq := rfl
@[simp] theorem State.setLaunch_coh (s : State) (k : Nat) (l : Launch) : (s.setLaunch k l).coh = s.coh := rfl
@[simp] theorem State.setLaunch_near (s : State) (k : Nat) (l : Launch) : (s.setLaunch k l).near = s.near := rfl
@[simp] theorem State.setLaunch_jobs (s : State) (k : Nat) (l : Launch) : (s.setLaunch k l).jobs = s.jobs := rfl
@[simp] theorem State.setLaunch_fab (s : State) (k : Nat) (l : Launch) : (s.setLaunch k l).fab = s.fab := rfl
@[simp] theorem State.setLaunch_host (s : State) (k : Nat) (l : Launch) : (s.setLaunch k l).host = s.host := rfl
@[simp] theorem State.setLaunch_obs (s : State) (k : Nat) (l : Launch) : (s.setLaunch k l).obs = s.obs := rfl

@[simp] theorem State.setRdc_powered (s : State) (die line : Nat) (e : Option RdcEnt) : (s.setRdc die line e).powered = s.powered := rfl
@[simp] theorem State.setRdc_time (s : State) (die line : Nat) (e : Option RdcEnt) : (s.setRdc die line e).time = s.time := rfl
@[simp] theorem State.setRdc_agenda (s : State) (die line : Nat) (e : Option RdcEnt) : (s.setRdc die line e).agenda = s.agenda := rfl
@[simp] theorem State.setRdc_todo (s : State) (die line : Nat) (e : Option RdcEnt) : (s.setRdc die line e).todo = s.todo := rfl
@[simp] theorem State.setRdc_cur (s : State) (die line : Nat) (e : Option RdcEnt) : (s.setRdc die line e).cur = s.cur := rfl
@[simp] theorem State.setRdc_fresh (s : State) (die line : Nat) (e : Option RdcEnt) : (s.setRdc die line e).fresh = s.fresh := rfl
@[simp] theorem State.setRdc_cores (s : State) (die line : Nat) (e : Option RdcEnt) : (s.setRdc die line e).cores = s.cores := rfl
@[simp] theorem State.setRdc_mem (s : State) (die line : Nat) (e : Option RdcEnt) : (s.setRdc die line e).mem = s.mem := rfl
@[simp] theorem State.setRdc_hostMem (s : State) (die line : Nat) (e : Option RdcEnt) : (s.setRdc die line e).hostMem = s.hostMem := rfl
@[simp] theorem State.setRdc_reqs (s : State) (die line : Nat) (e : Option RdcEnt) : (s.setRdc die line e).reqs = s.reqs := rfl
@[simp] theorem State.setRdc_nextReq (s : State) (die line : Nat) (e : Option RdcEnt) : (s.setRdc die line e).nextReq = s.nextReq := rfl
@[simp] theorem State.setRdc_near (s : State) (die line : Nat) (e : Option RdcEnt) : (s.setRdc die line e).near = s.near := rfl
@[simp] theorem State.setRdc_jobs (s : State) (die line : Nat) (e : Option RdcEnt) : (s.setRdc die line e).jobs = s.jobs := rfl
@[simp] theorem State.setRdc_lau (s : State) (die line : Nat) (e : Option RdcEnt) : (s.setRdc die line e).lau = s.lau := rfl
@[simp] theorem State.setRdc_fab (s : State) (die line : Nat) (e : Option RdcEnt) : (s.setRdc die line e).fab = s.fab := rfl
@[simp] theorem State.setRdc_host (s : State) (die line : Nat) (e : Option RdcEnt) : (s.setRdc die line e).host = s.host := rfl
@[simp] theorem State.setRdc_obs (s : State) (die line : Nat) (e : Option RdcEnt) : (s.setRdc die line e).obs = s.obs := rfl

@[simp] theorem State.setDir_powered (s : State) (line : Nat) (e : DirEnt) : (s.setDir line e).powered = s.powered := rfl
@[simp] theorem State.setDir_time (s : State) (line : Nat) (e : DirEnt) : (s.setDir line e).time = s.time := rfl
@[simp] theorem State.setDir_agenda (s : State) (line : Nat) (e : DirEnt) : (s.setDir line e).agenda = s.agenda := rfl
@[simp] theorem State.setDir_todo (s : State) (line : Nat) (e : DirEnt) : (s.setDir line e).todo = s.todo := rfl
@[simp] theorem State.setDir_cur (s : State) (line : Nat) (e : DirEnt) : (s.setDir line e).cur = s.cur := rfl
@[simp] theorem State.setDir_fresh (s : State) (line : Nat) (e : DirEnt) : (s.setDir line e).fresh = s.fresh := rfl
@[simp] theorem State.setDir_cores (s : State) (line : Nat) (e : DirEnt) : (s.setDir line e).cores = s.cores := rfl
@[simp] theorem State.setDir_mem (s : State) (line : Nat) (e : DirEnt) : (s.setDir line e).mem = s.mem := rfl
@[simp] theorem State.setDir_hostMem (s : State) (line : Nat) (e : DirEnt) : (s.setDir line e).hostMem = s.hostMem := rfl
@[simp] theorem State.setDir_reqs (s : State) (line : Nat) (e : DirEnt) : (s.setDir line e).reqs = s.reqs := rfl
@[simp] theorem State.setDir_nextReq (s : State) (line : Nat) (e : DirEnt) : (s.setDir line e).nextReq = s.nextReq := rfl
@[simp] theorem State.setDir_near (s : State) (line : Nat) (e : DirEnt) : (s.setDir line e).near = s.near := rfl
@[simp] theorem State.setDir_jobs (s : State) (line : Nat) (e : DirEnt) : (s.setDir line e).jobs = s.jobs := rfl
@[simp] theorem State.setDir_lau (s : State) (line : Nat) (e : DirEnt) : (s.setDir line e).lau = s.lau := rfl
@[simp] theorem State.setDir_fab (s : State) (line : Nat) (e : DirEnt) : (s.setDir line e).fab = s.fab := rfl
@[simp] theorem State.setDir_host (s : State) (line : Nat) (e : DirEnt) : (s.setDir line e).host = s.host := rfl
@[simp] theorem State.setDir_obs (s : State) (line : Nat) (e : DirEnt) : (s.setDir line e).obs = s.obs := rfl

@[simp] theorem State.clearResv_powered (s : State) (line : Nat) (b : Option Nat) : (s.clearResv line b).powered = s.powered := rfl
@[simp] theorem State.clearResv_time (s : State) (line : Nat) (b : Option Nat) : (s.clearResv line b).time = s.time := rfl
@[simp] theorem State.clearResv_agenda (s : State) (line : Nat) (b : Option Nat) : (s.clearResv line b).agenda = s.agenda := rfl
@[simp] theorem State.clearResv_todo (s : State) (line : Nat) (b : Option Nat) : (s.clearResv line b).todo = s.todo := rfl
@[simp] theorem State.clearResv_cur (s : State) (line : Nat) (b : Option Nat) : (s.clearResv line b).cur = s.cur := rfl
@[simp] theorem State.clearResv_fresh (s : State) (line : Nat) (b : Option Nat) : (s.clearResv line b).fresh = s.fresh := rfl
@[simp] theorem State.clearResv_mem (s : State) (line : Nat) (b : Option Nat) : (s.clearResv line b).mem = s.mem := rfl
@[simp] theorem State.clearResv_hostMem (s : State) (line : Nat) (b : Option Nat) : (s.clearResv line b).hostMem = s.hostMem := rfl
@[simp] theorem State.clearResv_reqs (s : State) (line : Nat) (b : Option Nat) : (s.clearResv line b).reqs = s.reqs := rfl
@[simp] theorem State.clearResv_nextReq (s : State) (line : Nat) (b : Option Nat) : (s.clearResv line b).nextReq = s.nextReq := rfl
@[simp] theorem State.clearResv_coh (s : State) (line : Nat) (b : Option Nat) : (s.clearResv line b).coh = s.coh := rfl
@[simp] theorem State.clearResv_near (s : State) (line : Nat) (b : Option Nat) : (s.clearResv line b).near = s.near := rfl
@[simp] theorem State.clearResv_jobs (s : State) (line : Nat) (b : Option Nat) : (s.clearResv line b).jobs = s.jobs := rfl
@[simp] theorem State.clearResv_lau (s : State) (line : Nat) (b : Option Nat) : (s.clearResv line b).lau = s.lau := rfl
@[simp] theorem State.clearResv_fab (s : State) (line : Nat) (b : Option Nat) : (s.clearResv line b).fab = s.fab := rfl
@[simp] theorem State.clearResv_host (s : State) (line : Nat) (b : Option Nat) : (s.clearResv line b).host = s.host := rfl
@[simp] theorem State.clearResv_obs (s : State) (line : Nat) (b : Option Nat) : (s.clearResv line b).obs = s.obs := rfl

@[simp] theorem State.dropMarks_powered (s : State) (i c : Nat) : (s.dropMarks i c).powered = s.powered := rfl
@[simp] theorem State.dropMarks_time (s : State) (i c : Nat) : (s.dropMarks i c).time = s.time := rfl
@[simp] theorem State.dropMarks_agenda (s : State) (i c : Nat) : (s.dropMarks i c).agenda = s.agenda := rfl
@[simp] theorem State.dropMarks_todo (s : State) (i c : Nat) : (s.dropMarks i c).todo = s.todo := rfl
@[simp] theorem State.dropMarks_cur (s : State) (i c : Nat) : (s.dropMarks i c).cur = s.cur := rfl
@[simp] theorem State.dropMarks_fresh (s : State) (i c : Nat) : (s.dropMarks i c).fresh = s.fresh := rfl
@[simp] theorem State.dropMarks_cores (s : State) (i c : Nat) : (s.dropMarks i c).cores = s.cores := rfl
@[simp] theorem State.dropMarks_mem (s : State) (i c : Nat) : (s.dropMarks i c).mem = s.mem := rfl
@[simp] theorem State.dropMarks_hostMem (s : State) (i c : Nat) : (s.dropMarks i c).hostMem = s.hostMem := rfl
@[simp] theorem State.dropMarks_reqs (s : State) (i c : Nat) : (s.dropMarks i c).reqs = s.reqs := rfl
@[simp] theorem State.dropMarks_nextReq (s : State) (i c : Nat) : (s.dropMarks i c).nextReq = s.nextReq := rfl
@[simp] theorem State.dropMarks_near (s : State) (i c : Nat) : (s.dropMarks i c).near = s.near := rfl
@[simp] theorem State.dropMarks_jobs (s : State) (i c : Nat) : (s.dropMarks i c).jobs = s.jobs := rfl
@[simp] theorem State.dropMarks_lau (s : State) (i c : Nat) : (s.dropMarks i c).lau = s.lau := rfl
@[simp] theorem State.dropMarks_fab (s : State) (i c : Nat) : (s.dropMarks i c).fab = s.fab := rfl
@[simp] theorem State.dropMarks_host (s : State) (i c : Nat) : (s.dropMarks i c).host = s.host := rfl
@[simp] theorem State.dropMarks_obs (s : State) (i c : Nat) : (s.dropMarks i c).obs = s.obs := rfl

@[simp] theorem State.mark_powered (s : State) (g : Nat) (w : Nat × Nat) (write : Bool) : (s.mark g w write).powered = s.powered := rfl
@[simp] theorem State.mark_time (s : State) (g : Nat) (w : Nat × Nat) (write : Bool) : (s.mark g w write).time = s.time := rfl
@[simp] theorem State.mark_agenda (s : State) (g : Nat) (w : Nat × Nat) (write : Bool) : (s.mark g w write).agenda = s.agenda := rfl
@[simp] theorem State.mark_todo (s : State) (g : Nat) (w : Nat × Nat) (write : Bool) : (s.mark g w write).todo = s.todo := rfl
@[simp] theorem State.mark_cur (s : State) (g : Nat) (w : Nat × Nat) (write : Bool) : (s.mark g w write).cur = s.cur := rfl
@[simp] theorem State.mark_fresh (s : State) (g : Nat) (w : Nat × Nat) (write : Bool) : (s.mark g w write).fresh = s.fresh := rfl
@[simp] theorem State.mark_cores (s : State) (g : Nat) (w : Nat × Nat) (write : Bool) : (s.mark g w write).cores = s.cores := rfl
@[simp] theorem State.mark_mem (s : State) (g : Nat) (w : Nat × Nat) (write : Bool) : (s.mark g w write).mem = s.mem := rfl
@[simp] theorem State.mark_hostMem (s : State) (g : Nat) (w : Nat × Nat) (write : Bool) : (s.mark g w write).hostMem = s.hostMem := rfl
@[simp] theorem State.mark_reqs (s : State) (g : Nat) (w : Nat × Nat) (write : Bool) : (s.mark g w write).reqs = s.reqs := rfl
@[simp] theorem State.mark_nextReq (s : State) (g : Nat) (w : Nat × Nat) (write : Bool) : (s.mark g w write).nextReq = s.nextReq := rfl
@[simp] theorem State.mark_near (s : State) (g : Nat) (w : Nat × Nat) (write : Bool) : (s.mark g w write).near = s.near := rfl
@[simp] theorem State.mark_jobs (s : State) (g : Nat) (w : Nat × Nat) (write : Bool) : (s.mark g w write).jobs = s.jobs := rfl
@[simp] theorem State.mark_lau (s : State) (g : Nat) (w : Nat × Nat) (write : Bool) : (s.mark g w write).lau = s.lau := rfl
@[simp] theorem State.mark_fab (s : State) (g : Nat) (w : Nat × Nat) (write : Bool) : (s.mark g w write).fab = s.fab := rfl
@[simp] theorem State.mark_host (s : State) (g : Nat) (w : Nat × Nat) (write : Bool) : (s.mark g w write).host = s.host := rfl
@[simp] theorem State.mark_obs (s : State) (g : Nat) (w : Nat × Nat) (write : Bool) : (s.mark g w write).obs = s.obs := rfl

@[simp] theorem State.hostOver_powered (s : State) (r : Nat) : (s.hostOver r).powered = s.powered := rfl
@[simp] theorem State.hostOver_time (s : State) (r : Nat) : (s.hostOver r).time = s.time := rfl
@[simp] theorem State.hostOver_agenda (s : State) (r : Nat) : (s.hostOver r).agenda = s.agenda := rfl
@[simp] theorem State.hostOver_todo (s : State) (r : Nat) : (s.hostOver r).todo = s.todo := rfl
@[simp] theorem State.hostOver_cur (s : State) (r : Nat) : (s.hostOver r).cur = s.cur := rfl
@[simp] theorem State.hostOver_fresh (s : State) (r : Nat) : (s.hostOver r).fresh = s.fresh := rfl
@[simp] theorem State.hostOver_cores (s : State) (r : Nat) : (s.hostOver r).cores = s.cores := rfl
@[simp] theorem State.hostOver_mem (s : State) (r : Nat) : (s.hostOver r).mem = s.mem := rfl
@[simp] theorem State.hostOver_hostMem (s : State) (r : Nat) : (s.hostOver r).hostMem = s.hostMem := rfl
@[simp] theorem State.hostOver_reqs (s : State) (r : Nat) : (s.hostOver r).reqs = s.reqs := rfl
@[simp] theorem State.hostOver_nextReq (s : State) (r : Nat) : (s.hostOver r).nextReq = s.nextReq := rfl
@[simp] theorem State.hostOver_coh (s : State) (r : Nat) : (s.hostOver r).coh = s.coh := rfl
@[simp] theorem State.hostOver_near (s : State) (r : Nat) : (s.hostOver r).near = s.near := rfl
@[simp] theorem State.hostOver_jobs (s : State) (r : Nat) : (s.hostOver r).jobs = s.jobs := rfl
@[simp] theorem State.hostOver_lau (s : State) (r : Nat) : (s.hostOver r).lau = s.lau := rfl
@[simp] theorem State.hostOver_fab (s : State) (r : Nat) : (s.hostOver r).fab = s.fab := rfl
@[simp] theorem State.hostOver_obs (s : State) (r : Nat) : (s.hostOver r).obs = s.obs := rfl

@[simp] theorem State.complete_powered (s : State) (d : Option (List Byte)) (ep : Bool) : (s.complete d ep).powered = s.powered := rfl
@[simp] theorem State.complete_time (s : State) (d : Option (List Byte)) (ep : Bool) : (s.complete d ep).time = s.time := rfl
@[simp] theorem State.complete_agenda (s : State) (d : Option (List Byte)) (ep : Bool) : (s.complete d ep).agenda = s.agenda := rfl
@[simp] theorem State.complete_todo (s : State) (d : Option (List Byte)) (ep : Bool) : (s.complete d ep).todo = s.todo := rfl
@[simp] theorem State.complete_cur (s : State) (d : Option (List Byte)) (ep : Bool) : (s.complete d ep).cur = s.cur := rfl
@[simp] theorem State.complete_fresh (s : State) (d : Option (List Byte)) (ep : Bool) : (s.complete d ep).fresh = s.fresh := rfl
@[simp] theorem State.complete_cores (s : State) (d : Option (List Byte)) (ep : Bool) : (s.complete d ep).cores = s.cores := rfl
@[simp] theorem State.complete_mem (s : State) (d : Option (List Byte)) (ep : Bool) : (s.complete d ep).mem = s.mem := rfl
@[simp] theorem State.complete_hostMem (s : State) (d : Option (List Byte)) (ep : Bool) : (s.complete d ep).hostMem = s.hostMem := rfl
@[simp] theorem State.complete_reqs (s : State) (d : Option (List Byte)) (ep : Bool) : (s.complete d ep).reqs = s.reqs := rfl
@[simp] theorem State.complete_nextReq (s : State) (d : Option (List Byte)) (ep : Bool) : (s.complete d ep).nextReq = s.nextReq := rfl
@[simp] theorem State.complete_coh (s : State) (d : Option (List Byte)) (ep : Bool) : (s.complete d ep).coh = s.coh := rfl
@[simp] theorem State.complete_near (s : State) (d : Option (List Byte)) (ep : Bool) : (s.complete d ep).near = s.near := rfl
@[simp] theorem State.complete_jobs (s : State) (d : Option (List Byte)) (ep : Bool) : (s.complete d ep).jobs = s.jobs := rfl
@[simp] theorem State.complete_lau (s : State) (d : Option (List Byte)) (ep : Bool) : (s.complete d ep).lau = s.lau := rfl
@[simp] theorem State.complete_fab (s : State) (d : Option (List Byte)) (ep : Bool) : (s.complete d ep).fab = s.fab := rfl
@[simp] theorem State.complete_obs (s : State) (d : Option (List Byte)) (ep : Bool) : (s.complete d ep).obs = s.obs := rfl

@[simp] theorem State.retireJob_powered (s : State) (j : Nat) : (s.retireJob j).powered = s.powered := rfl
@[simp] theorem State.retireJob_time (s : State) (j : Nat) : (s.retireJob j).time = s.time := rfl
@[simp] theorem State.retireJob_agenda (s : State) (j : Nat) : (s.retireJob j).agenda = s.agenda := rfl
@[simp] theorem State.retireJob_todo (s : State) (j : Nat) : (s.retireJob j).todo = s.todo := rfl
@[simp] theorem State.retireJob_cur (s : State) (j : Nat) : (s.retireJob j).cur = s.cur := rfl
@[simp] theorem State.retireJob_fresh (s : State) (j : Nat) : (s.retireJob j).fresh = s.fresh := rfl
@[simp] theorem State.retireJob_cores (s : State) (j : Nat) : (s.retireJob j).cores = s.cores := rfl
@[simp] theorem State.retireJob_mem (s : State) (j : Nat) : (s.retireJob j).mem = s.mem := rfl
@[simp] theorem State.retireJob_hostMem (s : State) (j : Nat) : (s.retireJob j).hostMem = s.hostMem := rfl
@[simp] theorem State.retireJob_reqs (s : State) (j : Nat) : (s.retireJob j).reqs = s.reqs := rfl
@[simp] theorem State.retireJob_nextReq (s : State) (j : Nat) : (s.retireJob j).nextReq = s.nextReq := rfl
@[simp] theorem State.retireJob_coh (s : State) (j : Nat) : (s.retireJob j).coh = s.coh := rfl
@[simp] theorem State.retireJob_near (s : State) (j : Nat) : (s.retireJob j).near = s.near := rfl
@[simp] theorem State.retireJob_lau (s : State) (j : Nat) : (s.retireJob j).lau = s.lau := rfl
@[simp] theorem State.retireJob_fab (s : State) (j : Nat) : (s.retireJob j).fab = s.fab := rfl
@[simp] theorem State.retireJob_host (s : State) (j : Nat) : (s.retireJob j).host = s.host := rfl
@[simp] theorem State.retireJob_obs (s : State) (j : Nat) : (s.retireJob j).obs = s.obs := rfl

@[simp] theorem State.setQ_powered (s : State) (i n : Nat) (x : QReg) : (s.setQ i n x).powered = s.powered := rfl
@[simp] theorem State.setQ_time (s : State) (i n : Nat) (x : QReg) : (s.setQ i n x).time = s.time := rfl
@[simp] theorem State.setQ_agenda (s : State) (i n : Nat) (x : QReg) : (s.setQ i n x).agenda = s.agenda := rfl
@[simp] theorem State.setQ_todo (s : State) (i n : Nat) (x : QReg) : (s.setQ i n x).todo = s.todo := rfl
@[simp] theorem State.setQ_cur (s : State) (i n : Nat) (x : QReg) : (s.setQ i n x).cur = s.cur := rfl
@[simp] theorem State.setQ_fresh (s : State) (i n : Nat) (x : QReg) : (s.setQ i n x).fresh = s.fresh := rfl
@[simp] theorem State.setQ_mem (s : State) (i n : Nat) (x : QReg) : (s.setQ i n x).mem = s.mem := rfl
@[simp] theorem State.setQ_hostMem (s : State) (i n : Nat) (x : QReg) : (s.setQ i n x).hostMem = s.hostMem := rfl
@[simp] theorem State.setQ_reqs (s : State) (i n : Nat) (x : QReg) : (s.setQ i n x).reqs = s.reqs := rfl
@[simp] theorem State.setQ_nextReq (s : State) (i n : Nat) (x : QReg) : (s.setQ i n x).nextReq = s.nextReq := rfl
@[simp] theorem State.setQ_coh (s : State) (i n : Nat) (x : QReg) : (s.setQ i n x).coh = s.coh := rfl
@[simp] theorem State.setQ_near (s : State) (i n : Nat) (x : QReg) : (s.setQ i n x).near = s.near := rfl
@[simp] theorem State.setQ_jobs (s : State) (i n : Nat) (x : QReg) : (s.setQ i n x).jobs = s.jobs := rfl
@[simp] theorem State.setQ_lau (s : State) (i n : Nat) (x : QReg) : (s.setQ i n x).lau = s.lau := rfl
@[simp] theorem State.setQ_fab (s : State) (i n : Nat) (x : QReg) : (s.setQ i n x).fab = s.fab := rfl
@[simp] theorem State.setQ_host (s : State) (i n : Nat) (x : QReg) : (s.setQ i n x).host = s.host := rfl
@[simp] theorem State.setQ_obs (s : State) (i n : Nat) (x : QReg) : (s.setQ i n x).obs = s.obs := rfl

@[simp] theorem State.modGat_powered (s : State) (i : Nat) (f : Gather → Gather) : (s.modGat i f).powered = s.powered := rfl
@[simp] theorem State.modGat_time (s : State) (i : Nat) (f : Gather → Gather) : (s.modGat i f).time = s.time := rfl
@[simp] theorem State.modGat_agenda (s : State) (i : Nat) (f : Gather → Gather) : (s.modGat i f).agenda = s.agenda := rfl
@[simp] theorem State.modGat_todo (s : State) (i : Nat) (f : Gather → Gather) : (s.modGat i f).todo = s.todo := rfl
@[simp] theorem State.modGat_cur (s : State) (i : Nat) (f : Gather → Gather) : (s.modGat i f).cur = s.cur := rfl
@[simp] theorem State.modGat_fresh (s : State) (i : Nat) (f : Gather → Gather) : (s.modGat i f).fresh = s.fresh := rfl
@[simp] theorem State.modGat_mem (s : State) (i : Nat) (f : Gather → Gather) : (s.modGat i f).mem = s.mem := rfl
@[simp] theorem State.modGat_hostMem (s : State) (i : Nat) (f : Gather → Gather) : (s.modGat i f).hostMem = s.hostMem := rfl
@[simp] theorem State.modGat_reqs (s : State) (i : Nat) (f : Gather → Gather) : (s.modGat i f).reqs = s.reqs := rfl
@[simp] theorem State.modGat_nextReq (s : State) (i : Nat) (f : Gather → Gather) : (s.modGat i f).nextReq = s.nextReq := rfl
@[simp] theorem State.modGat_coh (s : State) (i : Nat) (f : Gather → Gather) : (s.modGat i f).coh = s.coh := rfl
@[simp] theorem State.modGat_near (s : State) (i : Nat) (f : Gather → Gather) : (s.modGat i f).near = s.near := rfl
@[simp] theorem State.modGat_jobs (s : State) (i : Nat) (f : Gather → Gather) : (s.modGat i f).jobs = s.jobs := rfl
@[simp] theorem State.modGat_lau (s : State) (i : Nat) (f : Gather → Gather) : (s.modGat i f).lau = s.lau := rfl
@[simp] theorem State.modGat_fab (s : State) (i : Nat) (f : Gather → Gather) : (s.modGat i f).fab = s.fab := rfl
@[simp] theorem State.modGat_host (s : State) (i : Nat) (f : Gather → Gather) : (s.modGat i f).host = s.host := rfl
@[simp] theorem State.modGat_obs (s : State) (i : Nat) (f : Gather → Gather) : (s.modGat i f).obs = s.obs := rfl

@[simp] theorem State.setBar_powered (s : State) (i b : Nat) (x : Bar) : (s.setBar i b x).powered = s.powered := rfl
@[simp] theorem State.setBar_time (s : State) (i b : Nat) (x : Bar) : (s.setBar i b x).time = s.time := rfl
@[simp] theorem State.setBar_agenda (s : State) (i b : Nat) (x : Bar) : (s.setBar i b x).agenda = s.agenda := rfl
@[simp] theorem State.setBar_todo (s : State) (i b : Nat) (x : Bar) : (s.setBar i b x).todo = s.todo := rfl
@[simp] theorem State.setBar_cur (s : State) (i b : Nat) (x : Bar) : (s.setBar i b x).cur = s.cur := rfl
@[simp] theorem State.setBar_fresh (s : State) (i b : Nat) (x : Bar) : (s.setBar i b x).fresh = s.fresh := rfl
@[simp] theorem State.setBar_mem (s : State) (i b : Nat) (x : Bar) : (s.setBar i b x).mem = s.mem := rfl
@[simp] theorem State.setBar_hostMem (s : State) (i b : Nat) (x : Bar) : (s.setBar i b x).hostMem = s.hostMem := rfl
@[simp] theorem State.setBar_reqs (s : State) (i b : Nat) (x : Bar) : (s.setBar i b x).reqs = s.reqs := rfl
@[simp] theorem State.setBar_nextReq (s : State) (i b : Nat) (x : Bar) : (s.setBar i b x).nextReq = s.nextReq := rfl
@[simp] theorem State.setBar_coh (s : State) (i b : Nat) (x : Bar) : (s.setBar i b x).coh = s.coh := rfl
@[simp] theorem State.setBar_near (s : State) (i b : Nat) (x : Bar) : (s.setBar i b x).near = s.near := rfl
@[simp] theorem State.setBar_jobs (s : State) (i b : Nat) (x : Bar) : (s.setBar i b x).jobs = s.jobs := rfl
@[simp] theorem State.setBar_lau (s : State) (i b : Nat) (x : Bar) : (s.setBar i b x).lau = s.lau := rfl
@[simp] theorem State.setBar_fab (s : State) (i b : Nat) (x : Bar) : (s.setBar i b x).fab = s.fab := rfl
@[simp] theorem State.setBar_host (s : State) (i b : Nat) (x : Bar) : (s.setBar i b x).host = s.host := rfl
@[simp] theorem State.setBar_obs (s : State) (i b : Nat) (x : Bar) : (s.setBar i b x).obs = s.obs := rfl

@[simp] theorem State.setDeque_powered (s : State) (i p : Nat) (d sp : List TaskRec) : (s.setDeque i p d sp).powered = s.powered := rfl
@[simp] theorem State.setDeque_time (s : State) (i p : Nat) (d sp : List TaskRec) : (s.setDeque i p d sp).time = s.time := rfl
@[simp] theorem State.setDeque_agenda (s : State) (i p : Nat) (d sp : List TaskRec) : (s.setDeque i p d sp).agenda = s.agenda := rfl
@[simp] theorem State.setDeque_todo (s : State) (i p : Nat) (d sp : List TaskRec) : (s.setDeque i p d sp).todo = s.todo := rfl
@[simp] theorem State.setDeque_cur (s : State) (i p : Nat) (d sp : List TaskRec) : (s.setDeque i p d sp).cur = s.cur := rfl
@[simp] theorem State.setDeque_fresh (s : State) (i p : Nat) (d sp : List TaskRec) : (s.setDeque i p d sp).fresh = s.fresh := rfl
@[simp] theorem State.setDeque_mem (s : State) (i p : Nat) (d sp : List TaskRec) : (s.setDeque i p d sp).mem = s.mem := rfl
@[simp] theorem State.setDeque_hostMem (s : State) (i p : Nat) (d sp : List TaskRec) : (s.setDeque i p d sp).hostMem = s.hostMem := rfl
@[simp] theorem State.setDeque_reqs (s : State) (i p : Nat) (d sp : List TaskRec) : (s.setDeque i p d sp).reqs = s.reqs := rfl
@[simp] theorem State.setDeque_nextReq (s : State) (i p : Nat) (d sp : List TaskRec) : (s.setDeque i p d sp).nextReq = s.nextReq := rfl
@[simp] theorem State.setDeque_coh (s : State) (i p : Nat) (d sp : List TaskRec) : (s.setDeque i p d sp).coh = s.coh := rfl
@[simp] theorem State.setDeque_near (s : State) (i p : Nat) (d sp : List TaskRec) : (s.setDeque i p d sp).near = s.near := rfl
@[simp] theorem State.setDeque_jobs (s : State) (i p : Nat) (d sp : List TaskRec) : (s.setDeque i p d sp).jobs = s.jobs := rfl
@[simp] theorem State.setDeque_lau (s : State) (i p : Nat) (d sp : List TaskRec) : (s.setDeque i p d sp).lau = s.lau := rfl
@[simp] theorem State.setDeque_fab (s : State) (i p : Nat) (d sp : List TaskRec) : (s.setDeque i p d sp).fab = s.fab := rfl
@[simp] theorem State.setDeque_host (s : State) (i p : Nat) (d sp : List TaskRec) : (s.setDeque i p d sp).host = s.host := rfl
@[simp] theorem State.setDeque_obs (s : State) (i p : Nat) (d sp : List TaskRec) : (s.setDeque i p d sp).obs = s.obs := rfl

@[simp] theorem State.awaitReq_powered (s : State) (r : Nat) : (s.awaitReq r).powered = s.powered := rfl
@[simp] theorem State.awaitReq_time (s : State) (r : Nat) : (s.awaitReq r).time = s.time := rfl
@[simp] theorem State.awaitReq_agenda (s : State) (r : Nat) : (s.awaitReq r).agenda = s.agenda := rfl
@[simp] theorem State.awaitReq_todo (s : State) (r : Nat) : (s.awaitReq r).todo = s.todo := rfl
@[simp] theorem State.awaitReq_cur (s : State) (r : Nat) : (s.awaitReq r).cur = s.cur := rfl
@[simp] theorem State.awaitReq_fresh (s : State) (r : Nat) : (s.awaitReq r).fresh = s.fresh := rfl
@[simp] theorem State.awaitReq_mem (s : State) (r : Nat) : (s.awaitReq r).mem = s.mem := rfl
@[simp] theorem State.awaitReq_hostMem (s : State) (r : Nat) : (s.awaitReq r).hostMem = s.hostMem := rfl
@[simp] theorem State.awaitReq_reqs (s : State) (r : Nat) : (s.awaitReq r).reqs = s.reqs := rfl
@[simp] theorem State.awaitReq_nextReq (s : State) (r : Nat) : (s.awaitReq r).nextReq = s.nextReq := rfl
@[simp] theorem State.awaitReq_coh (s : State) (r : Nat) : (s.awaitReq r).coh = s.coh := rfl
@[simp] theorem State.awaitReq_near (s : State) (r : Nat) : (s.awaitReq r).near = s.near := rfl
@[simp] theorem State.awaitReq_jobs (s : State) (r : Nat) : (s.awaitReq r).jobs = s.jobs := rfl
@[simp] theorem State.awaitReq_lau (s : State) (r : Nat) : (s.awaitReq r).lau = s.lau := rfl
@[simp] theorem State.awaitReq_fab (s : State) (r : Nat) : (s.awaitReq r).fab = s.fab := rfl
@[simp] theorem State.awaitReq_host (s : State) (r : Nat) : (s.awaitReq r).host = s.host := rfl
@[simp] theorem State.awaitReq_obs (s : State) (r : Nat) : (s.awaitReq r).obs = s.obs := rfl

@[simp] theorem State.modTxn_powered (s : State) (i c : Nat) (f : Txn → Txn) : (s.modTxn i c f).powered = s.powered := rfl
@[simp] theorem State.modTxn_time (s : State) (i c : Nat) (f : Txn → Txn) : (s.modTxn i c f).time = s.time := rfl
@[simp] theorem State.modTxn_agenda (s : State) (i c : Nat) (f : Txn → Txn) : (s.modTxn i c f).agenda = s.agenda := rfl
@[simp] theorem State.modTxn_todo (s : State) (i c : Nat) (f : Txn → Txn) : (s.modTxn i c f).todo = s.todo := rfl
@[simp] theorem State.modTxn_cur (s : State) (i c : Nat) (f : Txn → Txn) : (s.modTxn i c f).cur = s.cur := rfl
@[simp] theorem State.modTxn_fresh (s : State) (i c : Nat) (f : Txn → Txn) : (s.modTxn i c f).fresh = s.fresh := rfl
@[simp] theorem State.modTxn_mem (s : State) (i c : Nat) (f : Txn → Txn) : (s.modTxn i c f).mem = s.mem := rfl
@[simp] theorem State.modTxn_hostMem (s : State) (i c : Nat) (f : Txn → Txn) : (s.modTxn i c f).hostMem = s.hostMem := rfl
@[simp] theorem State.modTxn_reqs (s : State) (i c : Nat) (f : Txn → Txn) : (s.modTxn i c f).reqs = s.reqs := rfl
@[simp] theorem State.modTxn_nextReq (s : State) (i c : Nat) (f : Txn → Txn) : (s.modTxn i c f).nextReq = s.nextReq := rfl
@[simp] theorem State.modTxn_coh (s : State) (i c : Nat) (f : Txn → Txn) : (s.modTxn i c f).coh = s.coh := rfl
@[simp] theorem State.modTxn_near (s : State) (i c : Nat) (f : Txn → Txn) : (s.modTxn i c f).near = s.near := rfl
@[simp] theorem State.modTxn_jobs (s : State) (i c : Nat) (f : Txn → Txn) : (s.modTxn i c f).jobs = s.jobs := rfl
@[simp] theorem State.modTxn_lau (s : State) (i c : Nat) (f : Txn → Txn) : (s.modTxn i c f).lau = s.lau := rfl
@[simp] theorem State.modTxn_fab (s : State) (i c : Nat) (f : Txn → Txn) : (s.modTxn i c f).fab = s.fab := rfl
@[simp] theorem State.modTxn_host (s : State) (i c : Nat) (f : Txn → Txn) : (s.modTxn i c f).host = s.host := rfl
@[simp] theorem State.modTxn_obs (s : State) (i c : Nat) (f : Txn → Txn) : (s.modTxn i c f).obs = s.obs := rfl

@[simp] theorem State.modG_powered (s : State) (f : GRun → GRun) : (s.modG f).powered = s.powered := rfl
@[simp] theorem State.modG_time (s : State) (f : GRun → GRun) : (s.modG f).time = s.time := rfl
@[simp] theorem State.modG_agenda (s : State) (f : GRun → GRun) : (s.modG f).agenda = s.agenda := rfl
@[simp] theorem State.modG_todo (s : State) (f : GRun → GRun) : (s.modG f).todo = s.todo := rfl
@[simp] theorem State.modG_cur (s : State) (f : GRun → GRun) : (s.modG f).cur = s.cur := rfl
@[simp] theorem State.modG_fresh (s : State) (f : GRun → GRun) : (s.modG f).fresh = s.fresh := rfl
@[simp] theorem State.modG_mem (s : State) (f : GRun → GRun) : (s.modG f).mem = s.mem := rfl
@[simp] theorem State.modG_hostMem (s : State) (f : GRun → GRun) : (s.modG f).hostMem = s.hostMem := rfl
@[simp] theorem State.modG_reqs (s : State) (f : GRun → GRun) : (s.modG f).reqs = s.reqs := rfl
@[simp] theorem State.modG_nextReq (s : State) (f : GRun → GRun) : (s.modG f).nextReq = s.nextReq := rfl
@[simp] theorem State.modG_coh (s : State) (f : GRun → GRun) : (s.modG f).coh = s.coh := rfl
@[simp] theorem State.modG_near (s : State) (f : GRun → GRun) : (s.modG f).near = s.near := rfl
@[simp] theorem State.modG_jobs (s : State) (f : GRun → GRun) : (s.modG f).jobs = s.jobs := rfl
@[simp] theorem State.modG_lau (s : State) (f : GRun → GRun) : (s.modG f).lau = s.lau := rfl
@[simp] theorem State.modG_fab (s : State) (f : GRun → GRun) : (s.modG f).fab = s.fab := rfl
@[simp] theorem State.modG_host (s : State) (f : GRun → GRun) : (s.modG f).host = s.host := rfl
@[simp] theorem State.modG_obs (s : State) (f : GRun → GRun) : (s.modG f).obs = s.obs := rfl

/-! ### What a read gives after an update -/

theorem State.setReq_req (s : State) (r k : Nat) (q : Req) : (s.setReq r q).req k = if k = r then some q else s.req k :=
  sfind_sins k r q s.reqs
theorem State.setJob_job (s : State) (j k : Nat) (x : Job) : (s.setJob j x).job k = if k = j then some x else s.job k :=
  sfind_sins k j x s.jobs.list
theorem State.modPort_port (s : State) (i j : Nat) (f : Port → Port) :
    (s.modPort i f).port j = if j = i then f (s.port i) else s.port j := by
  simp only [State.port, State.modPort, sfind_sins]
  split <;> simp_all
theorem State.setRdc_rdcAt (s : State) (d l d' l' : Nat) (e : Option RdcEnt) :
    (s.setRdc d l e).rdcAt d' l' = if rdcKey d' l' = rdcKey d l then e else s.rdcAt d' l' := by
  cases e <;> simp [State.rdcAt, State.setRdc, sfind_sins, sfind_sdel]
theorem State.setDir_lineDir (s : State) (line : Nat) (e : DirEnt) (h : e.owner = none → e.sharers ≠ 0) :
    (s.setDir line e).lineDir line = e := by
  simp only [State.lineDir, State.setDir]
  split
  · simp_all
  · simp [sfind_sins]

end Sys2Proof.Machine
end

