-- ==== Sys2Proof/Laws/Cores.lean ====
section
/-!
SUPPORT. A core, a context and a control thread read back after they have been set or changed.
-/
namespace Sys2Proof.Machine

theorem core_setCore (s : State) (i j : Nat) (k : Core) : (s.setCore i k).core j = if j = i then k else s.core j := by
  simp only [State.core, State.setCore, sfind_sins]
  split <;> simp

@[simp] theorem core_setCore_same (s : State) (i : Nat) (k : Core) : (s.setCore i k).core i = k := by simp [core_setCore]

theorem core_modCore (s : State) (i j : Nat) (f : Core → Core) :
    (s.modCore i f).core j = if j = i then f (s.core i) else s.core j := core_setCore s i j _

@[simp] theorem core_modCore_same (s : State) (i : Nat) (f : Core → Core) : (s.modCore i f).core i = f (s.core i) := by
  simp [core_modCore]

theorem core_modCore_ne (s : State) {i j : Nat} (h : j ≠ i) (f : Core → Core) : (s.modCore i f).core j = s.core j := by
  simp [core_modCore, h]

/-- Only the context list of the core changes. -/
theorem core_setCx (s : State) (i c j : Nat) (x : Ctx) :
    (s.setCx i c x).core j = if j = i then { s.core i with ctxs := sins c x (s.core i).ctxs } else s.core j :=
  core_modCore s i j _

theorem cx_setCx (s : State) (i c j d : Nat) (x : Ctx) :
    (s.setCx i c x).cx j d = if j = i ∧ d = c then x else s.cx j d := by
  simp only [State.cx, core_setCx]
  by_cases hj : j = i
  · subst hj
    by_cases hd : d = c <;> simp [sfind_sins, hd]
  · simp [hj]

@[simp] theorem cx_setCx_same (s : State) (i c : Nat) (x : Ctx) : (s.setCx i c x).cx i c = x := by simp [cx_setCx]

theorem cx_modCx (s : State) (i c j d : Nat) (f : Ctx → Ctx) :
    (s.modCx i c f).cx j d = if j = i ∧ d = c then f (s.cx i c) else s.cx j d := cx_setCx s i c j d _

@[simp] theorem cx_modCx_same (s : State) (i c : Nat) (f : Ctx → Ctx) : (s.modCx i c f).cx i c = f (s.cx i c) := by
  simp [cx_modCx]

/-- A change of a core that keeps its contexts keeps each of them. -/
theorem cx_modCore (s : State) (i j d : Nat) (f : Core → Core) (h : (f (s.core i)).ctxs = (s.core i).ctxs) :
    (s.modCore i f).cx j d = s.cx j d := by
  simp only [State.cx, core_modCore]
  by_cases hj : j = i
  · subst hj; simp [h]
  · simp [hj]

/-- The core after one of its contexts has been changed. -/
theorem core_modCx_same (s : State) (i c : Nat) (f : Ctx → Ctx) :
    (s.modCx i c f).core i = { s.core i with ctxs := sins c (f (s.cx i c)) (s.core i).ctxs } := by
  rw [State.modCx, core_setCx, if_pos rfl]

theorem core_modCx_ne (s : State) {i j : Nat} (c : Nat) (h : j ≠ i) (f : Ctx → Ctx) : (s.modCx i c f).core j = s.core j := by
  rw [State.modCx, core_setCx, if_neg h]

@[simp] theorem me_modMe (s : State) (f : Ctx → Ctx) : (s.modMe f).me = f s.me := cx_modCx_same s _ _ f

theorem ct_modCt (s : State) (i : Nat) (f : Ct → Ct) : ((s.modCt i f).core i).ct = f (s.core i).ct := by
  simp [State.modCt]

@[simp] theorem ct_modMyCt (s : State) (f : Ct → Ct) : (s.modMyCt f).myCore.ct = f s.myCore.ct := ct_modCt s _ f

theorem rx_wx (t : Ct) (rd r : XReg) (v : Word) : (t.wx rd v).rx r = if r ≠ 0 ∧ r = rd then v else t.rx r := by
  by_cases hr : r = 0
  · simp only [Ct.rx, hr, if_true, ne_eq, not_true_eq_false, false_and, if_false]
  by_cases h0 : rd = 0
  · have h : ¬ r = rd := fun e => hr (e.trans h0)
    simp only [Ct.wx, h0, if_true, hr, and_false, if_false]
  · simp only [Ct.wx, Ct.rx, hr, h0, if_false, sget_sput, ne_eq, not_false_eq_true, true_and]
    by_cases h : r = rd
    · simp only [h, if_true]
    · have : ¬ r.toNat = rd.toNat := fun e => h (BitVec.eq_of_toNat_eq e)
      simp only [h, this, if_false]

theorem rs_ws (x : Ctx) (rd r : SReg) (v : Word) : (x.ws rd v).rs r = if r ≠ 0 ∧ r = rd then v else x.rs r := by
  by_cases hr : r = 0
  · simp only [Ctx.rs, hr, if_true, ne_eq, not_true_eq_false, false_and, if_false]
  by_cases h0 : rd = 0
  · simp only [Ctx.ws, h0, if_true, hr, and_false, if_false]
  · simp only [Ctx.ws, Ctx.rs, hr, h0, if_false, sget_sput, ne_eq, not_false_eq_true, true_and]
    by_cases h : r = rd
    · simp only [h, if_true]
    · have : ¬ r.toNat = rd.toNat := fun e => h (BitVec.eq_of_toNat_eq e)
      simp only [h, this, if_false]

theorem rm_wm (x : Ctx) (rd r : MReg) (v : BitVec 256) : (x.wm rd v).rm r = if r ≠ 0 ∧ r = rd then v else x.rm r := by
  by_cases hr : r = 0
  · simp only [Ctx.rm, hr, if_true, ne_eq, not_true_eq_false, false_and, if_false]
  by_cases h0 : rd = 0
  · simp only [Ctx.wm, h0, if_true, hr, and_false, if_false]
  · simp only [Ctx.wm, Ctx.rm, hr, h0, if_false, sget_sput, ne_eq, not_false_eq_true, true_and]
    by_cases h : r = rd
    · simp only [h, if_true]
    · have : ¬ r.toNat = rd.toNat := fun e => h (BitVec.eq_of_toNat_eq e)
      simp only [h, this, if_false]

end Sys2Proof.Machine
end

