-- ==== Sys2Proof/Laws/Results.lean ====
section
/-!
SUPPORT. What each shared operation that ends an instruction does, once, with its frame (the terms of Safety.lean).
-/
namespace Sys2Proof
open Machine

/-! ### Frames of the shared updates -/

theorem SameBytes.refl (s : State) : SameBytes s s := ⟨fun _ => rfl, fun _ => rfl, fun _ _ => rfl⟩

/-- Bytes read as before when only cores change and none of their local stores does. -/
theorem sameBytes_of_ls {s t : State} (h : t = { s with cores := t.cores }) (hl : ∀ i, (t.core i).ls = (s.core i).ls) :
    SameBytes s t := by
  refine ⟨fun a => ?_, fun a => ?_, fun i a => ?_⟩
  · rw [h]; rfl
  · rw [h]
  · simp only [State.lsByte, hl]

theorem onlyCore_modCore (s : State) (i : Nat) (f : Core → Core) : OnlyCore s (s.modCore i f) i :=
  ⟨rfl, fun _ h => core_modCore_ne s h f⟩

theorem onlyCore_bytes {s t : State} {i : Nat} (h : OnlyCore s t i) (hl : (t.core i).ls = (s.core i).ls) : SameBytes s t :=
  sameBytes_of_ls h.1 fun j => by
    by_cases hj : j = i
    · subst hj; exact hl
    · rw [h.2 j hj]

theorem onlyCt_modCt (s : State) (i : Nat) (f : Ct → Ct) : OnlyCt s (s.modCt i f) i :=
  ⟨onlyCore_modCore s i _, by simp [State.modCt]⟩

theorem OnlyCt.bytes {s t : State} {i : Nat} (h : OnlyCt s t i) : SameBytes s t :=
  onlyCore_bytes h.1 (by rw [h.2])

theorem onlyCtx_modCx (s : State) (i c : Nat) (f : Ctx → Ctx) : OnlyCtx s (s.modCx i c f) i c := by
  refine ⟨onlyCore_modCore s i (fun k => { k with ctxs := sins c (f (s.cx i c)) k.ctxs }), ?_, fun d hd => ?_⟩
  · simp [State.modCx, State.setCx]
  · simp [cx_modCx, hd]

theorem OnlyCtx.bytes {s t : State} {i c : Nat} (h : OnlyCtx s t i c) : SameBytes s t :=
  onlyCore_bytes h.1 (by rw [h.2.1])

theorem OnlyCtxV.bytes {s t : State} {i c : Nat} (h : OnlyCtxV s t i c) : SameBytes s t :=
  onlyCore_bytes h.1 (by rw [h.2.1])

/-! ### Results -/

/-- A control-thread instruction ends with `v` in rd. -/
theorem ctDone_ended (s : State) (rd : XReg) (v : Word) : CtEnded s (ctDone s rd v) rd v := by
  have h : OnlyCt s (ctDone s rd v) s.cur.core :=
    onlyCt_modCt s s.cur.core (fun t => { (t.wx rd v) with pc := t.pc + 4, minstret := t.minstret + 1, wait := .none })
  refine ⟨h, h.bytes, fun r => ?_, ?_⟩
  · have e : (ctDone s rd v).xr r = (s.myCore.ct.wx rd v).rx r := by simp only [State.xr, ctDone, ct_modMyCt, Ct.rx]
    rw [e, rx_wx]; rfl
  · simp only [ctDone, ct_modMyCt, State.cpc, Ct.wx]; split <;> rfl

theorem givesX_ctDone (s : State) (rd : XReg) (v : Word) : GivesX s (ok (ctDone s rd v)) rd v := ⟨_, rfl, ctDone_ended s rd v⟩

/-- The A-slot writes sd. -/
theorem setS_written (s : State) (sd : SReg) (v : Word) : SWritten s (s.setS sd v) sd v := by
  have h : OnlyCtx s (s.setS sd v) s.cur.core s.cur.ctx := onlyCtx_modCx s s.cur.core s.cur.ctx (fun x => x.ws sd v)
  refine ⟨h, h.bytes, fun r => ?_, ?_⟩
  · rw [State.setS, me_modMe, rs_ws]
  · simp only [State.setS, me_modMe, Ctx.ws]; split <;> rfl

theorem givesS_setS (s : State) (sd : SReg) (v : Word) : GivesS s (ok (s.setS sd v)) sd v := ⟨_, rfl, setS_written s sd v⟩

/-- What SRSEED holds after a V-slot operation whose last step left `seed` (R156). -/
theorem vEnd_me (s : State) (fl : Nat) (seed : BitVec 32) :
    (s.vEnd fl seed).me = { s.me with flags := orFlags s.me.flags fl, seed := if s.me.seedSet then s.me.seed else seed } := by
  simp [State.vEnd]

/-- The V-slot writes a mask register and ends with flags. -/
theorem setM_written (s : State) (md : MReg) (x : BitVec 256) (fl : Nat) (seed : BitVec 32) :
    MWritten s ((s.modMe (fun y => y.wm md x)).vEnd fl seed) md x (orFlags s.me.flags fl)
      (if s.me.seedSet then s.me.seed else seed) := by
  have h : OnlyCtx s ((s.modMe (fun y => y.wm md x)).vEnd fl seed) s.cur.core s.cur.ctx := by
    refine ⟨⟨rfl, fun j hj => ?_⟩, ?_, fun d hd => ?_⟩
    · simp [State.vEnd, State.modMe, State.modCx, State.setCx, core_modCore, hj]
    · simp [State.vEnd, State.modMe, State.modCx, State.setCx]
    · simp [State.vEnd, State.modMe, cx_modCx, hd]
  have e : ((s.modMe (fun y => y.wm md x)).vEnd fl seed).me
      = { s.me.wm md x with
          flags := orFlags (s.me.wm md x).flags fl
          seed := if (s.me.wm md x).seedSet then (s.me.wm md x).seed else seed } := by
    rw [vEnd_me, me_modMe]
  refine ⟨h, h.bytes, fun r => ?_, ?_⟩
  · have : ((s.modMe (fun y => y.wm md x)).vEnd fl seed).me.rm r = (s.me.wm md x).rm r := by rw [e]; simp only [Ctx.rm]
    rw [this, rm_wm]
  · rw [e]; simp only [Ctx.wm]; split <;> rfl

/-- The V-slot writes a mask register alone. -/
theorem givesM_wm (s : State) (md : MReg) (x : BitVec 256) :
    GivesM s (ok (s.modMe (fun y => y.wm md x))) md x s.me.flags s.me.seed := by
  refine ⟨_, rfl, ?_⟩
  have h : OnlyCtx s (s.modMe (fun y => y.wm md x)) s.cur.core s.cur.ctx :=
    onlyCtx_modCx s s.cur.core s.cur.ctx (fun y => y.wm md x)
  refine ⟨h, h.bytes, fun r => ?_, ?_⟩
  · rw [me_modMe, rm_wm]
  · simp only [me_modMe, Ctx.wm]; split <;> rfl

end Sys2Proof
end

