-- ==== Sys2Proof/Laws/Memory.lean ====
section
/-!
SUPPORT. Bytes: what a memory reads after bytes have been written, and that every write keeps the canonical form.
-/
namespace Sys2Proof
open Machine

/-- Writes of bytes keep the canonical form. -/
theorem wf_putCells (m : List Host.Cell) (a : Nat) (bs : List Byte) (h : Memory.wf m = true) :
    Memory.wf (putCells m a bs) = true := by
  induction bs generalizing m a with
  | nil => exact h
  | cons b bs ih => exact ih _ _ (scanon_sput 0 m a b h)

/-- A byte after bytes have been written. -/
theorem sget_putCells (m : List Host.Cell) (a : Nat) (bs : List Byte) (p : Nat) :
    sget 0 (putCells m a bs) p = if a ≤ p ∧ p < a + bs.length then bs.getD (p - a) 0 else sget 0 m p := by
  induction bs generalizing m a with
  | nil => rw [if_neg (by simp)]; rfl
  | cons b bs ih =>
    show sget 0 (putCells (sput 0 m a b) (a + 1) bs) p = _
    rw [ih, sget_sput, List.length_cons]
    by_cases h0 : p = a
    · subst h0
      rw [if_neg (by omega), if_pos rfl, if_pos (by omega), Nat.sub_self]; rfl
    · by_cases h : a + 1 ≤ p ∧ p < a + 1 + bs.length
      · rw [if_pos h, if_pos (by omega), show p - a = (p - (a + 1)) + 1 by omega]; rfl
      · rw [if_neg h, if_neg h0, if_neg (by omega)]

/-- Bytes just written read back. -/
theorem cells_putCells (m : List Host.Cell) (a : Nat) (bs : List Byte) : cells (putCells m a bs) a bs.length = bs := by
  apply List.ext_getElem
  · simp [cells]
  · intro i h1 h2
    simp only [cells, List.getElem_map, List.getElem_range, sget_putCells]
    rw [if_pos (by omega), show a + i - a = i by omega, List.getD_eq_getElem?_getD, List.getElem?_eq_getElem h2]; rfl

/-- A local store after bytes have been written to it. -/
theorem lsByte_lsPut (s : State) (i a : Nat) (bs : List Byte) (j p : Nat) :
    (s.lsPut i a bs).lsByte j p =
      if j = i ∧ a ≤ p ∧ p < a + bs.length then bs.getD (p - a) 0 else s.lsByte j p := by
  rw [State.lsByte, State.lsPut, core_modCore]
  by_cases h : j = i
  · rw [if_pos h]
    show sget 0 (putCells (s.core i).ls a bs) p = _
    rw [sget_putCells, h]
    simp only [true_and, State.lsByte]
  · rw [if_neg h, if_neg (fun e => h e.1)]; rfl

/-- A write of local-store bytes leaves device memory and the host's memory alone. -/
theorem lsPut_mem (s : State) (i a : Nat) (bs : List Byte) : (s.lsPut i a bs).mem = s.mem := rfl

end Sys2Proof
end

