-- ==== Sys2Proof/Laws/Faults.lean ====
section
/-!
SUPPORT. What taking a context fault, aborting a transaction, holding a bundle and storing to the local store do, once each, with
their frames.
-/
namespace Sys2Proof
open Machine

/-! ### Updates that touch no core -/

theorem pokeCt_eq (s : State) (i : Nat) : ∃ l, s.pokeCt i = { s with todo := l } := by
  unfold State.pokeCt
  split
  · exact ⟨_, rfl⟩
  · exact ⟨s.todo, rfl⟩

theorem blockEnded_eq (s : State) (i c : Nat) : ∃ l, s.blockEnded i c = { s with agenda := l } := by
  unfold State.blockEnded
  split
  · exact ⟨_, rfl⟩
  · exact ⟨s.agenda, rfl⟩

theorem endJob_eq (s : State) (j : Nat) (st : JSt) (c : Nat) :
    ∃ a b d, s.endJob j st c = { s with jobs := a, agenda := b, host := d } := by
  unfold State.endJob
  split
  · exact ⟨s.jobs, s.agenda, s.host, rfl⟩
  · split
    · exact ⟨s.jobs, s.agenda, s.host, rfl⟩
    · exact ⟨_, _, _, rfl⟩

theorem cancelHeld_eq (i c : Nat) (l : List (Nat × Job)) (s : State) :
    ∃ a b d, (cancelHeld i c l s).1 = { s with jobs := a, agenda := b, host := d } := by
  induction l generalizing s with
  | nil => exact ⟨s.jobs, s.agenda, s.host, rfl⟩
  | cons e l ih =>
    obtain ⟨j, x⟩ := e
    unfold cancelHeld
    split
    · obtain ⟨a, b, d, h⟩ := endJob_eq s j .cancelled 0
      obtain ⟨a', b', d', h'⟩ := ih ((s.endJob j .cancelled 0).at s.time (.jobTerminal j))
      exact ⟨a', b', d', by rw [h', h]; rfl⟩
    · exact ih s

/-- A core reads the same where only other fields have changed. -/
theorem core_congr {s t : State} (h : t.cores = s.cores) (i : Nat) : t.core i = s.core i := by
  simp only [State.core, h]

theorem cx_congr {s t : State} (h : t.cores = s.cores) (i c : Nat) : t.cx i c = s.cx i c := by
  simp only [State.cx, core_congr h]

/-- This step's context, read where the cores are those of `u`. -/
theorem me_of {s t u : State} (hc : t.cur = s.cur) (h : t.cores = u.cores) : t.me = u.cx s.cur.core s.cur.ctx := by
  rw [State.me, hc, cx_congr h]

/-- This step's core, read where the cores are those of `u`. -/
theorem myCore_of {s t u : State} (hc : t.cur = s.cur) (h : t.cores = u.cores) : t.myCore = u.core s.cur.core := by
  rw [State.myCore, hc, core_congr h]

/-! ### Context faults (R303–R305) -/

/-- A context with no transaction takes a fault. -/
theorem takeCtxFault_eq (s : State) (i c : Nat) (f : FaultRep) (alone : Bool) (h : (s.cx i c).txn = none) :
    let x := s.cx i c
    let x' : Ctx := { x with
      st := .faulted, latch := f.bundle, cause := f, alone := alone, wait := .none, reissue := false, quash := true }
    ∃ a l, takeCtxFault s i c f alone =
      { (((s.modCx i c (fun _ => x')).modCore i (fun k => k.queueFault c f s.time))) with agenda := a, todo := l } := by
  intro x x'
  rw [takeCtxFault, h]
  simp only [Option.isSome_none, Bool.false_eq_true, if_false]
  obtain ⟨l, hl⟩ := pokeCt_eq ((s.modCx i c (fun x => { x with
      st := .faulted, latch := f.bundle, cause := f, alone := alone, wait := .none, reissue := false
      quash := true })).modCore i (fun k => k.queueFault c f s.time)) i
  rw [hl]
  obtain ⟨a, ha⟩ := blockEnded_eq { ((s.modCx i c (fun x => { x with
      st := .faulted, latch := f.bundle, cause := f, alone := alone, wait := .none, reissue := false
      quash := true })).modCore i (fun k => k.queueFault c f s.time)) with todo := l } i c
  exact ⟨a, l, ha⟩

/-- Queueing a fault touches the fault queue alone. -/
theorem queueFault_eq (k : Core) (c : Nat) (f : FaultRep) (now : Nat) :
    k.queueFault c f now = { k with
      faultq := (k.queueFault c f now).faultq, faultAt := (k.queueFault c f now).faultAt
      faultNew := (k.queueFault c f now).faultNew } := by
  unfold Core.queueFault
  split <;> rfl

/-- The entry of a fault joins those of its cycle in its place. -/
theorem insertFault_split (c : Nat) (w : Word) (l : List Word) :
    ∃ p q, l = p ++ q ∧ (∀ x, x ∈ p → entryCtx x ≤ c) ∧ (∀ x, q.head? = some x → c < entryCtx x) ∧ insertFault c w l = p ++ [w] ++ q := by
  induction l with
  | nil => exact ⟨[], [], rfl, by simp, by simp, rfl⟩
  | cons x t ih =>
    by_cases h : c < entryCtx x
    · exact ⟨[], x :: t, rfl, by simp, by simpa using h, by simp [insertFault, h]⟩
    · obtain ⟨p, q, e, hp, hq, hi⟩ := ih
      refine ⟨x :: p, q, by rw [e]; rfl, fun y hy => ?_, hq, by rw [insertFault, if_neg h, hi]; rfl⟩
      rcases List.mem_cons.1 hy with rfl | hy
      · omega
      · exact hp y hy

/-- What MTFAULT holds once an entry has joined (R305). -/
theorem queueFault_joins (k : Core) (c : Nat) (f : FaultRep) (now : Nat) :
    if k.faultq.any (fun w => entryCtx w = c) then (k.queueFault c f now).faultq = k.faultq
    else EntryJoins k.faultq (if k.faultAt = now then k.faultNew else 0) c (faultEntry c f) (k.queueFault c f now).faultq := by
  by_cases h : k.faultq.any (fun w => entryCtx w = c) = true
  · rw [if_pos h, Core.queueFault, if_pos h]
  · rw [if_neg h, Core.queueFault, if_neg h]
    obtain ⟨p, q, e, hp, hq, hi⟩ := insertFault_split c (faultEntry c f)
      (k.faultq.drop (k.faultq.length - (if k.faultAt = now then k.faultNew else 0)))
    exact ⟨p, q, e, hp, hq, by simp only [hi, List.append_assoc]⟩

/-- The frame of a fault of this step's context, which may be followed by a change of that context. -/
theorem faultedWith_of (s t u : State) (f : FaultRep) (alone quash : Bool) (x' : Ctx)
    (hu : u = (s.modCore s.cur.core (fun k => k.queueFault s.cur.ctx f s.time)).modCx s.cur.core s.cur.ctx (fun _ => x'))
    (ht : t = { u with agenda := t.agenda, todo := t.todo })
    (hx : x' = { s.me with
      st := .faulted, latch := f.bundle, cause := f, alone := alone, quash := quash, wait := .none, reissue := false }) :
    FaultedWith s t f alone quash := by
  have hc : t.cores = u.cores := by rw [ht]
  have hcur : t.cur = s.cur := by rw [ht, hu]; rfl
  have hm : ∀ d, (s.modCore s.cur.core (fun k => k.queueFault s.cur.ctx f s.time)).cx s.cur.core d = s.cx s.cur.core d :=
    fun d => cx_modCore s _ _ d _ (by rw [queueFault_eq])
  refine ⟨⟨?_, fun j hj => ?_, fun d hd => ?_⟩, ?_, ?_, ?_⟩
  · rw [ht, hu]; rfl
  · rw [core_congr hc, hu, core_modCx_ne _ _ hj, core_modCore_ne _ hj]
  · rw [cx_congr hc, hu, cx_modCx, if_neg (fun h => hd h.2), hm]
  · rw [me_of hcur hc, hu, cx_modCx_same, hx]
  · rw [myCore_of hcur hc, hu, core_modCx_same, core_modCore_same, queueFault_eq]; rfl
  · rw [myCore_of hcur hc, hu, core_modCx_same, core_modCore_same]
    exact queueFault_joins _ _ _ _

/-- A change of one context and one of its core's fields beside the contexts may be taken in either order. -/
theorem modCx_modCore_queue (s : State) (i c : Nat) (x : Ctx) (f : FaultRep) :
    (s.modCx i c (fun _ => x)).modCore i (fun k => k.queueFault c f s.time)
      = (s.modCore i (fun k => k.queueFault c f s.time)).modCx i c (fun _ => x) := by
  have e : ∀ (l : List (Nat × Core)) (k k' : Core), sins i k' (sins i k l) = sins i k' l := by
    intro l k k'
    induction l with
    | nil => simp [sins]
    | cons h t ih =>
      obtain ⟨n, v⟩ := h
      by_cases h1 : n = i
      · simp [sins, h1]
      · by_cases h2 : i < n
        · simp [sins, h1, h2]
        · simp [sins, h1, h2, ih]
  have q : ∀ (k : Core) (l : List (Nat × Ctx)), ({ k with ctxs := l } : Core).queueFault c f s.time
      = { k.queueFault c f s.time with ctxs := l } := by
    intro k l
    unfold Core.queueFault
    split <;> rfl
  have r : (((s.core i).queueFault c f s.time).ctxs) = (s.core i).ctxs := by rw [queueFault_eq]
  simp only [State.core] at r
  simp only [State.modCx, State.setCx, State.modCore, State.setCore, State.core, sfind_sins, if_true, Option.getD_some, e]
  rw [q]
  simp only [r]

/-- A fault found at issue (R138, R303). -/
theorem takeCtxFault_faulted (s : State) (f : FaultRep) (alone : Bool) (h : s.me.txn = none) :
    FaultedWith s (takeCtxFault s s.cur.core s.cur.ctx f alone) f alone true := by
  obtain ⟨a, l, e⟩ := takeCtxFault_eq s s.cur.core s.cur.ctx f alone h
  rw [e, modCx_modCore_queue]
  exact faultedWith_of s _ _ f alone true _ rfl rfl rfl

/-! ### Aborts (R152, R284–R287) -/

theorem ls_modCore (s : State) (i j : Nat) (f : Core → Core) (h : (f (s.core i)).ls = (s.core i).ls) :
    ((s.modCore i f).core j).ls = (s.core j).ls := by
  rw [core_modCore]
  by_cases e : j = i
  · rw [if_pos e, h, e]
  · rw [if_neg e]

/-- What an abort leaves of a context. -/
def aborted (x : Txn) (cause code : Nat) (retry held : Bool) (gran now : Nat) (y : Ctx) : Ctx :=
  { y with
    s := x.ckS, m := x.ckM, txn := none, age := if retry then y.age else none, handler := none, shownAt := 0
    txstat := txstatWord cause code x.depth retry held gran
    st := (match y.st with | .run | .waitMem | .waitQ | .waitBar => .run | st => st)
    pc := x.target, copy := true, bufOk := false, inBlock := false, bcastEnd := none, reissue := false, alone := false
    wait := .none, xfer := none, quash := true, readyAt := now + 1 }

/-- An abort of this step's context, from a state that differs in its tile buffer and outside the cores. -/
theorem aborted_of (s s2 : State) (x : Txn) (cause code : Nat) (retry held : Bool) (gran : Nat) (gs : List Nat)
    (hcores : s2.cores = (s.modCore s.cur.core (fun k => k.dropGrans s.cur.ctx gs)).cores) (hcur : s2.cur = s.cur)
    (hmem : s2.mem = s.mem) (hhm : s2.hostMem = s.hostMem) :
    AbortedWith s ((s2.modCx s.cur.core s.cur.ctx (aborted x cause code retry held gran s.time)).blockEnded s.cur.core s.cur.ctx)
      x cause code retry gran := by
  obtain ⟨l, el⟩ := blockEnded_eq (s2.modCx s.cur.core s.cur.ctx (aborted x cause code retry held gran s.time)) s.cur.core s.cur.ctx
  generalize hu : s2.modCx s.cur.core s.cur.ctx (aborted x cause code retry held gran s.time) = u at el ⊢
  generalize u.blockEnded s.cur.core s.cur.ctx = t at el ⊢
  have hc : t.cores = u.cores := by rw [el]
  have hcu : t.cur = s.cur := by rw [el, ← hu]; exact hcur
  have hc0 : ∀ j, s2.core j = (s.modCore s.cur.core (fun k => k.dropGrans s.cur.ctx gs)).core j := core_congr hcores
  have hx0 : s2.cx s.cur.core s.cur.ctx = s.me := (cx_congr hcores _ _).trans (cx_modCore s _ _ _ _ rfl)
  have hme : t.me = aborted x cause code retry held gran s.time s.me := by
    rw [me_of hcu hc, ← hu, cx_modCx_same, hx0]
  have hmy : t.myCore = { (s.core s.cur.core).dropGrans s.cur.ctx gs with
      ctxs := sins s.cur.ctx (aborted x cause code retry held gran s.time s.me)
        ((s.core s.cur.core).dropGrans s.cur.ctx gs).ctxs } := by
    rw [myCore_of hcu hc, ← hu, core_modCx_same, hx0, hc0, core_modCore_same]
  have hls : ∀ j, (t.core j).ls = (s.core j).ls := by
    intro j
    rw [core_congr hc, ← hu]
    by_cases e : j = s.cur.core
    · rw [e, core_modCx_same]; show (s2.core s.cur.core).ls = _; rw [hc0]; exact ls_modCore s _ _ _ rfl
    · rw [core_modCx_ne _ _ e, hc0]; exact ls_modCore s _ _ _ rfl
  refine ⟨⟨held, ?_⟩, ?_, ?_, ?_, ?_, ?_, ?_, ?_, ?_, ?_, ?_, ?_, ?_, ?_, ?_, ⟨fun p => ?_, fun p => ?_, fun i p => ?_⟩⟩
  case refine_13 => rw [hme]; simp only [aborted]; cases s.me.st <;> rfl
  case refine_14 => rw [hmy]; rfl
  case refine_15 => rw [hmy]; rfl
  case refine_16 => rw [State.byteAt, el, ← hu]; show sget 0 s2.mem p = _; rw [hmem]; rfl
  case refine_17 => rw [el, ← hu]; show sget 0 s2.hostMem p = _; rw [hhm]
  case refine_18 => simp only [State.lsByte, hls]
  all_goals (rw [hme]; rfl)

/-- The transaction of this step's context aborts. -/
theorem abortTxn_aborted (s : State) (x : Txn) (cause code : Nat) (retry : Bool) (gran : Nat) (h : s.me.txn = some x) :
    AbortedWith s (abortTxn s s.cur.core s.cur.ctx cause code retry gran) x cause code retry gran := by
  obtain ⟨a, b, d, e⟩ := cancelHeld_eq s.cur.core s.cur.ctx s.jobs.list (s.dropMarks s.cur.core s.cur.ctx)
  simp only [State.me] at h
  rw [abortTxn, h]
  exact aborted_of s _ x cause code retry _ gran _ (by rw [e]; rfl) (by rw [e]; rfl) (by rw [e]; rfl) (by rw [e]; rfl)

/-- A fault found at issue, with or without a transaction (R138, R286, R303). -/
theorem aFaultAt_faults (s : State) (cause : Nat) (detail : BitVec 40) (gran : Nat) :
    FaultsAt s (ok (aFaultAt s cause detail gran)) cause detail gran := by
  refine ⟨_, rfl, ?_⟩
  cases h : s.me.txn with
  | none => exact takeCtxFault_faulted s _ _ h
  | some x =>
    have h' : (s.cx s.cur.core s.cur.ctx).txn = some x := h
    simp only [aFaultAt, takeCtxFault, h', Option.isSome_some, if_true]
    exact abortTxn_aborted s x 6 cause false _ h

/-- A fault found at issue that concerns no granule. -/
theorem aFault_faults (s : State) (cause : Nat) (detail : BitVec 40) :
    FaultsAtIssue s (ok (aFault s cause detail)) cause detail := aFaultAt_faults s cause detail 0

theorem blockEnded_cur (s : State) (i c : Nat) : (s.blockEnded i c).cur = s.cur := by
  obtain ⟨l, e⟩ := blockEnded_eq s i c
  rw [e]

/-- An abort leaves whose step it is. -/
theorem abortTxn_cur (s : State) (i c cause code : Nat) (retry : Bool) (gran : Nat) :
    (abortTxn s i c cause code retry gran).cur = s.cur := by
  unfold abortTxn
  split
  · rfl
  · obtain ⟨a, b, d, e⟩ := cancelHeld_eq i c s.jobs.list (s.dropMarks i c)
    refine (blockEnded_cur _ i c).trans ?_
    show (cancelHeld i c s.jobs.list (s.dropMarks i c)).1.cur = s.cur
    rw [e]; rfl

/-- The A-slot aborts the transaction of its context; the V-slot still acts (R273). -/
theorem abortMe_aborts (s : State) (x : Txn) (cause code gran : Nat) (h : s.me.txn = some x) :
    AbortsHere s (ok (abortMe s cause code gran)) x cause code gran := by
  have a := abortTxn_aborted s x cause code false gran h
  have hc := abortTxn_cur s s.cur.core s.cur.ctx cause code false gran
  rw [abortMe, h, Option.isNone_some, if_neg (by simp)]
  generalize abortTxn s s.cur.core s.cur.ctx cause code false gran = u at a hc ⊢
  have hm : (u.modMe (fun x => { x with vStill := x.quash })).me = { u.me with vStill := u.me.quash } := me_modMe ..
  have hb := (onlyCtx_modCx u u.cur.core u.cur.ctx (fun x => { x with vStill := x.quash }))
  have hk : (u.modMe (fun x => { x with vStill := x.quash })).myCore
      = { u.myCore with ctxs := (u.modMe (fun x => { x with vStill := x.quash })).myCore.ctxs } := hb.2.1
  obtain ⟨a0, a1, a2, a3, a4, a5, a6, a7, a8, a9, a10, a11, a12, a13, a14, a15⟩ := a
  refine ⟨_, rfl, ⟨?_, ?_, ?_, ?_, ?_, ?_, ?_, ?_, ?_, ?_, ?_, ?_, ?_, ?_, ?_, ?_⟩, ?_⟩
  case refine_14 => rw [hk]; exact a13
  case refine_15 => rw [hk]; exact a14
  case refine_16 =>
    have e := hb.bytes
    exact ⟨fun p => (e.1 p).trans (a15.1 p), fun p => (e.2.1 p).trans (a15.2.1 p), fun i p => (e.2.2 i p).trans (a15.2.2 i p)⟩
  all_goals (rw [hm]; assumption)

/-! ### Bundles that wait -/

/-- A bundle that does not issue now. -/
theorem holdBundle_holds (s : State) (st : CSt) (w : CWait) : Holds s (ok (holdBundle s st w)) st w := by
  have h := onlyCtx_modCx s s.cur.core s.cur.ctx (fun x => { x with
    st := st, wait := w, pc := if x.reissue || x.copy then x.pc else x.irPc, quash := true, xfer := none })
  have key : ∀ t : State, t = { (s.modCx s.cur.core s.cur.ctx (fun x => { x with
      st := st, wait := w, pc := if x.reissue || x.copy then x.pc else x.irPc, quash := true, xfer := none })) with agenda := t.agenda } →
      Holds s (ok t) st w := by
    intro t ht
    have hc : t.cores = (s.modCx s.cur.core s.cur.ctx (fun x => { x with
      st := st, wait := w, pc := if x.reissue || x.copy then x.pc else x.irPc, quash := true, xfer := none })).cores := by rw [ht]
    have hcu : t.cur = s.cur := by rw [ht]; rfl
    refine ⟨t, rfl, by rw [ht]; rfl, fun j hj => ?_, fun d hd => ?_, ?_, ?_⟩
    · rw [core_congr hc]; exact h.1.2 j hj
    · rw [cx_congr hc]; exact h.2.2 d hd
    · rw [me_of hcu hc, cx_modCx_same]
      simp only [Bool.or_eq_true]; rfl
    · rw [myCore_of hcu hc]; exact h.2.1
  unfold holdBundle
  simp only []
  split
  · exact key _ rfl
  · obtain ⟨l, e⟩ := blockEnded_eq (s.modCx s.cur.core s.cur.ctx (fun x => { x with
      st := st, wait := w, pc := if x.reissue || x.copy then x.pc else x.irPc, quash := true, xfer := none })) s.cur.core s.cur.ctx
    exact key _ (by rw [e])

/-! ### Stores to the local store -/

/-- A fold keeps a property that each of its steps keeps. -/
theorem foldl_keeps {α β : Type} (P : β → Prop) (f : β → α → β) (hf : ∀ b a, P b → P (f b a)) (l : List α) (b : β) (h : P b) :
    P (l.foldl f b) := by
  induction l generalizing b with
  | nil => exact h
  | cons a l ih => exact ih _ (hf b a h)

theorem logUndo_eq (k : Core) (a n : Nat) : ∃ p, logUndo k a n = { k with pair := p } := by
  unfold logUndo
  split
  · exact ⟨k.pair, rfl⟩
  · refine foldl_keeps (fun k' => ∃ p, k' = { k with pair := p }) _ ?_ _ _ ⟨k.pair, rfl⟩
    rintro b j ⟨p, rfl⟩
    simp only []
    split
    · exact ⟨p, rfl⟩
    · exact ⟨_, rfl⟩

theorem logUndo_off (k : Core) (a n : Nat) (h : k.pair.on = false) : logUndo k a n = k := by
  simp only [logUndo, h, Bool.not_false, if_true]

/-- A context's store to its local store. -/
theorem lsStore_stores (s : State) (a : Nat) (bs : List Byte) :
    StoresLocal s (ok (s.lsStore s.cur.core s.cur.ctx a bs)) a bs := by
  obtain ⟨p, hp⟩ := logUndo_eq (s.core s.cur.core) a bs.length
  have e0 : s.modCore s.cur.core (fun k => logUndo k a bs.length) = s.modCore s.cur.core (fun k => { k with pair := p }) := by
    simp only [State.modCore, hp]
  have hcore : ∀ s1 : State, s1 = s.modCore s.cur.core (fun k => { k with pair := p }) →
      StoresLocal s (ok ((s1.lsPut s.cur.core a bs).modCx s.cur.core s.cur.ctx
        (fun x => { x with stRes := x.stRes ++ [(a, bs)] }))) a bs := by
    intro s1 h1
    have hm : ∀ u : State, u.cur = s.cur → u.myCore = u.core s.cur.core := fun u h => by rw [State.myCore, h]
    have hls : ∀ q, (s1.lsPut s.cur.core a bs).lsByte s.cur.core q =
        if a ≤ q ∧ q < a + bs.length then bs.getD (q - a) 0 else s.lsByte s.cur.core q := by
      intro q
      rw [lsByte_lsPut]
      simp only [true_and]
      have : s1.lsByte s.cur.core q = s.lsByte s.cur.core q := by
        rw [h1]; simp only [State.lsByte, core_modCore_same]
      rw [this]
    have hcx : ∀ d, (s1.lsPut s.cur.core a bs).cx s.cur.core d = s.cx s.cur.core d := by
      intro d
      rw [State.lsPut, cx_modCore _ _ _ _ _ rfl, h1, cx_modCore _ _ _ _ _ rfl]
    refine ⟨_, rfl, ⟨?_, fun j hj => ?_⟩, fun q => ?_, ?_, fun ho => ?_, fun d hd => ?_, ?_⟩
    · rw [h1]; rfl
    · rw [core_modCx_ne _ _ hj, State.lsPut, core_modCore_ne _ hj, h1, core_modCore_ne _ hj]
    · rw [← hls q]; simp only [State.lsByte, core_modCx_same]
    · rw [hm _ (by rw [h1]; rfl), core_modCx_same, State.lsPut, core_modCore_same, h1, core_modCore_same]; rfl
    · rw [hm _ (by rw [h1]; rfl), core_modCx_same, State.lsPut, core_modCore_same, h1, core_modCore_same]
      have e := congrArg Core.pair ((logUndo_off (s.core s.cur.core) a bs.length ho).symm.trans hp)
      exact e.symm
    · rw [cx_modCx, if_neg (fun h => hd h.2), hcx]
    · have hm : ∀ u : State, u.cur = s.cur → u.me = u.cx s.cur.core s.cur.ctx := fun u h => by rw [State.me, h]
      rw [hm _ (by rw [h1]; rfl), cx_modCx_same, hcx]; rfl
  rw [State.lsStore, e0]
  exact hcore _ rfl

/-- The value of local-store bytes. -/
theorem lsVal_eq (s : State) (i a n : Nat) : s.lsVal i a n = lsNum s i a n := by
  simp only [State.lsVal, State.lsGet]
  induction n generalizing a with
  | zero => rfl
  | succ n ih =>
    rw [lsNum, ← ih (a + 1)]
    simp only [cells, List.range_succ_eq_map, List.map_cons, List.map_map, leVal, Nat.add_zero]
    congr 3
    apply List.map_congr_left
    intro x _
    simp only [Function.comp]
    congr 1
    omega

end Sys2Proof
end

