-- ==== Sys2Proof/Laws/Globals.lean ====
section
/-!
SUPPORT. What issuing a global access does, once, with its frame: requests, releases, and the checks of an address.
-/
namespace Sys2Proof
open Machine

theorem mem_insertEv {rank : Ev → Nat} {d : Nat} {e : Ev} {x : Nat × Ev} (l : List (Nat × Ev)) :
    x ∈ insertEv rank d e l ↔ x = (d, e) ∨ x ∈ l := by
  induction l with
  | nil => simp [insertEv]
  | cons a l ih =>
    obtain ⟨d', e'⟩ := a
    unfold insertEv
    split
    · simp [List.mem_cons]
    · simp only [List.mem_cons, ih]
      constructor
      · rintro (h | h | h) <;> simp [h]
      · rintro (h | h | h) <;> simp [h]

theorem mem_after {s : State} {n : Nat} {e : Ev} {x : Nat × Ev} :
    x ∈ (s.after n e).agenda ↔ x = (s.time + n, e) ∨ x ∈ s.agenda := mem_insertEv _

theorem myWho_alone (s : State) (h : s.myCore.pair.on = false) : s.myWho = me' s := by
  show Who.cx (if ((s.myCore.pair.on && _) = true) then _ else _) _ = _
  rw [h]; rfl

theorem performedAt_iff (s : State) (h : s.myCore.pair.on = false) (sc : Scope) :
    s.performedAt s.myWho sc s.nextReq = true ↔ Performed s sc := by
  rw [myWho_alone s h]
  unfold State.performedAt Performed
  rw [List.all_eq_true]
  constructor
  · intro H r q hm hw hl hr
    have := H (r, q) hm
    simp only [hw, hl, hr, decide_true, Bool.and_self, Bool.not_true, Bool.false_or] at this
    cases sc <;> simp_all
  · rintro H ⟨r, q⟩ hm
    by_cases hc : (decide (q.who = me' s) && q.live && decide (r < s.nextReq)) = true
    · simp only [Bool.and_eq_true, decide_eq_true_eq] at hc
      have := H r q hm hc.1.1 hc.1.2 hc.2
      simp only [hc, decide_true, Bool.and_self, Bool.not_true, Bool.false_or]
      cases sc <;> simp_all
    · simp only [hc, Bool.not_false, Bool.true_or]

/-- The state in which request `q` is on its way to its serving slice. -/
def sentState (s : State) (q : Req) : State :=
  State.after { s with
    reqs := sins s.nextReq { q with issued := s.time } (sins s.nextReq q s.reqs), nextReq := s.nextReq + 1 } (13 + 2 * q.h)
    (.sliceAccess s.nextReq)

theorem sendReq_eq (s : State) (r : Nat) (q : Req) (e : s.req r = some q) (h : tileServes (s.core q.who.core) q = false) :
    sendReq s r = (s.setReq r { q with issued := s.time }).after (13 + 2 * q.h) (.sliceAccess r) := by
  have ht : tileServes (s.core q.who.core) { q with issued := s.time } = false := h
  unfold sendReq
  rw [e]
  simp only []
  split
  · rename_i l hl
    rw [if_neg (by rw [ht]; simp)] at hl
    cases hl
  · rfl

/-- An access that no tile buffer serves leaves for its slice. -/
theorem issueReq_eq (s : State) (q : Req) (h : tileServes (s.core q.who.core) q = false) :
    issueReq s q = (sentState s q, s.nextReq) := by
  have e : State.req { s.setReq s.nextReq q with nextReq := s.nextReq + 1 } s.nextReq = some q := by
    simp only [State.req, State.setReq, sfind_sins, if_true]
  have := sendReq_eq { s.setReq s.nextReq q with nextReq := s.nextReq + 1 } s.nextReq q e h
  show (sendReq { s.setReq s.nextReq q with nextReq := s.nextReq + 1 } s.nextReq, s.nextReq) = _
  rw [this]; rfl

/-- What stands in the cores is nothing to a request on its way. -/
theorem sentState_cores (s : State) (l : List (Nat × Core)) (q : Req) :
    (sentState { s with cores := l } q).agenda = (sentState s q).agenda := rfl

theorem sentState_sent (s t : State) (q : Req) (hr : t.reqs = (sentState s q).reqs) (hn : t.nextReq = s.nextReq + 1)
    (ha : t.agenda = (sentState s q).agenda) (hm : SameBytes s t) : Sent s t s.nextReq q := by
  refine ⟨?_, hn, fun k hk => ?_, ?_, fun e he => ?_, hm⟩
  · simp only [State.req, hr, sentState, State.after_reqs, sfind_sins, if_true]
  · simp only [State.req, hr, sentState, State.after_reqs, sfind_sins, hk, if_false]
  · rw [ha, sentState, mem_after]; exact Or.inl rfl
  · rw [ha, sentState, mem_after]; exact Or.inr he

theorem onlyCtx_refl (s : State) (i c : Nat) : OnlyCtx s s i c := ⟨⟨rfl, fun _ _ => rfl⟩, rfl, fun _ _ => rfl⟩

/-- A context's access leaves, from a state `s1` that differs from `s` in what the step keeps of its bundle. -/
theorem ctxIssue_issues (s s1 : State) (o1 : OnlyCtx s s1 s.cur.core s.cur.ctx) (hm : s1.me = { s.me with stRes := s1.me.stRes, sWrote := s1.me.sWrote })
    (q : Req) (wait : Bool) (hp : s.myCore.pair.on = false) (hq : q.who = me' s) (h : tileServes s.myCore q = false) :
    IssuesGlobal s (ok (ctxIssue s1 q wait)) q wait := by
  have hcu : s1.cur = s.cur := by rw [o1.1.1]
  have hti : s1.time = s.time := by rw [o1.1.1]
  have hnr : s1.nextReq = s.nextReq := by rw [o1.1.1]
  have hrq : s1.reqs = s.reqs := by rw [o1.1.1]
  have hag : s1.agenda = s.agenda := by rw [o1.1.1]
  have hpo : (s1.myCore.pair.on && s1.myCore.pair.odd) = false := by
    have e : s1.myCore.pair = s.myCore.pair := by
      rw [State.myCore, hcu, o1.2.1]; rfl
    rw [e, hp]; rfl
  have hx : s1.me.ir = s.me.ir ∧ s1.me.irPc = s.me.irPc := by rw [hm]; exact ⟨rfl, rfl⟩
  have hts : ∀ q' : Req, q'.who = q.who → q'.op = q.op → q'.va = q.va → q'.size = q.size → q'.hold = q.hold →
      tileServes (s1.core q'.who.core) q' = false := by
    intro q' h1 h2 h3 h4 h5
    have e : s1.core q'.who.core = { s.core s.cur.core with ctxs := (s1.core s.cur.core).ctxs } := by
      rw [h1, hq]; exact o1.2.1
    have e2 : tileServes { s.core s.cur.core with ctxs := (s1.core s.cur.core).ctxs } q' = tileServes s.myCore q := by
      unfold tileServes; rw [h1, h2, h3, h4, h5]; rfl
    rw [e, e2]; exact h
  have hsent : ∀ (q' : Req) (t : State), t.reqs = (sentState s1 q').reqs → t.nextReq = s1.nextReq + 1 →
      t.agenda = (sentState s1 q').agenda → SameBytes s t → Sent s t s.nextReq q' := by
    intro q' t a b c d
    refine sentState_sent s t q' ?_ (by rw [b, hnr]) ?_ d
    · rw [a]; simp only [sentState, State.after_reqs, hrq, hnr, hti]
    · rw [c, o1.1.1]; exact sentState_cores _ _ _
  simp only [ctxIssue, hpo, Bool.false_eq_true, if_false, hx.1, hx.2]
  have hi : ∀ b : Word, issueReq s1 { q with bundle := b, pc := s.me.irPc }
      = (sentState s1 { q with bundle := b, pc := s.me.irPc }, s1.nextReq) :=
    fun b => issueReq_eq _ _ (hts _ rfl rfl rfl rfl rfl)
  simp only [hi]
  have key : ∀ q' t, t = (sentState s1 q') → ∀ g : Ctx → Ctx,
      (∀ d, (t.modMe g).cx s.cur.core d = if d = s.cur.ctx then g s1.me else s.cx s.cur.core d)
        ∧ (∀ j, j ≠ s.cur.core → (t.modMe g).core j = s.core j)
        ∧ (t.modMe g).core s.cur.core = { s.core s.cur.core with ctxs := ((t.modMe g).core s.cur.core).ctxs } := by
    intro q' t ht g
    have hu : t.cores = s1.cores := by rw [ht]; rfl
    have hcu' : t.cur = s.cur := by rw [ht]; exact hcu
    have hucx : ∀ d, t.cx s.cur.core d = if d = s.cur.ctx then s1.me else s.cx s.cur.core d := by
      intro d; rw [cx_congr hu]
      by_cases e : d = s.cur.ctx
      · rw [if_pos e, e, State.me, hcu]
      · rw [if_neg e]; exact o1.2.2 d e
    refine ⟨fun d => ?_, fun j hj => ?_, ?_⟩
    · rw [State.modMe, hcu', cx_modCx, hucx]
      by_cases e : d = s.cur.ctx
      · rw [if_pos ⟨rfl, e⟩, if_pos e, if_pos rfl]
      · rw [if_neg (fun h => e h.2), if_neg e, hucx, if_neg e]
    · rw [State.modMe, hcu', core_modCx_ne _ _ hj, core_congr hu]; exact o1.1.2 j hj
    · rw [State.modMe, hcu', core_modCx_same, core_congr hu, o1.2.1]
  have hmc : ∀ u : State, u.cur = s1.cur → u.core s.cur.core = { s.core s.cur.core with ctxs := (u.core s.cur.core).ctxs } →
      u.myCore = { s.myCore with ctxs := u.myCore.ctxs } := by
    intro u h1 h2
    rw [State.myCore, h1, hcu]; exact h2
  cases wait with
  | false =>
    simp only [Bool.false_eq_true, if_false]
    refine ⟨_, rfl, hsent _ _ rfl rfl rfl ?_, fun j hj => o1.1.2 j hj, fun d hd => o1.2.2 d hd, ?_, ?_⟩
    · have hb := o1.bytes
      exact ⟨hb.1, hb.2.1, hb.2.2⟩
    · exact hmc _ rfl o1.2.1
    · exact hm
  | true =>
    simp only [if_true]
    obtain ⟨k1, k2, k3⟩ := key { q with bundle := aSlotOnly s.me.ir, pc := s.me.irPc } _ rfl
        (fun x => { x with st := .waitMem, wait := .reply s1.nextReq })
    refine ⟨_, rfl, hsent _ _ rfl rfl rfl ?_, k2, fun d hd => (k1 d).trans (if_neg hd), ?_, ?_⟩
    · refine ⟨fun a => ?_, fun a => ?_, fun i a => ?_⟩
      · show sget 0 s1.mem a = _
        rw [o1.1.1]; rfl
      · show sget 0 s1.hostMem a = _
        rw [o1.1.1]
      by_cases e : i = s.cur.core
      · have h3 := congrArg (fun k => sget 0 (Core.ls k) a) k3
        rw [e]; exact h3
      · exact congrArg (fun k => sget 0 (Core.ls k) a) (k2 i e)
    · exact hmc _ rfl k3
    · have hk : ∀ t : State, t.me = { s1.me with st := .waitMem, wait := .reply s.nextReq } →
          t.me = { s.me with stRes := t.me.stRes, sWrote := t.me.sWrote, st := .waitMem, wait := .reply s.nextReq } := by
        intro t ht; rw [ht, hm]
      refine hk _ ?_
      show State.cx _ s1.cur.core s1.cur.ctx = _
      rw [hcu]
      exact (k1 s.cur.ctx).trans (by rw [if_pos rfl, hnr])

/-- A release access whose earlier accesses are performed leaves. -/
theorem ctxRelease_issues (s s1 : State) (o1 : OnlyCtx s s1 s.cur.core s.cur.ctx) (hm : s1.me = { s.me with stRes := s1.me.stRes, sWrote := s1.me.sWrote })
    (q : Req) (sc : Scope) (wait : Bool) (hp : s.myCore.pair.on = false) (hq : q.who = me' s)
    (h : tileServes s.myCore q = false) (hr : Releases s (some sc)) : IssuesGlobal s (ok (ctxRelease s1 q sc wait)) q wait := by
  have hcu : s1.cur = s.cur := by rw [o1.1.1]
  have hpo : s1.myCore.pair.on = false := by
    have e : s1.myCore.pair = s.myCore.pair := by rw [State.myCore, hcu, o1.2.1]; rfl
    rw [e, hp]
  have ho : s1.oddCt = false := by
    unfold State.oddCt; rw [hpo]; rfl
  have hper : s1.performedAt s1.myWho sc s1.nextReq = true := by
    rw [performedAt_iff _ hpo]
    have := hr.1
    unfold Performed me' at this ⊢
    rw [hcu, show s1.reqs = s.reqs by rw [o1.1.1], show s1.nextReq = s.nextReq by rw [o1.1.1]]
    exact this
  have hl : s1.me.lost = s.me.lost ∧ s1.me.refused = s.me.refused := by rw [hm]; exact ⟨rfl, rfl⟩
  unfold ctxRelease
  rw [ho, hper]
  simp only [Bool.false_eq_true, if_false, Bool.true_and, hl.1, hl.2]
  rw [if_pos]
  · exact ctxIssue_issues s s1 o1 hm q wait hp hq h
  · by_cases e : sc = .sy
    · have := hr.2 e
      simp [e, this]
    · simp [e]

/-- An address that passes the checks at issue. -/
theorem gChecked_ok (s : State) (a : Word) (n : Nat) (k : State) (h1 : a.toNat % n = 0) (h2 : a.toNat < 2 ^ 48) :
    gChecked s a n k = ok k := by
  rw [gChecked, gFault, if_neg (by simpa using h1), if_neg (by omega)]

theorem gChecked_align (s : State) (a : Word) (n : Nat) (k : State) (h1 : a.toNat % n ≠ 0) :
    FaultsAt s (gChecked s a n k) 2 0 (a.toNat / 256 % 2 ^ 40) := by
  rw [gChecked, gFault, if_pos h1]; exact aFaultAt_faults _ _ _ _

theorem gChecked_prot (s : State) (a : Word) (n : Nat) (k : State) (h1 : a.toNat % n = 0) (h2 : 2 ^ 48 ≤ a.toNat) :
    FaultsAt s (gChecked s a n k) 3 0 (a.toNat / 256 % 2 ^ 40) := by
  rw [gChecked, gFault, if_neg (by simpa using h1), if_pos (by omega)]; exact aFaultAt_faults _ _ _ _

end Sys2Proof
end

