-- ==== Sys2Proof/Laws/Vectors.lean ====
section
/-!
SUPPORT. Elements of register groups: what reads back from a group that has been written, and what the element-wise operation
`vMap` does to each element, to FLAGS and to SRSEED.
-/
namespace Sys2Proof
open Machine

/-! ### Elements of a group -/

theorem elem_lt (w x e : Nat) : elem w x e < 2 ^ w := Nat.mod_lt _ (Nat.two_pow_pos w)

theorem ofElems_cons (w a : Nat) (l : List Nat) : ofElems w (a :: l) = a % 2 ^ w + 2 ^ w * ofElems w l := rfl

/-- Element `e` of a group made of elements. -/
theorem elem_ofElems (w : Nat) (l : List Nat) (e : Nat) : elem w (ofElems w l) e = (l.getD e 0) % 2 ^ w := by
  induction l generalizing e with
  | nil => simp [ofElems, elem]
  | cons a l ih =>
    have hp : 0 < 2 ^ w := Nat.two_pow_pos w
    cases e with
    | zero => simp [elem, ofElems_cons]
    | succ e =>
      have : (ofElems w (a :: l)) >>> (w * (e + 1)) = ofElems w l >>> (w * e) := by
        rw [ofElems_cons, show w * (e + 1) = w + w * e by rw [Nat.mul_add]; omega, Nat.shiftRight_add,
          Nat.shiftRight_eq_div_pow (a % 2 ^ w + _) w, Nat.add_mul_div_left _ _ hp,
          Nat.div_eq_of_lt (Nat.mod_lt _ hp), Nat.zero_add]
      simp only [elem, this, List.getD_cons_succ]
      exact ih e

/-- An element that lies in the low `n` bits is one of those bits alone. -/
theorem elem_mod (w n x e : Nat) (h : w * (e + 1) ≤ n) : elem w (x % 2 ^ n) e = elem w x e := by
  apply Nat.eq_of_testBit_eq
  intro i
  simp only [elem, Nat.testBit_mod_two_pow, Nat.testBit_shiftRight]
  by_cases hi : i < w
  · have : w * e + i < n := by rw [Nat.mul_add] at h; omega
    simp [hi, this]
  · simp [hi]

/-- Elements of every width fill a group. -/
theorem elem_fits (mode : BitVec 2) (w e : Nat) (h : e < vlen mode w) : w * (e + 1) ≤ 512 * modeG mode := by
  have h1 : w * (e + 1) ≤ w * vlen mode w := Nat.mul_le_mul_left w h
  have h2 : w * (512 / w) ≤ 512 := Nat.mul_div_le 512 w
  calc w * (e + 1) ≤ w * vlen mode w := h1
    _ = modeG mode * (w * (512 / w)) := by simp only [vlen]; rw [Nat.mul_left_comm]
    _ ≤ modeG mode * 512 := Nat.mul_le_mul_left _ h2
    _ = 512 * modeG mode := Nat.mul_comm _ _

/-! ### Writing and reading a group -/

theorem sget_setGroup_aux (v : List (Nat × Line)) (b x : Nat) (n p : Nat) :
    sget 0 ((List.range n).foldl (fun m j => sput 0 m (b + j) (BitVec.ofNat 512 (x >>> (512 * j)))) v) p
      = if b ≤ p ∧ p < b + n then BitVec.ofNat 512 (x >>> (512 * (p - b))) else sget 0 v p := by
  induction n with
  | zero => simp only [List.range_zero, List.foldl_nil]; rw [if_neg (by omega)]
  | succ n ih =>
    rw [List.range_succ, List.foldl_append, List.foldl_cons, List.foldl_nil, sget_sput, ih]
    by_cases hp : p = b + n
    · rw [if_pos hp, if_pos (by omega)]
      have : p - b = n := by omega
      rw [this]
    · rw [if_neg hp]
      by_cases hq : b ≤ p ∧ p < b + n
      · rw [if_pos hq, if_pos (by omega)]
      · rw [if_neg hq, if_neg (by omega)]

/-- A physical register after a group has been written. -/
theorem sget_setGroup (v : List (Nat × Line)) (mode : BitVec 2) (c k x p : Nat) :
    sget 0 (setGroup v mode c k x) p
      = if physBase mode c k ≤ p ∧ p < physBase mode c k + modeG mode
        then BitVec.ofNat 512 (x >>> (512 * (p - physBase mode c k))) else sget 0 v p :=
  sget_setGroup_aux v _ x _ p

/-- A number put together from its digits of `w` bits. -/
theorem foldr_parts (w x : Nat) (g : Nat → Nat) (n k : Nat) (hg : ∀ j, k ≤ j → j < k + n → g j = (x >>> (w * j)) % 2 ^ w) :
    (List.range' k n).foldr (fun j acc => g j + 2 ^ w * acc) 0 = (x >>> (w * k)) % 2 ^ (w * n) := by
  induction n generalizing k with
  | zero => rw [Nat.mul_zero, Nat.pow_zero, Nat.mod_one]; rfl
  | succ n ih =>
    rw [List.range'_succ, List.foldr_cons, ih (k + 1) (fun j h1 h2 => hg j (by omega) (by omega)), hg k (Nat.le_refl k) (by omega),
      Nat.mul_succ w n, Nat.add_comm (w * n) w, Nat.pow_add, Nat.mod_mul, Nat.mul_succ w k, Nat.shiftRight_add,
      Nat.shiftRight_eq_div_pow (x >>> (w * k)) w]

/-- A group that has been written reads as the low bits of what was written. -/
theorem groupOf_setGroup (v : List (Nat × Line)) (mode : BitVec 2) (c k x : Nat) :
    groupOf (setGroup v mode c k x) mode c k = x % 2 ^ (512 * modeG mode) := by
  have h := foldr_parts 512 x (fun j => (sget 0 (setGroup v mode c k x) (physBase mode c k + j)).toNat) (modeG mode) 0
    (fun j _ hj => by
      have hj' : j < modeG mode := by omega
      show (sget 0 (setGroup v mode c k x) (physBase mode c k + j)).toNat = _
      rw [sget_setGroup, if_pos (by omega), show physBase mode c k + j - physBase mode c k = j by omega, BitVec.toNat_ofNat])
  rw [Nat.mul_zero, Nat.shiftRight_zero] at h
  unfold groupOf
  rw [List.range_eq_range']
  exact h

/-! ### The element-wise operation -/

theorem stepsBelow_succ (mask : Nat) (steps : Nat → Bool) (n : Nat) :
    stepsBelow mask steps (n + 1) = stepsBelow mask steps n + (if bitOf mask n && steps n then 1 else 0) := by
  simp only [stepsBelow, List.range_succ, List.filter_append, List.length_append, List.filter_cons, List.filter_nil]
  split <;> rfl

/-- What `mapEl` has gathered after `n` elements. -/
theorem mapEl_eq (n mask : Nat) (sr : Bool) (steps : Nat → Bool) (old : Nat → Nat) (f : Nat → Nat → Res) (seed : BitVec 32) :
    let st := fun e => sr && steps e
    let r := fun e => (srAfter (stepsBelow mask st (e + 1)) seed).toNat
    mapEl n mask sr steps old f seed =
      { out := ((List.range n).map (fun e => if bitOf mask e then (f e (r e)).code else old e)).reverse
        fl := flagsBelow mask (fun e => (f e (r e)).fl) n
        seed := srAfter (stepsBelow mask st n) seed } := by
  intro st r
  induction n with
  | zero => rfl
  | succ n ih =>
    have hm : mapEl (n + 1) mask sr steps old f seed =
        (if !bitOf mask n then { mapEl n mask sr steps old f seed with out := old n :: (mapEl n mask sr steps old f seed).out }
        else
          let a := mapEl n mask sr steps old f seed
          let sd := if sr && steps n then srStep a.seed else a.seed
          let q := f n sd.toNat
          { out := q.code :: a.out, fl := a.fl ||| q.fl, seed := sd }) := by
      simp only [mapEl, List.range_succ, List.foldl_append, List.foldl_cons, List.foldl_nil]
    rw [hm, ih]
    have hf : flagsBelow mask (fun e => (f e (r e)).fl) (n + 1) =
        (if bitOf mask n then flagsBelow mask (fun e => (f e (r e)).fl) n ||| (f n (r n)).fl
          else flagsBelow mask (fun e => (f e (r e)).fl) n) := by
      simp only [flagsBelow, List.range_succ, List.foldl_append, List.foldl_cons, List.foldl_nil]
    by_cases hb : bitOf mask n = true
    · have hs : srAfter (stepsBelow mask st (n + 1)) seed
          = if sr && steps n then srStep (srAfter (stepsBelow mask st n) seed) else srAfter (stepsBelow mask st n) seed := by
        rw [stepsBelow_succ, hb, Bool.true_and]
        by_cases hst : (sr && steps n) = true
        · simp only [st, hst, if_true, srAfter]
        · simp only [st, Bool.not_eq_true _ ▸ hst, if_neg (by simp : ¬ (false = true)), Nat.add_zero]
      rw [hf, hb]
      simp only [Bool.not_true, if_neg (by simp : ¬ (false = true)), if_true, List.range_succ, List.map_append, List.map_cons,
        List.map_nil, List.reverse_append, List.reverse_cons, List.reverse_nil, List.nil_append, List.singleton_append, hb]
      simp only [r, hs]
    · have hb' : bitOf mask n = false := by simpa using hb
      rw [hf, hb', stepsBelow_succ, hb']
      simp [List.range_succ, hb']

/-! ### What a V-slot write does -/

/-- The change of a core that writes a register group. -/
def putGroup (c r x : Nat) (k : Core) : Core :=
  { k with
    v := setGroup k.v k.mode c r x
    vBad := k.vBad.filter (fun w => !(decide (physBase k.mode c r * 8 ≤ w) && decide (w < (physBase k.mode c r + modeG k.mode) * 8))) }

theorem putV_eq (s : State) (i c r x : Nat) :
    s.putV i c r x = (s.modCore i (putGroup c r x)).modCx i c (fun t => { t with vRes := t.vRes ++ [r] }) := rfl

/-- A context reads as before where only the vector file of a core has changed. -/
theorem cx_putGroup (s : State) (i j d c r x : Nat) : (s.modCore i (putGroup c r x)).cx j d = s.cx j d :=
  cx_modCore s i j d _ rfl

theorem core_putV (s : State) (i c r x : Nat) :
    ∃ l, (s.putV i c r x).core i = { putGroup c r x (s.core i) with ctxs := l } :=
  ⟨_, by rw [putV_eq, core_modCx_same, core_modCore_same]⟩

theorem core_putV_modCx (s : State) (i c r x : Nat) (f : Ctx → Ctx) :
    ∃ l, ((s.putV i c r x).modCx i c f).core i = { putGroup c r x (s.core i) with ctxs := l } :=
  ⟨_, by rw [core_modCx_same, putV_eq, core_modCx_same, core_modCore_same]⟩

theorem cx_putV (s : State) (i c r x : Nat) (j d : Nat) :
    (s.putV i c r x).cx j d = if j = i ∧ d = c then { s.cx i c with vRes := (s.cx i c).vRes ++ [r] } else s.cx j d := by
  rw [putV_eq, cx_modCx, cx_putGroup, cx_putGroup]

/-- A write of a register group of a context, with a change of that context: its frame. -/
theorem onlyCtxV_putV (s : State) (i c r x : Nat) (f : Ctx → Ctx) : OnlyCtxV s ((s.putV i c r x).modCx i c f) i c := by
  refine ⟨⟨rfl, fun j hj => ?_⟩, ?_, fun d hd => ?_⟩
  · rw [core_modCx_ne _ _ hj, putV_eq, core_modCx_ne _ _ hj, core_modCore_ne _ hj]
  · obtain ⟨l, e⟩ := core_putV_modCx s i c r x f
    rw [e]; rfl
  · rw [cx_modCx, if_neg (by simp [hd]), cx_putV, if_neg (by simp [hd])]

theorem phys_putV (s : State) (i c r x p : Nat) (f : Ctx → Ctx) :
    ((s.putV i c r x).modCx i c f).phys i p =
      if physBase (s.core i).mode c r ≤ p ∧ p < physBase (s.core i).mode c r + modeG (s.core i).mode
      then BitVec.ofNat 512 (x >>> (512 * (p - physBase (s.core i).mode c r))) else s.phys i p := by
  obtain ⟨l, e⟩ := core_putV_modCx s i c r x f
  rw [State.phys, e]
  exact sget_setGroup _ _ _ _ _ _

/-- The V-slot writes a register group and ends with flags. -/
theorem setV_written (s : State) (vd : VReg) (x fl : Nat) (seed : BitVec 32) :
    VWritten s ((s.setV vd x).vEnd fl seed) vd x (orFlags s.me.flags fl) (if s.me.seedSet then s.me.seed else seed) := by
  have h := onlyCtxV_putV s s.cur.core s.cur.ctx vd.toNat x
    (fun y => { y with flags := orFlags y.flags fl, seed := if y.seedSet then y.seed else seed })
  refine ⟨h, h.bytes, fun p => phys_putV s s.cur.core s.cur.ctx vd.toNat x p _, ?_⟩
  rw [vEnd_me]
  have e : (s.setV vd x).me = { s.me with vRes := s.me.vRes ++ [vd.toNat] } := by
    have := cx_putV s s.cur.core s.cur.ctx vd.toNat x s.cur.core s.cur.ctx
    rw [if_pos ⟨rfl, rfl⟩] at this
    exact this
  rw [e]

/-- The V-slot writes a register group alone. -/
theorem givesV_setV (s : State) (vd : VReg) (x : Nat) : GivesV s (ok (s.setV vd x)) vd x s.me.flags s.me.seed := by
  have h : OnlyCtxV s (s.setV vd x) s.cur.core s.cur.ctx := by
    refine ⟨⟨rfl, fun j hj => ?_⟩, ?_, fun d hd => ?_⟩
    · rw [State.setV, putV_eq, core_modCx_ne _ _ hj, core_modCore_ne _ hj]
    · obtain ⟨l, e⟩ := core_putV s s.cur.core s.cur.ctx vd.toNat x
      rw [State.setV, e]; rfl
    · rw [State.setV, cx_putV, if_neg (by simp [hd])]
  refine ⟨_, rfl, h, h.bytes, fun p => ?_, ?_⟩
  · obtain ⟨l, e⟩ := core_putV s s.cur.core s.cur.ctx vd.toNat x
    rw [State.phys, State.setV, e]; exact sget_setGroup _ _ _ _ _ _
  · have := cx_putV s s.cur.core s.cur.ctx vd.toNat x s.cur.core s.cur.ctx
    rw [if_pos ⟨rfl, rfl⟩] at this
    have e : (s.setV vd x).me = { s.me with vRes := s.me.vRes ++ [vd.toNat] } := this
    rw [e]

/-- A register group reads back what was written, as the context ends the operation. -/
theorem liveV_setV (s : State) (vd : VReg) (x fl : Nat) (seed : BitVec 32) :
    ((s.setV vd x).vEnd fl seed).liveV vd = x % 2 ^ (512 * modeG s.myCore.mode) := by
  obtain ⟨l, e⟩ := core_putV_modCx s s.cur.core s.cur.ctx vd.toNat x
    (fun y => { y with flags := orFlags y.flags fl, seed := if y.seedSet then y.seed else seed })
  have e' : ((s.setV vd x).vEnd fl seed).myCore = { putGroup s.cur.ctx vd.toNat x (s.core s.cur.core) with ctxs := l } := e
  rw [State.liveV, e']
  exact groupOf_setGroup _ _ _ _ _

/-- The element-wise operation, element by element (R97, R159, R160). -/
theorem vMap_each (s : State) (w : Nat) (sr : Bool) (steps : Nat → Bool) (m : MReg) (vd : VReg) (f : Nat → Nat → Res) :
    VEach s (vMap s w sr steps m vd f) w m vd (fun e => sr && steps e) f := by
  have hw := setV_written s vd
    ((mapEl (vlen s.myCore.mode w) (s.aM m).toNat sr steps (elem w (s.aV vd)) f s.seed0).group w)
    (mapEl (vlen s.myCore.mode w) (s.aM m).toNat sr steps (elem w (s.aV vd)) f s.seed0).fl
    (mapEl (vlen s.myCore.mode w) (s.aM m).toNat sr steps (elem w (s.aV vd)) f s.seed0).seed
  refine ⟨_, rfl, hw.1, hw.2.1, fun e he => ?_, fun p hp => ?_, ?_⟩
  · rw [liveV_setV, elem_mod _ _ _ _ (elem_fits _ _ _ he), mapEl_eq, Acc.group, List.reverse_reverse, elem_ofElems]
    simp only [List.getD_eq_getElem?_getD, List.getElem?_map, List.getElem?_range he, Option.map_some, Option.getD_some]
    by_cases hb : bitOf (s.aM m).toNat e = true
    · rw [if_pos hb, if_pos hb]; rfl
    · rw [if_neg hb, if_neg hb]; exact Nat.mod_eq_of_lt (elem_lt _ _ _)
  · rw [hw.2.2.1 p]; exact if_neg hp
  · rw [hw.2.2.2, mapEl_eq]; rfl

end Sys2Proof
end

