-- ==== Sys2Proof/Tests/Slice0.lean ====
section
/-!
SUPPORT. Tests of one step each, on the spec's own worked examples and words; an ill-formed term for each check of WellFormed; and for every
statement with hypotheses states and operands that meet them (`witness_…`), one for each clause.
-/
namespace Sys2Proof.Tests
set_option Elab.async false
open Machine

/-! ### States -/

/-- Launch 1 runs on core 0, which is `k`. -/
def onCore (k : Core) : State := placeLaunch State.reset k
/-- A context in RUN whose s registers are `r`, before and at its bundle. -/
def cxOf (r : List (Nat × Word)) : Ctx := { Ctx.init 0 0 with st := .run, s := r, snap := { Snap.none with s := r } }
/-- Context 0 of core 0 is `x`. -/
def onCx (x : Ctx) : State := onCore { Core.init with ctxs := [(0, x)] }
/-- Its s registers are `r`. -/
def onS (r : List (Nat × Word)) : State := onCx (cxOf r)
/-- The control thread's x registers are `r`. -/
def onX (r : List (Nat × Word)) : State := onCore { Core.init with ct := { Ct.init with x := r } }
/-- Core 0 changed. -/
def with0 (s : State) (f : Core → Core) : State := s.modCore 0 f
/-- The machine's own step `e` is taken. -/
def taking (s : State) (e : Ev) : State := { s with cur := { s.cur with ev := e } }

/-! ### The A-slot -/

theorem witness_Branches :
    (onS [(1, 5), (2, 5)]).aS 1 = (onS [(1, 5), (2, 5)]).aS 2 ∧ (onS [(1, -1), (2, 0)]).aS 1 ≠ (onS [(1, -1), (2, 0)]).aS 2
    ∧ ((onS [(1, -1)]).aS 1).toInt < ((onS [(1, -1)]).aS 2).toInt ∧ ((onS [(1, 0)]).aS 1).toInt ≥ ((onS [(1, 0)]).aS 2).toInt
    ∧ ((onS [(2, -1)]).aS 1).toNat < ((onS [(2, -1)]).aS 2).toNat ∧ ((onS [(2, 0)]).aS 1).toNat ≥ ((onS [(2, 0)]).aS 2).toNat
    ∧ (∃ e, e < vlen (onS []).myCore.mode 32 ∧ ((onS []).aM 0).getLsbD e = true)
    ∧ (∀ e, e < vlen (onS []).myCore.mode 32 → ((onS []).aM 0).getLsbD e = true)
    ∧ (∀ e, e < vlen (onS []).myCore.mode 8 → ((onS []).aM 1).getLsbD e = false)
    ∧ ∃ e, e < vlen (onS []).myCore.mode 8 ∧ ((onS []).aM 1).getLsbD e = false :=
  ⟨by decide, by decide, by decide, by decide, by decide, by decide, ⟨15, by decide⟩, by decide, by decide, 63, by decide⟩

/-- The last block address of a PC, the first beyond it, and a misaligned one. -/
theorem witness_Jumps :
    (((onS [(1, 130944)]).aS 1).toNat % 128 = 0 ∧ ((onS [(1, 130944)]).aS 1).toNat < 2 ^ 17)
    ∧ (((onS [(1, 131072)]).aS 1).toNat % 128 = 0 ∧ 2 ^ 17 ≤ ((onS [(1, 131072)]).aS 1).toNat)
    ∧ ((onS [(1, 130945)]).aS 1).toNat % 128 ≠ 0 := by decide

/-- Local address A of sa = `v` with an immediate. -/
def at12 (s : State) (imm : BitVec 12) : Nat := (s.aS 1 + imm.signExtend 64).toNat
/-- Core 0 with an uncorrectable word at 98296, whose class-4 errors the policy traps. -/
def lsBadCore : Core := { Core.init with sevpol := 0x100, lsBad := [98296] }
/-- A job still has to read the 8 bytes at 64. -/
def jobReads : Jobs :=
  { Jobs.init with list := [(1, { Job.new 0 0 1 1 0 0x21 (tileFields 0) with st := .running, ranges := [(64, 8)] })], next := 2 }

theorem witness_LocalLoads :
    (at12 (onS [(1, 98297)]) 0xFFF % 8 = 0 ∧ at12 (onS [(1, 98297)]) 0xFFF + 8 ≤ 98304
      ∧ (onS [(1, 98297)]).lsTraps 0 98296 8 = false ∧ (onS [(1, 98297)]).lsSnuffs 0 98296 8 = false)
    ∧ (at12 (onS [(1, 98240)]) 0 % 64 = 0 ∧ at12 (onS [(1, 98240)]) 0 + 64 ≤ 98304
      ∧ (onS [(1, 98240)]).lsTraps 0 98240 64 = false ∧ (onS [(1, 98240)]).lsSnuffs 0 98240 64 = false)
    ∧ at12 (onS [(1, 98297)]) 0 % 2 ≠ 0
    ∧ (at12 (onS [(1, 98296)]) 8 % 8 = 0 ∧ at12 (onS [(1, 98296)]) 8 + 8 > 98304)
    ∧ at12 (onS [(1, 98240)]) 8 % 64 ≠ 0
    ∧ (at12 (onS [(1, 98240)]) 64 % 64 = 0 ∧ at12 (onS [(1, 98240)]) 64 + 64 > 98304)
    ∧ at12 (onS [(1, 98296)]) 0 % 8 = 0
      ∧ (onCore { lsBadCore with ctxs := [(0, cxOf [(1, 98296)])] }).lsTraps 0 98296 8 = true := by decide

theorem witness_LocalStores :
    ((onS [(1, 98296)]).lsHeld 0 (at12 (onS [(1, 98296)]) 0) 8 = false ∧ at12 (onS [(1, 98296)]) 0 + 8 ≤ 98304)
    ∧ ((onS [(1, 98240)]).lsHeld 0 (at12 (onS [(1, 98240)]) 0) 64 = false ∧ at12 (onS [(1, 98240)]) 0 + 64 ≤ 98304)
    ∧ { onS [(1, 71)] with jobs := jobReads }.lsHeld 0 71 1 = true
    ∧ { onS [(1, 64)] with jobs := jobReads }.lsHeld 0 64 64 = true
    ∧ at12 (onS [(1, 98297)]) 0 % 2 ≠ 0 ∧ (at12 (onS [(1, 98304)]) 0 % 1 = 0 ∧ at12 (onS [(1, 98304)]) 0 + 1 > 98304)
    ∧ at12 (onS [(1, 98241)]) 0 % 64 ≠ 0 ∧ at12 (onS [(1, 98304)]) 0 % 64 = 0 := by decide

theorem of_active {P : Nat → Prop} {s : State} {w : EW} {m : MReg} (h : ∀ e, e < vlen s.myCore.mode w.bits → P e) :
    ∀ e, idxActive s w m e = true → P e := by
  intro e he
  simp only [idxActive, Bool.and_eq_true, decide_eq_true_eq] at he
  exact h e he.1

/-- Index 24,560 in element 1 of v1; the last word is 24,575. -/
def idxState (v : Nat) : State :=
  onCx { cxOf [(1, v)] with snap := { (cxOf [(1, v)]).snap with v := [(1, (24560 * 2 ^ 32 : Nat))] } }
theorem witness_LocalIndexed :
    (((idxState 60).aS 1).toNat % 4 = 0
      ∧ (∀ e, idxActive (idxState 60) .w32 0 e = true → idxAddr (idxState 60) .w32 1 1 e + 4 ≤ 98304)
      ∧ (∀ e, idxActive (idxState 60) .w32 0 e = true → (idxState 60).lsTraps 0 (idxAddr (idxState 60) .w32 1 1 e) 4 = false
          ∧ (idxState 60).lsSnuffs 0 (idxAddr (idxState 60) .w32 1 1 e) 4 = false)
      ∧ (∀ e, idxActive (idxState 60) .w32 0 e = true → (idxState 60).lsHeld 0 (idxAddr (idxState 60) .w32 1 1 e) 4 = false))
    ∧ ((idxState 61).aS 1).toNat % 4 ≠ 0
    ∧ (((idxState 64).aS 1).toNat % 4 = 0
      ∧ ∃ e, idxActive (idxState 64) .w32 0 e = true ∧ idxAddr (idxState 64) .w32 1 1 e + 4 > 98304) :=
  ⟨⟨by decide, of_active (by decide +kernel), of_active (by decide +kernel), of_active (by decide +kernel)⟩, by decide, by decide, 1,
    by decide +kernel⟩

theorem witness_ScalarReads : (4#4).toNat ≤ 4 := by decide
theorem witness_WrcsrTrap :
    ((onS [(1, 4)]).aS 1).toNat ≤ 4 ∧ 4 < ((onS [(1, 5)]).aS 1).toNat ∧ 3 ≤ (3#4).toNat := by decide

/-! ### Global accesses and transactions -/

/-- Context 0 has a transaction `x`. -/
def txOf (x : Txn) : Ctx := { cxOf [(1, 0x1000), (2, 0x1040)] with txn := some x }
/-- A transaction of depth 1 that aborts to block 2. -/
def tx1 : Txn :=
  { depth := 1, age := ⟨5, 0, 0⟩, ckS := [], ckM := [], target := 256, rset := [], wset := [], spec := [], recs := [], claims := 0
    committing := false, msgs := 0, latent := [], marks := [], reached := [] }
def rec1 : RedRec := { va := 0x3000, fn := 0, ty := .i32, val := 1 }

theorem alone_onS (r : List (Nat × Word)) : Alone (onS r) := ⟨rfl, rfl⟩
theorem performed_of_none {s : State} (h : s.reqs = []) (sc : Scope) : Performed s sc := by
  intro r q hq; rw [h] at hq; cases hq
/-- A store of context 0 stands at its slice, not yet performed. -/
def storing : State :=
  { onS [(1, 0x1000)] with reqs := [(0, Req.new (.cx 0 0) (.store [1]) 0x1000 1 .none)], nextReq := 1 }
theorem not_performed : ¬ Performed storing .cl ∧ ¬ Performed storing .dv ∧ ¬ Performed storing .sy := by
  refine ⟨fun h => ?_, fun h => ?_, fun h => ?_⟩ <;> exact absurd (h 0 _ (.head _) rfl rfl (by decide)) (by decide)

/-- The last bytes below 2^48, the first beyond, and a misaligned address. -/
theorem witness_GlobalLoadsStores :
    (((onS [(1, 0xFFFFFFFFFFF8)]).aS 1).toNat % 8 = 0 ∧ ((onS [(1, 0xFFFFFFFFFFF8)]).aS 1).toNat < 2 ^ 48
      ∧ Alone (onS [(1, 0xFFFFFFFFFFF8)]) ∧ Releases (onS [(1, 0xFFFFFFFFFFF8)]) (some .sy)
      ∧ tileServes (onS [(1, 0xFFFFFFFFFFF8)]).myCore (Req.new (.cx 0 0) (.load 8) 0xFFFFFFFFFFF8 8 (.s 3 .d64)) = false)
    ∧ (((onS [(1, 0xFFFFFFFFFFC0)]).aS 1).toNat % 64 = 0 ∧ ((onS [(1, 0xFFFFFFFFFFC0)]).aS 1).toNat < 2 ^ 48)
    ∧ ((onS [(1, 0x1001)]).aS 1).toNat % 2 ≠ 0 ∧ ((onS [(1, 0x1001)]).aS 1).toNat % 64 ≠ 0
    ∧ (((onS [(1, 0x1000000000000)]).aS 1).toNat % 64 = 0 ∧ 2 ^ 48 ≤ ((onS [(1, 0x1000000000000)]).aS 1).toNat) :=
  ⟨⟨by decide, by decide, alone_onS _, ⟨performed_of_none rfl _, fun _ => ⟨rfl, rfl⟩⟩, by decide⟩, by decide, by decide, by decide, by decide⟩

theorem witness_GlobalAtomics :
    (((onS [(1, 0xFFFFFFFFFFFC)]).aS 1).toNat % 4 = 0 ∧ ((onS [(1, 0xFFFFFFFFFFFC)]).aS 1).toNat < 2 ^ 48
      ∧ Alone (onS [(1, 0xFFFFFFFFFFFC)]) ∧ Releases (onS [(1, 0xFFFFFFFFFFFC)]) (some .cl))
    ∧ ((onS [(1, 0x1004)]).aS 1).toNat % 8 ≠ 0 ∧ 2 ^ 48 ≤ ((onS [(1, 0x1000000000000)]).aS 1).toNat :=
  ⟨⟨by decide, by decide, alone_onS _, performed_of_none rfl _, fun h => by cases h⟩, by decide, by decide⟩

theorem witness_RoutineCalls :
    (((onS [(1, 0xFFFFFFFFFFC0)]).aS 1).toNat % 64 = 0 ∧ ((onS [(1, 0xFFFFFFFFFFC0)]).aS 1).toNat < 2 ^ 48 ∧ Alone (onS [(1, 0xFFFFFFFFFFC0)]))
    ∧ ((onCx (txOf tx1)).me.txn = some tx1 ∧ ((onCx (txOf tx1)).aS 1).toNat % 64 = 0)
    ∧ ((onS [(1, 0x1020)]).aS 1).toNat % 64 ≠ 0 ∧ 2 ^ 48 ≤ ((onS [(1, 0x1000000000000)]).aS 1).toNat :=
  ⟨⟨by decide, by decide, alone_onS _⟩, by decide, by decide, by decide⟩

/-- 63 records, into granules neither read nor written, and 64. -/
theorem witness_Reductions :
    (((onS [(1, 0x1000)]).aS 1).toNat % 8 = 0 ∧ ((onS [(1, 0x1000)]).aS 1).toNat < 2 ^ 48 ∧ Alone (onS [(1, 0x1000)]))
    ∧ (let x := { tx1 with recs := List.replicate 63 rec1, rset := [(0x20, 1)], wset := [(0x21, 2)] };
      (onCx (txOf x)).me.txn = some x ∧ x.recs.length < 64
        ∧ ∀ e, e ∈ x.rset ++ x.wset → e.1 ≠ ((onCx (txOf x)).aS 1).toNat / 256)
    ∧ (let x := { tx1 with recs := List.replicate 64 rec1, wset := [(0x21, 2)] };
      (onCx (txOf x)).me.txn = some x ∧ 64 ≤ x.recs.length ∧ ∀ e, e ∈ x.wset → e.1 ≠ ((onCx (txOf x)).aS 1).toNat / 256)
    ∧ ((onS [(1, 0x1002)]).aS 1).toNat % 4 ≠ 0 ∧ 2 ^ 48 ≤ ((onS [(1, 0x1000000000000)]).aS 1).toNat ∧ XTy.n64 ≠ .f32 :=
  ⟨⟨by decide, by decide, alone_onS _⟩, by decide, by decide, by decide, by decide, by decide⟩

theorem witness_TransactionOps :
    ((onS []).me.handler = none ∧ (onS []).me.txn = none ∧ (onS []).myCore.pair.on = false ∧ Performed (onS []) .dv)
    ∧ ((onCx (txOf { tx1 with depth := 7 })).me.handler = none ∧ (onCx (txOf { tx1 with depth := 7 })).me.txn = some { tx1 with depth := 7 })
    ∧ (onCx (txOf { tx1 with depth := 8 })).me.txn = some { tx1 with depth := 8 }
    ∧ (onCx { cxOf [] with handler := some (.stop 8) }).me.handler ≠ none :=
  ⟨⟨rfl, rfl, rfl, performed_of_none rfl _⟩, by decide, by decide, by decide⟩

theorem witness_Commit :
    ((onCx (txOf { tx1 with depth := 2 })).me.handler = none ∧ (onCx (txOf { tx1 with depth := 2 })).me.txn = some { tx1 with depth := 2 }
      ∧ 1 < { tx1 with depth := 2 }.depth)
    ∧ (onS []).me.txn = none
    ∧ ((onCx (txOf tx1)).me.txn = some tx1 ∧ tx1.depth ≤ 1 ∧ (onCx (txOf tx1)).myCore.pair.on = false ∧ tx1.recs = [] ∧ tx1.wset = [])
    ∧ (let x := { tx1 with wset := [(0x10, 0x77)] };
      (onCx (txOf x)).me.txn = some x ∧ x.depth ≤ 1 ∧ x.recs = [] ∧ x.wset ≠ []) := by decide

theorem witness_SlotFences :
    ((onS []).myCore.pair.on = false ∧ (onCx (txOf tx1)).me.txn ≠ none ∧ Performed (onS []) .cl ∧ Alone (onS []) ∧ Performed (onS []) .sy)
    ∧ storing.me.txn = none ∧ storing.myCore.pair.on = false ∧ ¬ Performed storing .cl ∧ ¬ Performed storing .dv ∧ ¬ Performed storing .sy :=
  ⟨⟨rfl, by decide, performed_of_none rfl _, alone_onS _, performed_of_none rfl _⟩, rfl, rfl, not_performed⟩

/-! ### Queues, barriers and tasks -/

/-- Core 0 with queue register 1 bound as `bind` with `elems`. -/
def qCore (bind : Word) (elems : List QElem) : Core :=
  { Core.init with qs := [(1, { QReg.init with bind := bind, elems := elems })], ctxs := [(0, cxOf [(1, 7)])] }
/-- A tagged and an untagged element. -/
def two : List QElem := [{ v := 9, tag := true, ord := 0 }, { v := 8, tag := false, ord := 1 }]
/-- Queue register 1 has been unbound while context 0 waits for it. -/
def waitingQ : State := onCore { qCore 0 [] with ctxs := [(0, { cxOf [] with wait := .queue 1 })] }
theorem witness_QueueSlotOps :
    ((onCore (qCore 2 two)).myCore.q 1).inbound = true ∧ (∃ h l, ((onCore (qCore 2 two)).myCore.q 1).elems = h :: l
        ∧ (onCore (qCore 2 two)).myCore.qBad.contains h.ord = false) ∧ (onCore (qCore 2 two)).me.handler = none
    ∧ (((onCore (qCore 2 [])).myCore.q 1).inbound = true ∧ ((onCore (qCore 2 [])).myCore.q 1).elems = [])
    ∧ ((onCore (qCore 10 two)).myCore.q 1).inbound = false
    ∧ (((onCore (qCore 14 [])).myCore.q 1).src = 6 ∧ ((onCore (qCore 14 [])).myCore.q 1).out = true ∧ ((onCore (qCore 14 [])).myCore.q 1).room ≠ 0)
    ∧ (let x := (onCore (qCore 14 (List.replicate 8 { v := 1, tag := false, ord := 0 }))).myCore.q 1;
      x.src ≠ 0 ∧ x.out = true ∧ x.room = 0)
    ∧ ((onCore (qCore 0 [])).myCore.q 1).src = 0 ∧ ((onCore (qCore 2 [])).myCore.q 1).out = false
    ∧ (onCx { cxOf [] with handler := some (.stop 8) }).me.handler ≠ none
    ∧ (waitingQ.myCore.q 1).inbound = false ∧ (waitingQ.myCore.q 1).out = false ∧ waitingQ.me.wait = .queue 1 :=
  ⟨by decide, ⟨_, _, rfl, rfl⟩, by decide⟩

/-- Core 1, east of core 0, is of the same launch, with queue 3 inbound from the west. -/
def linked : State := (onCore (qCore 10 [])).setCore 1 { Core.init with lid := 1, qs := [(3, { QReg.init with bind := 4 })] }
theorem witness_LinkPush :
    linked.me.handler = none ∧ (linked.myCore.q 1).out = true ∧ (linked.myCore.q 1).src = 2 ∧ (linked.myCore.q 1).elems = []
    ∧ (linked.myCore.q 1).reserved = 0 ∧ (∀ k, k < 8 → k ≠ 1 → (linked.myCore.q k).elems = []) ∧ neighbour linked.cur.core 2 = some 1
    ∧ linked.sameLaunch linked.cur.core 1 = true ∧ linked.lau.deadClusters.contains (clusterOf 1) = false
    ∧ (linked.core 1).inboundFrom (opposite 2) = some 3 ∧ ((linked.core 1).q 3).room ≠ 0 := by decide

/-- Each way a binding is bad, an unbinding, a second binding and a first one. -/
theorem witness_QueueBinding :
    (onX [(2, 5)]).myCore.pair.on = false
    ∧ (((onX [(1, 8)]).xr 1).toNat > 7 ∧ ((onX [(2, 7)]).xr 2).toNat % 8 = 7
      ∧ (((onX [(2, 13)]).xr 2).toNat % 8 = 5 ∧ ((onX [(2, 13)]).xr 2).getLsbD 3 = true) ∧ neighbour (onX []).cur.core 1 = none
      ∧ (((onX [(2, 0x105)]).xr 2).toNat / 256 % 16 ≠ 0 ∧ ((onX [(2, 0x105)]).xr 2).toNat % 8 ≠ 6))
    ∧ ((onX [(1, 7), (2, 0)]).xr 2).toNat % 8 = 0
    ∧ ((onCore { qCore 2 [] with ct := { Ct.init with x := [(1, 1), (2, 5)] } }).myCore.q 1).src ≠ 0
    ∧ (5 ≤ ((onX [(1, 7), (2, 0xF0E)]).xr 2).toNat % 8 ∧ ((onX [(1, 7), (2, 0xF0E)]).myCore.q 7).src = 0) := by decide

/-- Core 0 with a barrier 47 and the given registers. -/
def barCore (b : Bar) (r : List (Nat × Word)) : State :=
  onCore { Core.init with bars := [(47, b)], ct := { Ct.init with x := r }, ctxs := [(0, cxOf [])] }
/-- Launch 1 has group 3 with cores 0 and 1. -/
def grouped (s : State) : State :=
  { s with lau := { s.lau with launches := s.lau.launches.map (fun e => (e.1, { e.2 with groups := [(3, { valid := true, root := 0, members := [0, 1] })] })) } }
theorem witness_BarrierSetup :
    (47 < ((onX [(1, 48)]).xr 1).toNat ∧ ((onX [(2, 0)]).xr 2).toNat = 0 ∧ 17 < ((onX [(2, 18)]).xr 2).toNat)
    ∧ (let s := barCore { Bar.init with expect := 2, arrived := 1 } [(1, 47), (2, 17)];
      (s.xr 1).toNat ≤ 47 ∧ 1 ≤ (s.xr 2).toNat ∧ (s.xr 2).toNat ≤ 17 ∧ (s.myCore.bar 47).quiet = false)
    ∧ (let s := barCore Bar.init [(1, 47), (2, 1)];
      (s.xr 1).toNat ≤ 47 ∧ 1 ≤ (s.xr 2).toNat ∧ (s.xr 2).toNat ≤ 17 ∧ (s.myCore.bar 47).quiet = true)
    ∧ (let s := barCore Bar.init [(1, 47), (2, 0xFFFFFFFFFFFFFFFF)]; s.xr 2 = BitVec.allOnes 64 ∧ (s.myCore.bar 47).quiet = true)
    ∧ (let s := grouped (barCore Bar.init [(1, 47), (2, 3)]);
      s.groupOf s.cur.core 3 = some { valid := true, root := 0, members := [0, 1] } ∧ [0, 1].contains s.cur.core = true
        ∧ s.xr 2 ≠ BitVec.allOnes 64 ∧ (s.myCore.bar 47).quiet = true
        ∧ s.myCore.bars.any (fun p => p.1 ≠ 47 && p.2.group = some 3) = false)
    ∧ (let s := barCore { Bar.init with expect := 2, arrived := 1 } [(1, 47), (2, 0xFFFFFFFFFFFFFFFF)];
      (s.myCore.bar 47).quiet = false ∧ s.xr 2 = BitVec.allOnes 64) := by decide

theorem witness_BarrierOps :
    (let s := barCore { Bar.init with expect := 2 } [(1, 47)];
      (s.xr 1).toNat ≤ 47 ∧ (s.myCore.bar 47).expect ≠ 0 ∧ (s.myCore.bar 47).arrived + 1 < (s.myCore.bar 47).expect
        ∧ s.me.handler = none ∧ s.me.wait = .none ∧ (s.myCore.bar 47).isReleased 0 = false)
    ∧ (let s := barCore { Bar.init with expect := 2, arrived := 1 } [(1, 47)];
      (s.myCore.bar 47).expect ≤ (s.myCore.bar 47).arrived + 1 ∧ (s.myCore.bar 47).group = none)
    ∧ (47 < ((onX [(1, 48)]).xr 1).toNat ∧ ((onX [(1, 3)]).myCore.bar 3).expect = 0)
    ∧ (let s := onCore { Core.init with
          bars := [(47, { Bar.init with expect := 2, phase := 1, released := 1 })], ct := { Ct.init with joined := [(47, 0)] }
          ctxs := [(0, { cxOf [] with joined := [(47, 0)] })] };
      (sfind s.myCore.ct.joined 47).getD 1 = 0 ∧ (sfind s.me.joined 47).getD 1 = 0 ∧ (s.myCore.bar 47).isReleased 0 = true)
    ∧ (onCx { cxOf [] with handler := some (.stop 8) }).me.handler ≠ none := by decide

/-- Local-store words from an address on. -/
def lsWords (l : List (Nat × List Nat)) : List Host.Cell := l.foldl (fun m e => putCells m e.1 (e.2.flatMap (leBytes 8))) []
/-- Task word 0 for block 3 of priority 2. -/
def task0 : Nat := 2 * 2 ^ 62 + 384
def rec0 : TaskRec := { words := [BitVec.ofNat 64 task0, 1, 2, 3, 0, 0, 0, 0], owner := 0, key := 1 }
/-- The last 64 bytes of the local store hold a task, those before a word that is none. -/
def taskSt (ad : Word) (d : List (Nat × List TaskRec)) (x : Ctx) (t : Option TaskRec) : State :=
  onCore { Core.init with ls := lsWords [(98176, [1]), (98240, [task0, 1, 2, 3])], deques := d, ctxs := [(0, x)], ct := { Ct.init with x := [(1, ad)], task := t } }
def win0 : WinEnt := { isJob := true, key := 1, all := true, r := true, w := true, lo := 0, len := 0 }
/-- A word of the task has an uncorrectable error, under the policy `p`. -/
def badTask (p : Word) : State := with0 (taskSt 98240 [] (cxOf [(1, 98240)]) none) (fun k => { k with sevpol := p, lsBad := [98264] })
/-- At cycle 4 records come back to deque 2 until cycle `t`. -/
def filling (t : Nat) : State :=
  { with0 (taskSt 98240 [(2, [rec0])] (cxOf [(1, 98240)]) none) (fun k => { k with refill := [(2, t)] }) with time := 4 }
theorem witness_TaskPush :
    (let s := taskSt 98240 [(2, List.replicate 15 rec0)] (cxOf [(1, 98240)]) none;
      s.myCore.pair.on = false ∧ (s.xr 1).toNat % 64 = 0 ∧ (s.xr 1).toNat < 98304 ∧ (s.aS 1).toNat = 98240 ∧ s.me.txn = none
        ∧ taskWordOk ((s.taskWords 0 98240).getD 0 0) = true ∧ ((s.taskWords 0 98240).getD 0 0).toNat / 2 ^ 62 = 2
        ∧ (sget [] (s.core 0).deques 2).length < 16
        ∧ (s.cluster (clusterOf 0)).win.length + (rangeEntries false s.jobs.nextKey ((s.taskWords 0 98240).drop 4)).length ≤ 64)
    ∧ (let s := taskSt 98176 [] (cxOf [(1, 98176)]) none;
      taskWordOk ((s.taskWords 0 98176).getD 0 0) ≠ true ∧ (s.xr 1).toNat % 64 = 0 ∧ (s.aS 1).toNat % 64 = 0 ∧ (s.aS 1).toNat < 98304)
    ∧ ((taskSt 98248 [] (cxOf []) none).xr 1).toNat % 64 ≠ 0 ∧ 98304 ≤ ((taskSt 98304 [] (cxOf []) none).xr 1).toNat
    ∧ (let s := { taskSt 98240 [] (cxOf []) none with jobs := { Jobs.init with clusters := [(0, { Cluster.init with win := List.replicate 65 win0 })] } };
      64 < (s.cluster (clusterOf 0)).win.length + (rangeEntries false s.jobs.nextKey ((s.taskWords 0 98240).drop 4)).length)
    ∧ ((onS [(1, 98248)]).aS 1).toNat % 64 ≠ 0 ∧ ((onS [(1, 98304)]).aS 1).toNat % 64 = 0 ∧ 98304 ≤ ((onS [(1, 98304)]).aS 1).toNat
    ∧ (taskSt 98240 [] (cxOf [(1, 98240)]) none).lsTraps 0 98240 64 = false ∧ (taskSt 98240 [] (cxOf [(1, 98240)]) none).lsSnuffs 0 98240 64 = false
    ∧ (badTask 0x100).lsTraps 0 98240 64 = true ∧ (badTask 0x300).lsTraps 0 98240 64 = false
    ∧ (filling 5).time < sget 0 (filling 5).myCore.refill 2 ∧ (filling 4).me.txn = none ∧ sget 0 (filling 4).myCore.refill 2 ≤ (filling 4).time := by
  decide +kernel

/-- A job reads the 64 bytes at 98240 of core 0. -/
def jobReads98240 : Jobs := { jobReads with list := jobReads.list.map (fun e => (e.1, { e.2 with ranges := [(98240, 64)] })) }
theorem witness_TaskPop :
    (let s := taskSt 98240 [(2, [rec0])] (cxOf []) none;
      s.popChoice 0 = some (2, rec0) ∧ rec0.words.length = 8 ∧ s.lsHeld 0 98240 64 = false ∧ (s.xr 1).toNat = 98240 ∧ s.myCore.ct.task = none
        ∧ s.me.txn = none ∧ s.me.task = none ∧ s.me.handler = none ∧ s.myCore.pair.on = false)
    ∧ (let s := taskSt 98240 [] (cxOf []) none; s.popChoice 0 = none ∧ s.myCore.ct.task = none)
    ∧ (((taskSt 8 [] (cxOf []) none).xr 1).toNat % 64 ≠ 0 ∧ 98304 ≤ ((taskSt 98304 [] (cxOf []) none).xr 1).toNat)
    ∧ (taskSt 0 [] { cxOf [] with task := some rec0 } (some rec0)).myCore.ct.task ≠ none
    ∧ (taskSt 0 [] { cxOf [] with task := some rec0 } (some rec0)).me.task ≠ none
    ∧ ((filling 5).popChoice 0 = some (2, rec0) ∧ sget [] (filling 5).myCore.spills 2 = [] ∧ (filling 5).time < sget 0 (filling 5).myCore.refill 2)
    ∧ (sget 0 (filling 4).myCore.refill 2 ≤ (filling 4).time ∧ { filling 4 with jobs := jobReads98240 }.lsHeld 0 98240 64 = true) := by
  decide +kernel

theorem witness_TaskDone :
    ((taskSt 0 [] (cxOf []) (some rec0)).myCore.ct.task = some rec0 ∧ (taskSt 0 [] (cxOf []) (some rec0)).myCore.pair.on = false)
    ∧ (taskSt 0 [] (cxOf []) none).myCore.ct.task = none ∧ (taskSt 0 [] { cxOf [] with task := some rec0 } none).me.task = some rec0
    ∧ (taskSt 0 [] (cxOf []) none).me.task = none ∧ (onCx (txOf tx1)).me.txn = some tx1 := by decide +kernel

/-! ### The V-slot -/

theorem witness_VectorIntegers : Fmt.i8.isIntV = true ∧ Fmt.n32.isIntV = true := by decide

/-- A state whose v2 and v3 hold the f32 words `l` from element 0 on, and whose mask m1 is `m`. -/
def onV (l : List Nat) (m : Nat) : State :=
  onCx { cxOf [] with snap := { Snap.none with v := [(2, BitVec.ofNat 512 (leVal (l.flatMap (leBytes 4))))], m := [(1, BitVec.ofNat 256 m)] } }
/-- Element k of the block that begins at v2. -/
def src2 (s : State) (k : Nat) : Fv := decodeF .f32 (if k < 16 then elem 32 (s.aV 2) k else elem 32 (s.aV 3) (k - 16))
theorem witness_BlockScaled :
    (Fmt.e2m1 = .e4m3 ∨ Fmt.e2m1 = .e5m2 ∨ Fmt.e2m1 = .e2m1) ∧ (2#5).toNat % 2 = 0 ∧ (8#5) ≠ 9
    ∧ (bitOf ((onV [0x7FC00000] 1).aM 1).toNat (32 * 0 + 0) = true
      ∧ (match src2 (onV [0x7FC00000] 1) 0 with | .fin _ _ _ => true | _ => false) = false)
    ∧ (∀ k, k < 32 → bitOf ((onV [0x3F800000, 0x7FC00000] 1).aM 1).toNat (32 * 0 + k) = true →
      (match src2 (onV [0x3F800000, 0x7FC00000] 1) k with | .fin _ _ _ => true | _ => false) = true)
    ∧ bitOf ((onV [] 1).aM 1).toNat (32 * 0 + 1) = false := by decide +kernel

theorem witness_VectorReduce :
    Fmt.i32.isIntV = true ∧ Fmt.f32.isFloat = true ∧ activeOf (onV [5] 0) 32 1 2 = [] ∧ activeOf (onV [5] 3) 32 1 2 = [5, 0] := by decide +kernel

/-- Of four lanes, pair 0 of va has a NaN maximum and pair 1 none; only bit 0 of mask 1 is set. -/
theorem witness_SoftmaxMerge :
    (let s := onV [0x7FC00001, 0x3F800000, 0x40400000, 0x3F800000] 1
     (decodeF .f32 (elem 32 (s.aV 2) 0)).isNaN = true ∧ (decodeF .f32 (elem 32 (s.aV 2) 2)).isNaN = false
      ∧ bitOf (s.aM 1).toNat 0 = true ∧ bitOf (s.aM 1).toNat 2 = false) := by decide +kernel

/-- The rows of Table 11.7 (R185). -/
theorem test_softmax_pairs :
    mergePair 0x40400000 0x3F800000 0x3F800000 0x40000000 = (0x40400000, 0x3FC00000, 0)
    ∧ mergePair 0x40000000 0x3F800000 0x40000000 0x40400000 = (0x40000000, 0x40800000, 0)
    ∧ mergePair 0xFF800000 0 0x40A00000 0x40000000 = (0x40A00000, 0x40000000, 0)
    ∧ mergePair 0 0x3F800000 0x7F800000 0x3F800000 = (0x7F800000, 0x3F800000, 0)
    ∧ mergePair 0x7FC00000 0x3F800000 0 0x3F800000 = (0x7FC00000, 0x7FC00000, 0) := by decide +kernel

/-! ### Near-data operations -/

def trig0 : Trigger := { slot := 1, va := 0x2040, line := 0x5678, bad := [(3, 0)], n12 := 64, n13 := 0, n15 := 0 }
def grun0 : GRun := { trig := trig0, n := [(1, 0x3000), (2, 7)], w := trig0.line, pc := 0, count := 5, usedRt := false, digs := 0, startAt := 0 }
/-- A kernel run `r` of core 0, whose queue 2 a stream of slot 1 feeds. -/
def onKernel (r : GRun) : State :=
  onCore { Core.init with
    sevpol := 1, qs := [(2, { QReg.init with bind := 5, cfg := 0x80000 })]
    gat := { Gather.init with
      run := some r, streams := [{ q := 2, slot := 1, base := 0x2000, bytes := 100, next := 2, total := 2 }], triggers := [trig0] } }
def rrun0 : RRun :=
  { req := 0, slice := 0, rid := 4, code := [0], n := [(1, 3)], w := 0x99, k := [1, 2], pc := 0, startAt := 0, wrote := 0x2, bad := [(1, 0), (3, 0)]
    sev := 0, ended := false, rfault := none }
/-- The request of a routine call for one reply word. -/
def call0 : Req := { Req.new (.cx 0 0) (.lcall 4 1 [1, 2]) 0x2000 64 (.words 3 1) with words := [1], pa := 0x2000 }
/-- A routine run `r` for that call. -/
def onRoutine (r : RRun) : State :=
  let s := onCore { Core.init with sevpol := 1 }
  { s with cur := { s.cur with inRoutine := true }, reqs := [(0, call0)], nextReq := 1, near := { Near.init with runs := [(0, r)], nextRun := 1 } }

theorem witness_NearRoutines :
    ((onKernel grun0).cur.inRoutine = false ∧ (onKernel grun0).grun = some grun0 ∧ grun0.count + 1 < 1024)
    ∧ ((onRoutine rrun0).cur.inRoutine = true ∧ (onRoutine rrun0).rrun = some rrun0)
    ∧ (∀ x, (onKernel { grun0 with count := 1023 }).grun = some x → 1023 ≤ x.count)
    ∧ (rrun0.wrote.getLsbD 1 = true ∧ rrun0.bad.find? (fun e => e.1 = 0) = none ∧ trig0.bad.find? (fun e => e.1 = 0) = none)
    ∧ (rrun0.wrote.getLsbD 3 = false ∧ rrun0.bad.find? (fun e => e.1 = 3) = some (3, 0)
      ∧ polAction ((onRoutine rrun0).sevpol (onRoutine rrun0).nearCore) 0 = 1)
    ∧ (trig0.bad.find? (fun e => e.1 = 3) = some (3, 0) ∧ polAction ((onKernel grun0).sevpol (onKernel grun0).cur.core) 0 = 1)
    ∧ (onRoutine rrun0).req rrun0.req = some call0 := by
  refine ⟨by decide +kernel, by decide +kernel, ?_, by decide, by decide, by decide, by decide⟩
  rintro x ⟨⟩; decide

/-- 32 requests of core 0's unit are outstanding. -/
def fetching : List (Nat × Req) := (List.range 32).map (fun k => (k, { Req.new (.gu 0) (.load 64) 0x5000 64 (.fetch 1 false 0) with relaxed := true }))
/-- n1 of a kernel run. -/
def n1 (v : Word) : State := onKernel { grun0 with n := [(1, v)] }
def full8 : List QElem := List.replicate 8 { v := 1, tag := false, ord := 0 }
/-- A kernel run whose queue 2 holds `l`. -/
def onQueue2 (l : List QElem) : State := with0 (onKernel grun0) (fun k => { k with qs := [(2, { QReg.init with bind := 5, elems := l })] })
/-- At cycle 4 the hash unit takes 64 pairs until cycle `t`. -/
def digging (t : Nat) : State := { with0 (onKernel grun0) (fun k => { k with digBuf := List.replicate 64 t }) with time := 4 }
theorem witness_NearEnds :
    (onKernel grun0).cur.inRoutine = false ∧ (onKernel grun0).grun = some grun0 ∧ (onKernel grun0).myCore.gat.taken = none
      ∧ (onKernel grun0).myCore.gat.triggers = [trig0] ∧ (onRoutine rrun0).cur.inRoutine = true ∧ (onRoutine rrun0).rrun = some rrun0 := by decide +kernel

theorem witness_NearFetches :
    ((onKernel grun0).myCore.gat.taken = none ∧ (onKernel grun0).myCore.gat.triggers = [trig0])
    ∧ 2 ^ 48 ≤ ((n1 0x1000000000000).nr 1).toNat ∧ (((n1 0x3008).nr 1).toNat < 2 ^ 48 ∧ ((n1 0x3008).nr 1).toNat % 64 ≠ 0)
    ∧ (((n1 0xFFFFFFFFFFC0).nr 1).toNat < 2 ^ 48 ∧ ((n1 0xFFFFFFFFFFC0).nr 1).toNat % 64 = 0)
    ∧ { grun0 with usedRt := true }.usedRt = true ∧ 32 ≤ ({ onKernel grun0 with reqs := fetching }.gatOut 0).length
    ∧ ({ onKernel grun0 with reqs := fetching.take 31 }.gatOut 0).length < 32
    ∧ ((onKernel grun0).myCore.q 0).src ≠ 5 ∧ (((onKernel grun0).myCore.q 2).src = 5 ∧ ((onKernel grun0).myCore.q 2).room ≠ 0)
    ∧ ({ QReg.init with bind := 5, elems := full8 } : QReg).room = 0
    ∧ (onQueue2 full8).grun = some grun0 ∧ ((onQueue2 full8).myCore.q 2).src = 5 ∧ ((onQueue2 full8).myCore.q 2).room = 0
    ∧ 64 ≤ ((digging 5).myCore.digIn (digging 5).time).length ∧ ((digging 4).myCore.digIn (digging 4).time).length < 64 := by decide +kernel

/-- Descriptor of `n` packed f32 elements at device address `base`. -/
def desc1 (base n : Nat) : List Nat := [base, 0x100, n]
/-- Core 0 with queue 2 bound to its gather unit, kernels, streams, and descriptors 0 (good), 1 (not a multiple of 64), 2 (no format). -/
def streamSt (ks : List (Nat × List (BitVec 32))) (us : List Stream) (g : Gather) : State :=
  onCore { Core.init with
    qs := [(2, { QReg.init with bind := 5, cfg := 0x80000 })], ls := lsWords [(0, desc1 0x2000 25), (128, desc1 0x2010 25), (256, [0, 0x10F, 5])]
    gat := { g with kernels := ks, streams := us } }
/-- QCFG with kernel slot 1 and descriptor `d`. -/
def qcfgOf (d : Nat) : Word := BitVec.ofNat 64 (d * 2 ^ 22 + 2 ^ 20)
def stream0 : Stream := { q := 2, slot := 1, base := 0x2000, bytes := 100, next := 0, total := 2 }
theorem witness_StreamStarts :
    ((streamSt [] [] Gather.init).myCore.q 0).src ≠ 5 ∧ ((streamSt [] [] Gather.init).myCore.q 2).src = 5
    ∧ ((streamSt [] [stream0] Gather.init).myCore.gat.streams.any (fun u => u.slot = (qcfgOf 0).toNat / 2 ^ 20 % 4) = true
      ∧ (streamSt [] [] Gather.init).myCore.gat.streams.any (fun u => u.slot = (qcfgOf 0).toNat / 2 ^ 20 % 4) = false)
    ∧ sfind (streamSt [] [] Gather.init).myCore.gat.kernels ((qcfgOf 0).toNat / 2 ^ 20 % 4) = none
    ∧ sfind (streamSt [(1, [0])] [] Gather.init).myCore.gat.kernels ((qcfgOf 0).toNat / 2 ^ 20 % 4) ≠ none
    ∧ 98304 < (qcfgOf 768).toNat / 2 ^ 22 % 2 ^ 10 * 128 + 128
    ∧ parseDesc ((streamSt [] [] Gather.init).descWords 0 256) = none
    ∧ (parseDesc ((streamSt [] [] Gather.init).descWords 0 128)).map (fun d => (d.ndim, d.base % 64)) = some (1, 16)
    ∧ (parseDesc ((streamSt [] [] Gather.init).descWords 0 0)).map (fun d => (d.ndim, d.loc, d.mx, d.bm, d.base % 64)) = some (1, false, false, false, 0) := by
  decide +kernel

/-- The unit of core 0 has an index line back, for its stream of slot 1. -/
def lineBack (g : Gather) (e : Ev) : State :=
  { taking (streamSt [(1, [0])] [{ stream0 with next := 2 }] g) e with
    reqs := [(0, { Req.new (.gu 0) (.load 64) 0x2040 64 (.index 1 1) with relaxed := true, st := .done, data := leBytes 64 7 })], nextReq := 1 }
theorem witness_StreamRuns :
    (let s := taking (streamSt [(1, [0])] [stream0] Gather.init) (.gatherReadIssue 0 1);
      (s.core 0).gat.streams.find? (fun t => t.slot = 1) = some stream0 ∧ stream0.next < stream0.total ∧ (s.gatOut 0).length < 32 ∧ s.slotBusy 0 1 < 32)
    ∧ (let s := { taking (streamSt [(1, [0])] [stream0] Gather.init) (.gatherReadIssue 0 1) with reqs := fetching };
      32 ≤ (s.gatOut 0).length ∧ (s.core 0).gat.streams.find? (fun t => t.slot = 1) = some stream0)
    ∧ 32 ≤ (taking (streamSt [(1, [0])] [stream0] { Gather.init with triggers := List.replicate 32 trig0 }) (.gatherReadIssue 0 1)).slotBusy 0 1
    ∧ 32 ≤ ((lineBack { Gather.init with triggers := List.replicate 32 trig0 } (.gatherTrigger 0 0)).core 0).gat.triggers.length
    ∧ (let s := lineBack { Gather.init with taken := some trig0 } (.gatherTrigger 0 0);
      (∃ q, s.req 0 = some q ∧ q.live = true ∧ q.dest = .index 1 1) ∧ (s.core 0).gat.taken ≠ none
        ∧ (s.core 0).gat.streams.find? (fun t => t.slot = 1) = some { stream0 with next := 2 })
    ∧ (let s := lineBack Gather.init (.gatherTrigger 0 0); (s.core 0).gat.taken = none ∧ (s.core 0).gat.triggers = [])
    ∧ (let s := { lineBack { Gather.init with taken := some trig0 } (.gatherRun 0) with time := 2 };
      (s.core 0).gat.taken = some trig0 ∧ (s.core 0).gat.run = none ∧ (s.core 0).gat.takenAt + 2 ≤ s.time) :=
  ⟨by decide +kernel, by decide +kernel, by decide +kernel, by decide +kernel,
    ⟨⟨_, rfl, by decide, by decide⟩, by decide +kernel, by decide +kernel⟩, by decide +kernel, by decide +kernel⟩

/-- Core 0's queue 2, with QCFG `cfg` and elements `l`, is fed by a stream of slot 1 whose lines have all been taken. -/
def drainSt (cfg : Word) (l : List QElem) (p : List (Nat × Word)) (e : Ev) : State :=
  with0 (taking (streamSt [] [{ stream0 with next := 2 }] { Gather.init with pend := p }) e)
    (fun k => { k with qs := [(2, { QReg.init with bind := 5, cfg := cfg, elems := l })] })
/-- That stream has drained and no fault word of its slot waits. -/
def drainsOut (s : State) : Bool :=
  decide ((s.core 0).gat.pend.find? (fun p => p.1 / 8 = 1) = none) && s.drained 0 { stream0 with next := 2 }
    && decide ((s.core 0).gat.streams.find? (fun t => t.slot = 1) = some { stream0 with next := 2 })
theorem witness_StreamEnds :
    (let s := drainSt 0 [] [] (.gatherFetchFault 0 1 4 0x2040);
      s.cur.ev = .gatherFetchFault 0 1 4 0x2040 ∧ (s.core 0).gat.streams.find? (fun t => t.slot = 1) = some { stream0 with next := 2 })
    ∧ (let s := drainSt 0 [] [(10, 5)] (.gatherDrain 0 1);
      (s.core 0).gat.pend.find? (fun p => p.1 / 8 = 1) = some (10, 5) ∧ 10 % 8 = 2 ∧ ((s.core 0).q 2).src = 5 ∧ ((s.core 0).q 2).room ≠ 0)
    ∧ ((drainSt 0 full8 [(10, 5)] (.gatherDrain 0 1)).myCore.q 2).room = 0
    ∧ (let s := drainSt 0x80000 [] [] (.gatherDrain 0 1);
      drainsOut s = true ∧ ((s.core 0).q 2).room ≠ 0 ∧ ((s.core 0).q 2).cfg.getLsbD 19 = true)
    ∧ (let s := drainSt 0x80000 full8 [] (.gatherDrain 0 1); drainsOut s = true ∧ ((s.core 0).q 2).room = 0)
    ∧ (let s := drainSt 0 [] [] (.gatherDrain 0 1); drainsOut s = true ∧ ((s.core 0).q 2).cfg.getLsbD 19 = false) := by decide +kernel

theorem witness_RoutineRuns :
    (let s := taking (onRoutine { rrun0 with ended := true, rfault := some 5 }) (.routineRun 0);
      s.near.runs.find? (fun e => e.2.req = 0) = some (0, { rrun0 with ended := true, rfault := some 5 }) ∧ s.req 0 = some call0)
    ∧ (let s := taking (onRoutine { rrun0 with ended := true }) (.routineRun 0);
      s.near.runs.find? (fun e => e.2.req = 0) = some (0, { rrun0 with ended := true }) ∧ s.ownerOf (call0.pa / 64) = none)
    ∧ (let s := { taking (onRoutine rrun0) (.routineRun 0) with
          near := { Near.init with slots := [(call0.homeSlice, [{ asid := 0, rid := 4, code := [0], started := 0 }])] }
          coh := { Coh.init with l2 := [call0.pa / 64] } };
      s.near.runs.find? (fun e => e.2.req = 0) = none
        ∧ s.slotOf call0.homeSlice (s.asidOf call0.who.core) 4 = some { asid := 0, rid := 4, code := [0], started := 0 }
        ∧ s.lineBusy 0 call0.pa 64 = false ∧ s.markers call0.pa 64 false = []
        ∧ s.otherCopies (homeOf call0.pa) (homeOf call0.pa) [call0.pa / 64] = [] ∧ s.missing [call0.pa / 64] = []
        ∧ sfind s.coh.latent (call0.pa / 64) = none)
    ∧ (let s := { taking (onRoutine rrun0) (.routineSlotLoad 0) with near := { Near.init with slotReqs := [(0, [0])] } };
      sget [] s.near.slotReqs 0 = [0] ∧ s.slotOf call0.homeSlice (s.asidOf call0.who.core) 4 = none
        ∧ (s.launchOf call0.who.core).bind (fun l => l.routine 4) = none ∧ (sget [] s.near.slots call0.homeSlice).length < 64)
    ∧ (let s := onRoutine rrun0;
      let t := { s with lau := { s.lau with launches := s.lau.launches.map (fun (e : Nat × Launch) => (e.1, { e.2 with routines := [(4, [0])] })) } };
      (t.launchOf call0.who.core).bind (fun l => l.routine 4) = some [(0 : BitVec 32)]) := by decide +kernel

/-! ### The control thread -/

/-- Core 0's control thread is `t`. -/
def onCt (t : Ct) : State := onCore { Core.init with ct := t }
theorem witness_RvIntegers :
    ((onX []).cpc + (4#20 ++ 0#1).signExtend 64).toNat % 4 = 0 ∧ ((onX []).cpc + (1#20 ++ 0#1).signExtend 64).toNat % 4 ≠ 0
    ∧ (((onX [(1, 9)]).xr 1 + (0#12).signExtend 64) &&& ~~~1).toNat % 4 = 0 ∧ (((onX [(1, 10)]).xr 1 + (0#12).signExtend 64) &&& ~~~1).toNat % 4 ≠ 0
    ∧ (onX [(1, 3), (2, 3)]).xr 1 = (onX [(1, 3), (2, 3)]).xr 2
    ∧ ((onX [(1, -1)]).xr 1).toInt < ((onX [(1, -1)]).xr 2).toInt ∧ ¬ ((onX [(1, -1)]).xr 1).toNat < ((onX [(1, -1)]).xr 2).toNat := by decide

/-- A handler at the last word below XBOUND can be fetched, one at XBOUND or misaligned cannot. -/
theorem witness_Exceptions :
    (∃ l, (onCt { Ct.init with mtvec := 128 }).lau.launches.find?
        (fun e => e.2.lid = ((onCt { Ct.init with mtvec := 128 }).core 0).lid && e.2.st ≠ .done && e.2.st ≠ .failed) = some (0, l))
    ∧ ((onCt { Ct.init with mtvec := 128 }).core 0).bound ≤ ((onCt { Ct.init with mtvec := 128 }).core 0).ct.mtvec.toNat
    ∧ ((onCt { Ct.init with mtvec := 126 }).core 0).ct.mtvec.toNat % 4 ≠ 0
    ∧ (((onCt { Ct.init with mtvec := 124 }).core 0).ct.mtvec.toNat < ((onCt { Ct.init with mtvec := 124 }).core 0).xbound.toNat * 128
      ∧ ((onCt { Ct.init with mtvec := 124 }).core 0).ct.mtvec.toNat % 4 = 0)
    ∧ (onX []).myCore.ct.priv = .machine ∧ (onCt { Ct.init with priv := .user }).myCore.ct.priv = .user :=
  ⟨⟨_, rfl⟩, by decide⟩

/-- Address of rs1 = `v` with offset 0. -/
def va1 (v : Word) : Nat := ((onX [(1, v)]).xr 1 + (0#12).signExtend 64).toNat
/-- Remote local store of core 1. -/
def ls1 (lo : Word) : Word := 0x2000100000000 + lo
theorem witness_RvMemory :
    (va1 98296 % 8 = 0 ∧ va1 98296 + 8 ≤ 98304 ∧ (onX [(1, 98296)]).lsTraps 0 98296 8 = false ∧ (onX [(1, 98296)]).lsSnuffs 0 98296 8 = false
      ∧ (onX [(1, 98296)]).lsHeld 0 98296 8 = false)
    ∧ (onCore lsBadCore).lsTraps 0 98296 8 = true ∧ va1 98297 % 2 ≠ 0
    ∧ (va1 98304 % 8 = 0 ∧ va1 98304 / 2 ^ 48 = 0 ∧ 98304 < va1 98304 + 8) ∧ 3 ≤ va1 0x3000000000000 / 2 ^ 48
    ∧ (va1 0x1000000001000 % 8 = 0 ∧ va1 0x1000000001000 / 2 ^ 48 = 1
      ∧ tileServes (onX []).myCore (Req.new (.ct 0) (.load 8) 0x1000 8 (.x 3 .ld)) = false)
    ∧ (let a := va1 (ls1 98296);
      a % 8 = 0 ∧ a / 2 ^ 48 = 2 ∧ a / 2 ^ 43 % 32 = 0 ∧ a / 2 ^ 17 % 2 ^ 15 = 0 ∧ a % 2 ^ 17 + 8 ≤ 98304 ∧ a / 2 ^ 32 % 2 ^ 11 = 1
        ∧ linked.sameLaunch 0 1 = true)
    ∧ (let a := va1 (ls1 98304); a / 2 ^ 48 = 2 ∧ ¬ a % 2 ^ 17 + 8 ≤ 98304)
    ∧ { onX [] with jobs := jobReads }.lsHeld 0 71 1 = true := by decide

theorem witness_RvAtomics :
    (va1 98300 % 4 = 0 ∧ va1 98300 + 4 ≤ 98304 ∧ (onX []).lsTraps 0 98300 4 = false ∧ (onX []).lsSnuffs 0 98300 4 = false
      ∧ (onX []).lsHeld 0 98300 4 = false)
    ∧ (va1 0x1000000001000 % 8 = 0 ∧ va1 0x1000000001000 / 2 ^ 48 = 1
      ∧ tileServes (onX []).myCore (Req.new (.ct 0) (.atomic 8 0 1 0) 0x1000 8 (.x 3 .ld)) = false)
    ∧ va1 98302 % 4 ≠ 0 ∧ (va1 (ls1 0) % 8 = 0 ∧ 2 ≤ va1 (ls1 0) / 2 ^ 48) ∧ va1 0 / 2 ^ 48 ≠ 1 := by decide

/-- A store of the control thread is on its way. -/
def ctStoring : State := { onX [] with reqs := [(0, Req.new (.ct 0) (.store [1]) 0x1000 1 .none)], nextReq := 1 }
theorem witness_RvWaits :
    (∀ r q, (r, q) ∈ (onX []).reqs → q.who = .ct (onX []).cur.core → q.live = true → r < (onX []).nextReq → q.atDv = true ∧ q.atSy = true)
    ∧ ¬ (∀ r q, (r, q) ∈ ctStoring.reqs → q.who = .ct ctStoring.cur.core → q.live = true → r < ctStoring.nextReq → q.atDv = true ∧ q.atSy = true)
    ∧ (onX []).myCore.evmask = 0 ∧ (onCore { Core.init with evmask := 4, evpend := 4 }).myCore.events &&& 4 ≠ 0
    ∧ (onCore { Core.init with evmask := 4 }).myCore.evmask ≠ 0 ∧ (onCore { Core.init with evmask := 4 }).myCore.events &&& 4 = 0 := by
  refine ⟨fun r q h => ?_, fun h => ?_, by decide⟩
  · cases h
  · exact absurd (h 0 _ (.head _) rfl rfl (by decide)) (by decide)

theorem witness_CsrReads :
    ((0x7C7 ≤ (0x7C7#12).toNat ∧ (0x7FF#12).toNat ≤ 0x7FF) ∧ (0x806 ≤ (0x806#12).toNat ∧ (0x807#12).toNat ≤ 0x807)
      ∧ 0x810 ≤ (0x810#12).toNat ∧ (0x8FF#12).toNat ≤ 0x8FF)
    ∧ (CsrOp.rw = .rw ∧ (0x7C4#12).toNat = 0x7C4 ∧ 0xC00 ≤ (0xC00#12).toNat)
    ∧ ((onCt { Ct.init with priv := .user }).myCore.ct.priv = .user ∧ (0x7C0#12).toNat ≤ 0x7FF ∧ 0x300 ≤ (0x300#12).toNat)
    ∧ (¬ (CsrOp.rs = .rw ∨ (0#5) ≠ 0) ∧ (onX []).myCore.ct.mayAccess 0x300 = true
      ∧ (onCt { Ct.init with priv := .user, mcounteren := 2 }).myCore.ct.mayAccess 0xC01 = true) := by decide

theorem witness_CsrRows :
    (onX []).myCore.pair.on = false ∧ (onX []).quiescent (onX []).cur.core = true ∧ (onS []).quiescent (onS []).cur.core = false := by decide
theorem witness_CsrWrites :
    ((0x305#12).toNat = 0x305 ∧ (0x340#12).toNat = 0x340 ∧ (0x803#12).toNat = 0x803 ∧ (0x7C3#12).toNat = 0x7C3)
    ∧ (CsrOp.rc = .rw ∨ (1#5) ≠ 0) ∧ (onX []).myCore.ct.mayAccess 0x305 = true := by decide

/-! ### Context control -/

/-- Core 0 in mode `m` with the contexts `l` and the control thread's registers `r`. -/
def ctxSt (m : BitVec 2) (l : List (Nat × Ctx)) (r : List (Nat × Word)) : State :=
  onCore { Core.init with mode := m, ctxs := l, ct := { Ct.init with x := r } }
/-- A context in a state. -/
def inSt (st : CSt) : Ctx := { cxOf [(2, 5)] with st := st }
/-- The odd core of a coupled pair. -/
def oddCore : State := onCore { Core.init with pair := { Pair.init with on := true, odd := true } }
theorem witness_ContextStart :
    (onX [(1, 0)]).myCore.pair.on = false ∧ (((onX [(1, 130944)]).xr 1).toNat % 128 = 0 ∧ ((onX [(1, 130944)]).xr 1).toNat < 2 ^ 17)
    ∧ ((onX [(1, 0)]).xr 1).toNat + 128 ≤ (onX [(1, 0)]).myCore.bound ∧ ((onX [(1, 64)]).xr 1).toNat % 128 ≠ 0
    ∧ (((onX [(1, 128)]).xr 1).toNat % 128 = 0 ∧ (onX [(1, 128)]).myCore.bound < ((onX [(1, 128)]).xr 1).toNat + 128)
    ∧ (decide (15 < modeN (onX [(1, 0x8000)]).myCore.mode) && ((onX [(1, 0x8000)]).xr 1).getLsbD 15) = true
    ∧ ((ctxSt 0 [(15, inSt .faulted)] []).cx 0 15).st = .faulted ∧ ((ctxSt 0 [(15, inSt .waitQ)] []).cx 0 15).st = .waitQ
    ∧ (∀ c, c < 16 → ((ctxSt 0 [] []).cx 0 c).st = .empty) ∧ oddCore.oddCt = true
    ∧ (let s := ctxSt 0 [(15, inSt .waitQ)] [(1, 0x8000)]; (s.xr 1).getLsbD 15 = true ∧ (s.cx 0 15).st = .waitQ) := by decide

/-- Selector of context `c`, kind, register number and word. -/
def sel (c kind num word : Nat) : Word := BitVec.ofNat 64 (c + 16 * kind + 256 * num + 8192 * word)
/-- A selector of kind `k` of STOPPED context 0, and a value to write. -/
def wrSt (k : Nat) (v : Word) : State := ctxSt 0 [(0, inSt .stopped)] [(1, sel 0 k 0 0), (2, v)]
theorem witness_ContextState :
    (onX []).myCore.pair.on = false
    ∧ (((ctxSt 0 [(1, inSt .stopped)] [(1, 2)]).cx 0 1).holds = false ∧ ((ctxSt 0 [(1, inSt .stopped)] [(1, 2)]).cx 0 1).txn = none)
    ∧ (((ctxSt 0 [(1, inSt .waitMem)] [(1, 2)]).cx 0 1).holds = true ∧ ((ctxSt 0 [(1, inSt .waitMem)] [(1, 2)]).cx 0 1).st ≠ .empty)
    ∧ (selOk 0 (sel 0 0 16 0) = false ∧ selOk 3 (sel 2 0 0 0) = false ∧ selOk 0 (sel 0 1 0 8) = false ∧ selOk 0 (sel 0 10 0 0) = false)
    ∧ (selOk 0 (sel 15 0 15 0) = true ∧ selOk 0 (sel 0 1 15 7) = true ∧ selOk 0 (sel 0 2 3 3) = true ∧ selOk 0 (sel 0 9 0 0) = true)
    ∧ ((98296#64).toNat % 8 = 0 ∧ (98296#64).toNat < 98304 ∧ 98304 ≤ (98304#64).toNat ∧ (4#64).toNat ≤ 4 ∧ 4 < (5#64).toNat)
    ∧ (modeN (ctxSt 3 [] [(1, 2)]).myCore.mode ≤ ((ctxSt 3 [] [(1, 2)]).xr 1).toNat ∧ ((onX []).xr 2).toNat % 128 = 0)
    ∧ ((ctxSt 3 [(1, inSt .stopped)] [(1, 1)]).xr 1).toNat < modeN (ctxSt 3 [] []).myCore.mode
    ∧ ((ctxSt 0 [(1, inSt .faulted)] [(1, 1)]).cx 0 1).st = .faulted ∧ ((onX [(2, 64)]).xr 2).toNat % 128 ≠ 0
    ∧ (((onX [(2, 130944)]).xr 2).toNat % 128 = 0 ∧ ((onX [(2, 130944)]).xr 2).toNat < 2 ^ 17)
    ∧ (((ctxSt 0 [(1, inSt .waitBar)] []).cx 0 1).st = .waitBar ∧ ((ctxSt 0 [(1, inSt .waitBar)] []).cx 0 1).txn = none)
    ∧ ((ctxSt 0 [] []).cx 0 1).st = .empty
    ∧ ((wrSt 3 98296).xr 1 = sel 0 3 0 0 ∧ (wrSt 5 4).xr 1 = sel 0 5 0 0 ∧ (wrSt 6 0).xr 1 = sel 0 6 0 0 ∧ (wrSt 9 7).xr 1 = sel 0 9 0 0
      ∧ (wrSt 4 7).xr 1 = sel 0 4 0 0 ∧ ((wrSt 3 98296).cx 0 0).holds = false ∧ (wrSt 5 5).xr 2 = 5 ∧ (wrSt 3 98304).xr 2 = 98304
      ∧ (wrSt 1 7).xr 1 = sel 0 1 0 0 ∧ (wrSt 2 7).xr 1 = sel 0 2 0 0)
    ∧ (let s := with0 (ctxSt 0 [(0, { inSt .stopped with sBad := [2] })] [(1, sel 0 0 2 0)]) (fun k => { k with sevpol := 0x100 });
      selBad s 0 (s.xr 1) = true ∧ polAction (s.sevpol 0) 4 = 1)
    ∧ (let s := ctxSt 0 [(0, { inSt .stopped with shownAt := 5, pcOld := some (2, 64) })] [(1, sel 0 3 0 0)]; (s.cx 0 0).busyUnit s.time = true) := by
  decide +kernel

/-- A saved context of mode 0 under handle 64. -/
def saved0 : Saved := { handle := 64, mode := 0, ctx := inSt .stopped, slot := none, v := [(3, 9)], bad := [], inCache := true }
/-- Core 0 with the saved context. -/
def savedSt (m : BitVec 2) (l : List (Nat × Ctx)) (h : Word) : State :=
  onCore { Core.init with mode := m, ctxs := l, tcc := [saved0], ct := { Ct.init with x := [(1, 1), (2, h)] } }
theorem witness_ContextMoves :
    (onX []).myCore.pair.on = false ∧ (onCt { Ct.init with priv := .user }).myCore.ct.priv = .user ∧ (onX []).myCore.ct.priv = .machine
    ∧ (((onX [(1, 3)]).xr 1).toNat ≠ 16 ∧ ((onX [(1, 3)]).xr 1).toNat ≠ 2) ∧ ((onX [(1, 2)]).xr 1).toNat = 2
    ∧ ((ctxSt 0 [(0, inSt .run)] []).quiescent 0 = false ∧ (onX [(1, 2)]).quiescent 0 = true)
    ∧ (modeN (onX []).myCore.mode ≤ 16 ∧ ((onX []).cx 0 1).st = .empty)
    ∧ (let s := ctxSt 0 [(1, inSt .stopped)] [(1, 1)];
      (s.xr 1).toNat < modeN s.myCore.mode ∧ (s.cx 0 1).st ≠ .empty ∧ (s.cx 0 1).st ≠ .evicted ∧ s.canEvict 0 = true ∧ (s.cx 0 1).holds = false
        ∧ (s.cx 0 1).txn = none)
    ∧ (let s := onCore { Core.init with tcc := List.replicate 21 saved0 }; s.canEvict 0 = false)
    ∧ (savedSt 0 [] 65).myCore.tcc.find? (fun x => x.handle = (savedSt 0 [] 65).xr 2) = none
    ∧ ((savedSt 3 [] 64).myCore.tcc.find? (fun x => x.handle = (savedSt 3 [] 64).xr 2) = some saved0 ∧ saved0.mode ≠ (savedSt 3 [] 64).myCore.mode)
    ∧ ((savedSt 0 [(1, inSt .stopped)] 64).cx 0 1).st ≠ .empty
    ∧ (saved0.mode = (savedSt 0 [] 64).myCore.mode ∧ ((savedSt 0 [] 64).cx 0 1).st = .empty) := by decide +kernel

/-- A context of core 0 at `pc` takes `e`; the overlay stub is as OVLVEC says. -/
def copySt (pc : BitVec 17) (ovl : Word) (e : Ev) : State := taking (onCore { Core.init with ctxs := [(0, { cxOf [] with pc := pc, copy := true })], ovlvec := ovl }) e
theorem witness_ContextSteps :
    ((copySt 0 0 .blockCopy).me.pc.toNat / 128 * 128 + 128 ≤ (copySt 0 0 .blockCopy).myCore.bound)
    ∧ (let s := copySt 128 0x8000000000000000 .blockCopy;
      s.myCore.bound < s.me.pc.toNat / 128 * 128 + 128 ∧ s.myCore.ovlvec.getLsbD 63 = true
        ∧ s.myCore.ovlvec.toNat / 128 % 1024 * 128 + 128 ≤ s.myCore.bound)
    ∧ (let s := copySt 128 0x8000000000000080 .blockCopy; s.myCore.bound < s.myCore.ovlvec.toNat / 128 % 1024 * 128 + 128 ∧ s.me.txn = none)
    ∧ (copySt 128 0 .blockCopy).myCore.ovlvec.getLsbD 63 = false
    ∧ (let s := taking (onCore { Core.init with ctxs := [(15, { cxOf [] with readyAt := 1 })] }) (.bcastDelivery 0 0x8000 0 [5]);
      (0x8000 : Nat).testBit 15 = true ∧ (s.cx 0 15).st = .run ∧ (s.cx 0 15).readyAt = s.time + 1 ∧ (s.cx 0 15).pc.toNat = 0 ∧ (s.cx 0 15).copy = false)
    ∧ ((onCx { cxOf [] with handler := some (.follow 8) }).cx 0 0).handler ≠ none ∧ ((onS []).cx 0 0).held = none
    ∧ (let s := onCore { Core.init with ctxs := [(0, { cxOf [] with held := some (.rdreg 0) })], ct := { Ct.init with wait := .held 3 1 0 } };
      (s.cx 0 0).held = some (.rdreg 0) ∧ (s.core 0).pair.on = false ∧ (s.core 0).ct.wait = .held 3 (BitVec.ofNat 16 (2 ^ 0)) 0)
    ∧ (let s := onCore { Core.init with ctxs := [(0, inSt .evicted)], ct := { Ct.init with wait := .save 3 64 } };
      (s.cx 0 0).st = .evicted ∧ (s.cx 0 0).readyAt ≠ 2 ^ 64 ∧ (s.core 0).ct.wait = .save 3 64)
    ∧ (let s := onCore { Core.init with tcc := [saved0], ct := { Ct.init with wait := .save 3 64 } };
      (s.core 0).ct.wait = .save 3 64 ∧ (s.core 0).tcc.find? (fun e => e.handle = 64) = some saved0 ∧ saved0.ctx.st ≠ .faulted) := by decide +kernel

/-! ### Jobs -/

/-- The word of a FILL command with EV. -/
def fillWord : Nat := 0x26 * 2 ^ 248 + 2 ^ 247
/-- Core 0 with the words of commands at 64 (none), 96 (FILL), 128 (bit 244 set) and 98272 (FILL). -/
def cmdCore (r : List (Nat × Word)) : Core :=
  { Core.init with
    ls := putCells (putCells (putCells [] 96 (leBytes 32 fillWord)) 128 (leBytes 32 (fillWord + 2 ^ 244))) 98272 (leBytes 32 fillWord)
    ct := { Ct.init with x := r } }
def cmdAt (s : State) (a : Nat) : BitVec 256 := BitVec.ofNat 256 (lsNum s 0 a 32)
/-- Job 1 of core 0, a FILL; `n` of them queued at its engine. -/
def job1 : Job := { Job.new 0 0 1 1 0 0x26 (tileFields (BitVec.ofNat 256 fillWord)) with accepted := true }
def queuedJobs (n : Nat) : Jobs := { Jobs.init with list := (List.range n).map (fun k => (k + 1, job1)), next := n + 1 }
/-- Records that all hold jobs not yet terminal: `n` of them. -/
def recsOf (n : Nat) : List (Nat × JRec) := (List.range n).map (fun k => (k, { seq := 1, job := k + 1, shown := none }))
/-- Core 0's control thread, with rs1 = 96, waits to push the FILL of 96 with `n` jobs in its engine's queue, and core 2 too where `r` says. -/
def pushing (n : Nat) (r : Bool) : State :=
  let w := .push (BitVec.ofNat 256 fillWord)
  let s := { onCore { cmdCore [(1, 96)] with ct := { Ct.init with x := [(1, 96)], wait := w } } with jobs := queuedJobs n }
  if r then s.setCore 2 { Core.init with lid := 1, ct := { Ct.init with wait := w } } else s
/-- A word at `bad` has an error that the policy traps. -/
def badCmd (bad : Nat) : State := with0 (onCore (cmdCore [(1, 96)])) (fun k => { k with sevpol := 0x100, lsBad := [bad] })
theorem witness_PushCommands :
    (((onCore (cmdCore [(1, 80)])).xr 1).toNat % 32 ≠ 0 ∧ 98304 ≤ ((onCore (cmdCore [(1, 98304)])).xr 1).toNat
      ∧ 256 ≤ ((onCore (cmdCore [(2, 256)])).xr 2).toNat)
    ∧ (let s := onCore (cmdCore [(1, 64), (2, 255)]);
      (s.xr 1).toNat % 32 = 0 ∧ (s.xr 1).toNat < 98304 ∧ (s.xr 2).toNat < 256
        ∧ ¬ (tileOfOp (tileFields (cmdAt s 64)) ((cmdAt s 64).extractLsb' 248 8).toNat).isSome = true)
    ∧ (let s := onCore (cmdCore [(1, 128)]);
      (tileOfOp (tileFields (cmdAt s 128)) ((cmdAt s 128).extractLsb' 248 8).toNat).isSome = true ∧ ¬ (cmdAt s 128).getLsbD 244 = false)
    ∧ (let s := onCore (cmdCore [(1, 98272), (2, 255)]);
      (tileOfOp (tileFields (cmdAt s 98272)) ((cmdAt s 98272).extractLsb' 248 8).toNat).isSome = true ∧ (cmdAt s 98272).getLsbD 244 = false
        ∧ tileFieldsOk 0x26 (tileFields (cmdAt s 98272)) = true ∧ (tileFields (cmdAt s 98272)).grp = false
        ∧ s.noRoom 0x26 0 (tileFields (cmdAt s 98272)) = false ∧ s.myCore.takeRec ≠ none ∧ s.sentLive 0 < 16 ∧ (s.xr 2).toNat < 256)
    ∧ { onCore (cmdCore [(1, 98272)]) with jobs := queuedJobs 16 }.noRoom 0x26 0 job1.cmd = true
    ∧ { onCore (cmdCore []) with jobs := queuedJobs 15 }.noRoom 0x26 0 job1.cmd = false
    ∧ (onCore { cmdCore [(1, 98272)] with recs := recsOf 64 }).myCore.takeRec = none ∧ (onCore { Core.init with recs := recsOf 63 }).myCore.takeRec ≠ none
    ∧ 16 ≤ { onCore { Core.init with recs := recsOf 16 } with
        jobs := { Jobs.init with list := (List.range 16).map (fun k => (k + 1, { job1 with sent := true })) } }.sentLive 0
    ∧ ((pushing 16 false).myCore.ct.wait = .push (BitVec.ofNat 256 fillWord) ∧ (pushing 16 false).noRoom 0x26 0 job1.cmd = true)
    ∧ (let s := pushing 0 false;
      s.noRoom 0x26 0 job1.cmd = false ∧ s.myTurn (queueFor 0x26 0) 0 = true ∧ s.myCore.takeRec ≠ none)
    ∧ (let s := { pushing 0 true with jobs := { Jobs.init with clusters := [(0, { Cluster.init with lastC := 1, lastM := 1 })] } };
      s.noRoom 0x26 0 job1.cmd = false ∧ s.myTurn (queueFor 0x26 0) 0 = false)
    ∧ ((badCmd 120).lsTraps 0 96 32 = true ∧ (badCmd 136).lsTraps 0 (96 + 32) 16 = true
      ∧ (badCmd 136).lsTraps 0 96 32 = false ∧ (badCmd 136).lsSnuffs 0 96 32 = false ∧ (badCmd 136).sentLive 0 < 16)
    ∧ (∀ v, (onCore (cmdCore [])).myCore.ct.wait ≠ .push v) := by
  refine ⟨by decide +kernel, by decide +kernel, by decide +kernel, by decide +kernel, by decide +kernel, by decide +kernel, by decide +kernel,
    by decide +kernel, by decide +kernel, by decide +kernel, by decide +kernel, by decide +kernel, by decide +kernel, ?_⟩
  rintro v ⟨⟩

/-- A record that shows `v` for job 1. -/
def recSt (v : Option Word) (st : JSt) (id : Word) : State :=
  { onCore { Core.init with recs := [(3, { seq := 1023, job := 1, shown := v })], ct := { Ct.init with x := [(1, id)] } } with
    jobs := { Jobs.init with list := [(1, { job1 with st := st })], next := 2 } }
theorem witness_JobStatus :
    (∀ r, sfind (recSt none .running 67).myCore.recs (((recSt none .running 67).xr 1).toNat % 64) = some r →
      r.job = 0 ∨ ((recSt none .running 67).xr 1).toNat ≠ r.seq * 64 + ((recSt none .running 67).xr 1).toNat % 64)
    ∧ (let s := recSt (some 5) .done 65475;
      sfind s.myCore.recs ((s.xr 1).toNat % 64) = some { seq := 1023, job := 1, shown := some 5 } ∧ (s.xr 1).toNat = 1023 * 64 + (s.xr 1).toNat % 64)
    ∧ (let s := recSt none .running 65475;
      sfind s.myCore.recs ((s.xr 1).toNat % 64) = some { seq := 1023, job := 1, shown := none } ∧ s.job 1 = some { job1 with st := .running }) := by
  refine ⟨fun r h => ?_, by decide +kernel, by decide +kernel⟩
  cases (Option.some.inj h : _ = r); decide

/-- Core 0 with a capability body at 98288. -/
def mintSt (t : Ct) (b : Nat) : State := onCore { Core.init with ct := t, ls := lsWords [(98288, [b])] }
theorem witness_Mint :
    (mintSt { Ct.init with priv := .user } 0).myCore.ct.priv = .user ∧ (mintSt Ct.init 0).myCore.ct.priv = .machine
    ∧ (((mintSt { Ct.init with x := [(1, 98296)] } 0).xr 1).toNat % 16 ≠ 0 ∧ 98304 ≤ ((mintSt { Ct.init with x := [(1, 98304)] } 0).xr 1).toNat
      ∧ bitsOf (lsNum (mintSt Ct.init (2 ^ 43)) 0 98288 8) 47 43 ≠ 0 ∧ bitsOf (lsNum (mintSt Ct.init (2 ^ 39)) 0 98288 8) 39 32 ≠ 0
      ∧ bitsOf (lsNum (mintSt Ct.init (2 ^ 56)) 0 98288 8) 55 48 < bitsOf (lsNum (mintSt Ct.init (2 ^ 56)) 0 98288 8) 63 56)
    ∧ (let s := mintSt { Ct.init with x := [(1, 98288)] } (2 ^ 48 + 2 ^ 42);
      ¬ ((s.xr 1).toNat % 16 ≠ 0 ∨ 98304 ≤ (s.xr 1).toNat ∨ bitsOf (lsNum s 0 98288 8) 47 43 ≠ 0 ∨ bitsOf (lsNum s 0 98288 8) 39 32 ≠ 0
        ∨ bitsOf (lsNum s 0 98288 8) 55 48 < bitsOf (lsNum s 0 98288 8) 63 56)
        ∧ s.lsTraps 0 98288 8 = false ∧ s.lsSnuffs 0 98288 8 = false)
    ∧ (let s := with0 (mintSt { Ct.init with x := [(1, 98288)] } 0) (fun k => { k with sevpol := 0x100, lsBad := [98288] });
      s.lsTraps 0 98288 8 = true) := by decide +kernel

/-- A capability for cluster 0 alone, with its tag. -/
def capBody : Nat := 1 + 2 ^ 41
def cap1 : List Byte := leBytes 8 capBody ++ leBytes 8 (capTag (Config.launchKey 1) (leBytes 8 capBody)).toNat
theorem leVal_leBytes8 (w : Word) : leVal (leBytes 8 w.toNat) % 2 ^ 64 = w.toNat := by
  have := w.isLt
  simp only [leBytes, leVal, BitVec.toNat_ofNat]
  omega
theorem witness_capability :
    (capTag (Config.launchKey 1) (cap1.take 8)).toNat = leVal (cap1.drop 8) % 2 ^ 64
    ∧ (let b := leVal (cap1.take 8);
      bitsOf b 31 0 = 1 ∧ bitsOf b 63 56 ≤ 0 ∧ 0 ≤ bitsOf b 55 48 ∧ b.testBit 41 = true) := by
  have h1 : cap1.take 8 = leBytes 8 capBody := rfl
  have h2 : cap1.drop 8 = leBytes 8 (capTag (Config.launchKey 1) (leBytes 8 capBody)).toNat := rfl
  rw [h1, h2]
  exact ⟨(leVal_leBytes8 _).symm, by decide +kernel⟩
/-- Job 1 is `x`, and `e` is taken. -/
def onJob (x : Job) (e : Ev) : State := { taking (onX []) e with jobs := { Jobs.init with list := [(1, x)], next := 2 } }
/-- A sent FILL with a capability. -/
def sent1 : Job := { job1 with accepted := false, sent := true, cap := cap1 }
/-- A gang command of group 3. -/
def gang1 : Job := { job1 with op := 1, cmd := { job1.cmd with grp := true, gid := 3 } }
theorem witness_JobSteps :
    (let s := onJob sent1 (.sendArrival 1); s.job 1 = some sent1 ∧ sent1.st.terminal = false ∧ s.lau.deadClusters.contains sent1.cluster = false
      ∧ engineOf sent1.op ≠ .cle ∧ s.launchAt sent1.cluster ≠ none ∧ s.noRoom sent1.op sent1.cluster sent1.cmd = false)
    ∧ { onJob sent1 (.sendArrival 1) with jobs := { queuedJobs 16 with list := (queuedJobs 16).list ++ [(17, sent1)] } }.noRoom 0x26 0 sent1.cmd = true
    ∧ { (onX []).lau with deadClusters := [0] }.deadClusters.contains sent1.cluster = true
    ∧ engineOf { sent1 with op := 0x40 }.op = .cle ∧ (onJob { sent1 with cluster := 9 } (.sendArrival 1)).launchAt 9 = none
    ∧ ¬ bitsOf (leVal ((leBytes 16 0).take 8)) 31 0 = 1
    ∧ (let s := grouped (onJob gang1 (.gangArbiterEntry 1));
      s.gangOf gang1 = [0] ∧ gang1.gang = [] ∧ gang1.unentered = true ∧ (∀ k, k ∈ s.gangOf gang1 → k / 32 = gang1.cluster / 32)
        ∧ (s.gangOf gang1).length ≤ 16 ∧ gang1.cluster ∈ s.gangOf gang1
        ∧ { s.jobs with gangs := [1] }.gangs.head? = some 1
        ∧ (∀ k, k ∈ s.gangOf gang1 → (k = gang1.cluster ∨ s.queueLen (.mxe, k) < 16) ∧ (s.cluster k).win.length + (cmdEntries 1 gang1.cmd).length ≤ 64))
    ∧ (onJob gang1 (.gangArbiterEntry 1)).gangOf gang1 = []
    ∧ (let s := grouped { onJob gang1 (.gangArbiterEntry 1) with
          jobs := { Jobs.init with list := [(1, gang1)], clusters := [(0, { Cluster.init with win := List.replicate 64 win0 })] } };
      ¬ (s.cluster 0).win.length + (cmdEntries 1 gang1.cmd).length ≤ 64)
    ∧ ({ gang1 with gang := [0, 1], reports := 1 }.gang.length ≤ 1 + 1 ∧ { gang1 with gang := [0, 1] }.reports + 1 < 2)
    ∧ (job1.op < 0x40 ∧ job1.cmd.ev = true ∧ 0x40 ≤ { job1 with op := 0x42 }.op)
    ∧ (let x := { job1 with op := 0x42, gang := [1, 2] };
      (onJob x (.jobRecordUpdate 1)).job 1 = some x ∧ x.cmd.ev = true)
    ∧ (let s := onJob sent1 (.sendArrival 1);
      let t := { s with lau := { s.lau with launches := s.lau.launches.map (fun (e : Nat × Launch) => (e.1, { e.2 with freed := [0] })) } };
      (t.launch sent1.lid).map (fun l => l.freed.contains sent1.cluster) = some true)
    ∧ (let s := onJob sent1 (.sendArrival 1);
      s.firstAtPort 0 1 (queueFor 0x26 0) = true ∧ s.myTurn (queueFor 0x26 0) 8 = true)
    ∧ (let s := { onJob sent1 (.sendArrival 1) with
          jobs := { Jobs.init with list := [(1, sent1), (2, sent1)], next := 3, clusters := [(0, { Cluster.init with port := [2, 1] })] } };
      s.firstAtPort 0 1 (queueFor 0x26 0) = false) :=
  ⟨⟨rfl, by decide +kernel⟩, by decide +kernel, by decide, by decide, by decide +kernel, by decide, by decide +kernel, by decide,
    by decide +kernel, by decide, by decide, by decide +kernel, by decide +kernel, by decide +kernel, by decide +kernel⟩

/-! ### Messages, coupling, tasks -/

/-- Cores 0 and 1 belong to launch 1. -/
def both (k j : Core) : State := (onCore k).setCore 1 { j with lid := 1 }
theorem witness_Mailbox :
    ((onX [(1, 1)]).core 1).lid ≠ (onX [(1, 1)]).myCore.lid
    ∧ (let s := both { Core.init with flying := 3, ct := { Ct.init with x := [(1, 1)] } } Core.init;
      (s.xr 1).toNat < 2048 ∧ s.myCore.lid ≠ 0 ∧ (s.core 1).lid = s.myCore.lid ∧ s.myCore.flying < 4)
    ∧ 4 ≤ (onCore { Core.init with flying := 4 }).myCore.flying ∧ (onX []).myCore.mbx = []
    ∧ (onCore { Core.init with mbx := [(1, 5)] }).myCore.mbx = [(1, 5)]
    ∧ (((onX [(1, 8)]).xr 1).toNat % 16 ≠ 0 ∧ 98304 ≤ ((onX [(1, 98304)]).xr 1).toNat ∧ ((onX [(1, 98288)]).xr 1).toNat % 16 = 0) := by decide

/-- Core 0 starts core 1 by the record at 98288, with an error in the word at `bad` under the policy `p`. -/
def starting (p : Word) (bad : Nat) : State :=
  both { Core.init with sevpol := p, lsBad := [bad], ct := { Ct.init with x := [(1, 1), (2, 98288)] } } Core.init
theorem witness_CoreControl :
    (onCt { Ct.init with priv := .user }).myCore.ct.priv = .user
    ∧ (let s := both Core.init Core.init; s.myCore.pair.on = false ∧ s.sameLaunch 0 1 = true ∧ s.quiescent 0 = true ∧ s.quiescent 1 = true)
    ∧ ((onX []).sameLaunch 0 1 = false ∧ (onX []).myCore.pair.on = false ∧ oddCore.myCore.pair.on = true)
    ∧ (let s := both { Core.init with ct := { Ct.init with x := [(1, 1), (2, 98288)] } } Core.init;
      (s.xr 1).toNat < 2048 ∧ s.myCore.lid ≠ 0 ∧ (s.core 1).lid = s.myCore.lid ∧ (s.xr 2).toNat % 16 = 0 ∧ (s.xr 2).toNat < 98304
        ∧ (s.core 1).ct.started = false ∧ s.reqs.any (fun e => e.2.who.core = 0 && e.2.remote = some 1 && e.2.op.writes && !e.2.atDv) = false)
    ∧ ((both Core.init { Core.init with ct := { Ct.init with started := true } }).core 1).ct.started = true
    ∧ ¬ ((onX [(2, 98304)]).xr 2).toNat < 98304
    ∧ (let s := { starting 0 0 with reqs := [(0, { Req.new (.ct 0) (.store [1]) 0 1 .none with remote := some 1 })] };
      s.reqs.any (fun e => e.2.who.core = 0 && e.2.remote = some 1 && e.2.op.writes && !e.2.atDv) = true)
    ∧ ((starting 0x100 98296).lsTraps 0 98288 16 = true ∧ (starting 0x300 98296).lsTraps 0 98288 16 = false)
    ∧ ((starting 0x100 98280).lsTraps 0 98288 16 = false ∧ (starting 0x100 98280).lsSnuffs 0 98288 16 = false) := by decide

theorem witness_MessageArrives :
    ((onX []).core 1).lid = 0 ∧ 8 ≤ (onCore { Core.init with mbx := List.replicate 8 (1, 5) }).myCore.mbx.length
    ∧ { onX [] with agenda := [(64, .mbxResend 1 0 5 3)] }.resending 1 0 4 = true
    ∧ (¬ ((onX []).core 0).lid = 0 ∧ (onX []).lau.deadClusters.contains (clusterOf 0) = false
      ∧ ¬ 8 ≤ (onCore { Core.init with mbx := List.replicate 7 (1, 5) }).myCore.mbx.length ∧ (onX []).resending 1 0 4 = false) := by decide

/-- An arrival of core 1 at the root of group 3 of cores 0 and 1, with the counts `r`; core 1 is of launch `l`. -/
def arriving (r : List (Nat × Nat)) (l : Nat) : State :=
  let s := grouped (both { Core.init with roots := r } Core.init)
  taking (s.modCore 1 (fun k => { k with lid := l })) (.groupArrival 1 3 1)
def group0 : Group := { valid := true, root := 0, members := [0, 1] }
theorem witness_BarrierEvents :
    (let s := taking (both { Core.init with bars := [(4, { Bar.init with group := some 3 })] } Core.init) (.groupRelease 1 3 0);
      (s.core 0).lid = 1 ∧ (s.core 0).bars.find? (fun e => e.2.group = some 3) = some (4, { Bar.init with group := some 3 }))
    ∧ ((arriving [] 1).launch 1).bind (fun l => sfind l.groups 3) = some group0
    ∧ (∀ c, c ∈ group0.members → (arriving [] 1).lau.deadClusters.contains (clusterOf c) = false ∧ ((arriving [] 1).core c).lid = 1)
    ∧ (1 ∈ group0.members ∧ group0.members.Nodup)
    ∧ (sget 0 ((arriving [] 1).core 0).roots (rootKey 3 0) = 0 ∧ sget 0 ((arriving [(rootKey 3 0, 1)] 1).core 0).roots (rootKey 3 0) ≠ 0)
    ∧ ((arriving [] 2).core 1).lid ≠ 1 := by decide +kernel

theorem witness_ArrivalEvents :
    (let s := taking (onCore (qCore 2 [])) (.queueDelivery 0 1 7 true); ((s.core 0).q 1).inbound = true ∧ ((s.core 0).q 1).elems = [])
    ∧ ((onCore (qCore 10 [])).core 0 |>.q 1).inbound = false := by decide

/-- Core 0 waits for a task with steals in its cluster; the launch holds cluster 0. -/
def thief (n : Option Nat) : State :=
  let s := (onCore { Core.init with ctxs := [(0, { cxOf [] with st := .waitQ, wait := .taskPop })], steal := n }).setCore 1
    { Core.init with lid := 1, deques := [(2, [rec0])] }
  { s with lau := { s.lau with launches := s.lau.launches.map (fun (e : Nat × Launch) => (e.1, { e.2 with words := [BitVec.ofNat 64 (2 ^ 18)] ++ e.2.words.drop 1 })) } }
theorem witness_TaskSteps :
    { onX [] with reqs := [(0, { Req.new (.cx 0 0) (.store [1]) 0 1 .none with st := .wait })] }.reqs.any
        (fun (e : Nat × Req) => decide (e.1 < 1) && e.2.who.agent = 0 && e.2.op.writes && e.2.st ≠ RSt.done) = true
    ∧ (onX []).reqs.any (fun (e : Nat × Req) => decide (e.1 < 1) && e.2.who.agent = 0 && e.2.op.writes && e.2.st ≠ RSt.done) = false
    ∧ ((onCx { cxOf [] with wait := .taskPush 2 }).cx 0 0).wait = .taskPush 2
    ∧ ((thief none).sameLaunch 0 1 = true ∧ (thief none).stealChoice 1 = some (2, rec0) ∧ (thief none).stealChoice 0 = none
      ∧ (thief none).lau.deadClusters.contains (clusterOf 1) = false)
    ∧ ((thief (some 0)).idle 0 = true ∧ (onX []).idle 0 = false) ∧ ((thief (some 0)).victims 0)[0 + 1]? = some 2
    ∧ ((thief (some 14)).victims 0)[14 + 1]? = none ∧ ((thief none).victims 0)[0]? = some 1 := by decide +kernel

/-- A coupled pair whose cores stand at fingerprints `f` and `g`. -/
def coupled (f g : Word) : State :=
  taking (both { Core.init with pair := { Pair.init with on := true, f := f } } { Core.init with pair := { Pair.init with on := true, odd := true, f := g } })
    (.pairCheckpoint 0)
theorem not_pairing (f g : Word) (j : Nat) (rd : XReg) : ((coupled f g).core j).ct.wait ≠ .pair rd := by
  obtain ⟨a, b, h, ha, hb⟩ : ∃ a b, (coupled f g).cores = [(0, a), (1, b)] ∧ a.ct.wait = .none ∧ b.ct.wait = .none := ⟨_, _, rfl, rfl, rfl⟩
  simp only [State.core, h, sfind]
  split
  · simp [ha]
  · split
    · simp [hb]
    · simp [Core.init, Ct.init]
theorem witness_PairExchange :
    ((coupled 5 5).core 0).pair.on = true ∧ (coupled 5 5).pairInTxn 0 = false ∧ (coupled 5 5).reqs = []
    ∧ (∀ j rd, ((coupled 5 5).core j).ct.wait ≠ .pair rd) ∧ ((coupled 5 5).core 0).pair.f = ((coupled 5 5).core (0 + 1)).pair.f
    ∧ ((coupled 5 5).core 0).pair.stores = [] ∧ ((coupled 5 6).core 0).pair.f ≠ ((coupled 5 6).core (0 + 1)).pair.f
    ∧ (∀ c, c = 0 ∨ c = 1 → let q := ((coupled 5 6).core c).pair; q.came = [] ∧ q.ckCtx = [] ∧ q.stores = []) := by
  refine ⟨by decide, by decide, rfl, not_pairing 5 5, by decide, by decide, by decide, ?_⟩
  rintro c (rfl | rfl) <;> decide

/-! ### The memory system -/

/-- A leaf entry for the frame at 0x200000: V, LEAF and shared, with further bits. -/
def leaf0 (bits : Nat) : Nat := 0x200000 + 3 + 2 * 2 ^ 51 + bits
/-- Space 1 with its tables, in which page 2 has the entry `w` (0: none), is that of launch 1. -/
def paged (s : State) (w : Nat) : State :=
  { s with
    mem := [(0x100000, 0x110001), (0x110000, 0x120001), (0x120000, 0x130001), (0x130010, w)].foldl (fun m e => putCells m e.1 (leBytes 8 e.2)) s.mem
    coh := { s.coh with roots := [(1, 0x100000)] }
    lau := { s.lau with
      spaces := [(1, { root := 0x100000, ownerKey := none, debug := false, hb := [], pages := [2], tables := [0x110000, 0x120000, 0x130000] })]
      launches := s.lau.launches.map (fun (e : Nat × Launch) => (e.1, { e.2 with words := 1 :: e.2.words.drop 1 })) } }
/-- A load by context 0 of the word at VA 0x20000, and a store. -/
def load0 : Req := Req.new (.cx 0 0) (.load 4) 0x20000 4 (.s 3 .i32)
def store0 : Req := Req.new (.cx 0 0) (.store [7]) 0x20000 1 .none
/-- Request 1 is `q` and `e` is taken; page 2 has entry `w`; a translation of slice 0 names `tlb`; the line is in the L2. -/
def atSlice (q : Req) (w : Nat) (tlb : Option Nat) (e : Ev) : State :=
  let s := paged (onS []) w
  { taking s e with
    reqs := [(1, q)], nextReq := 2
    coh := { s.coh with
      l2 := [0x8000]
      tlb := tlb.toList.map (fun p => { die := 0, slice := q.slice, asid := 1, level := 3, page := 2, pte := BitVec.ofNat 64 p }) } }
theorem witness_SliceAccess :
    (let s := atSlice load0 (leaf0 60) (some (leaf0 60)) (.sliceAccess 1);
      s.req 1 = some load0 ∧ load0.st = .sent ∧ load0.live = true ∧ s.asidOf load0.who.core = 1
        ∧ (∃ l, (s.translate load0.die load0.slice 1 load0.va load0.need).2.2 = .ok l ∧ regionOf (l.pa load0.va) = .dram
            ∧ homeOf (l.pa load0.va) = load0.die ∧ s.inL2 (l.pa load0.va / 64) = true)
        ∧ (s.translate load0.die load0.slice 1 load0.va load0.need).2.1 = 0
        ∧ (s.classify load0.die 1 load0.va load0.pageOwner).2.1 = 0 ∧ s.coh.rdc = [] ∧ s.coh.latent = [] ∧ s.coh.marks = []
        ∧ s.lineBusy 1 0x200000 4 = false ∧ s.markers 0x200000 1 false = [] ∧ (s.core 0).pair.stores = [])
    ∧ (let s := atSlice load0 (leaf0 60) none (.sliceAccess 1); 0 < (s.translate 0 load0.slice 1 load0.va load0.need).2.1)
    ∧ ((atSlice store0 (leaf0 4) none (.sliceAccess 1)).translate 0 store0.slice 1 store0.va store0.need).2.2 = .prot
    ∧ ((atSlice load0 0 none (.sliceAccess 1)).translate 0 load0.slice 1 load0.va load0.need).2.2 = .page
    ∧ ((atSlice load0 (leaf0 (60 + 2 ^ 50)) none (.sliceAccess 1)).translate 0 load0.slice 1 load0.va load0.need).2.2 = .mig
    ∧ { onS [] with reqs := [(0, store0), (1, load0)] }.reqs.any (fun (e : Nat × Req) => decide (e.1 < 1) && e.2.who = load0.who && e.2.st ≠ RSt.done
        && e.2.remote.isNone && overlap e.2.va e.2.size load0.va load0.size) = true :=
  ⟨⟨by decide +kernel, by decide, by decide, by decide +kernel, ⟨{ at' := 0, level := 3, pte := leaf0 60 }, by decide +kernel⟩, by decide +kernel⟩,
    by decide +kernel, by decide +kernel, by decide +kernel, by decide +kernel, by decide +kernel⟩

theorem witness_Fill :
    (∀ e, e ∈ { (onS []).coh with fills := [(0x8000, [1])] }.fills → e.1 ≠ 0x8000 → 1 ∉ e.2) ∧ sfind [((0x8000 : Nat), [1])] 0x8000 = some [1] := by decide

/-- Context 0 waits for reply 1. -/
def waiting1 : Ctx := { cxOf [] with st := .waitMem, wait := .reply 1 }
def back0 : Req := { load0 with st := .done, data := [1, 2, 3, 4] }
/-- The reply of request 1, which is `q`, comes. -/
def replied (s : State) (q : Req) : State := { taking s (.globalReply 1) with reqs := [(1, q)], nextReq := 2 }
/-- It met a page fault; it is for the control thread. -/
def lost0 : Req := { back0 with fault := some { cause := 4, detail := 0x200 } }
def ctBack0 : Req := { back0 with who := .ct 0, dest := .x 3 .lw }
theorem witness_Replies :
    (back0.atDv = false ∧ back0.st = .done ∧ back0.replyAt ≤ (onS []).time ∧ back0.live = true ∧ back0.quiet = false ∧ back0.op.isTx = false
      ∧ back0.fault = none ∧ back0.data.length = LdK.i32.size ∧ back0.remote = none)
    ∧ (let s := replied (onCx waiting1) back0;
      s.req 1 = some back0 ∧ (s.cx 0 0).st = .waitMem ∧ (s.cx 0 0).wait = .reply 1 ∧ (s.core 0).pair.on = false)
    ∧ (let s := replied (onCx waiting1) lost0; s.req 1 = some lost0 ∧ (s.cx 0 0).txn = none ∧ lost0.fault = some { cause := 4, detail := 0x200 })
    ∧ (let s := replied (onS []) back0; s.req 1 = some back0 ∧ (s.cx 0 0).st ≠ .waitMem ∧ (s.cx 0 0).wait ≠ .reply 1)
    ∧ (let s := replied (onCt { Ct.init with wait := .reply 1 }) ctBack0;
      s.req 1 = some ctBack0 ∧ (s.core 0).ct.wait = .reply 1 ∧ ctBack0.data.length = RvLd.lw.size)
    ∧ (replied (onCt { Ct.init with wait := .reply 1 }) { lost0 with who := .ct 0 }).req 1 = some { lost0 with who := .ct 0 }
    ∧ (replied (onS []) load0).req 1 = some load0 ∧ load0.st ≠ .done
    ∧ (replied (onCt { Ct.init with wait := .reply 1 }) { ctBack0 with replyAt := 1 }).req 1 = some { ctBack0 with replyAt := 1 } := by
  decide +kernel

theorem witness_LateFault :
    (let r : FaultRep := { cause := 3, pc := 8, detail := 0x200, bundle := 5, gran := 0x200 };
      let k := { Core.init with ctxs := [(0, { cxOf [] with heldFaults := [r] })], faultq := [faultEntry 1 r, faultEntry 2 r], faultNew := 1 };
      let s := taking (onCore k) (.relaxedLateFault 0 0 1);
      (s.cx 0 0).heldFaults = r :: [] ∧ (s.cx 0 0).txn = none ∧ (s.core 0).faultAt = s.time
        ∧ (s.core 0).faultq.any (fun w => entryCtx w = 0) = false) := by decide +kernel

/-- Request 1 reaches core 1, whose word at 98296 is bad. -/
def reaches (op : ReqOp) (va n : Nat) : State :=
  { taking (both { Core.init with sevpol := 0x155 } { Core.init with lsBad := [98296] }) (.remoteLsAccess 1) with
    reqs := [(1, { Req.new (.ct 0) op va n (.x 3 .ld) with remote := some 1 })], nextReq := 2 }
theorem witness_RemoteAccess :
    (let s := reaches (.load 8) 98288 8;
      (¬ (s.lau.deadClusters.contains (clusterOf 1) = true ∨ s.sameLaunch 0 1 = false)) ∧ s.lsAct 0 1 98288 8 = 0
        ∧ (s.req 1).bind (fun q => q.remote) = some 1)
    ∧ (reaches (.load 8) 98296 8).lsAct 0 1 98296 8 = 1 ∧ (reaches (.store [1, 2]) 0 2).sameLaunch 0 1 = true
    ∧ (let s := { reaches (.load 8) 98288 8 with lau := { (reaches (.load 8) 98288 8).lau with deadClusters := [0] } };
      s.lau.deadClusters.contains (clusterOf 1) = true ∧ (s.req 1).bind (fun q => q.remote) = some 1) := by decide +kernel

/-- Page 2 has entry `w`, C-dies are up, and near memory of C-die 2 has the frame 2^36 free; the MMP of die 0 has watermark 1. -/
def moving0 (w : Nat) : State :=
  let s := paged (onS []) w
  { s with host := { s.host with announced := 0xFF }, lau := { s.lau with freed := [2 ^ 36], mmps := [(0, { Mmp.init with watermark := 1 })] } }
theorem witness_Translations :
    (let s := paged (onS []) (leaf0 60);
      (∃ x, s.space 1 = some x ∧ (entryFor 4 s 1 0 3 x.root 0x20000).isSome = true)
      ∧ s.spaceLeaf 1 0x20000 = some { at' := 0x130010, level := 3, pte := leaf0 60 } ∧ pteSeal (leaf0 60) = false
      ∧ regionOf (pteAddr (leaf0 60)) = .dram ∧ pteMig (leaf0 60) = false ∧ pteA (leaf0 60) = true ∧ s.coh.rdc = []
      ∧ (s.frameTable 0).head? = some (0x200000, 1, 2) ∧ Mmp.init.ready.length < { Mmp.init with watermark := 1 }.watermark)
    ∧ (let s := paged (onS []) (leaf0 (60 + 2 ^ 50));
      pteMig (leaf0 (60 + 2 ^ 50)) = true ∧ s.invalPending 1 2 = false ∧ takeFrame s 8 = none
        ∧ (takeFrame (moving0 (leaf0 (60 + 2 ^ 50))) 2).map (fun x => x.2) = some (2 ^ 36)
        ∧ (2 ^ 36 + 65536 ≤ 0x200000 ∨ 0x200000 + 65536 ≤ 2 ^ 36) ∧ (0x130010 + 8 ≤ 0x200000) ∧ (0x130010 + 8 ≤ 2 ^ 36))
    ∧ { paged (onS []) (leaf0 (60 + 2 ^ 50)) with agenda := [(44, .invalidateBroadcast 0 0 1 0x20000 65536)] }.invalPending 1 2 = true
    ∧ (pteA (leaf0 60) = true ∧ pteA (leaf0 44) = false ∧ (moving0 (leaf0 60)).spaceLeaf 1 0x20000 = some { at' := 0x130010, level := 3, pte := leaf0 60 }
      ∧ (moving0 (leaf0 44)).spaceLeaf 1 (2 * 65536) = some { at' := 0x130010, level := 3, pte := leaf0 44 })
    ∧ (pteLeaf (2 ^ 29 + 15) = true ∧ pteLeaf 0 = false ∧ tablesBelow (moving0 (leaf0 60)) 3 2 ((moving0 (leaf0 60)).pword 0x120008) = []
      ∧ (entryFor 4 (moving0 (leaf0 60)) 1 0 2 0x100000 0x200000).map (·.2) = some 0x120008) :=
  ⟨⟨⟨_, rfl, by decide +kernel⟩, by decide +kernel⟩, by decide +kernel, by decide +kernel, by decide +kernel, by decide +kernel⟩

def report0 : PfReport := { asid := 1, page := 2, who := [(0, 32 * 0x200)], jobs := [], reqs := [], tag := none, refused := false, ext := none }
/-- The MMP of die 0 serves report `p`; page 2 has entry `w`, C-dies are up, and host-backed ranges are `l`. -/
def serving (p : PfReport) (w : Nat) (l : List HbRange) (more : List (Nat × Mmp)) : State :=
  let s := taking (paged (onS []) w) (.pageFaultService 0)
  { s with
    host := { s.host with announced := 0xFF }
    lau := { s.lau with
      mmps := (0, { Mmp.init with queue := [p] }) :: more, freed := [2 ^ 36, 0x400000]
      spaces := s.lau.spaces.map (fun (e : Nat × Space) => (e.1, { e.2 with hb := l })) } }
def hb0 : List HbRange := [{ lo := 0x20000, len := 65536, attr := 0 }]
/-- A zero-filled page, and one whose frame of LPDDR-6 is 0x4000040000. -/
def zeroed0 : Nat := 4 + 8
def moved0 : Nat := 2 + 4 + 2 ^ 38 + 0x40000
def asked0 : Mmp := { Mmp.init with queue := [{ report0 with who := [], tag := some 3 }] }
theorem witness_PageService :
    { onS [] with agenda := [(44, .invalidateBroadcast 0 0 1 0x20000 65536)] }.invalPending report0.asid report0.page = true
    ∧ (let s := serving report0 (leaf0 60) [] [];
      s.invalPending 1 2 = false ∧ (s.spaceLeaf 1 (2 * 65536)).isSome = true ∧ report0.ext = none
        ∧ ((sfind s.lau.mmps 0).getD Mmp.init).queue = [report0])
    ∧ (let s := serving report0 zeroed0 [] [];
      s.invalPending 1 2 = false ∧ (s.spaceLeaf 1 (2 * 65536)).isSome = false ∧ report0.refused = false ∧ report0.tag = none
        ∧ (s.space 1).any (fun x => x.pages.contains 2 && decide (lastEntry s 4 0 x.root (2 * 65536) = some ⟨0x130010, 3, zeroed0⟩)) = true
        ∧ (takeFrame s 0).map (·.2) = some 0x400000 ∧ s.coh.rdc = [] ∧ s.coh.latent = [])
    ∧ (let s := serving report0 moved0 [] [];
      pteLeaf moved0 = true ∧ tierOf (pteAddr moved0) = 8 ∧ (takeFrame s 0).map (·.2) = some 0x400000
        ∧ (s.space 1).any (fun x => decide (lastEntry s 4 0 x.root (2 * 65536) = some ⟨0x130010, 3, moved0⟩)) = true)
    ∧ (let s := serving report0 0 [] []; fillPage s 0 report0 = none ∧ s.hbRange 1 2 = none)
    ∧ (let s := serving report0 0 hb0 [(1, Mmp.init)]; fillPage s 0 report0 = none ∧ s.hbRange 1 2 ≠ none)
    ∧ (let s := serving report0 0 hb0 [(1, asked0)];
      s.lau.mmps.find? (fun (e : Nat × Mmp) => e.1 ≠ 0 && (match e.2.queue with | h :: _ => h.asid = 1 && h.page = 2 && h.ext.isNone && h.tag.isSome && !h.refused | [] => false))
        = some (1, asked0))
    ∧ (serving { report0 with tag := some 4 } 0 [] []).invalPending 1 2 = false := by decide +kernel

/-- Paused job 1 of launch 1, whose log of `p` mapped pages is at `a` and holds `n` records, has its report served by the MMP of die 0. -/
def extending (a p n : Nat) : State :=
  let s := paged (onJob { job1 with st := .paused } (.logExtend 1)) 0
  { s with host := { s.host with announced := 0xFF }, lau := { s.lau with
      launches := s.lau.launches.map (fun (e : Nat × Launch) =>
        (e.1, { e.2 with words := (List.range 32).map (fun k => if k = 19 then BitVec.ofNat 64 a else e.2.words.getD k 0), logPages := p
                         log := List.replicate n [] }))
      mmps := [(0, { Mmp.init with queue := [{ report0 with who := [], ext := some 1 }] })], freed := [0x400000] } }
/-- The launch of `extending` has log address `a`, `p` pages and `n` records, and a frame can be mapped for its next page. -/
def extends0 (a p n : Nat) (maps : Bool) : Bool :=
  let s := extending a p n
  (match s.lau.launches.find? (fun e => e.2.lid = job1.lid && e.2.st.holds) with
    | some (_, l) => decide (l.word 19 = a ∧ l.logPages = p ∧ l.log.length = n) && (mapLogPage (s.reportDone 0) 0 l.asid (a + 65536 * p)).isSome == maps
    | none => false)
  && decide ((s.lau.mmps.find? (fun m => (m.2.queue.head?.map (·.ext)) = some (some 1))).map (·.1) = some 0)
theorem witness_LogExtension :
    (extending 0x30000 1 5).job 1 = some { job1 with st := .paused } ∧ extends0 0x30000 1 5 true = true ∧ extends0 0x30000 0 0 true = true
    ∧ extends0 0 0 0 true = true ∧ extending 0 0 0 = extending 0 0 0 ∧ extending 0x30000 0 0 = extending 0x30000 0 0 := by decide +kernel

/-! ### Coherence and transactions at the slices -/

/-- Request 1 is `q`, of core 256 on die 1, for the line 0x8000 of die 0. -/
def remote0 (q : Req) (e : Ev) : State :=
  { taking (onS []) e with reqs := [(1, q)], nextReq := 2, coh := { Coh.init with l2 := [0x8000] } }
def far0 (op : ReqOp) (n : Nat) : Req := { Req.new (.cx 256 0) op 0x20000 n .none with pa := 0x200000 }
theorem witness_HomeRequests :
    (let q := far0 (.load 64) 64;
      let s := remote0 q (.gets 1 false);
      s.req 1 = some q ∧ q.die < 8 ∧ homeOf q.pa ≠ q.die ∧ s.coh.rdc = [] ∧ s.coh.latent = [] ∧ s.coh.marks = [] ∧ s.lineBusy 1 q.pa q.size = false
        ∧ (∀ k, k ∈ linesOf q.pa q.size → s.inL2 k = true) ∧ (s.core 256).pair.stores = [])
    ∧ (let q := far0 (.store [7]) 1; q.size = [(7 : Byte)].length ∧ q.nt = false ∧ (remote0 q (.getm 1)).markers q.pa q.size false = []) := by decide +kernel

/-- Die 1 holds the line 0x8000 in state `m`. -/
def held0 (st : Moes) : State := { onS [] with coh := { Coh.init with rdc := [(rdcKey 1 0x8000, { st := st, data := 5 })] } }
/-- The directory of the home names die 1 as the line's owner. -/
def owned0 : State :=
  let s := held0 .m
  { s with coh := { s.coh with dir := [(0x8000, { owner := some 1, recalled := false, sharers := 0 })] } }
/-- Die 2, whose buddy is not the line's home, holds it. -/
def mirrored2 : State := { onS [] with coh := { Coh.init with rdc := [(rdcKey 2 0x8000, { st := .m, data := 5 })] } }
theorem witness_LineMessages :
    ((held0 .m).rdcAt 1 0x8000 = some { st := .m, data := 5 } ∧ (held0 .m).cutOff 1 ((held0 .m).nextOwn 1).2 = false)
    ∧ ((held0 .o).rdcAt 1 0x8000 = some { st := .o, data := 5 } ∧ (held0 .e).rdcAt 1 0x8000 = some { st := .e, data := 5 })
    ∧ { held0 .m with coh := { (held0 .m).coh with ownCut := [(1, 0)] } }.cutOff 1 ((held0 .m).nextOwn 1).2 = true
    ∧ homeOf (0x8000 * 64) = 1 ^^^ 1 ∧ homeOf (0x8000 * 64) ≠ 2 ^^^ 1 ∧ homeSlice (0x8000 * 64) = 0 * 32 + 0 ∧ (held0 .m).coh.deaf.contains 1 = false
    ∧ (owned0.lineDir 0x8000).owner = some 1 ∧ ((held0 .m).lineDir 0x8000).owner ≠ some 1 ∧ mirrored2.rdcAt 2 0x8000 = some { st := .m, data := 5 } := by
  decide +kernel

/-- A transactional request of context 0 of core 0, with the markers of its granule and the transactions of cores 0 and 1. -/
def txReq (w : Bool) : Req := { Req.new (.cx 0 0) (.tx w 4) 0x20000 4 (.s 3 .i32) with pa := 0x200000 }
def txSlice (q : Req) (m : List (Nat × Marks)) (rival : Nat) : State :=
  let s := (onCore { Core.init with ctxs := [(0, { cxOf [] with txn := some tx1, age := some tx1.age })] }).setCore 1
    { Core.init with lid := 1, ctxs := [(0, { cxOf [] with txn := some { tx1 with age := ⟨rival, 1, 0⟩ }, age := some ⟨rival, 1, 0⟩ })] }
  { taking s (.txRequest 1) with reqs := [(1, q)], nextReq := 2, coh := { Coh.init with tx := m } }
def mark1 : List (Nat × Marks) := [(0x2000, { readers := [(1, 0)], writer := none })]
theorem witness_TxRequests :
    (let s := txSlice (txReq true) [] 9;
      s.req 1 = some (txReq true) ∧ (s.cx 0 0).txn = some tx1 ∧ (txReq true).live = true ∧ s.lineBusy 1 0x200000 256 = false
        ∧ s.marksOf 0x2000 = { readers := [], writer := none } ∧ s.dirFull (homeSlice 0x200000) 0x2000 (0, 0) true = none
        ∧ (s.core 0).mustSpill 0x200 = none ∧ (s.core 0).pair.on = false)
    ∧ ((txSlice (txReq true) mark1 9).marksOf 0x2000).readers = [(1, 0)]
    ∧ (((txSlice (txReq true) mark1 9).ageOf (1, 0)).after ((txSlice (txReq true) mark1 9).ageOf (0, 0)) = true
      ∧ ((txSlice (txReq true) mark1 3).ageOf (1, 0)).after ((txSlice (txReq true) mark1 3).ageOf (0, 0)) = false)
    ∧ { txReq true with live := false }.live = false
    ∧ (let s := { txSlice (txReq true) [] 9 with near := { Near.init with runs := [(0, rrun0)] } };
      let t := { s with reqs := [(0, { call0 with pa := 0x200000 }), (1, txReq true)] };
      t.lineBusy 1 0x200000 256 = true ∧ t.req 1 = some (txReq true)) := by decide +kernel

theorem witness_TxArrivals :
    (let x := { tx1 with wset := [(0x200, 0x2000)] };
      let s := taking (onCx (txOf x)) (.txAbortArrival 0 0 1 0 true 0x2000);
      (s.cx 0 0).txn = some x ∧ (s.core 0).pair.on = false ∧ (∃ e, e ∈ x.wset ++ x.rset ∧ e.2 = 0x2000) ∧ x.committing = false)
    ∧ (¬ ∃ e, e ∈ tx1.wset ++ tx1.rset ∧ e.2 = 0x2000) ∧ { tx1 with committing := true }.committing = true
    ∧ ((onS []).cx 0 0).txn = none ∧ (256 ≤ 256 + 511 ∧ 255 < 256)
    ∧ { tx1 with msgs := 2 }.msgs ≠ 1
    ∧ (let x := { tx1 with msgs := 1, wset := [(0x200, 0x2000)], spec := [(0x20001, 7)] };
      x.msgs = 1 ∧ x.recs = [] ∧ (onCx (txOf x)).coh.rdc = []
        ∧ ∀ e f, e ∈ x.spec → f ∈ x.spec → x.phys (e.1 / 256) = x.phys (f.1 / 256) → e.1 % 256 = f.1 % 256 → e = f) := by
  refine ⟨⟨by decide, by decide, ⟨_, .head _, rfl⟩, by decide⟩, by simp [tx1], by decide, by decide, by decide, by decide, by decide, by decide, by decide, ?_⟩
  intro e f he hf _ _
  simp only [List.mem_singleton] at he hf
  rw [he, hf]

/-! ### Launches, containment, fabric -/

/-- A good descriptor for queue 0 and cluster 0: ASID 1, code of one block at VA 0x20000. -/
def descWords0 : List Word := (List.range 32).map (fun n => if n = 0 then 1 else if n = 3 then 128 else if n = 4 then 0x20000 else if n = 5 then 8 else if n = 14 then 1 else 0)
/-- It stands at physical address 0x300000. -/
def descSt (q : List Nat) : State :=
  { paged (onX []) (leaf0 60) with
    mem := putCells (paged (onX []) (leaf0 60)).mem 0x300000 (descWords0.flatMap (fun w => leBytes 8 w.toNat)), lau := { (paged (onX []) (leaf0 60)).lau with queues := [(0, q)] } }
def newLaunch (s : State) (pa : Nat) : Launch := Launch.new pa ((chunks 8 32 (s.physRead pa 256)).map (fun b => BitVec.ofNat 64 (leVal b)))
/-- Stage A is over. -/
def rung (q : List Nat) : State := { descSt q with host := { (descSt q).host with stages := 1 } }
theorem witness_Doorbells :
    (0x300010 % 256 ≠ 0 ∧ regionOf 0x4000000000 ≠ .dram ∧ regionOf 0x4000010000 = .reserved ∧ regionOf (2 ^ 42 + 2 ^ 36) = .peer 1)
    ∧ (0x300000 % 256 = 0 ∧ regionOf 0x300000 = .dram ∧ (descSt []).coh.rdc = [] ∧ regionOf (0x300000 + 144) = .dram ∧ regionOf (2 ^ 41 + 144) = .host)
    ∧ 64 ≤ (sget [] (descSt (List.replicate 64 1)).lau.queues 0).length ∧ (sget [] (descSt (List.replicate 63 1)).lau.queues 0).length < 64
    ∧ descOk (descSt []) 0 (newLaunch (descSt []) 0x300000) = true ∧ descOk (descSt []) 1 (newLaunch (descSt []) 0x300000) = false
    ∧ ((rung []).host.stages.getLsbD 0 = true ∧ (rung []).host.err = 0)
    ∧ (let s := { rung [] with hostMem := putCells [] (State.reset.hostBus (2 ^ 41)) (descWords0.flatMap (fun w => leBytes 8 w.toNat)) };
      regionOf (2 ^ 41) = .host ∧ descOk s 0 (newLaunch s (2 ^ 41)) = true) := by decide +kernel

/-- Queue 0 holds launch 5 with the descriptor, and the launches are `l` besides; C-dies are up. -/
def queued0 : Launch := Launch.new 0x300000 descWords0
def headSt (l : List (Nat × Launch)) (x : Launch) (sp : Bool) : State :=
  let s := taking (descSt [5]) (.launchStart 0)
  { s with
    host := { s.host with announced := 0xFF }
    lau := { s.lau with launches := l ++ [(5, x)], spaces := if sp then s.lau.spaces else [], restore := if x.st = .preempted then [x.lid] else [] } }
/-- A launch of queue 1 that runs in cluster 0, with a save area or none. -/
def running0 (save : Word) : Launch :=
  { Launch.new 0x300100 ((List.range 32).map (fun n => if n = 0 then 0x10001 else if n = 11 then save else if n = 14 then 1 else 0)) with lid := 3, st := .running }
theorem witness_LaunchHeads :
    (let s := headSt [] queued0 true;
      (∀ e, e ∈ s.lau.launches → e.2.st ≠ .preempting) ∧ s.headOf 0 = some (5, queued0)
        ∧ (List.range 0).any (fun p => match s.headOf p with | some (_, m) => queued0.meets m | none => false) = false
        ∧ queued0.clusters.all (fun c => s.host.announced.getLsbD (c / 32) && !s.lau.deadClusters.contains c) = true
        ∧ (∀ e, e ∈ s.lau.launches → ¬ (e.2.st.holds = true ∧ e.2.meets queued0 = true)) ∧ queued0.st = .queued ∧ s.coh.rdc = [] ∧ s.coh.tx = []
        ∧ (match prepare (dequeue s 5 queued0) queued0 with | .ok z _ _ => decide (z.word 19 = 0) | .reject _ => false) = true)
    ∧ (let s := headSt [] queued0 false; prepare (dequeue s 5 queued0) queued0 = .reject 5)
    ∧ queued0.clusters.all (fun c => (descSt [5]).host.announced.getLsbD (c / 32) && !(descSt [5]).lau.deadClusters.contains c) = false
    ∧ ((running0 0x9000).st.holds = true ∧ (running0 0x9000).meets queued0 = true ∧ (running0 0x9000).st = .running ∧ 0 < (running0 0x9000).pri
      ∧ (running0 0x9000).word 11 ≠ 0)
    ∧ ((running0 0).st.holds = true ∧ (running0 0).meets queued0 = true ∧ ¬ (running0 0).word 11 ≠ 0)
    ∧ (let x := { queued0 with st := .preempted, lid := 4 }; (headSt [] x true).headOf 0 = some (5, x))
    ∧ (let s := headSt [(3, running0 0x9000)] queued0 true;
      s.headOf 0 = some (5, queued0)
        ∧ s.lau.launches.all (fun e => !(e.2.st.holds && e.2.meets queued0) || decide (e.2.st = .running ∧ 0 < e.2.pri ∧ e.2.word 11 ≠ 0)) = true)
    ∧ (let s := headSt [(3, running0 0)] queued0 true; s.headOf 0 = some (5, queued0))
    ∧ (let x := Launch.new 0x300000 (descWords0.set 0 0x100001);
      (headSt [] x true).headOf 0 = some (5, x) ∧ x.defers = true ∧ 1 ∈ x.cores ∧ 1 ≠ x.cores.headD 0) := by decide +kernel

theorem witness_LaunchEnds :
    (let l := { running0 0 with st := .restoring, saveCores := [(0, Core.init)] };
      { onX [] with lau := { Lau.init with launches := [(5, l)] } }.lau.launches.find? (fun (e : Nat × Launch) => e.2.lid = 3 && e.2.st = LSt.restoring) = some (5, l)
        ∧ sfind l.saveCores 0 = some Core.init)
    ∧ (let s := { onX [] with lau := { Lau.init with launches := [(5, { running0 0 with words := [1] })] } };
      s.lau.launches.find? (fun (e : Nat × Launch) => e.2.lid = 3 && (e.2.st.holds || e.2.st = LSt.preempted)) = some (5, { running0 0 with words := [1] })
        ∧ s.launchOver { running0 0 with words := [1] } = true ∧ s.accessing { running0 0 with words := [1] } = false ∧ s.coh.rdc = []
        ∧ { running0 0 with words := [1] }.reason = 0)
    ∧ (onX []).launchOver (running0 0) = false
    ∧ (let l := { running0 0 with reason := 8, st := .preempted };
      let s := taking { onX [] with lau := { Lau.init with launches := [(5, l)] } } (.launchEnd 3);
      l.reason ≠ 0 ∧ s.lau.launches.find? (fun (e : Nat × Launch) => e.2.lid = 3 && (e.2.st.holds || e.2.st = LSt.preempted)) = some (5, l))
    ∧ (let l := { running0 0 with words := [1], pa := 2 ^ 41 };
      let s := taking { onX [] with lau := { Lau.init with launches := [(5, l)] } } (.launchEnd 3);
      regionOf (l.pa + 144) = .host ∧ s.launchOver l = true) := by decide +kernel

/-- A snuff of cluster 0, number 8 of die 0, is under way. -/
def snuffing (e : Ev) : State :=
  { taking (onX []) e with lau := { (onX []).lau with snuffs := [{ die := 0, n := 8, at0 := 0, clusters := [0] }] } }
theorem witness_SnuffSteps :
    ((snuffing (.snuffRun 0 (8 + 64))).cur.ev = .snuffRun 0 (8 + 64) ∧ (snuffing (.snuffNotification 0 8)).cur.ev = .snuffNotification 0 8)
    ∧ ({ onX [] with lau := { (onX []).lau with snuffs := [{ die := 0, n := 8, at0 := 0, clusters := [0] }] } }.lau.snuffs.any (fun x => x.die = 0 && x.n = 8) = true)
    ∧ (onX []).snuffClusters 0 0 = [] ∧ (onX []).snuffClusters 7 39 = [255]
    ∧ [{ die := 0, n := 8, at0 := 0, clusters := [0] : Snuff }].find? (fun x => x.die = 0 && x.n = 8) = some { die := 0, n := 8, at0 := 0, clusters := [0] }
    ∧ (∀ e, e ∈ (onX []).lau.launches → e.2.st.holds = true ∧ [0].any e.2.hasCluster = true
        ∧ ∀ f, f ∈ (onX []).lau.launches → f.1 = e.1 ∨ f.2.lid = e.2.lid → f = e) := by
  refine ⟨by decide, by decide, by decide, by decide, by decide, ?_⟩
  intro e he
  simp only [onX, onCore, placeLaunch, State.setCore, State.reset, State.dark, Lau.init, sins, List.mem_singleton] at he
  subst he
  refine ⟨rfl, by decide, fun f hf _ => ?_⟩
  simpa [onX, onCore, placeLaunch, State.setCore, State.reset, State.dark, Lau.init, sins] using hf

/-- Peer 1 with certificate hash 9 is bound to ports 0 and 17; port 17 is up or retrains since cycle 0. -/
def fab0 (up : Bool) (k : Fab) : State :=
  { onX [] with
    fab := { k with ports := [(17, { Port.init with up := up, retrain := if up then none else some 0 })], peers := [(1, { hash := 9, mask := 0x20001 })] }
    host := { HostIf.init with stages := 7 }, time := 2400000 }
theorem witness_Links :
    ((fab0 true Fab.init).fab.peers.any (fun p => p.2.mask.testBit 17 && p.2.hash = 9) = true ∧ (fab0 true Fab.init).host.stages.getLsbD 2 = true
      ∧ (17 : Nat) < 18 ∧ ((fab0 true Fab.init).port 17).allow = 0)
    ∧ (fab0 true Fab.init).fab.peers.any (fun p => p.2.mask.testBit 17 && p.2.hash = 8) = false ∧ ((fab0 true Fab.init).port 17).up = true
    ∧ ((fab0 false Fab.init).port 17).retrain = some 0 ∧ 0 + 2400000 ≤ (fab0 false Fab.init).time ∧ ((fab0 false Fab.init).port 17).up = false
    ∧ (fab0 true Fab.init).fab.flows = [] := by decide

/-- A receiving flow at number 5000 with a stored reply, and a sending flow of context 0 to peer 1 with packet 7 in flight. -/
def rflow0 : RFlow := { high := 5000, got := [4999, 5000], replies := [(4999, true, [1])] }
def pkt0 : Pkt := { seq := 7, sentAt := some 3, due := false, op := .store 16 [5], req := none, job := none }
def fab1 : Fab :=
  { Fab.init with rflows := [(flowKey 0 1, rflow0)], flows := [(flowKey 0 1, { seq := 8, pkts := [pkt0] })], rings := [(2, { p := 2, rank := 0, nextPort := 0, prevPort := 17 })]
                  exportRgn := some (1, 0x20000, 16) }
/-- The port that is up has granted 9 flits; and it may send 9 to the device of peer 1. -/
def fabIn : State := { fab0 true fab1 with fab := { (fab0 true fab1).fab with ports := [(17, { Port.init with up := true, given := 9 })] } }
def sendIn : State := { fab0 true fab1 with fab := { (fab0 true fab1).fab with ports := [(17, { Port.init with up := true, allow := 9, peerCert := 9 })] } }
/-- The tag of a packet that comes in at the port. -/
def goodTag (seq : Nat) (op : FabOp) : BitVec 128 := BitVec.ofNat 128 (blockVal (sealPacket 0 0 0 0 seq op).2)
theorem witness_Packets :
    (rflow0.stale 5000 = true ∧ (∀ r, r ∈ rflow0.replies → r.1 ≠ 5000) ∧ rflow0.stale 904 = true ∧ rflow0.stale 905 = false ∧ rflow0.stale 5001 = false)
    ∧ (rflow0.stale 4999 = true ∧ rflow0.replies.find? (fun r => r.1 = 4999) = some (4999, true, [1]))
    ∧ ((fab0 true Fab.init).fab.exportRgn = none ∧ (16 < 16 + [(1 : Byte)].length ∧ (fab0 true fab1).migrating 1 (0x20000 + 16) = false))
    ∧ sfind (fab0 true fab1).fab.flows (flowKey 0 1) = some { seq := 8, pkts := [pkt0] } ∧ sfind (fab0 true Fab.init).fab.flows (flowKey 0 1) = none
    ∧ [pkt0].find? (fun x => x.seq = 7 && x.sentAt.isSome) = some pkt0 ∧ whoOf (flowKey 0 1 / 128) = some (.cx 0 0)
    ∧ (fab0 true fab1).fab.log.length < 65536 ∧ (∀ x, x ∈ [pkt0] → x.seq ≠ 8) ∧ (∃ x, x ∈ [pkt0] ∧ x.seq = 7)
    ∧ sfind (fab0 true fab1).fab.rings 2 ≠ none ∧ sfind (fab0 true fab1).fab.rings 3 = none
    ∧ (fabFlits (.ring 2 1 0 0 [3]) ≤ (fabIn.port 17).given ∧ (fabIn.port 17).up = true ∧ fabFlits (.store 16 [5]) ≤ (fabIn.port 17).given
      ∧ ∀ seq op, goodTag seq op = BitVec.ofNat 128 (blockVal (sealPacket (fabIn.port 17).rxKey (fabIn.port 17).peerPort (fabIn.port 17).rxCtr 0 seq op).2))
    ∧ (goodTag 5000 (.store 16 [5]) = goodTag 5000 (.store 16 [5]) ∧ goodTag 4999 (.store 16 [5]) = goodTag 4999 (.store 16 [5])
      ∧ goodTag 5001 (.store 16 [5]) = goodTag 5001 (.store 16 [5]) ∧ goodTag 5001 (.ring 2 1 0 0 [3]) = goodTag 5001 (.ring 2 1 0 0 [3]))
    ∧ (sendIn.pktPort 1 pkt0.op = some 17 ∧ (sendIn.port 17).holds pkt0.op = false) :=
  ⟨by decide, by decide, by decide, by decide, by decide, by decide, by decide, by decide, by decide, ⟨_, .head _, rfl⟩, by decide, by decide,
    ⟨by decide, by decide, by decide, fun _ _ => rfl⟩, ⟨rfl, rfl, rfl, rfl⟩, by decide⟩

/-! ### Host and management -/

/-- The window shows 64 bytes of space 1 from VA 0x20000; page 2 has entry `w`. -/
def hostSt (w : Nat) : State := { paged (onX []) w with host := { HostIf.init with stages := 1, mapwin := some (1, 0x20000, 64), hostReads := [1, 2 ^ 40 + 1] } }
/-- HV, with R, W, A and D. -/
def hvLeaf (bits : Nat) : Nat := leaf0 (bits + 2 ^ 48)
theorem witness_HostSteps :
    ((hostSt 0).host.mapwin = some (1, 0x20000, 64) ∧ 64 < 64 + 1)
    ∧ (let s := hostSt (hvLeaf 60);
      0 + 64 ≤ 64 ∧ s.closed 1 = false ∧ 0x20000 % 64 + 64 ≤ 64 ∧ s.spaceLeaf 1 0x20000 = some { at' := 0x130010, level := 3, pte := hvLeaf 60 }
        ∧ pteMig (hvLeaf 60) = false ∧ regionOf (({ at' := 0x130010, level := 3, pte := hvLeaf 60 } : Leaf).pa 0x20000) = .dram
        ∧ s.coh.rdc = [] ∧ s.coh.latent = [] ∧ s.coh.marks = [] ∧ s.coh.tx = [] ∧ s.coh.tlb = [] ∧ s.near.runs = [] ∧ s.host.bar2 = []
        ∧ pteHv (hvLeaf 60) = true ∧ pteSeal (hvLeaf 60) = false ∧ pteR (hvLeaf 60) = true ∧ pteW (hvLeaf 60) = true ∧ pteA (hvLeaf 60) = true ∧ pteD (hvLeaf 60) = true)
    ∧ (let s := hostSt (hvLeaf 60);
      let t := { s with host := { s.host with bar2 := [.hostBar2Read 0 64] } };
      t.host.bar2 ≠ [] ∧ t.host.bar2.head? ≠ some (.hostBar2Write 0 [1]))
    ∧ pteHv (leaf0 60) = false ∧ pteR (hvLeaf 8) = false ∧ pteW (hvLeaf 4) = false
    ∧ (1 ∈ (hostSt 0).host.hostReads ∧ 2 ^ 40 + 1 ∈ (hostSt 0).host.hostReads ∧ { hostSt 0 with reqs := [(1, load0)] }.req 1 = some load0
      ∧ (onJob { job1 with st := .running } .hbreqRead).job (2 ^ 40 + 1 - 2 ^ 40) = some { job1 with st := .running })
    ∧ (hostSt 0).hbWaiting 4 = none
    ∧ (let p := { report0 with tag := some 4 };
      let m := { Mmp.init with queue := [p] };
      let s := { hostSt 0 with lau := { (hostSt 0).lau with mmps := [(0, m)] } };
      s.hbWaiting 4 = some (0, m, p) ∧ s.spaceLeaf 1 (2 * 65536) = none)
    ∧ (let p := { report0 with tag := some 4 };
      let m := { Mmp.init with queue := [p] };
      let s := { hostSt (hvLeaf 60) with lau := { (hostSt (hvLeaf 60)).lau with mmps := [(0, m)] } };
      s.hbWaiting 4 = some (0, m, p) ∧ s.spaceLeaf 1 (2 * 65536) ≠ none) := by decide +kernel

theorem witness_RegisterWrites :
    ((hostSt 0).host.stages.getLsbD 0 = true ∧ (onX []).host.stages.getLsbD 0 = false ∧ { HostIf.init with err := 1 }.err = 1)
    ∧ ((0x10 ≤ 0x28 ∧ 0x28 % 8 = 0) ∧ (0x40 ≤ 0x58 ∧ 0x58 % 8 = 0)) ∧ (hostSt 0).host.busy = false ∧ { HostIf.init with busy := true }.busy = true
    ∧ ((0x0C#64).toNat % 256 = 0x0C ∧ (0x01#64).toNat % 256 ≠ 0x0C) ∧ mgmtEv (hostSt 0) 1 = some .asnew ∧ mgmtEv (hostSt 0) 0x17 = none := by decide

/-- Command `code` with arguments `l` runs as step `e`. -/
def command (s : State) (code : Nat) (l : List Word) (e : Ev) : State :=
  { taking s e with host := { s.host with busy := true, mcmd := BitVec.ofNat 8 code, announced := 0xFF, marg := (List.range l.length).zip l } }
/-- The argument `k` of the command. -/
def argOf (s : State) (k : Nat) : Nat := (sget 0 s.host.marg k).toNat
/-- A command runs, and its space has no launch that uses it. -/
def freeSpace (s : State) : State := { s with lau := { s.lau with launches := [] } }
/-- Its command waits for the slices' acknowledgements; one invalidation is still to arrive, or none. -/
def acked (s : State) (more : Bool) : State :=
  { s with host := { s.host with acking := true }
           agenda := if more then [(44, .invalidateBroadcast 0 0 1 0 0)] else [] }
theorem witness_SpaceCommands :
    (let s := command (hostSt 0) 1 [4095] .asnew;
      s.cur.ev = .asnew ∧ s.host.busy = true ∧ s.host.mcmd.toNat = 1 ∧ argOf s 0 ≤ 4095 ∧ 1 ≤ argOf s 0 ∧ s.space 4095 = none ∧ (anyFrame s).isSome = true)
    ∧ 4095 < argOf (command (hostSt 0) 1 [4096] .asnew) 0 ∧ (hostSt 0).space 1 ≠ none ∧ (anyFrame (onX [])).isSome = false
    ∧ (let s := command (hostSt 0) 2 [1] .asfree; s.space (argOf s 0) ≠ none ∧ ∃ l, l ∈ s.lau.launches ∧ l.2.asid = 1 ∧ l.2.st.holds = true)
    ∧ (∀ l, l ∈ (freeSpace (command (hostSt 0) 2 [1] .asfree)).lau.launches → l.2.asid ≠ 1)
    ∧ ((acked (freeSpace (command (hostSt 0) 2 [1] .asfree)) false).invalPending 1 0 = false
      ∧ (acked (freeSpace (command (hostSt 0) 2 [1] .asfree)) true).invalPending 1 0 = true)
    ∧ (let s := command (hostSt (leaf0 60)) 5 [1, 0x20000, 0x10000, 0x4000] .sealRange;
      s.migrating 1 0x20000 = false ∧ s.spaceLeaf 1 0x20000 = some { at' := 0x130010, level := 3, pte := leaf0 60 }
        ∧ (acked s true).invalPending 1 2 = true ∧ (acked s false).invalPending 1 2 = false)
    ∧ (command (hostSt (leaf0 (60 + 2 ^ 50))) 5 [1, 0x20000, 0x10000, 0x4000] .sealRange).migrating 1 0x20000 = true
    ∧ (let s := command (hostSt 0) 3 [1, 0x20000, 0x10000, 0x43] .map;
      argOf s 1 % 65536 = 0 ∧ argOf s 2 % 65536 = 0 ∧ argOf s 2 ≠ 0 ∧ argOf s 1 + argOf s 2 ≤ 2 ^ 48 ∧ argOf s 3 < 256
        ∧ ¬ ((argOf s 3).testBit 7 = true ∧ (argOf s 3).testBit 6 = true)
        ∧ ∀ p, p ∈ pagesIn (argOf s 1) (argOf s 2) → s.spaceLeaf 1 (p * 65536) = none)
    ∧ ((0x80 : Nat).testBit 7 = true ∧ argOf (command (hostSt 0) 3 [1, 0x8000, 0, 0xC0] .map) 1 % 65536 ≠ 0)
    ∧ (let s := command (hostSt (leaf0 60)) 4 [1, 0x20000, 0x100, 64] .load;
      s.spaceLeaf 1 (2 * 65536) = some { at' := 0x130010, level := 3, pte := leaf0 60 } ∧ pteSeal (leaf0 60) = false ∧ 0 < argOf s 3
        ∧ argOf s 1 % 64 + argOf s 3 ≤ 64 ∧ regionOf (({ at' := 0x130010, level := 3, pte := leaf0 60 } : Leaf).pa 0x20000) = .dram ∧ s.coh.rdc = []
        ∧ ∀ p, p ∈ pagesIn 0x20000 0x10000 → s.spaceLeaf 1 (p * 65536) ≠ none)
    ∧ pteSeal (leaf0 (52 + 2 ^ 49)) = true ∧ pteHv (hvLeaf 60) = true
    ∧ (argOf (command (hostSt 0) 6 [1, 0, 2 ^ 36] .mapwin) 2 ≤ 2 ^ 36 ∧ argOf (command (hostSt 0) 6 [1, 0, 2 ^ 36 + 1] .mapwin) 2 ≤ 2 ^ 36 + 1
      ∧ argOf (command (hostSt 0) 6 [1, 0, 0] .mapwin) 2 = 0)
    ∧ (let s := command (hostSt 0) 0x15 [1, 0x20000] .lcmap;
      argOf s 1 % 65536 = 0 ∧ argOf s 1 < 2 ^ 48 ∧ s.spaceLeaf 1 0x20000 = none ∧ (mapPage s 1 0x20000 (leafWord (2 ^ 38) 0 true true false 2)).isSome = true) := by
  refine ⟨by decide +kernel, by decide, by decide +kernel, by decide +kernel, ⟨by decide +kernel, _, .head _, by decide +kernel⟩, ?_, by decide +kernel,
    by decide +kernel, by decide +kernel, by decide +kernel, by decide, by decide +kernel, by decide, by decide, by decide, by decide +kernel⟩
  intro l h; cases h

theorem witness_DeviceCommands :
    (let p := { report0 with tag := some 4 };
      let m := { Mmp.init with queue := [p] };
      let s := { command (hostSt 0) 0x16 [4, 0, 1] .hbfill with lau := { (hostSt 0).lau with mmps := [(0, m)] } };
      s.hbWaiting (argOf s 0) = some (0, m, p) ∧ s.spaceLeaf p.asid (p.page * 65536) = none ∧ argOf s 2 = 1)
    ∧ (hostSt 0).hbWaiting 4 = none
    ∧ (argOf (command (hostSt 0) 8 [63, 0, 2 ^ 18 - 1] .peer) 0 ≤ 63 ∧ argOf (command (hostSt 0) 8 [63, 0, 2 ^ 18 - 1] .peer) 2 < 2 ^ 18
      ∧ 63 < argOf (command (hostSt 0) 8 [64] .peer) 0 ∧ 2 ^ 18 ≤ argOf (command (hostSt 0) 8 [0, 0, 2 ^ 18] .peer) 2)
    ∧ (let s := command (hostSt 0) 9 [255, 64 * 256 + 63, 17, 0] .ring;
      argOf s 0 ≤ 255 ∧ 2 ≤ argOf s 1 / 256 % 256 ∧ argOf s 1 / 256 % 256 ≤ 64 ∧ argOf s 1 % 256 < argOf s 1 / 256 % 256 ∧ argOf s 1 < 65536
        ∧ argOf s 2 < 18 ∧ argOf s 3 < 18)
    ∧ ¬ argOf (command (hostSt 0) 9 [255, 64 * 256 + 64, 17, 0] .ring) 1 % 256 < 64
    ∧ (rectOk (hostSt 0) 7 7 (2 ^ 63) = true ∧ rectOk (hostSt 0) 0 0 (2 ^ 63) = false ∧ 7 < argOf (command (hostSt 0) 10 [8] .rect) 0)
    ∧ ({ (onX []).obs with frozen := true }.frozen = true ∧ (onX []).obs.frozen = false)
    ∧ ((reportBody (onX []) 0 []).isSome = true ∧ (reportBody (onX []) 7 []).isSome = false)
    ∧ ((hostSt 0).space 1).isSome = true ∧ ((hostSt 0).space 1).bind (fun x => x.ownerKey) = none := by decide +kernel

theorem witness_WatchCommands :
    (let s := command (onX []) 0xE [0] .freeze;
      s.cur.ev = .freeze ∧ s.host.busy = true ∧ s.host.mcmd.toNat = 0xE ∧ sget 0 s.host.marg 0 = 0 ∧ s.obs.frozen = false ∧ s.obs.freezeAt = none)
    ∧ sget 0 (command (onX []) 0xE [1] .thaw).host.marg 0 = 1 ∧ { (onX []).obs with freezeAt := some 5 }.freezeAt ≠ none
    ∧ (2048 ≤ argOf (command (onX []) 0xF [2048] .dump) 0 ∧ argOf (command (onX []) 0xF [2047] .dump) 0 < 2048)
    ∧ (let s := { hostSt 0 with lau := { (hostSt 0).lau with spaces := (hostSt 0).lau.spaces.map (fun (e : Nat × Space) => (e.1, { e.2 with ownerKey := some [1] })) } };
      (s.core 0).lid ≠ 0 ∧ s.closed (s.asidOf 0) = true)
    ∧ (hostSt 0).closed ((hostSt 0).asidOf 0) = false ∧ (onX []).obs.frozen = false
    ∧ (argOf (command (onX []) 0x11 [9, 76] .powcap) 0 ≤ 9 ∧ 76 < argOf (command (onX []) 0x11 [9, 77] .powcap) 1
      ∧ argOf (command (onX []) 0x11 [7, 181] .powcap) 1 ≤ 181)
    ∧ ({ Fab.init with log := [[1]] }.log[0]? = some [1] ∧ { Fab.init with log := [[1]] }.log[1]? = none)
    ∧ ((onX []).lau.launches.find? (fun l => l.2.lid = 1 && 1 ≠ 0)).isSome = true
    ∧ (physBuffer 0x100000 65536 = true ∧ physBuffer 0x4000000000 65536 = false ∧ (10 : Nat) ≤ 24 ∧ argOf (command (onX []) 0x13 [24, 0, 65536] .glim) 2 % 65536 = 0) := by
  decide +kernel

/-! ### Power and observation -/

/-- The glim of C-die 7 has `n` of its 64 KiB behind it. -/
def glimSt (n : Nat) : State :=
  { taking (onX []) .glimPulse with
    obs := { (onX []).obs with glimK := 10, glimBase := 0x100000, glimSize := 65536, glimNext := n }
    host := { HostIf.init with announced := 0x80 } }
theorem witness_PowerSteps :
    ((taking State.dark .powerGood).cur.ev = .powerGood ∧ (taking State.dark .powerGood).time = 0 ∧ (taking State.dark .powerGood).host.stages = 0)
    ∧ ((taking State.reset .stageAComplete).host.err = 0 ∧ (taking State.reset .stageCComplete).host.err = 0
      ∧ (taking State.reset (.cDieAnnounce 7 false)).lau.launches = [] ∧ ∀ q, q < 18 → ((taking State.reset .stageCComplete).port q).up = false)
    ∧ (taking State.reset (.powerWindowEnd 9)).cur.ev = .powerWindowEnd 9
    ∧ ((onX []).obs.frozen = false ∧ { (onX []).obs with frozen := true }.frozen = true)
    ∧ ((glimSt 0).obs.glimK ≠ 0 ∧ (glimSt 0).obs.frozen = false ∧ (glimSt 0).host.announced = BitVec.ofNat 8 (2 ^ 7) ∧ (glimSt 0).coh.rdc = []
      ∧ (glimSt 0).obs.glimNext + (glimRecord (glimSt 0) 7).length ≤ (glimSt 0).obs.glimSize
      ∧ regionOf ((glimSt 0).obs.glimBase + (glimSt 0).obs.glimNext) = .dram
      ∧ (glimSt 65535).obs.glimSize < (glimSt 65535).obs.glimNext + (glimRecord (glimSt 65535) 7).length)
    ∧ ((511 : Nat) < 512 ∧ (63 : Nat) < 64 ∧ 0 ≠ 63 ∧ 7 < 8) ∧ (∀ e, e ∈ ((onX []).core 0).lsLatent → e.1 ≠ 5 / 8 * 8)
    ∧ sfind (onX []).coh.latent 64 = none := by
  decide +kernel

/-! ### Tile commands -/

/-- A descriptor's words (Table 5.18). -/
def descWords (d : Desc) : List Nat :=
  [d.base, d.fmt.code + (if d.loc then 16 else 0) + (if d.mx then 32 else 0) + (if d.bm then 64 else 0) + 256 * d.ndim + 4096 * (d.levels - 2)]
    ++ (List.range 10).map (fun k => match d.dims[k]? with | some e => e.1 + 2 ^ 24 * e.2.toNat | none => 0) ++ [d.sbase, d.sstride.toNat, 0, 0]
/-- A dense operand in local store. -/
def dense (f : Fmt) (base : Nat) (dims : List (Nat × Int)) : Desc :=
  { base := base, fmt := f, loc := true, mx := false, bm := false, levels := 2, dims := dims, sbase := 0, sstride := 0 }
/-- A command of descriptors 0, 1 and 2. -/
def cmd0 : TileCmd :=
  { ev := false, grp := false, fpv := false, cf := 0, gid := 0, d0 := 0, d1 := 1, d2 := 2, acb := 0, acn := 0, swz := 0, arg := 0, fp1 := 0, fp0 := 0 }
/-- Its engine starts job 1, which is `x`, of core 0, in whose local store the three descriptors stand, and further words. -/
def tileX (x : Job) (a b d : Desc) (more : List (Nat × List Nat)) : State :=
  let s := onCore { Core.init with ls := lsWords ([(0, descWords a), (128, descWords b), (256, descWords d)] ++ more) }
  { s with cur := { s.cur with job := 1 }, jobs := { Jobs.init with list := [(1, x)], next := 2 } }
def tileSt (a b d : Desc) (more : List (Nat × List Nat)) : State := tileX job1 a b d more
/-- A command reads `d` at descriptor `k`. -/
def opndOk (s : State) (k : Nat) (d : Desc) : Bool :=
  decide (k * 128 + 128 ≤ 98304) && decide (parseDesc (s.descWords 0 (k * 128)) = some d) && d.loc && d.inside && (!d.mx || decide (d.ext 0 % 32 = 0))
  && (!d.bm || (decide (d.ndim = 2) && decide (d.stride 1 = 0)))
/-- Job 1 begins. -/
theorem witness_begins (a b d : Desc) (more : List (Nat × List Nat)) :
    let s := tileSt a b d more
    s.cur.job = 1 ∧ s.job 1 = some job1 ∧ job1.st.terminal = false ∧ job1.descs = [] ∧ job1.progress = 0 ∧ job1.tmp = [] ∧ job1.gang = [] ∧ job1.reports = 0
      ∧ (s.core job1.core).lsBad = [] ∧ ∀ k, (s.cluster k).accBad = [] := ⟨rfl, rfl, rfl, rfl, rfl, rfl, rfl, rfl, rfl, fun _ => rfl⟩

/-- Two by two of bf16; three rows of 32 e4m3 under scales; one row, of which indices name one; a matrix of two by two under a bitmap. -/
def mat0 : Desc := dense .bf16 1024 [(2, 0), (2, 64)]
def mat1 : Desc := { dense .e4m3 2048 [(32, 0), (3, 64)] with mx := true, sbase := 4096, sstride := 1 }
def vec0 : Desc := dense .n32 3072 [(1, 0)]
def bm0 : Desc := { dense .bf16 8192 [(2, 0), (2, 0)] with bm := true, sbase := 5120 }
theorem witness_Products :
    (cmd0.acb.toNat + cmd0.acn.toNat + 1 ≤ 8 ∧ cmd0.cf.toNat ≤ 1)
    ∧ (let s := tileSt mat0 mat0 vec0 [];
      opndOk s 0 mat0 = true ∧ opndOk s 1 mat0 = true ∧ opndOk s 2 vec0 = true ∧ mat0.ndim = 2 ∧ mat0.ext 1 ≤ 128 ∧ mmFamily mat0.fmt = some 4
        ∧ mat0.ext 0 ≤ 32 ∧ vec0.ext 0 ≤ 128 ∧ vec0.ndim = 1 ∧ lsNum s 0 3072 4 < mat0.ext 1)
    ∧ (let s := tileSt mat1 mat1 vec0 [];
      opndOk s 0 mat1 = true ∧ opndOk s 1 mat1 = true ∧ mat1.ndim = 2 ∧ mmFamily mat1.fmt = some 2 ∧ mat1.ext 0 ≤ 32 ∧ mat1.bm = false)
    ∧ (∀ n, n < 2 → let s := tileSt bm0 mat0 vec0 [(5120, [n, n])];
      opndOk s 0 bm0 = true ∧ bm0.ext 1 ≤ 16 ∧ bm0.ext 0 ≤ 16 ∧ bm0.levels = 2 ∧ bm0.sbase + 16 ≤ 98304 ∧ bm0.base + 32 * 16 ≤ 98304
        ∧ lsNum s 0 bm0.sbase 8 = n ∧ lsNum s 0 (bm0.sbase + 8) 8 = n) := by decide +kernel

/-- Two rows of f32; one of values and one of indices, of the best two of 32 columns in four blocks. -/
def mat2 : Desc := dense .f32 1024 [(2, 0), (2, 8)]
def vals0 (f : Fmt) : Desc := dense f 2048 [(8, 0), (1, 0)]
def idx0 : Desc := dense .n32 4096 [(8, 0), (1, 0)]
def topk0 (cf : BitVec 4) : TileCmd := { cmd0 with arg := 1, cf := cf }
theorem witness_Accumulators :
    (let s := tileSt mat2 mat2 vec0 []; opndOk s 0 mat2 = true ∧ mat2.fmt = .f32 ∧ mat2.ext 0 ≤ 128 ∧ mat2.ext 1 ≤ 128 ∧ (4 * mat2.ext 0 : Int) ≤ mat2.stride 1
      ∧ cmd0.cf = 0 ∧ cmd0.swz = 0)
    ∧ (∀ b : Bool, let cf : BitVec 4 := if b then 1 else 0; let f : Fmt := if b then .i32 else .f32; let s := tileSt (vals0 f) idx0 vec0 [];
      (topk0 cf).arg.toNat < 128 ∧ 128 % 32 = 0 ∧ (topk0 cf).cf.toNat ≤ 1 ∧ opndOk s 0 (vals0 f) = true ∧ opndOk s 1 idx0 = true
        ∧ (vals0 f).ext 1 = 1 ∧ (vals0 f).ext 0 = 2 * (128 / 32) ∧ idx0.ext 0 = 2 * (128 / 32) ∧ (vals0 f).ndim = 2 ∧ idx0.ndim = 2
        ∧ (vals0 f).base + 32 ≤ idx0.base)
    ∧ 98304 < (768#10).toNat * 128 + 128 ∧ parseDesc ((tileSt { mat2 with dims := [] } mat2 vec0 []).descWords 0 0) = none := by decide +kernel

def vecA : Desc := dense .f32 1024 [(4, 0)]
def vecB : Desc := dense .e4m3 2048 [(4, 0)]
/-- Rows of two: two to read and three to write. -/
def rowsA : Desc := dense .i16 1024 [(2, 0), (2, 64)]
def rowsB : Desc := dense .i16 4096 [(2, 0), (3, 64)]
/-- An index for rows, first of the store's words at 3072. -/
def rowsSt (v : Nat) : State := tileSt rowsA rowsB vec0 [(3072, [v])]
/-- Descriptors 0 and 1 of SIGNAL and HASH: an address in local store. -/
def sig0 : Desc := dense .f32 64704 [(1, 0)]
theorem witness_Moves :
    (let s := tileSt vecA vecB vec0 [];
      opndOk s 0 vecA = true ∧ opndOk s 1 vecB = true ∧ vecA.ndim = 1 ∧ vecB.ndim = 1 ∧ vecA.ext 0 = vecB.ext 0 ∧ vecA.base + vecA.bytesOf 4 ≤ vecB.base)
    ∧ (∀ v, v ∈ [0, 1, 2, 3] →
      opndOk (rowsSt v) 0 rowsA = true ∧ opndOk (rowsSt v) 1 rowsB = true ∧ opndOk (rowsSt v) 2 vec0 = true ∧ rowsA.fmt = rowsB.fmt ∧ rowsA.ext 0 = rowsB.ext 0 ∧ vec0.fmt = .n32
        ∧ lsNum (rowsSt v) 0 3072 4 = v)
    ∧ (1 < rowsA.ext 1 ∧ rowsA.ext 1 ≤ 2 ∧ 2 < rowsB.ext 1 ∧ rowsB.ext 1 ≤ 3)
    ∧ ((255#64).toNat < 2 ^ vecB.fmt.width ∧ 2 ^ vecB.fmt.width ≤ (256#64).toNat ∧ cmd0.swz = 0)
    ∧ (let s := tileSt sig0 sig0 vec0 [];
      cmd0.d0.toNat * 128 < 98304 ∧ (lsNum s 0 8 8).testBit 4 = true ∧ (lsNum s 0 0 8) % 2 ^ 48 % 64 = 0 ∧ (lsNum s 0 0 8) % 2 ^ 48 + 64 ≤ 98304
        ∧ (s.core 0).gat.run = none ∧ (lsNum s 0 (128 + 8) 8).testBit 4 = true ∧ (lsNum s 0 128 8) % 2 ^ 48 + 48 ≤ 98304
        ∧ (s.lau.launches.find? (fun (e : Nat × Launch) => e.2.lid = job1.lid && e.2.st.holds)).any
            (fun (e : Nat × Launch) => e.2.word 19 = 0 && decide (e.2.log.length < 2 ^ 24)) = true) := by decide +kernel

/-- A bitmap's two forms, with `n` in its leaf and node. -/
def bmB : Desc := { dense .bf16 8192 [(2, 0), (2, 0)] with bm := true, sbase := 5120 }
def packSt (v : Nat) : State := tileSt mat0 bmB vec0 [(1024, [v])]
/-- Two elements of a row. -/
def rowB : Desc := dense .bf16 1024 [(2, 0), (1, 0)]
def bmA : Desc := { bmB with dims := [(2, 0), (1, 0)] }
def unpackSt (n : Nat) : State := tileSt bmA rowB vec0 [(5120, [n, n])]
theorem witness_Bitmaps :
    (∀ v, v < 2 → 
      opndOk (packSt v) 0 mat0 = true ∧ opndOk (packSt v) 1 bmB = true ∧ mat0.fmt = bmB.fmt ∧ mat0.ext 0 = bmB.ext 0 ∧ mat0.ext 1 = bmB.ext 1 ∧ bmB.levels = 2
        ∧ (2 ≤ (2 * 2 ^ 32 + 64 : Nat) / 2 ^ 32 ∧ 4 * 16 ≤ (2 * 2 ^ 32 + 64 : Nat) % 2 ^ 32) ∧ bmB.sbase + 16 ≤ bmB.base ∧ bmB.base + 512 ≤ 98304
        ∧ ((mat0.at 0 2).1.toNat + mat0.bytesOf 2 ≤ bmB.sbase) ∧ lsNum (packSt v) 0 1024 2 = v)
    ∧ (zeroEl .bf16 0 = true ∧ zeroEl .bf16 1 = false)
    ∧ (∀ n, n < 2 → 
      opndOk (unpackSt n) 0 bmA = true ∧ opndOk (unpackSt n) 1 rowB = true ∧ bmA.fmt = rowB.fmt ∧ bmA.ext 0 = rowB.ext 0 ∧ bmA.ext 1 = rowB.ext 1 ∧ rowB.ext 1 = 1
        ∧ bmA.sbase + 16 ≤ 98304 ∧ bmA.base + 32 * 16 ≤ 98304 ∧ lsNum (unpackSt n) 0 bmA.sbase 8 = n ∧ lsNum (unpackSt n) 0 (bmA.sbase + 8) 8 = n ∧ rowB.base + rowB.bytesOf 2 ≤ bmA.base) :=
  ⟨by decide +kernel, by decide, by decide +kernel⟩

/-- An operand in memory, of the launch's space. -/
def farD (f : Fmt) (va n : Nat) : Desc := { dense f va [(n, 0)] with loc := false }
/-- Space 1 with page 2 under entry `w`; peer 1 is bound to port 17, which is up; ring 2 goes by ports 17 and 17. -/
def exchange (s : State) (w : Nat) : State :=
  let p := grouped (paged s w)
  { p with
    coh := { p.coh with tlb := (List.range 4).map (fun k => { die := 0, slice := k, asid := 1, level := 3, page := 2, pte := BitVec.ofNat 64 w }) }
    fab := { Fab.init with ports := [(17, { Port.init with up := true })], peers := [(1, { hash := 9, mask := 0x20000 })], rings := [(2, { p := 2, rank := 1, nextPort := 17, prevPort := 17 })] } }
/-- The job as its engine takes it up. -/
def begun (s : State) (x : Job) (c : TileCmd) (g : List Nat) : Job :=
  { x with cmd := c, st := .running, ranges := [], descs := [c.d0, c.d1, c.d2].map (fun d => s.descWords x.core (d.toNat * 128)), gang := g }
/-- A peer's page. -/
def peerLeaf : Nat := leaf0 60 - 0x200000 + 2 ^ 42 + 2 ^ 36
theorem witness_CopyPeer :
    let b := farD .n8 0x20004 60
    let a := dense .n8 1024 [(60, 0)]
    let s := exchange (tileSt a b vec0 []) peerLeaf
    let u := kickJobs (s.setJob 1 (begun s job1 cmd0 []))
    let t := u.translate 0 (sliceIdx b.base) (u.asidOf 0) b.base { r := false, w := true, hv := false }
    opndOk s 0 a = true ∧ a.fmt.width = 8 ∧ parseDesc (s.descWords 0 128) = some b ∧ b.loc = false ∧ a.ext 0 = b.ext 0 ∧ b.base % 64 + a.ext 0 ≤ 64
      ∧ (match t.2.2 with | .ok l => decide (regionOf (l.pa b.base) = .peer 1) | _ => false) = true ∧ t.1.peerUp 1 ≠ none ∧ t.1.peerDown 1 = false
      ∧ s.cur.job = 1 ∧ s.job 1 = some job1 := by decide +kernel

/-- Ring 2, rank 1 of 2, 64 elements. -/
def collCmd : TileCmd := { cmd0 with gid := 3, grp := true, arg := 0x00020102_00000040 }
def coll0 : Job := { job1 with op := 0x40 }
/-- One of the collectives with its operands at 0x20000, 0x20200 and 0x20300. -/
def collSt (k : Coll) : State :=
  let n0 := match k with | .ag => 32 | _ => 64
  let n1 := match k with | .rs => 32 | _ => 64
  exchange (tileX coll0 (farD .f32 0x20000 n0) (farD .f32 0x20200 n1) (farD .e8m0 0x20300 2) []) (leaf0 60)
def collOk (k : Coll) : Bool :=
  let s := collSt k
  let y := begun s coll0 collCmd []
  let u := kickJobs (s.setJob 1 y)
  let d0 := farD .f32 0x20000 (match k with | .ag => 32 | _ => 64)
  let d1 := if k = .scale then d0 else farD .f32 0x20200 (match k with | .rs => 32 | _ => 64)
  let d2 := farD .e8m0 0x20300 2
  decide (s.cur.job = 1 ∧ s.job 1 = some coll0 ∧ parseDesc (s.descWords 0 0) = some d0 ∧ parseDesc (s.descWords 0 (if k = .scale then 0 else 128)) = some d1)
    && decide (parseDesc (s.descWords 0 256) = some d2)
    && decide ((u.launchOf 0).bind (fun l => sfind l.groups collCmd.gid.toNat) = some { valid := true, root := 0, members := [0, 1] })
    && (ringArg u collCmd).any (fun r => decide (sfind s.fab.rings r.ring = some { p := 2, rank := 1, nextPort := 17, prevPort := 17 }) && decide (0 < r.nel)
      && decide (d0.ext 0 = (if k = .ag then r.nel / r.p else r.nel)) && decide (d1.ext 0 = (match k with | .rs => r.nel / r.p | _ => r.nel))
      && decide (d2.count = r.nel / 32)
      && (collBegin k r d0 d2
        { s := u, j := 1, x := { y with gang := [0, 1] }, halt := none, late := 0, far := 0, lines := 0, rd := none, wr := none, dry := false }).1.halt.isNone)
    && !s.peerDown (64 + 17) && s.fab.ringIn.isEmpty
theorem witness_Collectives : collOk .scale = true ∧ collOk .rs = true ∧ collOk .ag = true := by decide +kernel

/-! ### The machine as a whole -/

def nextOf : Out → Option State
  | .next t => some t
  | .fault _ | .refused _ => none
theorem nextOf_eq {o : Out} {t : State} (h : nextOf o = some t) : o = .next t := by
  cases o with
  | next u => exact congrArg _ (Option.some.inj h)
  | fault _ => cases h
  | refused _ => cases h
/-- The control thread's turn: its word at pc `a`, started. -/
def ctTurn (a : Nat) (w : Nat) : State :=
  let s := placeCt State.reset w
  { with0 s (fun k => { k with ct := { k.ct with pc := BitVec.ofNat 64 a } }) with todo := [.ct 0] }
def ctOf (a : Nat) : Ct := ((ctTurn a 0x13).core 0).ct
theorem witness_MemInvStep : MemInv (ctTurn 0 0x13) ∧ ∃ t, step (ctTurn 0 0x13) = .next t :=
  ⟨⟨by decide +kernel, by decide +kernel, fun i => by
      by_cases h : i = 0
      · subst h; decide +kernel
      · have e : (ctTurn 0 0x13).core i = Core.init := by
          simp [ctTurn, placeCt, placeLaunch, with0, State.modCore, State.setCore, State.core, State.reset, State.dark, sins, sfind, Ne.symm h]
        rw [e]; rfl, by decide +kernel⟩,
    (Option.isSome_iff_exists.1 (by decide +kernel : (nextOf (step (ctTurn 0 0x13))).isSome = true)).elim fun t h => ⟨t, nextOf_eq h⟩⟩

theorem witness_CtRuns :
    (∀ a, a ∈ [2, 124, 128] →
      (ctTurn a 0x13).powered = true ∧ (ctTurn a 0x13).todo = [.ct 0] ∧ (ctOf a).started = true ∧ (ctOf a).finished = false ∧ (ctOf a).halted = false
        ∧ (ctOf a).wait = .none ∧ (ctOf a).pc.toNat = a ∧ ((ctTurn a 0x13).core 0).xbound.toNat * 128 = 128 ∧ (ctTurn a 0x13).lsTraps 0 a 4 = false
        ∧ (ctTurn a 0x13).lsSnuffs 0 a 4 = false)
    ∧ (decodeCt (BitVec.ofNat 32 (lsNum (ctTurn 0 0x13) 0 0 4))).isSome = true
    ∧ (decodeCt (BitVec.ofNat 32 (lsNum (ctTurn 4 0x13) 0 4 4))).isSome = false := by decide +kernel
/-- A context's turn: bundle `w`; and its context. -/
def cxTurn (w : Nat) : State := placeBundle State.reset w
def cxAt (w : Nat) : Ctx := (cxTurn w).cx 0 0
/-- The context has issued. -/
def issuedIn (s : State) (w : Nat) : State :=
  let x := s.cx 0 0
  let u : State := { s with todo := [], cur := Cur.none }
  u.setCx 0 0 { x with
    st := .run, wait := .none, ir := BitVec.ofNat 64 w, irPc := x.pc, pc := x.pc + 8
    snap := { s := x.s, m := x.m, v := (s.core 0).vSeen 0 s.time, flags := x.flags, rmode := x.rmode, seed := x.seed }
    shownAt := s.time + 1, quash := false, vStill := false, xfer := none, seedSet := false, aRes := none, vRes := [], stRes := []
    inBlock := true, readyAt := s.time + 1, sWrote := 0 }
/-- Both slots run, the first to a next state in which `f` holds, the second to one in which `g` holds. -/
def runsIn (s : State) (w : Nat) (f g : State → Bool) : Bool :=
  match decodeBundle (BitVec.ofNat 64 w) with
  | none => false
  | some (a, v) =>
    modeOk 0 a && modeOk 0 v && !clash a v
    && match exec a (issuedIn s w) with
      | .next p => !(p.core 0).pair.on && f p
          && ((p.me.quash && !p.me.vStill) || match exec v p with
            | .next q => q.myCore.trigs.isEmpty && q.myCore.trace.isNone && !q.myCore.pair.on && g q
            | _ => false)
      | _ => false
def runsBoth (w : Nat) (f g : State → Bool) : Bool := runsIn (cxTurn w) w f g
def awaits (q : State) : Bool := match q.me.wait with | .reply _ => decide (q.me.st = .waitMem) | _ => false
def bundleOf (a v : Instr) : Nat := match encodeA a, encodeV v with | some (x, w), some u => (bundleWord false x w u).toNat | _, _ => 0
/-- None decodes; v16 in mode 0; ld.i32 at address −8; gld.n32 with vadd.f32; sub and no V-slot. -/
def bad0 : Nat := 0x3F00000000000000
def v16 : Nat := bundleOf (.sub 3 1 2) (.vfma .f32 { rnd := .rne, sat := false } { vd := 16, va := 1, vb := 2, m := 0 })
def trap0 : Nat := bundleOf (.ld .i32 5 2 0xFF8) .vnop
def gld0 : Nat := 0x181A500202229905
def sub0 : Nat := bundleOf (.sub 3 1 2) .vnop
def abort0 : Nat := bundleOf (.xabort 5) (.vfma .f32 { rnd := .rne, sat := false } { vd := 1, va := 1, vb := 2, m := 0 })
def words0 : List Nat := [bad0, v16, trap0, gld0, sub0]
/-- `xabort` in an open transaction, beside a V-slot operation. -/
def abortTurn : State := (cxTurn abort0).modCx 0 0 (fun x => { x with txn := some tx1 })
theorem witness_BundleRuns :
    (∀ w, w ∈ words0 →
      (cxTurn w).powered = true ∧ (cxTurn w).todo = [.cx 0 0] ∧ ((cxTurn w).core 0).mode = 0 ∧ (cxTurn w).time % 16 = 0 ∧ (cxAt w).readyAt ≤ (cxTurn w).time
        ∧ (cxAt w).st = .run ∧ (cxAt w).wait = .none ∧ (cxAt w).heldFaults = [] ∧ (cxAt w).reissue = false ∧ (cxAt w).copy = false
        ∧ (cxAt w).alone = false ∧ (cxAt w).bufOk = true ∧ (cxAt w).bufBad = [] ∧ ((cxTurn w).core 0).vBad = [] ∧ ((cxTurn w).core 0).trigs = []
        ∧ (cxAt w).sBad = [] ∧ (cxAt w).mBad = [] ∧ (cxTurn w).abortDue (.cx 0 0) = none ∧ ((cxTurn w).core 0).trace = none ∧ ((cxTurn w).core 0).pair.on = false ∧ (cxTurn w).reqs = [])
    ∧ decodeBundle 0x3F00000000000000 = none
    ∧ (decodeBundle (BitVec.ofNat 64 v16)).any (fun (e : Instr × Instr) => !(modeOk 0 e.1 && modeOk 0 e.2 && !clash e.1 e.2)) = true
    ∧ runsBoth trap0 (fun p => p.me.quash && !p.me.vStill) (fun _ => true) = true
    ∧ runsBoth gld0 (fun p => !p.me.quash && decide (p.cur = Cur.none)) (fun q => awaits q && decide (q.cur = Cur.none)) = true
    ∧ runsBoth sub0 (fun p => !p.me.quash && decide (p.cur = Cur.none)) (fun q => !awaits q && decide (q.cur = Cur.none)
        && !((finishBundle (q.modMe (fun x => { x with noTrig := false, wait := .none })) 0 0).core 0).pair.on) = true
    ∧ (abortTurn.todo = [.cx 0 0] ∧ abortTurn.abortDue (.cx 0 0) = none ∧ abortTurn.reqs = []
      ∧ runsIn abortTurn abort0 (fun p => p.me.vStill && decide (p.cur = Cur.none)) (fun q => decide (q.cur = Cur.none)) = true) := by decide +kernel

/-- A near-data instruction of a routine, and of a kernel. -/
def nearSt (i : Instr) : State := placeNear State.reset i ((encodeNear i).getD 0).toNat
theorem witness_NearRuns :
    (let s := nearSt (.nrdk 1 0);
      s.powered = true ∧ (s.todo = [.rt s.near.nextRun.pred] ∧ ((sfind s.near.runs s.near.nextRun.pred).any (fun (r : RRun) => !r.ended
        && (r.code[r.pc]?.any (fun w => (decodeNear w).isSome)))) = true))
    ∧ (let s := nearSt (.nfetch 1);
      s.todo = [.gu 0] ∧ ((s.core 0).gat.run.any (fun (r : GRun) => (((sfind (s.core 0).gat.kernels r.trig.slot).getD [])[r.pc]?).any
        (fun w => (decodeNear w).isSome))) = true) := by decide +kernel
theorem witness_CyclesRun :
    (State.dark.powered = false ∧ ∀ e, e ∈ State.dark.agenda → e.2 ≠ .powerGood)
    ∧ (let s := { onX [] with agenda := [(0, .powerWindowEnd 3)] };
      s.powered = true ∧ s.todo = [] ∧ s.obs.frozen = false ∧ s.time = 0 ∧ (evRow s (.powerWindowEnd 3)).isSome = true
        ∧ (nextOf (exec .powerWindowEnd { s with agenda := [], cur := evCur (.powerWindowEnd 3) })).any
          (fun (t : State) => t.cores.all (fun (n : Nat × Core) => !n.2.pair.on)) = true)
    ∧ (let s := { onCore { Core.init with ct := Ct.begin' 0 0 0, ctxs := [(0, cxOf [])] } with time := 15, agenda := [(16, .powerWindowEnd 3)] };
      (∀ d e rest, s.agenda = (d, e) :: rest → s.time < d)
        ∧ ((s.launchOf 0).any (fun (l : Launch) => l.st = LSt.running) = true ∧ (s.core 0).ct.started = true ∧ (s.core 0).ct.finished = false
          ∧ (s.core 0).ct.halted = false ∧ (s.core 0).ct.wait = .none ∧ (s.core 0).mode = 0 ∧ (s.time + 1) % 16 = 0)) := by
  refine ⟨⟨rfl, fun _ h => nomatch h⟩, by decide +kernel, fun d e rest h => ?_, by decide +kernel⟩
  cases h; decide
/-- At the greatest values their fields take. -/
theorem witness_DecodeEncode :
    (Instr.mtBcast 15 31 31 31).wf = true ∧ (encodeCustom (.mtBcast 15 31 31 31)).isSome = true
    ∧ (encodeRv (.rvIntegerOp (.opImm .addi 31 31 0xFFF))).isSome = true
    ∧ (Instr.lcall 14 15 13 255 2 2).wf = true ∧ (encodeA (.lcall 14 15 13 255 2 2)).isSome = true
    ∧ (Instr.vmxq .e2m1 { rnd := .sr, sat := false } { vd := 31, va := 30, vb := 30, m := 3 }).wf = true
    ∧ (encodeV (.vmxq .e2m1 { rnd := .sr, sat := false } { vd := 31, va := 30, vb := 30, m := 3 })).isSome = true
    ∧ (Instr.nret 15 15 2).wf = true ∧ (encodeNear (.nret 15 15 2)).isSome = true
    ∧ (Instr.accZero { cmd0 with d1 := 0, d2 := 0, acb := 7 }).wf = true ∧ (encodeTile (.accZero { cmd0 with d1 := 0, d2 := 0, acb := 7 })).isSome = true := by
  decide +kernel
theorem witness_ReservedWords :
    (decodeCustom 0x0673028B).isSome = true ∧ (decodeNear 0x80040001).isSome = true ∧ (decodeTile (BitVec.ofNat 256 fillWord)).isSome = true := by decide +kernel

/-! ### Ill-formed terms, one for each check of WellFormed -/

theorem test_wf_barrier_numbers : (Instr.barArriveA 48).wf = false ∧ (Instr.barWaitA 48).wf = false ∧ (Instr.barArriveA 47).wf = true := by decide
theorem test_wf_lcall :
    (Instr.lcall 0 1 14 0 2 1).wf = false ∧ (Instr.lcall 1 1 2 0 1 3).wf = false ∧ (Instr.lcall 15 1 2 0 1 2).wf = false ∧ (Instr.lcall 1 1 2 0 1 0).wf = false
    ∧ (Instr.lcall 0 1 14 0 1 0).wf = true := by decide
theorem test_wf_scalar : (Instr.xredOr .f32 1 2).wf = false ∧ (Instr.rdcsr 1 5).wf = false ∧ (Instr.wrcsr 3 1).wf = false := by decide
theorem test_wf_near :
    (Instr.nret 1 1 3).wf = false ∧ (Instr.nret 1 0 0).wf = false ∧ (Instr.nret 1 1 1).wf = false ∧ (Instr.nloop 1 0).wf = false ∧ (Instr.nbr 1 0).wf = false := by
  decide
/-- Rounding to nearest even, without and with SAT. -/
def rne (sat : Bool) : RM := { rnd := .rne, sat := sat }
def w3 : V3 := { vd := 1, va := 2, vb := 3, m := 0 }
def w2 : V2 := { vd := 1, va := 2, m := 0 }
theorem test_wf_vector_formats :
    (Instr.vaddF .e2m1 (rne false) w3).wf = false ∧ (Instr.vminF .e4m3 w3).wf = false ∧ (Instr.vabsF .i8 w2).wf = false ∧ (Instr.vfma .e5m2 (rne false) w3).wf = false
    ∧ (Instr.vsqrt .e4m3 (rne false) w2).wf = false ∧ (Instr.vcmpF .e4m3 .lt 1 1 2 0).wf = false ∧ (Instr.vaddI .i4 false w3).wf = false
    ∧ (Instr.vmulI .f32 w3).wf = false ∧ (Instr.vand .n4 w3).wf = false ∧ (Instr.vredsumF .e4m3 (rne false) w2).wf = false ∧ (Instr.vredminI .bf16 w2).wf = false
    ∧ (Instr.vmxq .f32 (rne false) w3).wf = false ∧ (Instr.vmxdq .bf16 { w3 with vd := 2 }).wf = false ∧ (Instr.vsll .e8m0 (.imm 1) w2).wf = false := by decide
theorem test_wf_vector_modifiers :
    (Instr.vaddF .f32 (rne true) w3).wf = false ∧ (Instr.vfms .bf16 (rne true) w3).wf = false ∧ (Instr.vexp2 .f16 (rne true) w2).wf = false
    ∧ (Instr.vredmaxF .f32 (rne true) w2).wf = false ∧ (Instr.vmxq .e2m1 (rne true) { w3 with va := 4 }).wf = false ∧ (Instr.vaddF .e4m3 (rne true) w3).wf = true
    ∧ (Instr.vabsI .n8 w2).wf = false ∧ (Instr.vnegI .n32 w2).wf = false ∧ (Instr.vcmpI .i8 .uno 1 1 2 0).wf = false ∧ (Instr.vcmpI .i8 .ord 1 1 2 0).wf = false := by
  decide
theorem test_wf_vector_operands :
    (Instr.vcmpF .f32 .lt 0 1 2 0).wf = false ∧ (Instr.vcmpI .i8 .lt 0 1 2 0).wf = false ∧ (Instr.vmand 0 1 2).wf = false ∧ (Instr.vmnot 0 1).wf = false
    ∧ (Instr.vsll .i8 (.imm 8) w2).wf = false ∧ (Instr.vsra .i16 (.imm 16) w2).wf = false ∧ (Instr.vsrl .i32 (.imm 31) w2).wf = true
    ∧ (Instr.vmxq .e4m3 (rne false) { vd := 1, va := 3, vb := 2, m := 0 }).wf = false ∧ (Instr.vmxq .e4m3 (rne false) { vd := 1, va := 2, vb := 1, m := 0 }).wf = false
    ∧ (Instr.vmxdq .e4m3 { vd := 9, va := 2, vb := 1, m := 0 }).wf = false := by decide
/-- A command with no descriptors. -/
def noFields : TileCmd := { cmd0 with d1 := 0, d2 := 0 }
theorem test_wf_tile_unused :
    (Instr.accZero { noFields with d0 := 1 }).wf = false ∧ (Instr.fill { noFields with d1 := 1 }).wf = false ∧ (Instr.copy { noFields with d2 := 1 }).wf = false
    ∧ (Instr.copy { noFields with acn := 1 }).wf = false ∧ (Instr.mma { noFields with swz := 1 }).wf = false ∧ (Instr.fill { noFields with grp := true }).wf = false
    ∧ (Instr.accZero { noFields with cf := 1 }).wf = false ∧ (Instr.mma { noFields with arg := 1 }).wf = false ∧ (Instr.mma noFields).wf = true := by decide
theorem test_wf_tile_values :
    (Instr.copy { noFields with swz := 3 }).wf = false ∧ (Instr.mma { noFields with acb := 7, acn := 1 }).wf = false ∧ (Instr.mma { noFields with gid := 1 }).wf = false
    ∧ (Instr.mma { noFields with fpv := true, fp0 := 0x0000010000000000 }).wf = false
    ∧ (Instr.mma { noFields with fpv := true, fp1 := 0x800002FFFFFFFFFF }).wf = false := by decide

/-! ### Words of the spec, as it prints them -/

/-- From "Plebry" (05), a bundle with both slots (06), lcall (17), streaming stores (14), ga.add and the transaction (19, 20), the task pop (22). -/
theorem test_decode_bundles :
    decodeBundle 0x181A500202229905 = some (.gld .n32 false none 3 4 2, .vaddF .f32 { rnd := .dyn, sat := false } { vd := 2, va := 5, vb := 6, m := 1 })
    ∧ decodeBundle 0x0253000100000000 = some (.addi 5 3 1, .vnop)
    ∧ decodeBundle 0x8000000006710805 = some (.nop, .vmulF .f32 { rnd := .dyn, sat := false } { vd := 7, va := 2, vb := 2, m := 0 }) ∧ bundleS 0x8000000006710805 = true
    ∧ decodeBundle 0x591A20FF80110013 = some (.gst .b32 true none 3 4 0xFF, .vcvt .e4m3 .f32 (rne true) { vd := 1, va := 2, m := 0 })
    ∧ decodeBundle 0x9D23407100000000 = some (.lcall 2 3 4 7 0 1, .vnop) ∧ bundleS 0x9D23407100000000 = true
    ∧ decodeBundle 0x1B090C0000000000 = some (.gvstNt false 1 2 0, .vnop)
    ∧ decodeBundle 0x991A3A0000000000 = some (.gst .b64 false (some .sy) 3 4 0, .vnop)
    ∧ decodeBundle 0x1C6460B000000000 = some (.gaAdd true (.acq .sy) 6 4 6, .vnop)
    ∧ decodeBundle 0x1C23498000000000 = some (.gaCas true .plain 2 3 4, .vnop) := by decide +kernel
theorem test_decode_control :
    decodeBundle 0x2000000100000000 = some (.xbegin 1, .vnop) ∧ decodeBundle 0x2406920000000000 = some (.xredAdd .n64 6 9, .vnop)
    ∧ decodeBundle 0x0F00000200000000 = some (.bfetch 2, .vnop) ∧ decodeBundle 0x0CA0000200000000 = some (.beq 10 0 2, .vnop)
    ∧ decodeBundle 0xA100000000000000 = some (.xend, .vnop) ∧ bundleS 0xA100000000000000 = true
    ∧ decodeBundle 0x3170000000000000 = some (.taskTrypopA 7, .vnop) ∧ decodeBundle 0x114C379000000000 = some (.st .b64 9 8 0x790, .vnop)
    ∧ decodeBundle 0x1054678000000000 = some (.ld .d64 10 8 0x780, .vnop) ∧ decodeBundle 0x1A0A800098238000 = some (.gvld false none 1 5 0, .vbcast .w32 2 7 0) := by
  decide +kernel
/-- R176's example. -/
theorem test_decode_quantise :
    decodeBundle 0x00000000828124A0 = some (.nop, .vmxq .e2m1 (rne false) { vd := 8, va := 2, vb := 9, m := 0 })
    ∧ decodeBundle 0x0000000084A424A0 = some (.nop, .vmxdq .e2m1 { vd := 10, va := 8, vb := 9, m := 0 }) := by decide +kernel
/-- The words of the control thread in 06, 16, 22 and 26. -/
theorem test_decode_control_thread :
    decodeCt 0x0673028B = some (.mtBcast 3 5 6 7) ∧ decodeCt 0x0002832B = some (.tcPush 6 5) ∧ decodeCt 0x0603042B = some (.jobWait 8 6)
    ∧ decodeCt 0x000A23DB = some (.ctSleep 7 20) ∧ decodeCt 0x0402A32B = some (.mbxTryrecv 6 5) ∧ decodeCt 0x0CB6138B = some (.mtWrreg 7 12 11)
    ∧ decodeCt 0x040033DB = some (.fenceSy 7) := by decide +kernel
/-- The routines of 06, 17 and 18. -/
theorem test_decode_near :
    decodeNear 0x60400007 = some (.nrdw 1 7) ∧ decodeNear 0x24C43FFB = some (.naddi 3 1 0x3FFB) ∧ decodeNear 0x640C0007 = some (.nwrw 7 3)
    ∧ decodeNear 0x80040001 = some (.nret 1 0 1) ∧ decodeNear 0x40C48000 = some (.nfadd 3 1 2) ∧ decodeNear 0x50C84004 = some (.ncmp .ltu 3 2 1)
    ∧ decodeNear 0x68800000 = some (.nrdk 2 0) ∧ decodeNear 0x55084000 = some (.nsel 4 2 1) := by decide +kernel
/-- Table 6.1. -/
theorem test_decode_tile :
    decodeTile (0x20A0000401100000#64 ++ 0#64 ++ 0x8000100000401000#64 ++ 0x4000100000400000#64)
      = some (.copy
        { ev := true, grp := false, fpv := true, cf := 0, gid := 0, d0 := 16, d1 := 17, d2 := 0, acb := 0, acn := 0, swz := 0, arg := 0
          fp1 := 0x8000100000401000, fp0 := 0x4000100000400000 }) := by decide +kernel

/-! ### One step -/

/-- R176 by hand, Table 11.5: f32 15.0, −3.1, 0.7 and 0.2 in v2, then the codes in v8, the scale in v9 and FLAGS (R96). -/
def quant0 : State :=
  let s := onS []
  with0 s (fun k => { k with v := [(2, 0x3E4CCCCD3F333333C046666641700000)], ctxs := [(0, { cxOf [] with snap := { (cxOf []).snap with v := [(2, 0x3E4CCCCD3F333333C046666641700000)] } })] })
theorem test_vmxq :
    (nextOf (exec (.vmxq .e2m1 (rne false) { vd := 8, va := 2, vb := 9, m := 0 }) quant0)).any (fun (t : State) =>
      decide (t.phys 0 8 = 0x01B7) && decide (t.phys 0 9 = 0x80) && decide (t.me.flags.toNat = fSAT ||| fUF ||| fNX)) = true := by decide +kernel
/-- The step after it: 12.0, −3.0 and 1.0. -/
def quant1 : State :=
  let r : List (Nat × Line) := [(8, 0x01B7), (9, 0x80)]
  with0 (onS []) (fun k => { k with v := r, ctxs := [(0, { cxOf [] with snap := { (cxOf []).snap with v := r } })] })
theorem test_vmxdq :
    (nextOf (exec (.vmxdq .e2m1 { vd := 10, va := 8, vb := 9, m := 0 }) quant1)).any (fun (t : State) =>
      decide (t.phys 0 10 = 0x3F800000C040000041400000) && decide (t.phys 0 11 = 0) && decide (t.me.flags = 0)) = true := by decide +kernel
/-- Table 8.4: three stochastic steps from SRSEED 1; R175's layout of the narrower results. -/
def cvt0 : State :=
  let r : List (Nat × Line) := [(4, BitVec.allOnes 512), (5, 0x3F8020003F80C0003F808000)]
  with0 (onS []) (fun k => { k with v := r, ctxs := [(0, { cxOf [] with m := [(1, 7)], seed := 1, snap := { (cxOf []).snap with v := r, m := [(1, 7)], seed := 1 } })] })
theorem test_vcvt :
    (nextOf (exec (.vcvt .bf16 .f32 { rnd := .sr, sat := false } { vd := 4, va := 5, m := 1 }) cvt0)).any (fun (t : State) =>
      decide (t.phys 0 4 = BitVec.ofNat 512 (2 ^ 256 - 2 ^ 48 + 0x3F803F813F81)) && decide (t.me.seed = 0x9DCCA8C5) && decide (t.me.flags.toNat = fNX)) = true := by
  decide +kernel
/-- R107: the sign of a 32-bit result. -/
theorem test_rv_addw :
    (nextOf (exec (.rvIntegerOp (.aluW .addw 3 1 2)) (onX [(1, 0x7FFFFFFF), (2, 1)]))).any (fun (t : State) => decide (t.xr 3 = 0xFFFFFFFF80000000)) = true := by
  decide +kernel

/-! ### Codes and ciphers (R317, R356) -/

/-- The first block of the published vector of IEEE 1619 for XTS with 256-bit keys and data unit 0xFF. -/
theorem test_xts_vector :
    (xts 0x2718281828459045235360287471352662497757247093699959574966967627
      0x3141592653589793238462643383279502884197169399375105820974944592 0xFF ((List.range 16).map (BitVec.ofNat 8))).map (·.toNat)
      = valBlock 16 0x1c3b3a102f770386e4836c99e370cf9b := by decide +kernel
/-- Three symbols in error are within the guarantee of the code with eight check symbols (Table 23.1). -/
theorem test_line_code :
    rsDecode 8 3 72 (syndromes 8 [(5, 17), (70, 3), (0, 1)]) = some [(0, 1), (5, 17), (70, 3)] := by decide +kernel

end Sys2Proof.Tests
end

/-!
SUPPORT. Scalar operations of a context that end by writing one s register (R64, R139, R140, R154, R156), and the opcodes of their
words (R69, R70).
-/
namespace Sys2Proof
open Machine

/-! ### The A-slot result -/

/-- An instruction whose meaning is to write `v` to sd gives sd any word equal to `v`. -/
theorem givesS_of_exec {i : Instr} {s : State} {d : SReg} {v w : Word} (h : exec i s = aRes s d v) (e : v = w) :
    GivesS s (exec i s) d w := by
  rw [h, ← e]; exact givesS_setS s d v

/-! ### Arithmetic on words -/

/-- Bits 127 to 64 of an integer in two's complement are its quotient by 2^64, rounded down. -/
theorem highHalf_ofInt (z : Int) : (BitVec.ofInt 128 z).extractLsb' 64 64 = BitVec.ofInt 64 (z / (2 ^ 64 : Nat)) := by
  apply BitVec.eq_of_toNat_eq
  simp only [BitVec.extractLsb'_toNat, BitVec.toNat_ofInt, Nat.shiftRight_eq_div_pow]
  omega

/-- Bits 127 to 64 of a natural number are its quotient by 2^64. -/
theorem highHalf_ofNat (n : Nat) : (BitVec.ofNat 128 n).extractLsb' 64 64 = BitVec.ofNat 64 (n / 2 ^ 64) := by
  apply BitVec.eq_of_toNat_eq
  simp only [BitVec.extractLsb'_toNat, BitVec.toNat_ofNat, Nat.shiftRight_eq_div_pow]
  omega

/-- The high half of a signed product (Table 9.5). -/
theorem rvAlu_mulh (x y : Word) : rvAlu .mulh x y = (x.signExtend 128 * y.signExtend 128).extractLsb' 64 64 := by
  have hp : x.signExtend 128 * y.signExtend 128 = BitVec.ofInt 128 (x.toInt * y.toInt) := (BitVec.ofInt_mul _ _).symm
  rw [hp, highHalf_ofInt]; rfl

/-- The high half of an unsigned product (Table 9.5). -/
theorem rvAlu_mulhu (x y : Word) : rvAlu .mulhu x y = (x.zeroExtend 128 * y.zeroExtend 128).extractLsb' 64 64 := by
  have hp : x.zeroExtend 128 * y.zeroExtend 128 = BitVec.ofNat 128 (x.toNat * y.toNat) := by
    rw [BitVec.ofNat_mul, BitVec.ofNat_toNat, BitVec.ofNat_toNat]
  rw [hp, highHalf_ofNat]; rfl

/-- A shift amount of six bits is the one a register form takes of its zero extension. -/
theorem toNat_zx_mod (k : BitVec 6) : (zx k).toNat % 64 = k.toNat := by
  have hk := k.isLt
  simp only [zx, BitVec.zeroExtend_eq_setWidth, BitVec.toNat_setWidth]
  omega

/-- Twelve zero bits below a field of 20 are its shift within 32 bits. -/
theorem append_zero_eq_shiftLeft (u : BitVec 20) : u ++ 0#12 = BitVec.zeroExtend 32 u <<< 12 := by
  have hu := u.isLt
  apply BitVec.eq_of_toNat_eq
  simp only [BitVec.toNat_append, BitVec.toNat_shiftLeft, BitVec.zeroExtend_eq_setWidth, BitVec.toNat_setWidth, BitVec.toNat_ofNat,
    Nat.zero_mod, Nat.or_zero, Nat.shiftLeft_eq]
  omega

/-- The signed reading of the low bits of a number is that of the bit vector they make. -/
theorem toSigned_eq_toInt (w x : Nat) : toSigned w x = (BitVec.ofNat w x).toInt := by
  have hc : x % 2 ^ w < 2 ^ (w - 1) ↔ 2 * (x % 2 ^ w) < 2 ^ w := by
    cases w with
    | zero => simp [Nat.mod_one]
    | succ w => rw [Nat.add_sub_cancel, Nat.pow_succ]; omega
  simp only [toSigned, BitVec.toInt_eq_toNat_cond, BitVec.toNat_ofNat, hc]

theorem sext64_eq_signExtend (w x : Nat) : sext64 w x = (BitVec.ofNat w x).signExtend 64 := by
  rw [sext64, toSigned_eq_toInt]; rfl

/-- The element `vext` takes, extended as its type says (R154). -/
theorem vextVal_elem (ty : VxTy) (x e : Nat) : vextVal ty (elem (VxTy.bits ty) x e) = pickedValue ty x e := by
  have zero_extended : ∀ w, w ≤ 64 → BitVec.ofNat 64 (elem w x e) = (BitVec.ofNat w (elem w x e)).zeroExtend 64 :=
    fun w hw => (BitVec.setWidth_ofNat_of_le_of_lt hw (elem_lt w x e)).symm
  cases ty with
  | i8 => exact sext64_eq_signExtend 8 _
  | i16 => exact sext64_eq_signExtend 16 _
  | i32 => exact sext64_eq_signExtend 32 _
  | n8 => exact zero_extended 8 (by decide)
  | n16 => exact zero_extended 16 (by decide)
  | n32 => exact zero_extended 32 (by decide)
  | d64 => rfl

/-! ### Opcodes (R69) -/

/-- The opcode of a word of format AI (R70): each step drops the lowest field. -/
theorem opcode_pAI (op : BitVec 6) (d a : SReg) (i : BitVec 16) : (pAI op d a i).extractLsb' 24 6 = op :=
  calc (pAI op d a i).extractLsb' 24 6
    _ = (op ++ d ++ a).extractLsb' 8 6 := BitVec.extractLsb'_append_eq_of_le (xlo := i) (by decide)
    _ = (op ++ d).extractLsb' 4 6 := BitVec.extractLsb'_append_eq_of_le (xlo := a) (by decide)
    _ = op := BitVec.extractLsb'_append_eq_left

/-- An instruction of format AI has the opcode of its word. -/
theorem opA_of_pAI {i : Instr} {op : BitVec 6} {d a : SReg} {imm : BitVec 16} {n : Nat}
    (h : encodeA i = some (false, pAI op d a imm)) (hn : op.toNat = n) : Clause.opA i = some n := by
  rw [Clause.opA, h, Option.map_some, opcode_pAI, hn]

theorem opA_lui (d : SReg) (u : BitVec 20) : Clause.opA (.lui d u) = some 9 := by
  have h : (9#6 ++ d ++ u).extractLsb' 24 6 = 9#6 :=
    calc (9#6 ++ d ++ u).extractLsb' 24 6
      _ = (9#6 ++ d).extractLsb' 4 6 := BitVec.extractLsb'_append_eq_of_le (xlo := u) (by decide)
      _ = 9#6 := BitVec.extractLsb'_append_eq_left
  exact congrArg (fun op : BitVec 6 => some op.toNat) h

theorem opA_vext (ty : VxTy) (d : SReg) (va : VReg) (idx : BitVec 8) : Clause.opA (.vext ty d va idx) = some 0x34 := by
  have h : (0x34#6 ++ d ++ va ++ BitVec.ofNat 3 ty.code ++ idx ++ 0#4).extractLsb' 24 6 = 0x34#6 :=
    calc (0x34#6 ++ d ++ va ++ BitVec.ofNat 3 ty.code ++ idx ++ 0#4).extractLsb' 24 6
      _ = (0x34#6 ++ d ++ va ++ BitVec.ofNat 3 ty.code ++ idx).extractLsb' 20 6 :=
        BitVec.extractLsb'_append_eq_of_le (xlo := 0#4) (by decide)
      _ = (0x34#6 ++ d ++ va ++ BitVec.ofNat 3 ty.code).extractLsb' 12 6 := BitVec.extractLsb'_append_eq_of_le (xlo := idx) (by decide)
      _ = (0x34#6 ++ d ++ va).extractLsb' 9 6 := BitVec.extractLsb'_append_eq_of_le (xlo := BitVec.ofNat 3 ty.code) (by decide)
      _ = (0x34#6 ++ d).extractLsb' 4 6 := BitVec.extractLsb'_append_eq_of_le (xlo := va) (by decide)
      _ = 0x34#6 := BitVec.extractLsb'_append_eq_left
  exact congrArg (fun op : BitVec 6 => some op.toNat) h

/-! ### The statements -/

/-- Table 9.5: only the two high products need more than the equation of `rvAlu`. -/
theorem scalarRegister : Clause.ScalarRegister := by
  intro s d a b
  refine ⟨?add, ?sub, ?and, ?or, ?xor, ?sll, ?srl, ?sra, ?mul, ?mulh, ?mulhu, ?min, ?max, ?minu, ?maxu, ?slt, ?sltu⟩
  case mulh => exact givesS_of_exec rfl (rvAlu_mulh _ _)
  case mulhu => exact givesS_of_exec rfl (rvAlu_mulhu _ _)
  all_goals exact givesS_of_exec rfl rfl

/-- R140: a form with a 16-bit immediate is its register form on `sx`; shift amounts and `lui` need a word equation each. -/
theorem scalarImmediate : Clause.ScalarImmediate := by
  intro s d a i k u
  refine ⟨?addi, ?andi, ?ori, ?xori, ?slti, ?sltiu, ?slli, ?srli, ?srai, ?lui,
    opA_of_pAI rfl rfl, opA_of_pAI rfl rfl, opA_of_pAI rfl rfl, opA_of_pAI rfl rfl, opA_of_pAI rfl rfl, opA_of_pAI rfl rfl,
    opA_of_pAI rfl rfl, opA_of_pAI rfl rfl, opA_of_pAI rfl rfl, opA_lui d u⟩
  case slli => exact givesS_of_exec rfl (congrArg (s.aS a <<< ·) (toNat_zx_mod k))
  case srli => exact givesS_of_exec rfl (congrArg (s.aS a >>> ·) (toNat_zx_mod k))
  case srai => exact givesS_of_exec rfl (congrArg (s.aS a).sshiftRight (toNat_zx_mod k))
  case lui => exact givesS_of_exec rfl (congrArg (BitVec.signExtend 64) (append_zero_eq_shiftLeft u))
  all_goals exact givesS_of_exec rfl rfl

/-- Settles O1: each operation is one word of `rvAlu` or `sx` in sd, with the shift amounts, high products and `lui` brought to the
form of the statement, and each opcode is the top field of the word. -/
theorem scalarComputes : Obligations.ScalarComputes := ⟨scalarRegister, scalarImmediate⟩

/-- Settles O6: each read is one word in sd, `vext` by the extension of its element, and the empty slots end in the state they found. -/
theorem scalarReads : Obligations.ScalarReads := by
  intro s d va idx ty n
  refine ⟨?vext, opA_vext ty d va idx, ?rdtime, fun _ => ?rdcsr, rfl, rfl⟩
  case vext => exact givesS_of_exec rfl (vextVal_elem ty _ _)
  case rdtime => exact givesS_of_exec rfl rfl
  case rdcsr => exact givesS_of_exec rfl rfl

end Sys2Proof

/-!
SUPPORT. V-slot integer operations element by element (R168–R172), and the opcodes of V-slot words (R73).
-/
namespace Sys2Proof
open Machine

/-! ### Element-wise results -/

/-- An element-wise result may be given by any function with the same low bits and the same flags at every element. -/
theorem VEach.congr {s : State} {o : Out} {w : Nat} {m : MReg} {vd : VReg} {steps : Nat → Bool} {f g : Nat → Nat → Res}
    (hf : VEach s o w m vd steps f) (hcode : ∀ e r, (f e r).code % 2 ^ w = (g e r).code % 2 ^ w) (hfl : ∀ e r, (f e r).fl = (g e r).fl) :
    VEach s o w m vd steps g := by
  simpa only [VEach, hcode, hfl] using hf

/-- An instruction that is an integer operation on va and vb, the result of which at element `e` is `g e`, takes no rounding step. -/
theorem vEach_of_int2 {i : Instr} {s : State} {f : Fmt} {v : V3} {op : Nat → Nat → Res} {g : Nat → Res}
    (hi : exec i s = vInt2 s f v op) (h : ∀ e, op (s.ce f v.va e) (s.ce f v.vb e) = g e) :
    VEach s (exec i s) f.width v.m v.vd (fun _ => false) (fun e _ => g e) := by
  rw [hi]
  have hop := vMap_each s f.width false (fun _ => false) v.m v.vd (fun e _ => op (s.ce f v.va e) (s.ce f v.vb e))
  exact hop.congr (fun e _ => by rw [h]) (fun e _ => by rw [h])

/-- An instruction that is an integer operation on va and vb which raises no flag. -/
theorem vPlain_of_int2 {i : Instr} {s : State} {f : Fmt} {v : V3} {op : Nat → Nat → Nat} {g : Nat → Nat}
    (hi : exec i s = vInt2 s f v (fun a b => ⟨op a b, 0⟩)) (h : ∀ e, op (s.ce f v.va e) (s.ce f v.vb e) = g e) :
    VPlain s (exec i s) f.width v.m v.vd g :=
  vEach_of_int2 hi fun e => congrArg (Res.mk · 0) (h e)

/-- An instruction whose result is a function of the two codes and their values, which `val` gives. -/
theorem vPlain_of_values {i : Instr} {s : State} {f : Fmt} {v : V3} {val : Nat → Int} (F : Nat → Nat → Int → Int → Nat)
    (hval : ∀ r e, intVal f (s.ce f r e) = val (s.ce f r e))
    (hi : exec i s = vInt2 s f v (fun a b => ⟨F a b (intVal f a) (intVal f b), 0⟩)) :
    VPlain s (exec i s) f.width v.m v.vd (fun e =>
      F (s.ce f v.va e) (s.ce f v.vb e) (val (s.ce f v.va e)) (val (s.ce f v.vb e))) :=
  vPlain_of_int2 hi fun e => congr (congrArg (F (s.ce f v.va e) (s.ce f v.vb e)) (hval v.va e)) (hval v.vb e)

/-- An instruction that is an integer operation on va, which raises no flag and takes no rounding step. -/
theorem vPlain_of_int1 {i : Instr} {s : State} {f : Fmt} {u : V2} {op : Nat → Nat} {g : Nat → Nat}
    (hi : exec i s = vInt1 s f u op) (h : ∀ e, op (s.ce f u.va e) = g e) :
    VPlain s (exec i s) f.width u.m u.vd g := by
  rw [hi]
  have hop := vMap_each s f.width false (fun _ => false) u.m u.vd (fun e _ => ⟨op (s.ce f u.va e), 0⟩)
  exact hop.congr (fun e _ => by rw [h]) (fun _ _ => rfl)

/-- The amount by which a shift moves element `e` (R172). -/
def shiftBy (s : State) (f : Fmt) (k : ShAmt) (e : Nat) : Nat :=
  match k with
  | .reg b => s.ce f b e
  | .imm n => n.toNat

/-- A shift whose result at element `e` has the low bits of `g e`. -/
theorem vPlain_of_shift {i : Instr} {s : State} {f : Fmt} {k : ShAmt} {u : V2} {kind : Nat} {n g : Nat → Nat}
    (hi : exec i s = vShift s f k u kind) (hn : ∀ e, shiftBy s f k e = n e)
    (h : ∀ e, shiftEl kind f.width (s.ce f u.va e) (n e) % 2 ^ f.width = g e % 2 ^ f.width) :
    VPlain s (exec i s) f.width u.m u.vd g := by
  rw [hi]
  refine (vMap_each s f.width false (fun _ => false) u.m u.vd _).congr (fun e _ => ?_) (fun _ _ => rfl)
  have he := h e
  rw [← hn] at he
  cases k <;> exact he

/-! ### Values of codes (R91) -/

/-- A code below 2^w is its own two's-complement value unless its top bit is set. -/
theorem toSigned_of_lt {w x : Nat} (h : x < 2 ^ w) :
    toSigned w x = if 2 ^ (w - 1) ≤ x then (x : Int) - ((2 ^ w : Nat) : Int) else (x : Int) := by
  simp only [toSigned, Nat.mod_eq_of_lt h, ← Nat.not_le, ite_not]

/-- The value of a code of an integer format. -/
theorem intVal_of_lt {f : Fmt} {x : Nat} (h : x < 2 ^ f.width) :
    intVal f x = if f.isSigned ∧ 2 ^ (f.width - 1) ≤ x then (x : Int) - ((2 ^ f.width : Nat) : Int) else (x : Int) := by
  cases hs : f.isSigned <;> simp [intVal, hs, toSigned_of_lt h, Nat.mod_eq_of_lt h]

theorem intAddSub_sat (f : Fmt) (minus : Bool) (a b : Nat) :
    intAddSub f minus true a b =
      let v := if minus then intVal f a - intVal f b else intVal f a + intVal f b
      if v < intLo f then ⟨intCode f (intLo f), 16⟩ else if intHi f < v then ⟨intCode f (intHi f), 16⟩ else ⟨intCode f v, 0⟩ := by
  simp only [intAddSub, fSAT, Bool.true_and, decide_eq_true_eq, gt_iff_lt]

/-- AND NOT within `w` bits. -/
theorem xor_and_eq_and_compl {w a b : Nat} (ha : a < 2 ^ w) (hb : b < 2 ^ w) : a ^^^ (a &&& b) = a &&& (2 ^ w - 1 - b) := by
  apply Nat.eq_of_testBit_eq
  intro i
  rw [show 2 ^ w - 1 - b = 2 ^ w - (b + 1) by omega]
  simp only [Nat.testBit_xor, Nat.testBit_and, Nat.testBit_two_pow_sub_succ hb]
  by_cases hi : i < w
  · cases a.testBit i <;> cases b.testBit i <;> simp [hi]
  · have hai : a.testBit i = false := Nat.testBit_lt_two_pow (Nat.lt_of_lt_of_le ha (Nat.pow_le_pow_right (by decide) (by omega)))
    simp [hai]

/-! ### Shifts (R172) -/

theorem shiftEl_left (w a n : Nat) : shiftEl 0 w a n % 2 ^ w = (if w ≤ n then 0 else a * 2 ^ n) % 2 ^ w := by
  simp only [shiftEl, Nat.shiftLeft_eq, ge_iff_le]
  split <;> simp

theorem shiftEl_right {w a : Nat} (n : Nat) (h : a < 2 ^ w) : shiftEl 1 w a n = a / 2 ^ n := by
  simp only [shiftEl, Nat.mod_eq_of_lt h, Nat.shiftRight_eq_div_pow, ge_iff_le]
  split
  · next hn => exact (Nat.div_eq_of_lt (Nat.lt_of_lt_of_le h (Nat.pow_le_pow_right (by decide) hn))).symm
  · rfl

/-- A quotient by a power of two beyond the value is 0 or −1. -/
theorem ediv_two_pow_min {v : Int} {w : Nat} (n : Nat) (hlo : -((2 ^ w : Nat) : Int) ≤ v) (hhi : v < ((2 ^ w : Nat) : Int)) :
    v / ((2 ^ min n w : Nat) : Int) = v / ((2 ^ n : Nat) : Int) := by
  rcases Nat.le_total n w with hn | hn
  · rw [Nat.min_eq_left hn]
  · rw [Nat.min_eq_right hn]
    have hp : 2 ^ w ≤ 2 ^ n := Nat.pow_le_pow_right (by decide) hn
    have hw := Nat.two_pow_pos w
    rcases Int.lt_or_le v 0 with hv | hv
    · rw [Int.ediv_eq_neg_one_of_neg_of_le hv (by omega), Int.ediv_eq_neg_one_of_neg_of_le hv (by omega)]
    · rw [Int.ediv_eq_zero_of_lt hv hhi, Int.ediv_eq_zero_of_lt hv (by omega)]

theorem shiftEl_arith {w a : Nat} (n : Nat) (h : a < 2 ^ w) :
    shiftEl 2 w a n = ofSigned w
      ((if 2 ^ (w - 1) ≤ a then (a : Int) - ((2 ^ w : Nat) : Int) else (a : Int)) / ((2 ^ n : Nat) : Int)) := by
  simp only [shiftEl]
  rw [ediv_two_pow_min, toSigned_of_lt h]
  all_goals rw [toSigned_of_lt h]; split <;> omega

/-! ### Opcodes (R73) -/

/-- The opcode of a V-slot word: each step drops the lowest field. -/
theorem opcode_pV (op : BitVec 7) (vd va vb : VReg) (m : MReg) (fmt : BitVec 3) (fn : BitVec 5) :
    (pV op vd va vb m fmt fn).extractLsb' 25 7 = op :=
  calc (pV op vd va vb m fmt fn).extractLsb' 25 7
    _ = (op ++ vd ++ va ++ vb ++ m ++ fmt).extractLsb' 20 7 := BitVec.extractLsb'_append_eq_of_le (xlo := fn) (by decide)
    _ = (op ++ vd ++ va ++ vb ++ m).extractLsb' 17 7 := BitVec.extractLsb'_append_eq_of_le (xlo := fmt) (by decide)
    _ = (op ++ vd ++ va ++ vb).extractLsb' 15 7 := BitVec.extractLsb'_append_eq_of_le (xlo := m) (by decide)
    _ = (op ++ vd ++ va).extractLsb' 10 7 := BitVec.extractLsb'_append_eq_of_le (xlo := vb) (by decide)
    _ = (op ++ vd).extractLsb' 5 7 := BitVec.extractLsb'_append_eq_of_le (xlo := va) (by decide)
    _ = op := BitVec.extractLsb'_append_eq_left

/-- A V-slot instruction has the opcode its word is made with. -/
theorem opV_of_pV {i : Instr} {op : BitVec 7} {vd va vb : VReg} {m : MReg} {fmt : BitVec 3} {fn : BitVec 5} {n : Nat}
    (h : encodeV i = some (pV op vd va vb m fmt fn)) (hn : op.toNat = n) : Clause.opV i = some n := by
  rw [Clause.opV, h, Option.map_some, opcode_pV, hn]

/-! ### The statements -/

/-- R168–R171: on element codes `intVal` is the value of the statement, and each operation is that of the model on it. -/
theorem vectorInteger : Clause.VectorInteger := by
  intro s f v u _ w a b c wrap lo hi val sat
  have hval : ∀ r e, intVal f (s.ce f r e) = val (s.ce f r e) := fun r e => intVal_of_lt (elem_lt _ _ _)
  have hsat : ∀ minus e, intAddSub f minus true (s.ce f v.va e) (s.ce f v.vb e)
      = sat (if minus then val (a e) - val (b e) else val (a e) + val (b e)) := fun minus e => by
    rw [intAddSub_sat, hval, hval]; rfl
  refine ⟨?add, ?sub, vEach_of_int2 rfl (hsat false), vEach_of_int2 rfl (hsat true), ?mul, ?mulh, ?min, ?max, ?abs, ?neg,
    ?and, ?or, ?xor, ?andn, opV_of_pV rfl rfl, opV_of_pV rfl rfl, opV_of_pV rfl rfl, opV_of_pV rfl rfl⟩
  case add => exact vPlain_of_values (fun _ _ x y => intCode f (x + y)) hval rfl
  case sub => exact vPlain_of_values (fun _ _ x y => intCode f (x - y)) hval rfl
  case mul => exact vPlain_of_values (fun _ _ x y => intCode f (x * y)) hval rfl
  case mulh => exact vPlain_of_values (fun _ _ x y => intCode f (x * y / ((2 ^ w : Nat) : Int))) hval rfl
  case min => exact vPlain_of_values (fun a b x y => if x ≤ y then a else b) hval rfl
  case max => exact vPlain_of_values (fun a b x y => if x ≤ y then b else a) hval rfl
  case abs =>
    refine vPlain_of_int1 (op := fun x => intCode f (intVal f x).natAbs) rfl fun e => congrArg (intCode f) ?_
    rw [hval]
    show ((val (c e)).natAbs : Int) = if val (c e) < 0 then -val (c e) else val (c e)
    split <;> omega
  case neg =>
    exact vPlain_of_int1 (op := fun x => intCode f (-(intVal f x))) rfl fun e => congrArg (fun x => intCode f (-x)) (hval u.va e)
  case and => exact vPlain_of_int2 (op := fun x y => x &&& y) rfl fun _ => rfl
  case or => exact vPlain_of_int2 (op := fun x y => x ||| y) rfl fun _ => rfl
  case xor => exact vPlain_of_int2 (op := fun x y => x ^^^ y) rfl fun _ => rfl
  case andn =>
    exact vPlain_of_int2 (op := fun x y => x ^^^ (x &&& y)) rfl fun e => xor_and_eq_and_compl (elem_lt _ _ _) (elem_lt _ _ _)

/-- R172: each shift of an element is a product or a quotient by a power of two. -/
theorem vectorShift : Clause.VectorShift := by
  intro s f k u w a n sgn
  have hn : ∀ e, shiftBy s f k e = n e := fun e => by cases k <;> rfl
  have ha : ∀ e, s.ce f u.va e < 2 ^ f.width := fun e => elem_lt _ _ _
  refine ⟨vPlain_of_shift rfl hn fun e => ?sll, vPlain_of_shift rfl hn fun e => ?srl, vPlain_of_shift rfl hn fun e => ?sra⟩
  case sll => exact shiftEl_left w (a e) (n e)
  case srl => exact congrArg (· % 2 ^ w) (shiftEl_right (n e) (ha e))
  case sra => exact congrArg (· % 2 ^ w) (shiftEl_arith (n e) (ha e))

/-- Settles O20: the element-wise operations on integer values, and the shifts, are those of the statement element by element. -/
theorem vectorIntegers : Obligations.VectorIntegers := ⟨vectorInteger, vectorShift⟩

end Sys2Proof

/-!
SUPPORT. `vget` reads the vector file of the snapshot that the bundle's issue took (R35, R49, R183), which a statement about the file as it
stands misses in a bundle that has waited.
-/
namespace Sys2Proof
open Machine

theorem modeG_pos (mode : BitVec 2) : 0 < modeG mode := by
  unfold modeG
  split
  · decide
  · split <;> decide

/-- What one instruction writes to a register group is the same in every account of it, up to the first 512 bits. -/
theorem GivesV.low_line_unique {s : State} {o : Out} {vd : VReg} {x y : Nat} {fx fy : Word} {sx sy : BitVec 32}
    (hx : GivesV s o vd x fx sx) (hy : GivesV s o vd y fy sy) : BitVec.ofNat 512 x = BitVec.ofNat 512 y := by
  obtain ⟨t, rfl, -, -, hphys, -⟩ := hx
  obtain ⟨_, ⟨⟩, -, -, hphys', -⟩ := hy
  have hb : ∀ b, b ≤ b ∧ b < b + modeG s.myCore.mode := fun b => ⟨Nat.le_refl b, Nat.lt_add_of_pos_right (modeG_pos _)⟩
  have h := (hphys (physBase s.myCore.mode s.cur.ctx vd.toNat)).symm.trans (hphys' _)
  simpa [hb] using h

/-- `vget` gives the group as the snapshot of its bundle holds it (R182, R183). -/
theorem vget_gives_snapshot (s : State) (vd va : VReg) (c : BitVec 4) :
    GivesV s (exec (.vget vd va c) s) vd (groupOf s.me.snap.v s.myCore.mode c.toNat va.toNat) s.me.flags s.me.seed :=
  givesV_setV s vd _

/-- Context 0 of core 0 waits for an element of queue 1 with a bundle that issued while every vector register was 0, and context 1 has
since written 1 to its v0. -/
def waitingSinceWrite : State :=
  State.reset.setCore 0 { Core.init with
    v := [(16, 1)]
    ctxs := [(0, { Ctx.init 0 0 with st := .waitQ, wait := .queue 1 }), (1, { Ctx.init 0 1 with st := .run })] }

/-- That context takes its bundle up again, as `issueBundle` has it: the operands stay those of the first issue (R35). -/
def takenUpAgain : State :=
  let s := waitingSinceWrite
  s.modMe (fun x => x.issue x.ir x.irPc (s.myCore.vSeen s.cur.ctx s.time) (modeG s.myCore.mode) s.time)

/-- Refutes O22: in a bundle that has waited, `vget` gives the 0 that context 1's v0 held when the bundle issued (R49, R183), where the last
clause of the statement gives the 1 that stands in the file. -/
theorem not_vectorMoves : ¬ Obligations.VectorMoves := by
  unfold Obligations.VectorMoves
  intro h
  obtain ⟨-, -, -, -, -, -, -, hget⟩ := h takenUpAgain .w32 ⟨1, 0, 0, 0⟩ ⟨0, 0, 0⟩ 0 0 1
  have heq := hget.low_line_unique (vget_gives_snapshot takenUpAgain 1 0 1)
  exact absurd heq (by decide +kernel)

end Sys2Proof
